-- ==== Sys2Proof/Word.lean ====
section
/-! DEFINITION. The word types of the Qorit KQ-9480 (R2, R39): bytes, 32-bit units, 64-bit words. -/
namespace Sys2Proof

/-- A byte of memory (R2). -/
abbrev Byte := BitVec 8
/-- A 32-bit unit, or a 32-bit register (R39, R69). -/
abbrev Word := BitVec 32
/-- A 64-bit base word, address or register pair (R44, R48). -/
abbrev DWord := BitVec 64

end Sys2Proof
end

