-- ==== Sys2Proof/Machine/Cause.lean ====
section
/-! DEFINITION. The trap causes of R408 and their codes. -/
namespace Sys2Proof

/-- The causes a trap can have (R408). -/
inductive Cause where
  | illop | illreg | illplace | illsink | rstack | badtarget | page | prot | unpub | stacklim | align | dataerr | nocopy | copybounds
  | qfault | handle | fpe | bartimeout | budget | swtrap | brk
  deriving DecidableEq, Repr

/-- TRAPCAUSE of a cause (R408). -/
def Cause.code : Cause → BitVec 8
  | .illop => 0x01 | .illreg => 0x02 | .illplace => 0x03 | .illsink => 0x04 | .rstack => 0x05 | .badtarget => 0x06 | .page => 0x08
  | .prot => 0x09 | .unpub => 0x0A | .stacklim => 0x0B | .align => 0x0C | .dataerr => 0x0D | .nocopy => 0x10 | .copybounds => 0x11
  | .qfault => 0x12 | .handle => 0x13 | .fpe => 0x18 | .bartimeout => 0x20 | .budget => 0x21 | .swtrap => 0x30 | .brk => 0x31

/-- A fault before its delivery: its cause, TRAPAUX and TRAPADDR (R65, R243). -/
structure Bad where
  cause : Cause
  aux : Word
  addr : DWord := 0
  deriving DecidableEq, Repr

end Sys2Proof
end

