-- ==== Sys2Proof/Machine/Bits.lean ====
section
/-! DEFINITION. Bit-field, extension and list helpers (R2, R4). -/
namespace Sys2Proof

/-- Bits [hi:lo] of a natural number (R2). -/
def fld (x hi lo : Nat) : Nat := (x >>> lo) % 2 ^ (hi + 1 - lo)

/-- The n-bit value x read as a signed number (R4). -/
def sgn (n x : Nat) : Int := if x % 2 ^ n < 2 ^ (n - 1) then (x % 2 ^ n : Nat) else (x % 2 ^ n : Nat) - (2 ^ n : Nat)

/-- The low n bits of an integer, as a natural number (R4: an assignment keeps the low bits). -/
def wrapN (n : Nat) (x : Int) : Nat := (x % (2 ^ n : Nat)).toNat

/-- sext(x, n), kept in m bits (R4). -/
def sextN (n m x : Nat) : Nat := wrapN m (sgn n x)

/-- Clamp an integer to a range. -/
def clampI (lo hi x : Int) : Int := if x < lo then lo else if hi < x then hi else x

/-- Number of one bits among the low n bits (R114). -/
def popN : Nat → Nat → Nat
  | 0, _ => 0
  | n + 1, x => x % 2 + popN n (x / 2)

/-- The low n bits in reverse order (R114, R206). -/
def revN : Nat → Nat → Nat
  | 0, _ => 0
  | n + 1, x => x % 2 * 2 ^ n + revN n (x / 2)

/-- Parity of the low n bits (R206). -/
def parN (n x : Nat) : Nat := popN n x % 2

/-- x rounded up to a multiple of k. -/
def roundUp (x k : Nat) : Nat := (x + k - 1) / k * k

/-- The numbers from lo, n of them, ascending. -/
def rangeFrom (lo n : Nat) : List Nat := (List.range n).map (lo + ·)

/-- The number whose little-endian bytes are those given (R2). -/
def ofBytes : List Byte → Nat
  | [] => 0
  | b :: bs => b.toNat + 256 * ofBytes bs

/-- The n little-endian bytes of x (R2). -/
def toBytes : Nat → Nat → List Byte
  | 0, _ => []
  | n + 1, x => BitVec.ofNat 8 x :: toBytes n (x / 256)

/-- The mask with a bit set for each number of a list. -/
def maskOf (w : Nat) (l : List Nat) : BitVec w := l.foldl (fun m i => m ||| (1#w <<< i)) 0#w

/-- Bit i of a natural number. -/
def tb (x i : Nat) : Bool := x.testBit i

/-- The least element of a list of numbers, or d when it is empty. -/
def minD (d : Nat) (l : List Nat) : Nat := l.foldl (fun m x => if x < m then x else m) (l.headD d)

/-- Replace the element at index i. -/
def setAt {α : Type} : List α → Nat → α → List α
  | [], _, _ => []
  | _ :: xs, 0, y => y :: xs
  | x :: xs, i + 1, y => x :: setAt xs i y

/-- Change the element at index i. -/
def modAt {α : Type} (l : List α) (i : Nat) (f : α → α) : List α :=
  match l[i]? with
  | some x => setAt l i (f x)
  | none => l

/-- Remove repeats, keeping first occurrences. -/
def dedup : List Nat → List Nat
  | [] => []
  | x :: xs => x :: (dedup xs).filter (· != x)

/-- Insertion into an ascending list, keeping repeats. -/
def insAsc (x : Nat) : List Nat → List Nat
  | [] => [x]
  | y :: ys => if x ≤ y then x :: y :: ys else y :: insAsc x ys

/-- A list sorted ascending. -/
def sortAsc : List Nat → List Nat
  | [] => []
  | x :: xs => insAsc x (sortAsc xs)

/-- Lexicographic order of two keys; where one begins the other, the shorter comes first. -/
def lexLt (p q : List Nat) : Bool :=
  (p.zip q).foldr (fun e rest => decide (e.1 < e.2) || (e.1 == e.2 && rest)) (decide (p.length < q.length))

/-- The first element whose key is least in lexicographic order. -/
def leastBy {α : Type} (key : α → List Nat) : List α → Option α
  | [] => none
  | x :: xs =>
    match leastBy key xs with
    | none => some x
    | some y => if lexLt (key y) (key x) then some y else some x

end Sys2Proof
end

