-- ==== Sys2Proof/Syntax.lean ====
section
/-! DEFINITION. The instructions and machine steps of the KQ-9480 as data: operands (R46), the second word's
fields (R235, R287, R326), the opcodes (R61), and `Instr`, one constructor per row of the opcode table. -/
namespace Sys2Proof

/-- The major opcodes (R61). -/
inductive Opc where
  | nop | br | brc | bru | brx | call | callx | ret | regang | exit | refill | yield | rcv | iadd | isub
  | imul | imulh | imad | imadw | idiv | iabs | ineg | imin | imax | isad | iaddc | isubb | iadds | isubs
  | and | or | xor | lop3 | shl | shr | rot | funl | bfx | bfi | popc | clz | brev | sel | mov | movi | icmp
  | iset | plop | p2s | s2p | lea | iadd64 | imul64 | i2i | fadd | fsub | fmul | ffma | fmin | fmax | fcmp
  | fset | fclass | fscale | frnd | fdot2 | fdot4 | fsign | fmed3 | fdiv | fsqrt | cvt | f2i | i2f | pack
  | unpack | bscale | rcp | rsq | exp2 | log2 | sin | cos | tanh | shfl | bcast | vote | ballot | reduce
  | scan | matchKeys | compact | agemask | ld | st | ldl | stl | ldp | stp | ldc | atom | atomnr | cas
  | fatom | fatomnr | atoml | fence | publish | pref | tierpf | flush | sink | sret | sld | sst | cpy | cpyb
  | cpyo | cpyg | seal | waitb | mma | mmaz | mdrain | mfill | qtest | mself | fwait | ftest | fcancel | fmov
  | frel | binit | barv | bwait | bexp | barw | bread | pmread | cntrd | cntcfg | dbarv | dbwait | tspawn
  | tarm | tdec | tdone | tyield | launch | fmtset | fmtget | sysrd | syswr | trap | rte | ctxsave | ctxload
  | clk | exmset | exmget | brk | tlbinv | pair
  deriving DecidableEq, Repr

/-- The code of an opcode (R61). -/
def Opc.code : Opc → Nat
  | .nop => 0x00
  | .br => 0x01
  | .brc => 0x02
  | .bru => 0x03
  | .brx => 0x04
  | .call => 0x05
  | .callx => 0x06
  | .ret => 0x07
  | .regang => 0x08
  | .exit => 0x09
  | .refill => 0x0A
  | .yield => 0x0B
  | .rcv => 0x0C
  | .iadd => 0x10
  | .isub => 0x11
  | .imul => 0x12
  | .imulh => 0x13
  | .imad => 0x14
  | .imadw => 0x15
  | .idiv => 0x16
  | .iabs => 0x17
  | .ineg => 0x18
  | .imin => 0x19
  | .imax => 0x1A
  | .isad => 0x1B
  | .iaddc => 0x1C
  | .isubb => 0x1D
  | .iadds => 0x1E
  | .isubs => 0x1F
  | .and => 0x20
  | .or => 0x21
  | .xor => 0x22
  | .lop3 => 0x23
  | .shl => 0x24
  | .shr => 0x25
  | .rot => 0x26
  | .funl => 0x27
  | .bfx => 0x28
  | .bfi => 0x29
  | .popc => 0x2A
  | .clz => 0x2B
  | .brev => 0x2C
  | .sel => 0x2D
  | .mov => 0x2E
  | .movi => 0x2F
  | .icmp => 0x30
  | .iset => 0x31
  | .plop => 0x32
  | .p2s => 0x33
  | .s2p => 0x34
  | .lea => 0x35
  | .iadd64 => 0x36
  | .imul64 => 0x37
  | .i2i => 0x38
  | .fadd => 0x40
  | .fsub => 0x41
  | .fmul => 0x42
  | .ffma => 0x43
  | .fmin => 0x44
  | .fmax => 0x45
  | .fcmp => 0x46
  | .fset => 0x47
  | .fclass => 0x48
  | .fscale => 0x49
  | .frnd => 0x4A
  | .fdot2 => 0x4B
  | .fdot4 => 0x4C
  | .fsign => 0x4D
  | .fmed3 => 0x4E
  | .fdiv => 0x4F
  | .fsqrt => 0x50
  | .cvt => 0x60
  | .f2i => 0x61
  | .i2f => 0x62
  | .pack => 0x63
  | .unpack => 0x64
  | .bscale => 0x65
  | .rcp => 0x66
  | .rsq => 0x67
  | .exp2 => 0x68
  | .log2 => 0x69
  | .sin => 0x6A
  | .cos => 0x6B
  | .tanh => 0x6C
  | .shfl => 0x70
  | .bcast => 0x71
  | .vote => 0x72
  | .ballot => 0x73
  | .reduce => 0x74
  | .scan => 0x75
  | .matchKeys => 0x76
  | .compact => 0x77
  | .agemask => 0x78
  | .ld => 0x80
  | .st => 0x81
  | .ldl => 0x82
  | .stl => 0x83
  | .ldp => 0x84
  | .stp => 0x85
  | .ldc => 0x86
  | .atom => 0x87
  | .atomnr => 0x88
  | .cas => 0x89
  | .fatom => 0x8A
  | .fatomnr => 0x8B
  | .atoml => 0x8C
  | .fence => 0x8D
  | .publish => 0x8E
  | .pref => 0x8F
  | .tierpf => 0x90
  | .flush => 0x91
  | .sink => 0xA0
  | .sret => 0xA1
  | .sld => 0xA2
  | .sst => 0xA3
  | .cpy => 0xA8
  | .cpyb => 0xA9
  | .cpyo => 0xAA
  | .cpyg => 0xAB
  | .seal => 0xAC
  | .waitb => 0xAD
  | .mma => 0xB0
  | .mmaz => 0xB1
  | .mdrain => 0xB2
  | .mfill => 0xB3
  | .qtest => 0xB4
  | .mself => 0xB5
  | .fwait => 0xC0
  | .ftest => 0xC1
  | .fcancel => 0xC2
  | .fmov => 0xC3
  | .frel => 0xC4
  | .binit => 0xC8
  | .barv => 0xC9
  | .bwait => 0xCA
  | .bexp => 0xCB
  | .barw => 0xCC
  | .bread => 0xCD
  | .pmread => 0xCE
  | .cntrd => 0xCF
  | .cntcfg => 0xD0
  | .dbarv => 0xD1
  | .dbwait => 0xD2
  | .tspawn => 0xD8
  | .tarm => 0xD9
  | .tdec => 0xDA
  | .tdone => 0xDB
  | .tyield => 0xDC
  | .launch => 0xDD
  | .fmtset => 0xE0
  | .fmtget => 0xE1
  | .sysrd => 0xE2
  | .syswr => 0xE3
  | .trap => 0xE4
  | .rte => 0xE5
  | .ctxsave => 0xE6
  | .ctxload => 0xE7
  | .clk => 0xE8
  | .exmset => 0xE9
  | .exmget => 0xEA
  | .brk => 0xEB
  | .tlbinv => 0xEC
  | .pair => 0xF0

/-- The opcode that a code names; none for the unassigned codes of R62. -/
def Opc.ofCode : Nat → Option Opc
  | 0x00 => some .nop
  | 0x01 => some .br
  | 0x02 => some .brc
  | 0x03 => some .bru
  | 0x04 => some .brx
  | 0x05 => some .call
  | 0x06 => some .callx
  | 0x07 => some .ret
  | 0x08 => some .regang
  | 0x09 => some .exit
  | 0x0A => some .refill
  | 0x0B => some .yield
  | 0x0C => some .rcv
  | 0x10 => some .iadd
  | 0x11 => some .isub
  | 0x12 => some .imul
  | 0x13 => some .imulh
  | 0x14 => some .imad
  | 0x15 => some .imadw
  | 0x16 => some .idiv
  | 0x17 => some .iabs
  | 0x18 => some .ineg
  | 0x19 => some .imin
  | 0x1A => some .imax
  | 0x1B => some .isad
  | 0x1C => some .iaddc
  | 0x1D => some .isubb
  | 0x1E => some .iadds
  | 0x1F => some .isubs
  | 0x20 => some .and
  | 0x21 => some .or
  | 0x22 => some .xor
  | 0x23 => some .lop3
  | 0x24 => some .shl
  | 0x25 => some .shr
  | 0x26 => some .rot
  | 0x27 => some .funl
  | 0x28 => some .bfx
  | 0x29 => some .bfi
  | 0x2A => some .popc
  | 0x2B => some .clz
  | 0x2C => some .brev
  | 0x2D => some .sel
  | 0x2E => some .mov
  | 0x2F => some .movi
  | 0x30 => some .icmp
  | 0x31 => some .iset
  | 0x32 => some .plop
  | 0x33 => some .p2s
  | 0x34 => some .s2p
  | 0x35 => some .lea
  | 0x36 => some .iadd64
  | 0x37 => some .imul64
  | 0x38 => some .i2i
  | 0x40 => some .fadd
  | 0x41 => some .fsub
  | 0x42 => some .fmul
  | 0x43 => some .ffma
  | 0x44 => some .fmin
  | 0x45 => some .fmax
  | 0x46 => some .fcmp
  | 0x47 => some .fset
  | 0x48 => some .fclass
  | 0x49 => some .fscale
  | 0x4A => some .frnd
  | 0x4B => some .fdot2
  | 0x4C => some .fdot4
  | 0x4D => some .fsign
  | 0x4E => some .fmed3
  | 0x4F => some .fdiv
  | 0x50 => some .fsqrt
  | 0x60 => some .cvt
  | 0x61 => some .f2i
  | 0x62 => some .i2f
  | 0x63 => some .pack
  | 0x64 => some .unpack
  | 0x65 => some .bscale
  | 0x66 => some .rcp
  | 0x67 => some .rsq
  | 0x68 => some .exp2
  | 0x69 => some .log2
  | 0x6A => some .sin
  | 0x6B => some .cos
  | 0x6C => some .tanh
  | 0x70 => some .shfl
  | 0x71 => some .bcast
  | 0x72 => some .vote
  | 0x73 => some .ballot
  | 0x74 => some .reduce
  | 0x75 => some .scan
  | 0x76 => some .matchKeys
  | 0x77 => some .compact
  | 0x78 => some .agemask
  | 0x80 => some .ld
  | 0x81 => some .st
  | 0x82 => some .ldl
  | 0x83 => some .stl
  | 0x84 => some .ldp
  | 0x85 => some .stp
  | 0x86 => some .ldc
  | 0x87 => some .atom
  | 0x88 => some .atomnr
  | 0x89 => some .cas
  | 0x8A => some .fatom
  | 0x8B => some .fatomnr
  | 0x8C => some .atoml
  | 0x8D => some .fence
  | 0x8E => some .publish
  | 0x8F => some .pref
  | 0x90 => some .tierpf
  | 0x91 => some .flush
  | 0xA0 => some .sink
  | 0xA1 => some .sret
  | 0xA2 => some .sld
  | 0xA3 => some .sst
  | 0xA8 => some .cpy
  | 0xA9 => some .cpyb
  | 0xAA => some .cpyo
  | 0xAB => some .cpyg
  | 0xAC => some .seal
  | 0xAD => some .waitb
  | 0xB0 => some .mma
  | 0xB1 => some .mmaz
  | 0xB2 => some .mdrain
  | 0xB3 => some .mfill
  | 0xB4 => some .qtest
  | 0xB5 => some .mself
  | 0xC0 => some .fwait
  | 0xC1 => some .ftest
  | 0xC2 => some .fcancel
  | 0xC3 => some .fmov
  | 0xC4 => some .frel
  | 0xC8 => some .binit
  | 0xC9 => some .barv
  | 0xCA => some .bwait
  | 0xCB => some .bexp
  | 0xCC => some .barw
  | 0xCD => some .bread
  | 0xCE => some .pmread
  | 0xCF => some .cntrd
  | 0xD0 => some .cntcfg
  | 0xD1 => some .dbarv
  | 0xD2 => some .dbwait
  | 0xD8 => some .tspawn
  | 0xD9 => some .tarm
  | 0xDA => some .tdec
  | 0xDB => some .tdone
  | 0xDC => some .tyield
  | 0xDD => some .launch
  | 0xE0 => some .fmtset
  | 0xE1 => some .fmtget
  | 0xE2 => some .sysrd
  | 0xE3 => some .syswr
  | 0xE4 => some .trap
  | 0xE5 => some .rte
  | 0xE6 => some .ctxsave
  | 0xE7 => some .ctxload
  | 0xE8 => some .clk
  | 0xE9 => some .exmset
  | 0xEA => some .exmget
  | 0xEB => some .brk
  | 0xEC => some .tlbinv
  | 0xF0 => some .pair
  | _ => none

/-- An operand as decoded: a space of R46 and the field's value, under the kind its opcode gives it (R47, R51). -/
inductive Opnd where
  /-- not used: field and space are zero (R47) -/
  | none
  /-- vector register, space 00 -/
  | v (r : BitVec 8)
  /-- scalar register, space 01 -/
  | s (r : BitVec 8)
  /-- queue register, space 10: a push as D, a pop as a source -/
  | q (r : BitVec 8)
  /-- signed 8-bit immediate, space 11 -/
  | imm (i : BitVec 8)
  /-- predicate -/
  | p (r : BitVec 8)
  /-- handle -/
  | h (r : BitVec 8)
  /-- barrier register -/
  | bar (r : BitVec 8)
  /-- accumulator (R325) -/
  | acc (r : BitVec 8)
  /-- queue number named by QTEST (R311) -/
  | qn (r : BitVec 8)
  /-- 32-bit long immediate of B (R51) -/
  | l32 (w : Word)
  /-- 64-bit long immediate of B (R52) -/
  | l64 (w : DWord)
  deriving DecidableEq, Repr

/-- The memory word of R235. -/
structure MemWord where
  aop   : BitVec 4
  scope : BitVec 3
  ord   : BitVec 3
  hint  : BitVec 2
  scale : BitVec 2
  ixp   : BitVec 1
  sub   : BitVec 1
  ofs   : BitVec 16
  deriving DecidableEq, Repr

/-- The copy descriptor of R287. -/
structure CopyDesc where
  hv : BitVec 1
  hn : BitVec 4
  rot : BitVec 3
  dst : BitVec 4
  zero : BitVec 4
  dpitch : BitVec 16
  rows : BitVec 16
  rowb : BitVec 16
  deriving DecidableEq, Repr

/-- The matrix descriptor of R326. -/
structure MatDesc where
  asrc : BitVec 2
  aidx : BitVec 2
  bidx : BitVec 2
  arot : BitVec 2
  bofs : BitVec 9
  bsofs : BitVec 9
  atp : BitVec 14
  arp : BitVec 12
  acol : BitVec 7
  hv : BitVec 1
  hn : BitVec 4
  deriving DecidableEq, Repr

/-- What the second word of an instruction holds, apart from a long immediate of B (R51, R52). -/
inductive Ext where
  | none
  | mem (m : MemWord)
  /-- a branch offset in units (R363) -/
  | rel (off : Word)
  /-- a system-register index and the bits above it (R81) -/
  | sys (idx : BitVec 12) (hi : BitVec 20)
  | copy (c : CopyDesc)
  | mat (m : MatDesc)
  deriving DecidableEq, Repr

/-- The fields of one instruction as decoded from its base word (R44) and its second word. `len` is LEN; `fn` is FN, or LA on
a long-latency opcode. -/
structure Op where
  len : BitVec 2
  pg  : BitVec 3 := 0
  pn  : BitVec 1 := 0
  fn  : BitVec 4 := 0
  ty  : BitVec 6 := 0
  d   : Opnd := .none
  a   : Opnd := .none
  b   : Opnd := .none
  c   : Opnd := .none
  ext : Ext := .none
  deriving DecidableEq, Repr

/-- The agents of R455. -/
inductive Agent where
  | core (c : Nat)
  | host
  | peer (p : Nat)
  deriving DecidableEq, Repr

/-- Whose access reaches memory from outside: the host its own memory, or the host or a fabric peer device memory (R234, R452). -/
inductive Outside where
  | own
  | host
  | peer (p : Nat)
  deriving DecidableEq, Repr

/-- A physical address that an outside agent names. -/
structure OutsideAt where
  who : Outside
  addr : Nat
  deriving DecidableEq, Repr

/-- The units of R454, and an accumulator of the matrix engine, whose store can have an uncorrectable error (R335). -/
inductive UnitKind where
  | granule | subarray | link | core | accumulator
  deriving DecidableEq, Repr

/-- What the residue check of a matrix operation finds (R337). -/
inductive Residue where
  /-- the check holds -/
  | ok
  /-- the check fails and the test pattern passes -/
  | transient
  /-- the check fails and the test pattern fails -/
  | lasting
  deriving DecidableEq, Repr

/-- The instructions (rows 1 to 173 of the opcode table) and the machine's other steps (the rows after them). A group of the
device is named by its key, core × 64 + slot (R11); a split by its lowest slice (SPLITID, R366). The arguments of a step that the
outside world or an engine takes say what arrives. -/
inductive Instr where
  | nop (o : Op)
  | br (o : Op)
  | brc (o : Op)
  | bru (o : Op)
  | brx (o : Op)
  | call (o : Op)
  | callx (o : Op)
  | ret (o : Op)
  | regang (o : Op)
  | exit (o : Op)
  | refill (o : Op)
  | yield (o : Op)
  | rcv (o : Op)
  | iadd (o : Op)
  | isub (o : Op)
  | imul (o : Op)
  | imulh (o : Op)
  | imad (o : Op)
  | imadw (o : Op)
  | idiv (o : Op)
  | iabs (o : Op)
  | ineg (o : Op)
  | imin (o : Op)
  | imax (o : Op)
  | isad (o : Op)
  | iaddc (o : Op)
  | isubb (o : Op)
  | iadds (o : Op)
  | isubs (o : Op)
  | and (o : Op)
  | or (o : Op)
  | xor (o : Op)
  | lop3 (o : Op)
  | shl (o : Op)
  | shr (o : Op)
  | rot (o : Op)
  | funl (o : Op)
  | bfx (o : Op)
  | bfi (o : Op)
  | popc (o : Op)
  | clz (o : Op)
  | brev (o : Op)
  | sel (o : Op)
  | mov (o : Op)
  | movi (o : Op)
  | icmp (o : Op)
  | iset (o : Op)
  | plop (o : Op)
  | p2s (o : Op)
  | s2p (o : Op)
  | lea (o : Op)
  | iadd64 (o : Op)
  | imul64 (o : Op)
  | i2i (o : Op)
  | fadd (o : Op)
  | fsub (o : Op)
  | fmul (o : Op)
  | ffma (o : Op)
  | fmin (o : Op)
  | fmax (o : Op)
  | fcmp (o : Op)
  | fset (o : Op)
  | fclass (o : Op)
  | fscale (o : Op)
  | frnd (o : Op)
  | fdot2 (o : Op)
  | fdot4 (o : Op)
  | fsign (o : Op)
  | fmed3 (o : Op)
  | fdiv (o : Op)
  | fsqrt (o : Op)
  | cvt (o : Op)
  | f2i (o : Op)
  | i2f (o : Op)
  | pack (o : Op)
  | unpack (o : Op)
  | bscale (o : Op)
  | rcp (o : Op)
  | rsq (o : Op)
  | exp2 (o : Op)
  | log2 (o : Op)
  | sin (o : Op)
  | cos (o : Op)
  | tanh (o : Op)
  | shfl (o : Op)
  | bcast (o : Op)
  | vote (o : Op)
  | ballot (o : Op)
  | reduce (o : Op)
  | scan (o : Op)
  | matchKeys (o : Op)
  | compact (o : Op)
  | agemask (o : Op)
  | ld (o : Op)
  | st (o : Op)
  | ldl (o : Op)
  | stl (o : Op)
  | ldp (o : Op)
  | stp (o : Op)
  | ldc (o : Op)
  | atom (o : Op)
  | atomnr (o : Op)
  | cas (o : Op)
  | fatom (o : Op)
  | fatomnr (o : Op)
  | atoml (o : Op)
  | fence (o : Op)
  | publish (o : Op)
  | pref (o : Op)
  | tierpf (o : Op)
  | flush (o : Op)
  | sink (o : Op)
  | sret (o : Op)
  | sld (o : Op)
  | sst (o : Op)
  | cpy (o : Op)
  | cpyb (o : Op)
  | cpyo (o : Op)
  | cpyg (o : Op)
  | seal (o : Op)
  | waitb (o : Op)
  | mma (o : Op)
  | mmaz (o : Op)
  | mdrain (o : Op)
  | mfill (o : Op)
  | qtest (o : Op)
  | mselfStat (o : Op)
  | mselfRun (o : Op)
  | mselfInj (o : Op)
  | fwait (o : Op)
  | ftest (o : Op)
  | fcancel (o : Op)
  | fmov (o : Op)
  | frel (o : Op)
  | binit (o : Op)
  | barv (o : Op)
  | bwait (o : Op)
  | bexp (o : Op)
  | barw (o : Op)
  | bread (o : Op)
  | pmread (o : Op)
  | cntrd (o : Op)
  | cntcfg (o : Op)
  | cntcfgClear (o : Op)
  | dbarv (o : Op)
  | dbwait (o : Op)
  | tspawn (o : Op)
  | tarm (o : Op)
  | tdec (o : Op)
  | tdone (o : Op)
  | tyield (o : Op)
  | launch (o : Op)
  | fmtset (o : Op)
  | fmtget (o : Op)
  | sysrd (o : Op)
  | syswr (o : Op)
  | carveWrite (o : Op)
  | throttleWrite (o : Op)
  | carvelimWrite (o : Op)
  | ctxidWrite (o : Op)
  | trap (o : Op)
  | rte (o : Op)
  | ctxsave (o : Op)
  | ctxload (o : Op)
  | clk (o : Op)
  | exmset (o : Op)
  | exmget (o : Op)
  | brk (o : Op)
  | tlbinvVa (o : Op)
  | tlbinvRange (o : Op)
  | tlbinvCtx (o : Op)
  | tlbinvId (o : Op)
  /-- PAIR: the X opcode and operation, the Y opcode and operation (R57) -/
  | pair (xo : Opc) (x : Op) (yo : Opc) (y : Op)
  /-- a split reaches an unassigned opcode (R62) -/
  | unassignedOpcode (opc : BitVec 8)
  /-- a split reaches a pad run (R41) -/
  | pad
  /-- the issuing split fetches the block at its program counter (R231) -/
  | instructionFetch
  /-- R342 -/
  | launchRecordAccept (part : Nat)
  /-- a peer's record arrives over the fabric (R453) -/
  | fabricLaunchForward (part : Nat) (seq : BitVec 56) (record : List Byte)
  /-- R13, R16 -/
  | workgroupAdmission (part die : Nat)
  /-- R475 -/
  | startBlockRead (key : Nat)
  /-- R31 -/
  | workgroupRetirement (wg : Nat)
  /-- R32 -/
  | workgroupRestart (wg : Nat)
  /-- R347 -/
  | launchCompletion (launch : Nat)
  /-- R354 -/
  | taskSeed (launch : Nat)
  /-- R355 -/
  | taskDispatch (part die : Nat)
  /-- R356 -/
  | budget (key : Nat)
  /-- R425 -/
  | bartimeout (key split : Nat)
  /-- the gathering at an address times out (R378) -/
  | gatherTimeout (key : Nat) (pc : BitVec 50)
  /-- R430 -/
  | tileClaim (launch die : Nat)
  /-- one lane's group runs at its level (R271) -/
  | sinkGroupExecution (key split : Nat) (lane : Nat)
  /-- one lane's group returns (R273) -/
  | sinkGroupReturn (key split : Nat) (lane : Nat)
  /-- the flush of the private page that translates va under the core's context (R305) -/
  | flushAndReclassify (core : Nat) (va : DWord)
  /-- the home recalls a line (R197, R303) -/
  | recallLine (line : Nat)
  /-- R388, R392 -/
  | translationWalk (core : Nat) (va : DWord) (claim : Bool)
  /-- R296 -/
  | copyArrival (id : Nat)
  /-- R261 -/
  | tierpfCompletion (id : Nat)
  /-- R309 -/
  | gather (key : Nat) (lane : Nat)
  /-- the operation runs on sub-array sub (R327, R337) -/
  | matrixOperationCompletion (key id sub : Nat) (res : Residue)
  /-- R337 -/
  | subarraySelfTest (core sub : Nat) (passes : Bool)
  /-- R386 -/
  | throttleEpoch (core sched : Nat)
  /-- R77 -/
  | carveApply (core : Nat)
  /-- a controller serves the request for a sector, named by its place in DRAM / 32; the cycles it waited behind a refresh (R210) -/
  | dramRequest (sector : Nat) (write : Bool) (conflict : Bool) (stall : Nat)
  /-- the slot of a row group, named by its place / 8 rows (R212) -/
  | refreshSlot (group : Nat)
  /-- R213 -/
  | selfRefreshExit (stack : Nat)
  /-- R212 -/
  | trefwChange (stack : Nat) (high : Bool)
  /-- a write by the host or a peer: to device memory at a physical address, or by the host to its own memory (R234, R340) -/
  | hostMemWrite (by' : Outside) (addr : Nat) (bytes : List Byte)
  /-- R234 -/
  | hostMemRead (src : OutsideAt) (len : Nat)
  /-- the control processor pre-empts a workgroup into an area (R409) -/
  | preemption (wg : Nat) (area : DWord)
  /-- R409, R412 -/
  | saveAreaWrite (wg : Nat)
  /-- R410 -/
  | savedCompletion (id : Nat)
  /-- the queued image of that number is admitted (R414) -/
  | imageAdmission (area : Nat)
  /-- R416 -/
  | abort (part : Nat) (seq : BitVec 56)
  /-- R415 -/
  | partitionCoreMove (core : Nat) (carvelim : BitVec 8) (ctxid : BitVec 16) (throttle : BitVec 17)
  /-- R444 -/
  | ctxretWrite (part : Nat) (val : Word)
  /-- R202 -/
  | retireCommandCompletion
  /-- R445 -/
  | partitionSettingWrite (part : Nat) (off : BitVec 12) (val : BitVec 192)
  /-- R207 -/
  | xmWrite (i : Nat) (val : BitVec 24)
  /-- R446 -/
  | attachGo
  /-- page 0 is device-wide, page p + 1 is partition p (R443) -/
  | managementWindowWrite (page : Nat) (off : BitVec 12) (val : DWord)
  /-- R450 -/
  | firmwareImage (header body sig : List Byte)
  /-- R449 -/
  | firmwareFailure
  /-- R454 -/
  | unitFailure (kind : UnitKind) (unit : Nat) (addr : Nat) (lasting : Bool)
  /-- R455 -/
  | agentFailure (agent : Agent)
  /-- R455 -/
  | agentRejoin (agent : Agent)
  /-- R458 -/
  | thermalThrottle (on : Bool)
  /-- R458 -/
  | thermalShutdown
  /-- R447 -/
  | linkReset
  /-- R458 -/
  | powerUp
  /-- R242 -/
  | memoryAccessCompletion (key split : Nat)
  /-- R164 -/
  | specialFunctionResult (key id : Nat)
  /-- R333, R334 -/
  | accumulatorTransferCompletion (key id : Nat)
  /-- R428 -/
  | dbwaitReread (key split : Nat)
  /-- R453 -/
  | fabricShareCompletion (launch : Nat)
  /-- R447 -/
  | powerOff
  /-- R213 -/
  | selfRefreshEntry (stack : Nat)
  /-- a core (true) or an L2 slice enters retention sleep (R202) -/
  | retentionSleepEntry (core : Bool) (unit : Nat)
  /-- R451 -/
  | spdmRequest (index : Nat)
  deriving DecidableEq, Repr

/-- The constructor of an opcode whose row is the opcode's own. SYSWR, MSELF, CNTCFG and TLBINV have several rows, which the decoder tells
apart. -/
def Instr.ofOpc : Opc → Op → Instr
  | .nop, o => .nop o
  | .br, o => .br o
  | .brc, o => .brc o
  | .bru, o => .bru o
  | .brx, o => .brx o
  | .call, o => .call o
  | .callx, o => .callx o
  | .ret, o => .ret o
  | .regang, o => .regang o
  | .exit, o => .exit o
  | .refill, o => .refill o
  | .yield, o => .yield o
  | .rcv, o => .rcv o
  | .iadd, o => .iadd o
  | .isub, o => .isub o
  | .imul, o => .imul o
  | .imulh, o => .imulh o
  | .imad, o => .imad o
  | .imadw, o => .imadw o
  | .idiv, o => .idiv o
  | .iabs, o => .iabs o
  | .ineg, o => .ineg o
  | .imin, o => .imin o
  | .imax, o => .imax o
  | .isad, o => .isad o
  | .iaddc, o => .iaddc o
  | .isubb, o => .isubb o
  | .iadds, o => .iadds o
  | .isubs, o => .isubs o
  | .and, o => .and o
  | .or, o => .or o
  | .xor, o => .xor o
  | .lop3, o => .lop3 o
  | .shl, o => .shl o
  | .shr, o => .shr o
  | .rot, o => .rot o
  | .funl, o => .funl o
  | .bfx, o => .bfx o
  | .bfi, o => .bfi o
  | .popc, o => .popc o
  | .clz, o => .clz o
  | .brev, o => .brev o
  | .sel, o => .sel o
  | .mov, o => .mov o
  | .movi, o => .movi o
  | .icmp, o => .icmp o
  | .iset, o => .iset o
  | .plop, o => .plop o
  | .p2s, o => .p2s o
  | .s2p, o => .s2p o
  | .lea, o => .lea o
  | .iadd64, o => .iadd64 o
  | .imul64, o => .imul64 o
  | .i2i, o => .i2i o
  | .fadd, o => .fadd o
  | .fsub, o => .fsub o
  | .fmul, o => .fmul o
  | .ffma, o => .ffma o
  | .fmin, o => .fmin o
  | .fmax, o => .fmax o
  | .fcmp, o => .fcmp o
  | .fset, o => .fset o
  | .fclass, o => .fclass o
  | .fscale, o => .fscale o
  | .frnd, o => .frnd o
  | .fdot2, o => .fdot2 o
  | .fdot4, o => .fdot4 o
  | .fsign, o => .fsign o
  | .fmed3, o => .fmed3 o
  | .fdiv, o => .fdiv o
  | .fsqrt, o => .fsqrt o
  | .cvt, o => .cvt o
  | .f2i, o => .f2i o
  | .i2f, o => .i2f o
  | .pack, o => .pack o
  | .unpack, o => .unpack o
  | .bscale, o => .bscale o
  | .rcp, o => .rcp o
  | .rsq, o => .rsq o
  | .exp2, o => .exp2 o
  | .log2, o => .log2 o
  | .sin, o => .sin o
  | .cos, o => .cos o
  | .tanh, o => .tanh o
  | .shfl, o => .shfl o
  | .bcast, o => .bcast o
  | .vote, o => .vote o
  | .ballot, o => .ballot o
  | .reduce, o => .reduce o
  | .scan, o => .scan o
  | .matchKeys, o => .matchKeys o
  | .compact, o => .compact o
  | .agemask, o => .agemask o
  | .ld, o => .ld o
  | .st, o => .st o
  | .ldl, o => .ldl o
  | .stl, o => .stl o
  | .ldp, o => .ldp o
  | .stp, o => .stp o
  | .ldc, o => .ldc o
  | .atom, o => .atom o
  | .atomnr, o => .atomnr o
  | .cas, o => .cas o
  | .fatom, o => .fatom o
  | .fatomnr, o => .fatomnr o
  | .atoml, o => .atoml o
  | .fence, o => .fence o
  | .publish, o => .publish o
  | .pref, o => .pref o
  | .tierpf, o => .tierpf o
  | .flush, o => .flush o
  | .sink, o => .sink o
  | .sret, o => .sret o
  | .sld, o => .sld o
  | .sst, o => .sst o
  | .cpy, o => .cpy o
  | .cpyb, o => .cpyb o
  | .cpyo, o => .cpyo o
  | .cpyg, o => .cpyg o
  | .seal, o => .seal o
  | .waitb, o => .waitb o
  | .mma, o => .mma o
  | .mmaz, o => .mmaz o
  | .mdrain, o => .mdrain o
  | .mfill, o => .mfill o
  | .qtest, o => .qtest o
  | .mself, o => .mselfStat o
  | .fwait, o => .fwait o
  | .ftest, o => .ftest o
  | .fcancel, o => .fcancel o
  | .fmov, o => .fmov o
  | .frel, o => .frel o
  | .binit, o => .binit o
  | .barv, o => .barv o
  | .bwait, o => .bwait o
  | .bexp, o => .bexp o
  | .barw, o => .barw o
  | .bread, o => .bread o
  | .pmread, o => .pmread o
  | .cntrd, o => .cntrd o
  | .cntcfg, o => .cntcfg o
  | .dbarv, o => .dbarv o
  | .dbwait, o => .dbwait o
  | .tspawn, o => .tspawn o
  | .tarm, o => .tarm o
  | .tdec, o => .tdec o
  | .tdone, o => .tdone o
  | .tyield, o => .tyield o
  | .launch, o => .launch o
  | .fmtset, o => .fmtset o
  | .fmtget, o => .fmtget o
  | .sysrd, o => .sysrd o
  | .syswr, o => .syswr o
  | .trap, o => .trap o
  | .rte, o => .rte o
  | .ctxsave, o => .ctxsave o
  | .ctxload, o => .ctxload o
  | .clk, o => .clk o
  | .exmset, o => .exmset o
  | .exmget, o => .exmget o
  | .brk, o => .brk o
  | .tlbinv, o => .tlbinvVa o
  | .pair, o => .pair .nop o .nop o

/-- The opcode and fields of an instruction; none for PAIR and for the machine's other steps. -/
def Instr.op? : Instr → Option (Opc × Op)
  | .nop o => some (.nop, o)
  | .br o => some (.br, o)
  | .brc o => some (.brc, o)
  | .bru o => some (.bru, o)
  | .brx o => some (.brx, o)
  | .call o => some (.call, o)
  | .callx o => some (.callx, o)
  | .ret o => some (.ret, o)
  | .regang o => some (.regang, o)
  | .exit o => some (.exit, o)
  | .refill o => some (.refill, o)
  | .yield o => some (.yield, o)
  | .rcv o => some (.rcv, o)
  | .iadd o => some (.iadd, o)
  | .isub o => some (.isub, o)
  | .imul o => some (.imul, o)
  | .imulh o => some (.imulh, o)
  | .imad o => some (.imad, o)
  | .imadw o => some (.imadw, o)
  | .idiv o => some (.idiv, o)
  | .iabs o => some (.iabs, o)
  | .ineg o => some (.ineg, o)
  | .imin o => some (.imin, o)
  | .imax o => some (.imax, o)
  | .isad o => some (.isad, o)
  | .iaddc o => some (.iaddc, o)
  | .isubb o => some (.isubb, o)
  | .iadds o => some (.iadds, o)
  | .isubs o => some (.isubs, o)
  | .and o => some (.and, o)
  | .or o => some (.or, o)
  | .xor o => some (.xor, o)
  | .lop3 o => some (.lop3, o)
  | .shl o => some (.shl, o)
  | .shr o => some (.shr, o)
  | .rot o => some (.rot, o)
  | .funl o => some (.funl, o)
  | .bfx o => some (.bfx, o)
  | .bfi o => some (.bfi, o)
  | .popc o => some (.popc, o)
  | .clz o => some (.clz, o)
  | .brev o => some (.brev, o)
  | .sel o => some (.sel, o)
  | .mov o => some (.mov, o)
  | .movi o => some (.movi, o)
  | .icmp o => some (.icmp, o)
  | .iset o => some (.iset, o)
  | .plop o => some (.plop, o)
  | .p2s o => some (.p2s, o)
  | .s2p o => some (.s2p, o)
  | .lea o => some (.lea, o)
  | .iadd64 o => some (.iadd64, o)
  | .imul64 o => some (.imul64, o)
  | .i2i o => some (.i2i, o)
  | .fadd o => some (.fadd, o)
  | .fsub o => some (.fsub, o)
  | .fmul o => some (.fmul, o)
  | .ffma o => some (.ffma, o)
  | .fmin o => some (.fmin, o)
  | .fmax o => some (.fmax, o)
  | .fcmp o => some (.fcmp, o)
  | .fset o => some (.fset, o)
  | .fclass o => some (.fclass, o)
  | .fscale o => some (.fscale, o)
  | .frnd o => some (.frnd, o)
  | .fdot2 o => some (.fdot2, o)
  | .fdot4 o => some (.fdot4, o)
  | .fsign o => some (.fsign, o)
  | .fmed3 o => some (.fmed3, o)
  | .fdiv o => some (.fdiv, o)
  | .fsqrt o => some (.fsqrt, o)
  | .cvt o => some (.cvt, o)
  | .f2i o => some (.f2i, o)
  | .i2f o => some (.i2f, o)
  | .pack o => some (.pack, o)
  | .unpack o => some (.unpack, o)
  | .bscale o => some (.bscale, o)
  | .rcp o => some (.rcp, o)
  | .rsq o => some (.rsq, o)
  | .exp2 o => some (.exp2, o)
  | .log2 o => some (.log2, o)
  | .sin o => some (.sin, o)
  | .cos o => some (.cos, o)
  | .tanh o => some (.tanh, o)
  | .shfl o => some (.shfl, o)
  | .bcast o => some (.bcast, o)
  | .vote o => some (.vote, o)
  | .ballot o => some (.ballot, o)
  | .reduce o => some (.reduce, o)
  | .scan o => some (.scan, o)
  | .matchKeys o => some (.matchKeys, o)
  | .compact o => some (.compact, o)
  | .agemask o => some (.agemask, o)
  | .ld o => some (.ld, o)
  | .st o => some (.st, o)
  | .ldl o => some (.ldl, o)
  | .stl o => some (.stl, o)
  | .ldp o => some (.ldp, o)
  | .stp o => some (.stp, o)
  | .ldc o => some (.ldc, o)
  | .atom o => some (.atom, o)
  | .atomnr o => some (.atomnr, o)
  | .cas o => some (.cas, o)
  | .fatom o => some (.fatom, o)
  | .fatomnr o => some (.fatomnr, o)
  | .atoml o => some (.atoml, o)
  | .fence o => some (.fence, o)
  | .publish o => some (.publish, o)
  | .pref o => some (.pref, o)
  | .tierpf o => some (.tierpf, o)
  | .flush o => some (.flush, o)
  | .sink o => some (.sink, o)
  | .sret o => some (.sret, o)
  | .sld o => some (.sld, o)
  | .sst o => some (.sst, o)
  | .cpy o => some (.cpy, o)
  | .cpyb o => some (.cpyb, o)
  | .cpyo o => some (.cpyo, o)
  | .cpyg o => some (.cpyg, o)
  | .seal o => some (.seal, o)
  | .waitb o => some (.waitb, o)
  | .mma o => some (.mma, o)
  | .mmaz o => some (.mmaz, o)
  | .mdrain o => some (.mdrain, o)
  | .mfill o => some (.mfill, o)
  | .qtest o => some (.qtest, o)
  | .mselfStat o => some (.mself, o)
  | .mselfRun o => some (.mself, o)
  | .mselfInj o => some (.mself, o)
  | .fwait o => some (.fwait, o)
  | .ftest o => some (.ftest, o)
  | .fcancel o => some (.fcancel, o)
  | .fmov o => some (.fmov, o)
  | .frel o => some (.frel, o)
  | .binit o => some (.binit, o)
  | .barv o => some (.barv, o)
  | .bwait o => some (.bwait, o)
  | .bexp o => some (.bexp, o)
  | .barw o => some (.barw, o)
  | .bread o => some (.bread, o)
  | .pmread o => some (.pmread, o)
  | .cntrd o => some (.cntrd, o)
  | .cntcfg o => some (.cntcfg, o)
  | .cntcfgClear o => some (.cntcfg, o)
  | .dbarv o => some (.dbarv, o)
  | .dbwait o => some (.dbwait, o)
  | .tspawn o => some (.tspawn, o)
  | .tarm o => some (.tarm, o)
  | .tdec o => some (.tdec, o)
  | .tdone o => some (.tdone, o)
  | .tyield o => some (.tyield, o)
  | .launch o => some (.launch, o)
  | .fmtset o => some (.fmtset, o)
  | .fmtget o => some (.fmtget, o)
  | .sysrd o => some (.sysrd, o)
  | .syswr o => some (.syswr, o)
  | .carveWrite o => some (.syswr, o)
  | .throttleWrite o => some (.syswr, o)
  | .carvelimWrite o => some (.syswr, o)
  | .ctxidWrite o => some (.syswr, o)
  | .trap o => some (.trap, o)
  | .rte o => some (.rte, o)
  | .ctxsave o => some (.ctxsave, o)
  | .ctxload o => some (.ctxload, o)
  | .clk o => some (.clk, o)
  | .exmset o => some (.exmset, o)
  | .exmget o => some (.exmget, o)
  | .brk o => some (.brk, o)
  | .tlbinvVa o => some (.tlbinv, o)
  | .tlbinvRange o => some (.tlbinv, o)
  | .tlbinvCtx o => some (.tlbinv, o)
  | .tlbinvId o => some (.tlbinv, o)
  | .pair _ _ _ _ => none
  | .unassignedOpcode _ => none
  | .pad => none
  | .instructionFetch => none
  | .launchRecordAccept _ => none
  | .fabricLaunchForward _ _ _ => none
  | .workgroupAdmission _ _ => none
  | .startBlockRead _ => none
  | .workgroupRetirement _ => none
  | .workgroupRestart _ => none
  | .launchCompletion _ => none
  | .taskSeed _ => none
  | .taskDispatch _ _ => none
  | .budget _ => none
  | .bartimeout _ _ => none
  | .gatherTimeout _ _ => none
  | .tileClaim _ _ => none
  | .sinkGroupExecution _ _ _ => none
  | .sinkGroupReturn _ _ _ => none
  | .flushAndReclassify _ _ => none
  | .recallLine _ => none
  | .translationWalk _ _ _ => none
  | .copyArrival _ => none
  | .tierpfCompletion _ => none
  | .gather _ _ => none
  | .matrixOperationCompletion _ _ _ _ => none
  | .subarraySelfTest _ _ _ => none
  | .throttleEpoch _ _ => none
  | .carveApply _ => none
  | .dramRequest _ _ _ _ => none
  | .refreshSlot _ => none
  | .selfRefreshExit _ => none
  | .trefwChange _ _ => none
  | .hostMemWrite _ _ _ => none
  | .hostMemRead _ _ => none
  | .preemption _ _ => none
  | .saveAreaWrite _ => none
  | .savedCompletion _ => none
  | .imageAdmission _ => none
  | .abort _ _ => none
  | .partitionCoreMove _ _ _ _ => none
  | .ctxretWrite _ _ => none
  | .retireCommandCompletion => none
  | .partitionSettingWrite _ _ _ => none
  | .xmWrite _ _ => none
  | .attachGo => none
  | .managementWindowWrite _ _ _ => none
  | .firmwareImage _ _ _ => none
  | .firmwareFailure => none
  | .unitFailure _ _ _ _ => none
  | .agentFailure _ => none
  | .agentRejoin _ => none
  | .thermalThrottle _ => none
  | .thermalShutdown => none
  | .linkReset => none
  | .powerUp => none
  | .memoryAccessCompletion _ _ => none
  | .specialFunctionResult _ _ => none
  | .accumulatorTransferCompletion _ _ => none
  | .dbwaitReread _ _ => none
  | .fabricShareCompletion _ => none
  | .powerOff => none
  | .selfRefreshEntry _ => none
  | .retentionSleepEntry _ _ => none
  | .spdmRequest _ => none

end Sys2Proof
end

