-- ==== Sys2Proof/Machine/Forms.lean ====
section
/-! DEFINITION. The forms of every opcode: lengths, sub-functions, types and operand slots, from the encoding tables of R81, R98, R151,
R179, R236, R238, R266, R286, R311, R313, R325, R331, R339, R357, R362, R400, R413, R422, R428, R432 and R434. The decoder, the
well-formedness check and the register sets of an instruction are all read from here. -/
namespace Sys2Proof

/-- How a field in space 00 is read (R46, R47). -/
inductive K00 where
  | no
  /-- n vector registers: even for 2, a multiple of n otherwise (R48) -/
  | v (n : Nat)
  /-- a vector register that is a multiple of 8, with seven above it (R325) -/
  | v8
  | p | h | bar
  /-- a queue number (R311) -/
  | qn
  /-- the operand may be left out (R81, R432) -/
  | opt
  deriving DecidableEq, Repr

/-- How a field in space 11 is read (R46). -/
inductive K11 where
  | no | imm | p | h | bar | acc
  deriving DecidableEq, Repr

/-- What one operand of a form accepts in each space; `s` is the number of scalar registers, 0 when space 01 is not accepted. -/
structure Slot where
  k0 : K00 := .no
  s : Nat := 0
  q : Bool := false
  k3 : K11 := .no
  deriving DecidableEq, Repr

/-- An operand that the form does not use. -/
abbrev Slot.none : Slot := {}
/-- A vector register of n registers. -/
abbrev Slot.v (n : Nat) : Slot := { k0 := .v n }
/-- A scalar register of n registers. -/
abbrev Slot.sc (n : Nat) : Slot := { s := n }
/-- A vector or scalar register of n registers. -/
abbrev Slot.vs (n : Nat) : Slot := { k0 := .v n, s := n }
/-- A scalar register or an immediate. -/
abbrev Slot.si : Slot := { s := 1, k3 := .imm }
/-- An immediate alone. -/
abbrev Slot.im : Slot := { k3 := .imm }
/-- A predicate destination. -/
abbrev Slot.pd : Slot := { k3 := .p }
/-- A predicate source. -/
abbrev Slot.ps : Slot := { k0 := .p }
/-- A handle source. -/
abbrev Slot.hs : Slot := { k0 := .h }
/-- A handle destination. -/
abbrev Slot.hd : Slot := { k3 := .h }
/-- A barrier source. -/
abbrev Slot.bs : Slot := { k0 := .bar }
/-- A barrier destination. -/
abbrev Slot.bd : Slot := { k3 := .bar }
/-- An accumulator. -/
abbrev Slot.ac : Slot := { k3 := .acc }

/-- A general destination of n registers (R94): vector, scalar, and a queue when it is 32 bits wide. -/
def Slot.gd (n : Nat) : Slot := { k0 := .v n, s := n, q := n == 1 }
/-- A general source of n registers (R94); `sc` says that D is scalar, so that only scalars and immediates are accepted. -/
def Slot.gs (sc : Bool) (n : Nat) : Slot :=
  if sc then { s := n, k3 := .imm } else { k0 := .v n, s := n, q := n == 1, k3 := .imm }
/-- A general source that takes no 8-bit immediate (R50). -/
def Slot.gx (sc : Bool) : Slot := if sc then { s := 1 } else { k0 := .v 1, s := 1, q := true }

/-- The four operand slots of a form. -/
structure Slots where
  d : Slot := {}
  a : Slot := {}
  b : Slot := {}
  c : Slot := {}
  deriving DecidableEq, Repr

/-- What the second word holds (R51). -/
inductive W1Kind where
  | long | mem | rel | sys | copy | mat
  deriving DecidableEq, Repr

/-- Is TY a 64-bit element type (R48, R53)? -/
def ty64 (ty : Nat) : Bool := ty == 0x03 || ty == 0x04 || ty == 0x0D || ty == 0x0F
/-- Registers of an element of type TY: two for a 64-bit type. -/
def tyN (ty : Nat) : Nat := if ty64 ty then 2 else 1
/-- Registers of a memory element (R236). -/
def memN (ty : Nat) : Nat := if ty == 0x0E then 4 else tyN ty

/-- The family of an opcode, for the rules that name one (R54, R61). -/
inductive Family where
  | control | integer | float | conv | cross | memory | sink | copy | matrix | future | counter | task | system | pair
  deriving DecidableEq, Repr

/-- The family of an opcode, by its range in R61. -/
def Opc.family (o : Opc) : Family :=
  let c := o.code
  if c < 0x10 then .control else if c < 0x40 then .integer else if c < 0x60 then .float else if c < 0x70 then .conv
  else if c < 0x80 then .cross else if c < 0xA0 then .memory else if c < 0xA8 then .sink else if c < 0xB0 then .copy
  else if c < 0xC0 then .matrix else if c < 0xC8 then .future else if c < 0xD8 then .counter else if c < 0xE0 then .task
  else if c < 0xF0 then .system else .pair

/-- The long-latency opcodes, whose bits [13:10] are LA (R54, R61). -/
def Opc.ll (o : Opc) : Bool :=
  let c := o.code
  c == 0x16 || (0x4F ≤ c && c ≤ 0x50) || (0x66 ≤ c && c ≤ 0x6C) || (0x80 ≤ c && c ≤ 0x91) || c == 0xA0 || (0xA8 ≤ c && c ≤ 0xAB) ||
    (0xB0 ≤ c && c ≤ 0xB3)

/-- Integer opcodes whose B accepts a long immediate (the L column of R98). -/
def Opc.intLong : Opc → Bool
  | .iadd | .isub | .imul | .imulh | .imad | .imadw | .idiv | .imin | .imax | .isad | .iaddc | .isubb | .iadds | .isubs | .and | .or
  | .xor | .lop3 | .shl | .shr | .rot | .funl | .bfx | .bfi | .sel | .movi | .icmp | .iset | .s2p | .lea | .iadd64 | .imul64 => true
  | _ => false

/-- Float and conversion opcodes whose B accepts a long immediate (the L column of R151); FSIGN has a B only under FN 0 and 3,
and the spec does not say which code its 96-bit form without a B raises: as a form that accepts no second word it fails at the length,
code 3 (DESIGN CHOICE, log 87). -/
def Opc.floatLong (o : Opc) (fn : Nat) : Bool :=
  match o with
  | .fadd | .fsub | .fmul | .ffma | .fmin | .fmax | .fcmp | .fset | .fscale | .fdot2 | .fdot4 | .fmed3 | .fdiv | .bscale => true
  | .fsign => fn != 1 && fn != 2
  | _ => false

/-- What W1 holds for an opcode. -/
def Opc.w1 (o : Opc) : W1Kind :=
  match o with
  | .br | .brc | .bru | .call => .rel
  | .sysrd | .syswr => .sys
  | .cpy | .cpyb | .cpyo | .cpyg => .copy
  | .mma | .mmaz => .mat
  | .sld | .sst => .mem
  | .fence => .long
  | o => if o.family == .memory then .mem else .long

/-- The float types "F" of R151. -/
def tyF (ty : Nat) : Bool := ty == 0x05 || ty == 0x0F || ty == 0x06 || ty == 0x07
/-- b32, i32, n32. -/
def tyI (ty : Nat) : Bool := ty ≤ 2

/-- PACK's combinations of type and FN (R168), for a TY that PACK accepts. -/
def packOk (fn ty : Nat) : Bool :=
  let src := fn / 4
  let hi := fn % 2 == 1
  if ty == 0x06 || ty == 0x07 then src == 0 && !hi
  else if ty == 0x0A then src == 1 || src == 2
  else src == 0 || !hi

/-- UNPACK's limits on FN (R170), for a TY that UNPACK accepts. -/
def unpackOk (fn ty : Nat) : Bool :=
  let two := fn / 8 == 1
  let idx := fn % 8
  if ty == 0x06 || ty == 0x07 then !two && idx < 2
  else if ty == 0x0A then !two || idx < 4
  else if two then idx < 2 else idx < 4

/-- Does the form define FN (step 5 of R64)? On a long-latency opcode the bits are LA and any value is accepted. `w` is the group's
width (R181). -/
def Opc.fnOk (o : Opc) (w fn ty : Nat) : Bool :=
  if o.ll then true else
  match o with
  | .brc | .bru | .refill | .qtest | .fmov | .bwait | .tspawn | .tdec | .tdone | .tyield | .clk => fn < 2
  | .iabs | .ineg | .shl | .shr | .funl | .iadd64 | .imul64 | .fmin | .fmax | .bcast | .matchKeys => fn < 2
  | .lop3 | .plop => fn < 4
  | .icmp | .iset => fn < 6
  | .lea | .i2i | .fcmp | .fset | .f2i => true
  | .fadd | .fsub | .fmul | .ffma => fn % 8 < 6
  | .frnd => fn % 8 < 5
  | .fsign | .i2f | .fmtset | .tlbinv => fn < 4
  | .cvt => fn % 8 < 4 && (fn < 8 || 2 ≤ fn % 8)
  | .pack => fn / 4 < 3 && fn / 2 % 2 == 0 &&
      (!(ty == 0x06 || ty == 0x07 || ty == 0x08 || ty == 0x09 || ty == 0x0A) || packOk fn ty)
  | .unpack => !(ty == 0x06 || ty == 0x07 || ty == 0x08 || ty == 0x09 || ty == 0x0A) || unpackOk fn ty
  | .shfl => match fn / 4 with
    | 0 => true
    | 1 => 4 ≤ w
    | 2 => 8 ≤ w
    | _ => 16 ≤ w
  | .vote | .agemask | .sret | .mself => fn < 3
  | .reduce => fn < 6
  | .scan => fn % 8 < 6
  | _ => fn == 0

/-- Does the form define TY (step 5 of R64)? -/
def Opc.tyOk (o : Opc) (fn ty : Nat) : Bool :=
  match o with
  | .iadd | .isub | .imul | .imad | .shl | .shr | .bfx => tyI ty
  | .imulh | .imadw | .imin | .imax | .isad | .iadds | .isubs | .lea => ty == 1 || ty == 2
  | .idiv => (1 ≤ ty && ty ≤ 4) || (0x21 ≤ ty && ty ≤ 0x24)
  | .iabs | .ineg => ty == 1
  | .and | .or | .xor | .sel | .mov | .shfl | .bcast | .compact => ty == 0 || ty == 0x0D
  | .lop3 | .plop => true
  | .movi => tyI ty || ty == 0x05 || ty64 ty
  | .icmp | .iset => ty ≤ 4
  | .iadd64 => ty == 0x0D || ty == 3 || ty == 4
  | .imul64 => ty == 3 || ty == 4
  | .i2i => (1 ≤ ty && ty ≤ 4) || (0x10 ≤ ty && ty ≤ 0x13)
  | .fadd | .fsub | .fmul | .ffma | .fmin | .fmax | .fcmp | .fset | .fclass | .fscale | .frnd | .fsign | .fmed3 | .fdiv | .fsqrt
  | .rcp | .rsq => tyF ty
  | .fdot2 => ty == 6 || ty == 7
  | .fdot4 => ty == 8 || ty == 9
  | .cvt | .i2f => ty == 0x05 || ty == 0x0F || ty == 0x10 || ty == 0x11
  | .f2i => 1 ≤ ty && ty ≤ 4
  | .pack | .unpack => 6 ≤ ty && ty ≤ 0x0A
  | .bscale => ty == 8 || ty == 9 || ty == 0x0A
  | .exp2 | .log2 | .sin | .cos | .tanh => ty == 5 || ty == 6 || ty == 7
  | .ballot | .clk | .exmset | .exmget => ty == 0x0D
  | .reduce | .scan =>
    let op := fn % 8
    if op == 0 then ty ≤ 4 || ty == 0x0D || ty == 5 || ty == 0x0F
    else if op ≤ 2 then (1 ≤ ty && ty ≤ 4) || ty == 5 || ty == 0x0F
    else ty == 0 || ty == 0x0D
  | .matchKeys => ty ≤ 2 || ty == 5 || ty64 ty
  | .ld | .ldl | .ldp => ty == 0x0B || ty == 0x0C || ty == 0x10 || ty == 0x12 || ty == 0 || ty == 0x0D || ty == 0x0E
  | .st | .stl | .stp => ty == 0x0B || ty == 0x0C || ty == 0 || ty == 0x0D || ty == 0x0E
  | .ldc => ty == 0 || ty == 0x0D || ty == 0x0E
  | .atom | .atomnr => tyI ty || ty == 0x0D || ty == 3 || ty == 4
  | .cas => ty == 0 || ty == 0x0D
  | .fatom | .fatomnr => tyF ty
  | .atoml => tyI ty || ty == 5
  | .fence => ty < 5
  | .sink => ty % 8 < 5 && ty / 8 % 4 < 3 && (ty / 8 % 4 != 0 || ty % 8 == 0)
  | .sld => ty == 0x0B || ty == 0x0C || ty == 0x10 || ty == 0x12 || ty == 0 || ty == 0x0D
  | .sst => ty == 0x0B || ty == 0x0C || ty == 0 || ty == 0x0D
  | .mdrain => ty < 4 || ty == 5 || ty == 7
  | .mfill => ty < 2
  | .sysrd | .syswr => ty == 0 || ty == 0x0D
  | _ => ty == 0

/-- Does the opcode's definition accept a 64-bit type, and with it the 128-bit form (R52)? LOP3's TY is no type. -/
def Opc.has64 (o : Opc) (fn : Nat) : Bool := o != .lop3 && (o.tyOk fn 0x03 || o.tyOk fn 0x04 || o.tyOk fn 0x0D || o.tyOk fn 0x0F)

/-- Does the opcode accept the length LEN (step 4 of R64; R51, R52)? -/
def Opc.lenOk (o : Opc) (len fn ty : Nat) : Bool :=
  match o with
  | .br | .brc | .bru | .call | .sysrd | .syswr => len == 2
  | .cpy | .cpyb | .cpyo | .cpyg | .mma | .mmaz | .pair => len == 3
  | .fence => len == 1
  | .sld | .sst => len == 1 || len == 2
  | .fmtset | .waitb | .bexp | .cntrd | .cntcfg => len == 1 || len == 2
  | .exmset => len == 1 || len == 2 || (len == 3 && ty64 ty)
  | .agemask => len == 1 || (len == 2 && fn == 0)
  | .lea => len == 1 || len == 2
  | .idiv => len == 1 || len == 2 || (len == 3 && ty64 (ty % 32))
  | o =>
    if o.family == .memory then len == 1 || len == 2
    else if o.intLong || o.floatLong fn then len == 1 || len == 2 || (len == 3 && ty64 ty && o.has64 fn)
    else len == 1

/-- The min and max operations of an atomic are refused at a b-type (R237). -/
def aopTyOk (o : Opc) (m : MemWord) (ty : Nat) : Bool :=
  match o with
  | .atom | .atomnr | .atoml => !((m.aop == 1#4 || m.aop == 2#4) && (ty == 0 || ty == 0x0D))
  | _ => true

/-- The memory word's values that R235, R236, R237, R253 and R266 accept for an opcode. -/
def MemWord.ok (o : Opc) (ty : Nat) (m : MemWord) : Bool :=
  let aop := m.aop.toNat
  let scope := m.scope.toNat
  let ord := m.ord.toNat
  let ordScope := ord != 0 || scope == 0
  let plain := aop == 0
  let range := ord == 0 && m.hint == 0#2 && m.ixp == 0#1 && m.scale == 0#2
  match o with
  | .ld => plain && scope < 5 && ord < 3 && ordScope && m.hint != 3#2 && m.sub == 0#1
  | .st => plain && scope < 5 && (ord < 2 || ord == 3) && ordScope && m.hint != 3#2 && m.sub == 0#1
  | .ldl => plain && scope < 2 && ord < 3 && ordScope && m.hint == 0#2 && m.sub == 0#1
  | .stl => plain && scope < 2 && (ord < 2 || ord == 3) && ordScope && m.hint == 0#2 && m.sub == 0#1
  | .ldp | .stp | .sld | .sst => plain && scope == 0 && ord == 0 && m.hint == 0#2 && m.sub == 0#1
  | .ldc => plain && scope < 5 && ord < 3 && ordScope && m.hint == 0#2 && m.sub == 0#1
  | .atom => aop < 9 && scope < 5 && 1 ≤ ord && ord < 5 && m.hint == 0#2 && m.sub == 0#1
  | .atomnr => aop < 9 && scope < 5 && (ord == 1 || ord == 3) && m.hint == 0#2 && m.sub == 0#1
  | .cas => plain && scope < 5 && 1 ≤ ord && ord < 5 && m.hint == 0#2 && m.sub == 0#1
  | .fatom => aop < 3 && scope < 5 && 1 ≤ ord && ord < 5 && m.hint == 0#2 && m.sub == 0#1
  | .fatomnr => aop < 3 && scope < 5 && (ord == 1 || ord == 3) && m.hint == 0#2 && m.sub == 0#1
  | .atoml => (if ty == 5 then aop < 3 else aop < 9 || (aop == 9 && ty == 0)) && scope < 2 && 1 ≤ ord && ord < 5 &&
      m.hint == 0#2 && m.sub == 0#1
  | .publish => plain && scope < 5 && range && m.sub == 0#1
  | .pref => plain && scope == 0 && ord == 0 && m.hint == 0#2
  | .tierpf | .flush => plain && scope == 0 && range
  | _ => false

/-- The copy descriptors that R287 and R288 accept. -/
def CopyDesc.ok (o : Opc) (c : CopyDesc) : Bool :=
  let dst := c.dst.toNat
  let rot := c.rot.toNat
  let rowb := c.rowb.toNat
  let geo := 16 ≤ rowb && rowb % (16 * 2 ^ rot) == 0
  c.zero == 0#4 && (c.hv == 1#1 || c.hn == 0#4) &&
  match o with
  | .cpy => rot == 0 && dst == 0 && c.dpitch == 0#16 && c.rows == 0#16 && rowb == 0
  | .cpyb => rot < 4 && dst == 0 && geo && c.rows != 0#16
  | .cpyo => rot == 0 && 8 ≤ dst && geo && c.rows != 0#16
  | .cpyg => (if dst == 0 then rot < 4 else 8 ≤ dst && rot == 0) && geo && c.rows == 0#16
  | _ => false

/-- The matrix descriptors that R326 accepts. -/
def MatDesc.ok (m : MatDesc) : Bool :=
  m.asrc != 3#2 && m.bofs.toNat ≤ 480 && (m.asrc == 2#2 || m.aidx == 0#2) &&
  (m.asrc != 0#2 || (m.arot == 0#2 && m.atp == 0#14 && m.arp == 0#12 && m.acol == 0#7)) && (m.hv == 1#1 || m.hn == 0#4)

/-- Does the form accept what W1 holds (step 5 of R64)? -/
def Ext.ok (o : Opc) (ty : Nat) : Ext → Bool
  | .mem m => m.ok o ty
  | .copy c => c.ok o
  | .mat m => m.ok
  | _ => true

/-- The registers of the source that CVT names in FN[2:0] (R151). -/
def cvtSrcN (fn : Nat) : Nat := if fn % 8 == 1 then 2 else 1

/-- The operand slots of a form, given FN, TY, the space of D and W1. -/
def Opc.slots (o : Opc) (fn ty : Nat) (sc : Bool) (ext : Ext) : Slots :=
  let n := tyN ty
  let g2 (n : Nat) : Slots := { d := .gd n, a := .gs sc n, b := .gs sc n }
  let g3 : Slots := { d := .gd 1, a := .gs sc 1, b := .gs sc 1, c := .gs sc 1 }
  let g1 : Slots := { d := .gd 1, a := .gs sc 1 }
  let mem := match ext with
    | .mem m => m
    | _ => { aop := 0, scope := 0, ord := 0, hint := 0, scale := 0, ixp := 0, sub := 0, ofs := 0 }
  let ix : Slot := if mem.ixp == 1#1 then .vs 1 else .none
  let ga : Slot := { k0 := .v 2, s := 2 }
  let la : Slot := { k0 := .v 1, s := 1, k3 := .imm }
  let stc : Slot := if ty == 0x0E then .vs 4 else { k0 := .v (memN ty), s := memN ty, k3 := .imm }
  let atc : Slot := { k0 := .v n, s := n, k3 := .imm }
  match o with
  | .nop | .br | .regang | .exit | .yield | .rcv | .rte | .tdone => {}
  | .brc => { a := .ps }
  | .bru => { a := .sc 1 }
  | .brx => { a := .si }
  | .call => { d := .sc 2 }
  | .callx => { d := .sc 2, a := .si }
  | .ret => { a := .sc 2 }
  | .refill => if fn == 1 then { a := .v 1, b := .v 1 } else {}
  | .iadd | .isub | .imul | .imulh | .imin | .imax | .iadds | .isubs | .shl | .shr | .rot | .bfx => g2 1
  | .imad | .isad | .funl | .bfi | .lop3 => g3
  | .imadw => { d := .vs 2, a := .gs sc 1, b := .gs sc 1, c := .gs sc 2 }
  | .idiv => g2 (tyN (ty % 32))
  | .iabs | .ineg | .popc | .clz | .brev => g1
  | .iaddc | .isubb => { d := .v 1, a := .gs sc 1, b := .gs sc 1, c := .ps }
  | .and | .or | .xor => g2 n
  | .sel => { d := .gd n, a := .gs sc n, b := .gs sc n, c := .ps }
  | .mov => { d := .gd n, a := .gs sc n }
  | .movi => { d := .gd n, b := .im }
  | .icmp => { d := .pd, a := .gs false n, b := .gs false n }
  | .iset => { d := .gd 1, a := .gs sc n, b := .gs sc n }
  | .plop => { d := .pd, a := .ps, b := .ps, c := .ps }
  | .p2s => { d := .v 1 }
  | .s2p => { a := .gs false 1, b := .gs false 1 }
  | .lea => { d := .vs 2, a := .gs sc 2, b := .gs sc 1 }
  | .iadd64 | .imul64 => { d := .vs 2, a := .gs sc 2, b := .gs sc 2 }
  | .i2i => { d := .gd n, a := .gs sc (if fn % 8 == 2 || fn % 8 == 3 then 2 else 1) }
  | .fadd | .fsub | .fmul | .fmin | .fmax | .fset | .fdiv => g2 n
  | .ffma | .fmed3 => { d := .gd n, a := .gs sc n, b := .gs sc n, c := .gs sc n }
  | .fcmp => { d := .pd, a := .gs false n, b := .gs false n }
  | .fclass => { d := .gd 1, a := .gs sc n }
  | .fscale => { d := .gd n, a := .gs sc n, b := .gs sc 1 }
  | .frnd | .fsqrt | .rcp | .rsq | .exp2 | .log2 | .sin | .cos | .tanh => { d := .gd n, a := .gs sc n }
  | .fdot2 => g3
  | .fdot4 => { d := .gd 1, a := .gx sc, b := .gx sc, c := .gs sc 1 }
  | .fsign => if fn == 1 || fn == 2 then { d := .gd n, a := .gs sc n } else g2 n
  | .cvt => { d := .gd n, a := .gs sc (cvtSrcN fn) }
  | .f2i => { d := .gd n, a := .gs sc (if fn % 4 == 1 then 2 else 1) }
  | .i2f => { d := .gd n, a := .gs sc (if 2 ≤ fn % 4 then 2 else 1) }
  | .pack =>
    let half := (ty == 0x0A) || ((ty == 8 || ty == 9) && fn / 4 == 0)
    { d := if half then .vs 1 else .gd 1, a := .gs sc 1, b := .gs sc 1, c := if ty == 6 || ty == 7 then .none else .gs sc 1 }
  | .unpack =>
    if ty == 6 || ty == 7 then g1 else { d := .gd 1, a := .gx sc, c := .gs sc 1 }
  | .bscale => g2 1
  | .shfl => { d := .v n, a := .v n, b := { k0 := .v 1, s := 1, k3 := .imm } }
  | .bcast => { d := .vs n, a := .v n, b := if fn == 0 then .si else .none }
  | .vote => { d := .pd, a := .ps }
  | .ballot => { d := .vs 2, a := .ps }
  | .reduce => { d := .vs n, a := .v n }
  | .scan => { d := .v n, a := .v n }
  | .matchKeys => { d := if fn == 0 then .v 2 else .pd, a := .v n }
  | .compact => { d := .v n, a := .v n, b := .ps }
  | .agemask => { d := .pd, b := if fn == 1 then .none else .si }
  | .ld => { d := .v (memN ty), a := ga, b := ix }
  | .st => { a := ga, b := ix, c := stc }
  | .ldl | .ldp => { d := .v (memN ty), a := la, b := ix }
  | .stl | .stp => { a := la, b := ix, c := stc }
  | .ldc => { d := .sc (memN ty), a := .sc 2, b := if mem.ixp == 1#1 then .sc 1 else .none }
  | .atom | .fatom => { d := .v n, a := ga, b := ix, c := atc }
  | .atomnr | .fatomnr => { a := ga, b := ix, c := atc }
  | .cas => { d := .v n, a := ga, b := ix, c := .vs (2 * n) }
  | .atoml => { d := .v 1, a := la, b := ix, c := if mem.aop == 9#4 then .vs 2 else atc }
  | .fence => { a := .im, b := .im }
  | .publish | .flush => { a := .sc 2, b := .si }
  | .pref => { a := ga, b := ix }
  | .tierpf => { d := .hd, a := .sc 2, b := .si, c := if mem.sub == 1#1 then .bs else .none }
  | .sink => { a := .im, b := if ty / 32 == 1 then .sc 2 else .none }
  | .sret => { a := if 1 ≤ fn then .v 1 else .none, b := if fn == 2 then .v 1 else .none }
  | .sld => { d := .v (memN ty), a := ga, b := ix }
  | .sst => { a := ga, b := ix, c := stc }
  | .cpy | .cpyb | .cpyo => { d := .bd, a := .sc 2, b := .si, c := .sc 1 }
  | .cpyg => { d := .bd, a := .v 2, b := .si }
  | .seal => { d := { k0 := .opt, s := 1 } }
  | .waitb => { b := .si }
  | .mma | .mmaz =>
    let a : Slot := match ext with
      | .mat m => if m.asrc == 0#2 then { k0 := .v8 } else .si
      | _ => { k0 := .v8 }
    { d := .ac, a := a, c := .v 1 }
  | .mdrain | .mfill =>
    if ty % 2 == 0 then { d := .ac }
    else { d := .ac, a := .si, b := .si, c := if 4 ≤ ty then .hs else .none }
  | .qtest => { d := .sc 1, a := { k0 := .qn } }
  | .mself => if fn == 2 then { a := .si } else { d := .sc 1 }
  | .fwait | .fcancel | .frel => { a := .hs }
  | .ftest => { d := .sc 1, a := .hs }
  | .fmov => { d := .hd, a := .hs, b := if fn == 1 then .si else .none }
  | .binit => { d := .bd, a := .si }
  | .barv | .barw => { d := .bd }
  | .bwait => { d := .bd, a := if fn == 1 then .si else .none }
  | .bexp => { d := .bd, a := .si, b := .si }
  | .bread => { d := .sc 2, a := .bs }
  | .pmread => { d := .sc 1, a := .bs, b := .si }
  | .cntrd => { d := .sc 2, b := .si }
  | .cntcfg => { b := .si }
  | .dbarv => { d := .sc 1, a := .sc 2 }
  | .dbwait => { a := .sc 2, b := .si }
  | .tspawn => { a := .sc 2, b := if fn == 1 then .si else .none }
  | .tarm | .tdec => { a := .sc 2 }
  | .tyield => { b := if fn == 1 then .sc 2 else .none }
  | .launch => { d := .hd, a := .sc 2 }
  | .fmtset => { b := .si }
  | .fmtget => { d := .sc 1 }
  | .sysrd => { d := .vs n }
  | .syswr => { a := { s := n, k3 := .imm } }
  | .trap => { a := .si }
  | .ctxsave => { a := .sc 2 }
  | .ctxload => { d := .hd, a := .sc 2 }
  | .clk | .exmget => { d := .sc 2 }
  | .exmset => { b := { s := 2, k3 := .imm } }
  | .brk => { a := { k0 := .opt, k3 := .imm } }
  | .tlbinv => match fn with
    | 0 => { a := .sc 2 }
    | 1 => { a := .sc 2, b := .sc 1 }
    | 2 => {}
    | _ => { b := .si }
  | .pair => {}

/-- May the opcode stand in the X slot of a pair at this type (R58)? CVT, F2I and I2F at any type they accept. -/
def Opc.pairX (o : Opc) (ty : Nat) : Bool :=
  match o with
  | .fmul | .ffma | .fdot2 | .fdot4 | .fscale | .frnd | .cvt | .f2i | .i2f => true
  | .fadd | .fsub | .fmin | .fmax | .fmed3 | .fset | .fsign => ty == 0x0F
  | _ => false

/-- May the opcode stand in the Y slot of a pair at this type (R58)? -/
def Opc.pairY (o : Opc) (ty : Nat) : Bool :=
  match o with
  | .iadd | .isub | .iabs | .ineg | .imin | .imax | .isad | .iadds | .isubs | .and | .or | .xor | .lop3 | .shl | .shr | .rot | .funl
  | .bfx | .bfi | .popc | .clz | .brev | .sel | .mov | .movi | .icmp | .iset | .lea => true
  | .fadd | .fsub | .fmin | .fmax | .fmed3 | .fcmp | .fset | .fclass | .fsign => ty != 0x0F
  | _ => false

/-- May the opcode stand in a sink body after the anchor, at this type (R264)? -/
def Opc.sinkable (o : Opc) (ty : Nat) : Bool :=
  match o with
  | .iadd | .isub | .imul | .imad | .and | .or | .xor | .shl | .shr | .sel | .icmp | .mov => tyI ty
  | .movi => tyI ty || ty == 5
  | .fadd | .fmul | .ffma | .fmin | .fmax => ty == 5 || ty == 7
  | .sld | .sst | .sret => true
  | _ => false

/-- Is the instruction split-scope (R67)? An integer, float or conversion form is when its D is scalar; SYSRD likewise. -/
def Op.scalarD (o : Op) : Bool := match o.d with
  | .s _ => true
  | _ => false

end Sys2Proof
end

