-- ==== Sys2Proof/WellFormed.lean ====
section
/-! DEFINITION. When an instruction is well formed: its fields are values that the encoding tables admit (R44 to R59). A machine step
that is no instruction has no encoding and is not well formed. -/
namespace Sys2Proof

/-- What decoding depends on besides the bits: the launch's VREGS (R46) and the group's width (R181). -/
structure DecCx where
  vregs : Nat
  width : Nat
  deriving DecidableEq, Repr

/-- n registers from r fit below lim, with r aligned to n (R48). -/
def regOk (lim n : Nat) (r : BitVec 8) : Bool := r.toNat % n == 0 && r.toNat + n ≤ lim

/-- Does an operand lie in a space and range that its slot accepts (R46, R47, R48)? -/
def Opnd.fits (cx : DecCx) (sl : Slot) : Opnd → Bool
  | .none => (sl.k0 == .no && sl.s == 0 && !sl.q && sl.k3 == .no) || sl.k0 == .opt
  | .v r => match sl.k0 with
    | .v n => n != 0 && regOk cx.vregs n r
    | .v8 => r.toNat % 8 == 0 && r.toNat + 8 ≤ cx.vregs
    | _ => false
  | .s r => sl.s != 0 && regOk 64 sl.s r
  | .q r => sl.q && r.toNat < 5
  | .imm _ => sl.k3 == .imm
  | .p r => (sl.k0 == .p || sl.k3 == .p) && r.toNat < 8
  | .h r => (sl.k0 == .h || sl.k3 == .h) && r.toNat < 16
  | .bar r => (sl.k0 == .bar || sl.k3 == .bar) && r.toNat < 16
  | .acc r => sl.k3 == .acc && r.toNat < 4
  | .qn r => sl.k0 == .qn && r.toNat < 5
  | .l32 _ | .l64 _ => false

/-- A queue destination that software may push (R308). -/
def Opnd.pushOk : Opnd → Bool
  | .q r => r.toNat == 1 || r.toNat == 2 || r.toNat == 4
  | _ => true
/-- A queue source that software may pop (R308). -/
def Opnd.popOk : Opnd → Bool
  | .q r => r.toNat == 0 || r.toNat == 3 || r.toNat == 4
  | _ => true

/-- Does B fit, long immediates included (R51, R52)? -/
def Opnd.bFits (cx : DecCx) (k : W1Kind) (len : Nat) (sl : Slot) (b : Opnd) : Bool :=
  if k == .long && len == 2 then (match b with | .l32 _ => true | _ => false)
  else if k == .long && len == 3 then (match b with | .l64 _ => true | _ => false)
  else b.fits cx sl

/-- FENCE's sets leave bits [7:6] zero (R238). -/
def fenceSet : Opnd → Bool
  | .imm i => i.toNat < 64
  | _ => true

/-- What W1 holds has the kind that the opcode gives it; the 64-bit form of a memory instruction is its 96-bit form with W1 = 0 (R235). -/
def Ext.kindOk (k : W1Kind) (len : Nat) : Ext → Bool
  | .none => k == .long
  | .mem m => k == .mem && (len == 2 || m == ⟨0, 0, 0, 0, 0, 0, 0, 0⟩)
  | .rel _ => k == .rel
  | .sys _ _ => k == .sys
  | .copy _ => k == .copy
  | .mat _ => k == .mat

/-- An operation is well formed for an opcode: length, sub-function, type, second word and every operand (steps 4 to 10 of R64). -/
def Op.wf (cx : DecCx) (o : Opc) (x : Op) : Bool :=
  let fn := x.fn.toNat
  let ty := x.ty.toNat
  let sl := o.slots fn ty x.scalarD x.ext
  x.len != 0#2 && o != .pair && o.lenOk x.len.toNat fn ty && o.fnOk cx.width fn ty && x.ext.kindOk o.w1 x.len.toNat && x.ext.ok o ty &&
  o.tyOk fn ty && (match x.ext with | .mem m => aopTyOk o m ty | _ => true) &&
  x.d.fits cx sl.d && x.a.fits cx sl.a && x.b.bFits cx o.w1 x.len.toNat sl.b && x.c.fits cx sl.c &&
  (o != .fence || (fenceSet x.a && fenceSet x.b)) &&
  x.d.pushOk && x.a.popOk && x.b.popOk && x.c.popOk

/-- The n registers from r. -/
def regs (n : Nat) (r : BitVec 8) : List Nat := rangeFrom r.toNat n

/-- The vector registers that an operand in a slot names (R59). -/
def Opnd.vregs (sl : Slot) : Opnd → List Nat
  | .v r => match sl.k0 with
    | .v n => regs n r
    | .v8 => regs 8 r
    | _ => []
  | _ => []

/-- The vector registers that an operation reads as A, B and C. -/
def Op.vreads (o : Opc) (x : Op) : List Nat :=
  let sl := o.slots x.fn.toNat x.ty.toNat x.scalarD x.ext
  x.a.vregs sl.a ++ x.b.vregs sl.b ++ x.c.vregs sl.c

/-- The vector registers that an operation writes as D. -/
def Op.vwrites (o : Opc) (x : Op) : List Nat := x.d.vregs (o.slots x.fn.toNat x.ty.toNat x.scalarD x.ext).d

/-- No bank is read more than twice (R59, condition 3). -/
def bankReads (l : List Nat) : Bool := (List.range 4).all fun k => ((dedup l).filter (fun r => r % 4 == k)).length ≤ 2

/-- The written registers lie in different banks (R59, condition 4). -/
def bankWrites (l : List Nat) : Bool := (List.range 4).all fun k => (l.filter (fun r => r % 4 == k)).length ≤ 1

/-- Every operand lies in the vector or scalar space or is an 8-bit immediate, a predicate or absent (R59, condition 2). -/
def Opnd.pairable : Opnd → Bool
  | .q _ | .l32 _ | .l64 _ => false
  | _ => true

/-- The conditions on a pair (R58, R59). -/
def pairOk (xo : Opc) (x : Op) (yo : Opc) (y : Op) : Bool :=
  xo.pairX x.ty.toNat && yo.pairY y.ty.toNat && y.len == 1#2 &&
  y.d.pairable && y.a.pairable && y.b.pairable && y.c.pairable &&
  bankReads (x.vreads xo ++ y.vreads yo) && bankWrites (x.vwrites xo ++ y.vwrites yo) &&
  !((xo == .fmul || xo == .ffma) && 8 ≤ x.fn.toNat)

/-- Every operand of the X slot is a vector register or absent (R57). -/
def Opnd.vOnly : Opnd → Bool
  | .none | .v _ => true
  | _ => false

/-- Is this the row of the opcode table that the operation belongs to? SYSWR, MSELF, CNTCFG and TLBINV have several rows. -/
def Instr.ofOp (o : Opc) (x : Op) : Instr :=
  match o with
  | .syswr => match x.ext with
    | .sys idx hi =>
      if hi != 0#20 then .syswr x
      else if idx == 0x030#12 then .carveWrite x
      else if idx == 0x040#12 then .throttleWrite x
      else if idx == 0x100#12 then .carvelimWrite x
      else if idx == 0x101#12 then .ctxidWrite x
      else .syswr x
    | _ => .syswr x
  | .mself => if x.fn == 0#4 then .mselfStat x else if x.fn == 1#4 then .mselfRun x else .mselfInj x
  | .cntcfg => match x.b with
    | .imm i => if i.getLsbD 1 then .cntcfgClear x else .cntcfg x
    | .l32 w => if w.getLsbD 1 then .cntcfgClear x else .cntcfg x
    | _ => .cntcfg x
  | .tlbinv =>
    if x.fn == 0#4 then .tlbinvVa x else if x.fn == 1#4 then .tlbinvRange x else if x.fn == 2#4 then .tlbinvCtx x else .tlbinvId x
  | o => Instr.ofOpc o x

/-- An instruction is well formed: its operation is, and the constructor is the row its fields select. -/
def Instr.wf (cx : DecCx) (i : Instr) : Bool :=
  match i with
  | .pair xo x yo y =>
    x.len == 3#2 && x.ext == .none && xo != .pair && yo != .pair && xo.fnOk cx.width x.fn.toNat x.ty.toNat && xo.tyOk x.fn.toNat x.ty.toNat &&
    x.d.vOnly && x.a.vOnly && x.b.vOnly && x.c.vOnly &&
    (let sl := xo.slots x.fn.toNat x.ty.toNat false .none
     x.d.fits cx sl.d && x.a.fits cx sl.a && x.b.fits cx sl.b && x.c.fits cx sl.c) &&
    y.wf cx yo && pairOk xo x yo y
  | i => match i.op? with
    | some (o, x) => Instr.ofOp o x == i && x.wf cx o
    | none => false

end Sys2Proof
end

