-- ==== Sys2Proof/Decode.lean ====
section
/-! DEFINITION. Decoding, total on any 32-bit units, with the checks of R64 in their order and the TRAPAUX of R65; and the encoder, from
the same layouts (R44, R51, R57, R235, R287, R326). -/
namespace Sys2Proof

/-- The base word's fields (R44). -/
structure Raw where
  len : BitVec 2
  opc : BitVec 8
  fn : BitVec 4
  pg : BitVec 3
  pn : BitVec 1
  d : BitVec 8
  a : BitVec 8
  b : BitVec 8
  c : BitVec 8
  spd : BitVec 2
  spa : BitVec 2
  spb : BitVec 2
  spc : BitVec 2
  ty : BitVec 6
  deriving DecidableEq, Repr

/-- The base word of its fields (R44). -/
def Raw.word (r : Raw) : DWord :=
  r.ty ++ r.spc ++ r.spb ++ r.spa ++ r.spd ++ r.c ++ r.b ++ r.a ++ r.d ++ r.pn ++ r.pg ++ r.fn ++ r.opc ++ r.len

/-- The fields of a base word (R44). -/
def Raw.ofWord (w : DWord) : Raw :=
  { len := w.extractLsb' 0 2, opc := w.extractLsb' 2 8, fn := w.extractLsb' 10 4, pg := w.extractLsb' 14 3, pn := w.extractLsb' 17 1,
    d := w.extractLsb' 18 8, a := w.extractLsb' 26 8, b := w.extractLsb' 34 8, c := w.extractLsb' 42 8, spd := w.extractLsb' 50 2,
    spa := w.extractLsb' 52 2, spb := w.extractLsb' 54 2, spc := w.extractLsb' 56 2, ty := w.extractLsb' 58 6 }

/-- The memory word's fields (R235). -/
def MemWord.ofWord (w : Word) : MemWord :=
  { aop := w.extractLsb' 28 4, scope := w.extractLsb' 25 3, ord := w.extractLsb' 22 3, hint := w.extractLsb' 20 2,
    scale := w.extractLsb' 18 2, ixp := w.extractLsb' 17 1, sub := w.extractLsb' 16 1, ofs := w.extractLsb' 0 16 }
/-- The memory word of its fields (R235). -/
def MemWord.word (m : MemWord) : Word := m.aop ++ m.scope ++ m.ord ++ m.hint ++ m.scale ++ m.ixp ++ m.sub ++ m.ofs

/-- The copy descriptor's fields (R287). -/
def CopyDesc.ofWord (w : DWord) : CopyDesc :=
  { hv := w.extractLsb' 63 1, hn := w.extractLsb' 59 4, rot := w.extractLsb' 56 3, dst := w.extractLsb' 52 4, zero := w.extractLsb' 48 4,
    dpitch := w.extractLsb' 32 16, rows := w.extractLsb' 16 16, rowb := w.extractLsb' 0 16 }
/-- The copy descriptor of its fields (R287). -/
def CopyDesc.word (c : CopyDesc) : DWord := c.hv ++ c.hn ++ c.rot ++ c.dst ++ c.zero ++ c.dpitch ++ c.rows ++ c.rowb

/-- The matrix descriptor's fields (R326). -/
def MatDesc.ofWord (w : DWord) : MatDesc :=
  { asrc := w.extractLsb' 62 2, aidx := w.extractLsb' 60 2, bidx := w.extractLsb' 58 2, arot := w.extractLsb' 56 2,
    bofs := w.extractLsb' 47 9, bsofs := w.extractLsb' 38 9, atp := w.extractLsb' 24 14, arp := w.extractLsb' 12 12,
    acol := w.extractLsb' 5 7, hv := w.extractLsb' 4 1, hn := w.extractLsb' 0 4 }
/-- The matrix descriptor of its fields (R326). -/
def MatDesc.word (m : MatDesc) : DWord :=
  m.asrc ++ m.aidx ++ m.bidx ++ m.arot ++ m.bofs ++ m.bsofs ++ m.atp ++ m.arp ++ m.acol ++ m.hv ++ m.hn

/-- An ILLOP of a code, with the operand for codes 6 and 7 (R65). -/
def illop (code : Nat) (opnd : Nat := 0) : Bad := { cause := .illop, aux := BitVec.ofNat 32 (code + 16 * opnd) }

/-- What stands at a place where an instruction would begin. -/
inductive Dec where
  /-- an instruction of that many units -/
  | ok (i : Instr) (units : Nat)
  /-- a pad run (R41) -/
  | pad
  | bad (e : Bad)
  deriving DecidableEq, Repr

/-- Is the slot unused (R47)? -/
def Slot.unused (sl : Slot) : Bool := sl.k0 == .no && sl.s == 0 && !sl.q && sl.k3 == .no

/-- Read one operand field under its slot; an error is the ILLOP code 6 or 7 (R47, R65). A field that the form does not use is no operand:
encoded in space 10 it is R47's unused field, code 7, also where a chapter says that space 10 gives code 6 (R179, R237; DESIGN CHOICE,
log 88). -/
def decOpnd (sl : Slot) (sp : BitVec 2) (f : BitVec 8) : Except Nat Opnd :=
  if sl.unused then (if sp == 0#2 && f == 0#8 then .ok .none else .error 7)
  else match sp.toNat with
  | 0 => match sl.k0 with
    | .no => .error 6
    | .v _ | .v8 => .ok (.v f)
    | .p => .ok (.p f)
    | .h => .ok (.h f)
    | .bar => .ok (.bar f)
    | .qn => .ok (.qn f)
    | .opt => if f == 0#8 then .ok .none else .error 7
  | 1 => if sl.s == 0 then .error 6 else .ok (.s f)
  | 2 => if sl.q then .ok (.q f) else .error 6
  | _ => match sl.k3 with
    | .no => .error 6
    | .imm => .ok (.imm f)
    | .p => .ok (.p f)
    | .h => .ok (.h f)
    | .bar => .ok (.bar f)
    | .acc => .ok (.acc f)

/-- The space and field of an operand: `dst` says that it stands in D, where predicates, handles, barriers and accumulators take
space 11; a source of those kinds takes space 00 (R46, R47). A long immediate takes space 11 with a zero field (R51). -/
def Opnd.enc (dst : Bool) : Opnd → BitVec 2 × BitVec 8
  | .none => (0, 0)
  | .v r => (0, r)
  | .s r => (1, r)
  | .q r => (2, r)
  | .imm i => (3, i)
  | .p r | .h r | .bar r => (if dst then 3 else 0, r)
  | .acc r => (3, r)
  | .qn r => (0, r)
  | .l32 _ | .l64 _ => (3, 0)

/-- TRAPAUX of an ILLREG: operand, field, kind and misalignment (R65). -/
def illreg (opnd : Nat) (f : BitVec 8) (kind : Nat) (odd : Bool) : Bad :=
  { cause := .illreg, aux := BitVec.ofNat 32 (16 * opnd + 256 * f.toNat + 65536 * kind + (if odd then 1048576 else 0)) }

/-- The range check of a register operand of n registers (R46, R48). -/
def rangeReg (opnd kind lim n : Nat) (r : BitVec 8) : Option Bad :=
  if r.toNat % n != 0 then some (illreg opnd r kind true)
  else if r.toNat + n ≤ lim then none else some (illreg opnd r kind false)

/-- The range check of a small numbered kind (R46). -/
def rangeNum (opnd kind lim : Nat) (r : BitVec 8) : Option Bad := if r.toNat < lim then none else some (illreg opnd r kind false)

/-- Step 8 of R64 for one operand. -/
def rangeOpnd (cx : DecCx) (opnd : Nat) (sl : Slot) : Opnd → Option Bad
  | .v r => match sl.k0 with
    | .v n => rangeReg opnd 0 cx.vregs n r
    | .v8 => rangeReg opnd 0 cx.vregs 8 r
    | _ => none
  | .s r => rangeReg opnd 1 64 sl.s r
  | .q r | .qn r => rangeNum opnd 2 16 r
  | .p r => rangeNum opnd 3 8 r
  | .h r => rangeNum opnd 4 16 r
  | .bar r => rangeNum opnd 5 16 r
  | .acc r => rangeNum opnd 6 4 r
  | _ => none

/-- A QFAULT of a code on a queue number (R308). -/
def qfaultBad (code : Nat) (r : BitVec 8) : Bad := { cause := .qfault, aux := BitVec.ofNat 32 (code + 256 * r.toNat) }

/-- The number part of step 10 of R64 for one operand. -/
def queueNum : Opnd → Option Bad
  | .q r | .qn r => if r.toNat < 5 then none else some (qfaultBad 1 r)
  | _ => none
/-- The direction part of step 10 for a destination. -/
def queuePush (x : Opnd) : Option Bad := match x with
  | .q r => if x.pushOk then none else some (qfaultBad 5 r)
  | _ => none
/-- The direction part of step 10 for a source. -/
def queuePop (x : Opnd) : Option Bad := match x with
  | .q r => if x.popOk then none else some (qfaultBad 5 r)
  | _ => none

/-- The first failure of a list of checks. -/
def firstBad : List (Option Bad) → Option Bad
  | [] => none
  | some e :: _ => some e
  | none :: rest => firstBad rest

/-- What W1 holds, for an opcode and length. -/
def extOf (k : W1Kind) (len : Nat) (w1 : DWord) : Ext :=
  match k with
  | .long => .none
  | .mem => .mem (MemWord.ofWord (if len == 1 then 0 else w1.extractLsb' 0 32))
  | .rel => .rel (w1.extractLsb' 0 32)
  | .sys => .sys (w1.extractLsb' 0 12) (w1.extractLsb' 12 20)
  | .copy => .copy (CopyDesc.ofWord w1)
  | .mat => .mat (MatDesc.ofWord w1)

/-- B, long immediates included: a long immediate needs space 11 and a zero field (R51). DEDUCED (log 109): another space raises ILLOP code 6 and
a field that is not zero code 7, as R65 names them and R117 has it for a register. -/
def decB (k : W1Kind) (len : Nat) (sl : Slot) (sp : BitVec 2) (f : BitVec 8) (w1 : DWord) : Except Nat Opnd :=
  if k == .long && (len == 2 || len == 3) then
    if sp != 3#2 then .error 6
    else if f != 0#8 then .error 7
    else if len == 2 then .ok (.l32 (w1.extractLsb' 0 32)) else .ok (.l64 w1)
  else decOpnd sl sp f

/-- D, with the rules of R99: S2P has no destination field, and the predicate of ICMP and PLOP is one of 0 to 7. -/
def decDst (o : Opc) (sl : Slot) (sp : BitVec 2) (f : BitVec 8) : Except Nat Opnd :=
  if (o == .s2p && (sp != 0#2 || f != 0#8)) || ((o == .icmp || o == .plop) && sp == 3#2 && 8 ≤ f.toNat) then .error 6 else decOpnd sl sp f

/-- Steps 5 and 6 of R64: sub-function and second word, type, then spaces and unused fields in the order D, A, B, C. -/
def decFields (cx : DecCx) (o : Opc) (r : Raw) (w1 : DWord) : Except Bad Op :=
  let len := r.len.toNat
  let fn := r.fn.toNat
  let ty := r.ty.toNat
  let ext := extOf o.w1 len w1
  if !o.fnOk cx.width fn ty || !ext.ok o ty then .error (illop 4)
  else if !o.tyOk fn ty || !(match ext with | .mem m => aopTyOk o m ty | _ => true) then .error (illop 5)
  else
    let sl := o.slots fn ty (r.spd == 1#2) ext
    match decDst o sl.d r.spd r.d with
    | .error c => .error (illop c 0)
    | .ok d =>
    match decOpnd sl.a r.spa r.a with
    | .error c => .error (illop c 1)
    | .ok a =>
    if o == .fence && !fenceSet a then .error (illop 7 1)
    else match decB o.w1 len sl.b r.spb r.b w1 with
    | .error c => .error (illop c 2)
    | .ok b =>
    if o == .fence && !fenceSet b then .error (illop 7 2)
    else match decOpnd sl.c r.spc r.c with
    | .error c => .error (illop c 3)
    | .ok c =>
      .ok { len := r.len, pg := r.pg, pn := r.pn, fn := r.fn, ty := r.ty, d := d, a := a, b := b, c := c, ext := ext }

/-- Step 8 of R64, in the order D, A, B, C. -/
def rangeOp (cx : DecCx) (o : Opc) (x : Op) : Option Bad :=
  let sl := o.slots x.fn.toNat x.ty.toNat x.scalarD x.ext
  firstBad [rangeOpnd cx 0 sl.d x.d, rangeOpnd cx 1 sl.a x.a, rangeOpnd cx 2 sl.b x.b, rangeOpnd cx 3 sl.c x.c]

/-- Step 10 of R64: queue numbers, then directions. -/
def queueOp (x : Op) : Option Bad :=
  firstBad [queueNum x.d, queueNum x.a, queueNum x.b, queueNum x.c, queuePush x.d, queuePop x.a, queuePop x.b, queuePop x.c]

/-- A failure in the Y slot of a pair (TRAPAUX[6], R65). -/
def Bad.slotY (e : Bad) : Bad := { e with aux := e.aux ||| 64#32 }

/-- Decode one instruction that is no pair, from its base word's fields and W1 (steps 3 to 8 and 10 of R64). -/
def decPlain (cx : DecCx) (r : Raw) (w1 : DWord) : Except Bad (Opc × Op) :=
  match Opc.ofCode r.opc.toNat with
  | none => .error (illop 1)
  | some o =>
    if !o.lenOk r.len.toNat r.fn.toNat r.ty.toNat then .error (illop 3)
    else match decFields cx o r w1 with
    | .error e => .error e
    | .ok x =>
      match rangeOp cx o x with
      | some e => .error e
      | none => match queueOp x with
        | some e => .error e
        | none => .ok (o, x)

/-- The X slot's fields as a base word's fields: every operand is a vector register, and the space fields carry XOPC (R57). -/
def Raw.xslot (r : Raw) : Raw := { r with opc := r.spc ++ r.spb ++ r.spa ++ r.spd, spd := 0, spa := 0, spb := 0, spc := 0 }

/-- An operand of the X slot: a vector register, or nothing where the opcode does not use it (R57). -/
def xOpnd (sl : Slot) (f : BitVec 8) : Opnd := if sl.unused then .none else .v f

/-- The operand slots of an X operation. -/
def xSlots (xo : Opc) (r : Raw) : Slots := xo.slots r.fn.toNat r.ty.toNat false .none

/-- The X operation of a pair (R57). -/
def xOp (xo : Opc) (r : Raw) : Op :=
  let sl := xSlots xo r
  { len := 3, pg := r.pg, pn := r.pn, fn := r.fn, ty := r.ty, d := xOpnd sl.d r.d, a := xOpnd sl.a r.a, b := xOpnd sl.b r.b, c := xOpnd sl.c r.c }

/-- A field that the X opcode does not use is zero (R58). -/
def xUnusedZero (xo : Opc) (r : Raw) : Bool :=
  let sl := xSlots xo r
  (!sl.d.unused || r.d == 0) && (!sl.a.unused || r.a == 0) && (!sl.b.unused || r.b == 0) && (!sl.c.unused || r.c == 0)

/-- Step 7 of R64: the pair conditions of R58 and R59, those of the X slot first, then those of the Y slot, then those that both make
(log 23). -/
def pairFault (xo : Opc) (r : Raw) (yo : Opc) (y : Op) : Option Bad :=
  let x := xOp xo r
  if !xo.pairX r.ty.toNat || ((xo == .fmul || xo == .ffma) && 8 ≤ r.fn.toNat) || !xUnusedZero xo r then some (illop 8)
  else if !yo.pairY y.ty.toNat || y.len != 1#2 || !y.d.pairable || !y.a.pairable || !y.b.pairable || !y.c.pairable then some (illop 8).slotY
  else if !bankReads (x.vreads xo ++ y.vreads yo) || !bankWrites (x.vwrites xo ++ y.vwrites yo) then some (illop 8)
  else none

/-- Decode a pair (R57 to R59): steps 3, 5, 6, 8 and 10 for the X slot, then the Y slot; the X slot has no spaces, and what R58 says of its
unused fields belongs to step 7. -/
def decPair (cx : DecCx) (r : Raw) (w1 : DWord) : Except Bad Instr :=
  let xr := r.xslot
  let yr := Raw.ofWord w1
  match Opc.ofCode xr.opc.toNat with
  | none => .error (illop 1)
  | some xo =>
  match Opc.ofCode yr.opc.toNat with
  | none => .error (illop 1).slotY
  | some yo =>
  if !xo.fnOk cx.width xr.fn.toNat xr.ty.toNat then .error (illop 4)
  else if !xo.tyOk xr.fn.toNat xr.ty.toNat then .error (illop 5)
  else
  let x := xOp xo xr
  match decFields cx yo { yr with len := 1 } 0 with
  | .error e => .error e.slotY
  | .ok y0 =>
    let y := { y0 with len := yr.len }
    match pairFault xo xr yo y with
    | some e => .error e
    | none => match rangeOp cx xo x with
      | some e => .error e
      | none => match rangeOp cx yo y with
        | some e => .error e.slotY
        | none => match queueOp y with
          | some e => .error e.slotY
          | none => .ok (.pair xo x yo y)

/-- The units that LEN gives an instruction (R39). -/
def lenUnits (len : Nat) : Nat := if len == 0 then 1 else len + 1

/-- Decode the units that stand from the beginning of an instruction to the end of its fetch block (R40, R41). -/
def decodeUnits (cx : DecCx) (us : List Word) : Dec :=
  match us with
  | [] => .bad { cause := .illplace, aux := 1 }
  | u0 :: rest =>
    if u0 == 0#32 then (if rest.all (· == 0#32) then .pad else .bad (illop 2))
    else
      let len := (u0.extractLsb' 0 2).toNat
      if us.length < lenUnits len then .bad { cause := .illplace, aux := 1 }
      else if len == 0 then .bad (illop 2)
      else
        let w0 := us.getD 1 0 ++ u0
        let w1 := us.getD 3 0 ++ us.getD 2 0
        let w1 := if len == 3 then w1 else w1 &&& 0xFFFFFFFF#64
        let r := Raw.ofWord w0
        if r.opc == 0xF0#8 then
          if len != 3 then .bad (illop (if (Opc.ofCode r.xslot.opc.toNat).isNone then 1 else 3))
          else match decPair cx r w1 with
            | .error e => .bad e
            | .ok i => .ok i 4
        else match decPlain cx r (if len == 1 then 0 else w1) with
          | .error e => .bad e
          | .ok (o, x) => .ok (Instr.ofOp o x) (lenUnits len)

/-- Where a unit of a fetch block stands, found by decoding the block's lengths from its unit 0 (R41, R42). -/
inductive Place where
  /-- the first unit of an instruction -/
  | start
  /-- inside an instruction, or after one that crosses the block -/
  | inside
  /-- the first unit of a pad run, which a counter that moves on may reach -/
  | pad
  /-- a later unit of a pad run -/
  | inPad
  /-- the first unit of a run of zero units that a unit follows which is no pad -/
  | broken
  /-- a later unit of such a run -/
  | inBroken
  /-- at or after a unit with LEN = 00 that is not all zeros, or after a broken run -/
  | malformed
  deriving DecidableEq, Repr

/-- Walk a block from unit i, with `fuel` at least the units left. DEDUCED (log 36): decoding from unit 0 does not go on past a broken pad run or
a malformed unit, so that a control target behind one is no instruction's first unit and reaches it: ILLOP code 2 (R41, R42). -/
def placeFrom (us : List Word) (target : Nat) : Nat → Nat → Place
  | 0, _ => .inside
  | fuel + 1, i =>
    let u := us.getD i 0
    let len := (u.extractLsb' 0 2).toNat
    if u == 0#32 then
      if (us.drop i).all (· == 0#32) then (if target == i then .pad else .inPad)
      else if target == i then .broken
      else if ((us.drop i).take (target + 1 - i)).all (· == 0#32) then .inBroken
      else .malformed
    else if len == 0 then .malformed
    else if target == i then .start
    else if target < i + lenUnits len then .inside
    else if 8 ≤ i + lenUnits len then .inside
    else placeFrom us target fuel (i + lenUnits len)

/-- The place of a unit in its block (R42). -/
def placeOf (us : List Word) (target : Nat) : Place := placeFrom us target 8 0

/-- Decode what a split reaches at a unit of a block (R42, R64). `jumped` says that the split came there by a transfer of control, of which
no pad is a target, be its run legal or not. -/
def decodeBlock (cx : DecCx) (jumped : Bool) (us : List Word) (target : Nat) : Dec :=
  match placeOf us target with
  | .start => decodeUnits cx (us.drop target)
  | .inside => .bad { cause := .illplace, aux := 2 }
  | .pad => if jumped then .bad { cause := .illplace, aux := 3 } else .pad
  | .inPad | .inBroken => .bad { cause := .illplace, aux := 3 }
  | .broken => if jumped then .bad { cause := .illplace, aux := 3 } else .bad (illop 2)
  | .malformed => .bad (illop 2)

/-- The fields of a base word of an operation. -/
def Op.raw (o : Opc) (x : Op) : Raw :=
  { len := x.len, opc := BitVec.ofNat 8 o.code, fn := x.fn, pg := x.pg, pn := x.pn,
    d := (x.d.enc true).2, a := (x.a.enc false).2, b := (x.b.enc false).2, c := (x.c.enc false).2,
    spd := (x.d.enc true).1, spa := (x.a.enc false).1, spb := (x.b.enc false).1, spc := (x.c.enc false).1, ty := x.ty }

/-- The second word of an operation (R51, R52). -/
def Op.w1 (x : Op) : DWord :=
  match x.ext with
  | .none => match x.b with
    | .l32 w => 0#32 ++ w
    | .l64 w => w
    | _ => 0
  | .mem m => 0#32 ++ m.word
  | .rel off => 0#32 ++ off
  | .sys idx hi => 0#32 ++ (hi ++ idx)
  | .copy c => c.word
  | .mat m => m.word

/-- The X slot's fields in a pair's base word (R57). -/
def pairRaw (xo : Opc) (x : Op) : Raw :=
  let xc := BitVec.ofNat 8 xo.code
  { x.raw xo with len := 3, opc := 0xF0, spd := xc.extractLsb' 0 2, spa := xc.extractLsb' 2 2, spb := xc.extractLsb' 4 2, spc := xc.extractLsb' 6 2 }

/-- The two units of a 64-bit word, low unit first (R39). -/
def units64 (w : DWord) : List Word := [w.extractLsb' 0 32, w.extractLsb' 32 32]

/-- The units of an operation: two, three or four as LEN gives (R39). -/
def encodeOp (o : Opc) (x : Op) : List Word :=
  units64 (x.raw o).word ++ (if x.len == 3#2 then units64 x.w1 else if x.len == 2#2 then [x.w1.extractLsb' 0 32] else [])

/-- The units of an instruction; none for a machine step that is no instruction. -/
def encode (i : Instr) : List Word :=
  match i with
  | .pair xo x yo y => units64 (pairRaw xo x).word ++ units64 (y.raw yo).word
  | i => match i.op? with
    | some (o, x) => encodeOp o x
    | none => []

/-- The four units of a word's low 128 bits. -/
def tableUnits (w : Nat) : List Word := (List.range 4).map fun k => BitVec.ofNat 32 (w >>> (32 * k))

/-- The instruction that the decoder reads from an instruction whose bits are w, as the opcode table numbers them (bit 0 is the least
significant bit of the first unit); bits at and above nbits are zero. The widest form stands: 256 registers, 64 lanes. -/
def decodeTableWord (nbits w : Nat) : Option Instr :=
  match decodeUnits { vregs := 256, width := 64 } (tableUnits (w % 2 ^ nbits)) with
  | .ok i _ => some i
  | .pad => some .pad
  | .bad e => if e.cause == .illop && e.aux.extractLsb' 0 4 == 1#4 then some (.unassignedOpcode (BitVec.ofNat 8 (w / 4 % 256))) else none

/-- Bytes of a word in memory order (R2). -/
def wordBytes (w : Word) : List Byte := toBytes 4 w.toNat

end Sys2Proof
end

