-- ==== Sys2Proof/Config.lean ====
section
/-! DEFINITION. What the spec leaves to an implementation or leaves free. Every name here is opaque: no proof can know its value, so a
claim holds whatever it is. A fresh value is a name applied to State's counter `freeCtr`. -/
namespace Sys2Proof

/-- DESIGN CHOICE (log 10): which value within its bound a special function returns is a fixed function of the operand (R162); the number
chooses among the candidates that the bound leaves. Arguments: opcode, element format, operand code. -/
opaque Config.sfuChoice : Nat → Nat → Nat → Nat
/-- DESIGN CHOICE (log 12): how far a core's copy of CLOCK lies from the counter on the I/O die in a cycle (R80). -/
opaque Config.clockSkew : Nat → Nat → Nat
/-- DESIGN CHOICE (log 13): which entry a full cache, translation cache or walk cache replaces (R199). -/
opaque Config.victim : Nat → Nat
/-- DESIGN CHOICE (log 13): the set of an L1 or instruction cache, and of an L2 slice, that a line belongs to. -/
opaque Config.l1Set : Nat → Nat
opaque Config.l2Set : Nat → Nat
/-- DESIGN CHOICE (log 14): whether a cancelled TIERPF had requested every line when the cancellation reached the engine (R314). -/
opaque Config.tierpfDone : Nat → Bool
/-- DESIGN CHOICE (log 15): whether a sub-array passes the test pattern that MSELF runs (R337, R339). -/
opaque Config.patternPasses : Nat → Bool
/-- DESIGN CHOICE (log 99): where, in units of 64 KiB, the control processor saves the workgroups of a core whose last sub-array it fences
(R338). -/
opaque Config.saveAreaAt : Nat → Nat
/-- DESIGN CHOICE (log 16): the versions that firmware reports (R443). -/
opaque Config.verMin : BitVec 48
opaque Config.verMax : BitVec 48
/-- DESIGN CHOICE (log 17): the fused key's signature check, the SHA3-512 of the image's body, the header's hash and version fields and the
fuse configuration (R450, R451). -/
opaque Config.sigHolds : List Byte → List Byte → Bool
opaque Config.sha3 : List Byte → BitVec 512
opaque Config.headerHash : List Byte → BitVec 512
opaque Config.headerVersion : List Byte → Nat
opaque Config.fuses : BitVec 512
/-- DESIGN CHOICE (log 18): the device number that fabric bring-up gives, and the devices of the fabric group (R443, R453). -/
opaque Config.fabricGroup : BitVec 64
/-- DESIGN CHOICE (log 101): the tile that a peer device offers a claim of this one (R453). -/
opaque Config.peerTile : Nat → Option Nat

end Sys2Proof
end

