-- ==== Sys2Proof/Machine/Float.lean ====
section
/-! DEFINITION. Number formats, exact values, rounding and flags (R126 to R148). A finite value is a sign and a dyadic magnitude
m × 2^e; every sum and product is formed exactly and rounded once. -/
namespace Sys2Proof

/-- Float flags (R72): bit 0 IV, 1 DZ, 2 OF, 3 UF, 4 IX. -/
abbrev Flags := BitVec 5
abbrev fIV : Flags := 1#5
abbrev fDZ : Flags := 2#5
abbrev fOF : Flags := 4#5
abbrev fUF : Flags := 8#5
abbrev fIX : Flags := 16#5

/-- A value read from a code (R127, R135). -/
inductive FVal where
  | nan
  | inf (neg : Bool)
  | fin (neg : Bool) (m : Nat) (e : Int)
  deriving DecidableEq, Repr

/-- A format's field widths and bias (R126); `ieee` says that the all-ones exponent holds infinities and NaNs. -/
structure Fmt where
  ebits : Nat
  fbits : Nat
  ieee : Bool := true
  deriving DecidableEq, Repr

namespace Fmt
def f64 : Fmt := { ebits := 11, fbits := 52 }
def f32 : Fmt := { ebits := 8, fbits := 23 }
def f16 : Fmt := { ebits := 5, fbits := 10 }
def bf16 : Fmt := { ebits := 8, fbits := 7 }
def e4m3 : Fmt := { ebits := 4, fbits := 3, ieee := false }
def e5m2 : Fmt := { ebits := 5, fbits := 2, ieee := false }
end Fmt

/-- The bias (R126). -/
def Fmt.bias (f : Fmt) : Nat := 2 ^ (f.ebits - 1) - 1
/-- The exponent of the smallest normal. -/
def Fmt.emin (f : Fmt) : Int := 1 - (f.bias : Int)
/-- Bits of a code. -/
def Fmt.bits (f : Fmt) : Nat := 1 + f.ebits + f.fbits
/-- The magnitude code of the largest finite value (R126). -/
def Fmt.maxCode (f : Fmt) : Nat :=
  if f.ieee then (2 ^ f.ebits - 1) * 2 ^ f.fbits - 1 else if f.ebits == 4 then 0x7E else 0x7B
/-- The default NaN (R128). -/
def Fmt.nanCode (f : Fmt) : Nat :=
  if f.ieee then (2 ^ f.ebits - 1) * 2 ^ f.fbits + 2 ^ (f.fbits - 1) else 0x7F
/-- Infinity's magnitude code, in a format that has one. -/
def Fmt.infCode (f : Fmt) : Nat := (2 ^ f.ebits - 1) * 2 ^ f.fbits
/-- The sign bit's weight. -/
def Fmt.signBit (f : Fmt) : Nat := 2 ^ (f.ebits + f.fbits)

/-- The magnitude of a finite code: significand and exponent (R127). -/
def Fmt.mag (f : Fmt) (code : Nat) : Nat × Int :=
  let e := code / 2 ^ f.fbits % 2 ^ f.ebits
  let fr := code % 2 ^ f.fbits
  if e == 0 then (fr, f.emin - f.fbits) else (2 ^ f.fbits + fr, (e : Int) - f.bias - f.fbits)

/-- Does a code's sign bit stand? -/
def Fmt.neg (f : Fmt) (code : Nat) : Bool := code / f.signBit % 2 == 1
/-- Is the code subnormal, or a zero? -/
def Fmt.lowExp (f : Fmt) (code : Nat) : Bool := code / 2 ^ f.fbits % 2 ^ f.ebits == 0

/-- Read a code as an arithmetic operand, under FTZ, with the flag it raises (R127, R134 to R136). -/
def Fmt.read (f : Fmt) (ftz : Bool) (code : Nat) : FVal × Flags :=
  let e := code / 2 ^ f.fbits % 2 ^ f.ebits
  let fr := code % 2 ^ f.fbits
  let n := f.neg code
  if f.ieee then
    if e == 2 ^ f.ebits - 1 then
      if fr == 0 then (.inf n, 0) else (.nan, if fr / 2 ^ (f.fbits - 1) == 0 then fIV else 0)
    else if e == 0 && ftz then (.fin n 0 0, 0)
    else (.fin n (f.mag code).1 (f.mag code).2, 0)
  else if f.ebits == 4 then
    if code % 128 == 0x7F then (.nan, fIV) else (.fin n (f.mag code).1 (f.mag code).2, 0)
  else
    if 0x7D ≤ code % 128 then (.nan, fIV)
    else if code % 128 == 0x7C then (.fin n 7 13, 0)
    else (.fin n (f.mag code).1 (f.mag code).2, 0)

/-- The rounding modes (R137). -/
inductive RMode where
  | rne | rz | ru | rd | rs
  deriving DecidableEq, Repr

/-- The mode that a code of FMT.RM names (R71). -/
def RMode.ofCode : Nat → RMode
  | 0 => .rne
  | 1 => .rz
  | 2 => .ru
  | 3 => .rd
  | _ => .rs

/-- The step of an LFSR (R141). -/
def lfsrStep (s : Word) : Word := if s.getLsbD 0 then (s >>> 1) ^^^ 0x80200003#32 else s >>> 1

/-- Is a magnitude between M and M + 1 ulp, with remainder rem of 2^k, rounded up? `rnd` is the number of R141. -/
def roundUpQ (mode : RMode) (neg : Bool) (rnd M rem k : Nat) : Bool :=
  if rem == 0 then false else
  match mode with
  | .rne => 2 ^ k < 2 * rem || (2 * rem == 2 ^ k && M % 2 == 1)
  | .rz => false
  | .ru => !neg
  | .rd => neg
  | .rs => rnd < rem * 2 ^ 24 / 2 ^ k

/-- Round m × 2^e to a multiple of 2^q: the multiple, and whether it is inexact. -/
def roundAt (mode : RMode) (neg : Bool) (rnd m : Nat) (e q : Int) : Nat × Bool :=
  if q ≤ e then (m * 2 ^ (e - q).toNat, false)
  else
    let k := (q - e).toNat
    let M := m / 2 ^ k
    let rem := m % 2 ^ k
    (if roundUpQ mode neg rnd M rem k then M + 1 else M, rem != 0)

/-- The code of M × 2^q, with M at most 2^(fbits+1) and q the exponent that R127 gives its place. -/
def Fmt.encMag (f : Fmt) (M : Nat) (q : Int) : Nat :=
  M + (q - (f.emin - f.fbits)).toNat * 2 ^ f.fbits

/-- What a rounding gives: the code, the flags. -/
structure Rounded where
  code : Nat
  flags : Flags := 0
  deriving DecidableEq, Repr

/-- How a destination is written: the mode and number of the rounding, FTZ and SATP (R137, R138). -/
structure RCtx where
  mode : RMode := .rne
  rnd : Nat := 0
  ftz : Bool := false
  satp : Bool := false
  deriving DecidableEq, Repr

/-- The value of an overflowing result (R137, R138). -/
def Fmt.overflow (f : Fmt) (c : RCtx) (neg : Bool) : Nat :=
  let s := if neg then f.signBit else 0
  if f.ieee then
    let toInf := match c.mode with
      | .rne | .rs => true
      | .rz => false
      | .ru => !neg
      | .rd => neg
    s + (if toInf then f.infCode else f.maxCode)
  else s + (if c.satp then f.maxCode else 0x7F)

/-- Round a finite non-zero exact magnitude m × 2^e into a format, once (R137, R138, R143). -/
def Fmt.roundMag (f : Fmt) (c : RCtx) (neg : Bool) (m : Nat) (e : Int) : Rounded :=
  let s := if neg then f.signBit else 0
  let top : Int := (Nat.log2 m : Int) + e
  let q := (if top < f.emin then f.emin else top) - f.fbits
  let r := roundAt c.mode neg c.rnd m e q
  let code := f.encMag r.1 q
  if f.maxCode < code then { code := f.overflow c neg, flags := fOF ||| fIX }
  else
    let u := roundAt c.mode neg c.rnd m e (top - f.fbits)
    let tiny := top < f.emin && (u.1 * 2 ^ 2 < 2 ^ (f.fbits + 3) || top + 1 < f.emin)
    if c.ftz && f.ieee && code != 0 && code < 2 ^ f.fbits then { code := s, flags := fUF ||| fIX }
    else { code := s + code, flags := (if r.2 then fIX else 0) ||| (if r.2 && tiny then fUF else 0) }

/-- Write an exact value into a format (R137, R138); an exact zero takes the sign given. -/
def Fmt.round (f : Fmt) (c : RCtx) : FVal → Rounded
  | .nan => { code := f.nanCode }
  | .inf n =>
    if f.ieee then { code := (if n then f.signBit else 0) + f.infCode } else { code := f.overflow c n, flags := fOF ||| fIX }
  | .fin n m e => if m == 0 then { code := if n then f.signBit else 0 } else f.roundMag c n m e

/-- The opposite value. -/
def FVal.negate : FVal → FVal
  | .nan => .nan
  | .inf n => .inf (!n)
  | .fin n m e => .fin (!n) m e

/-- Is the value a zero? -/
def FVal.isZero : FVal → Bool
  | .fin _ 0 _ => true
  | _ => false

/-- The value's sign. -/
def FVal.sign : FVal → Bool
  | .nan => false
  | .inf n => n
  | .fin n _ _ => n

/-- An exact product, with IV for infinity times zero (R139, R143). -/
def FVal.mul (a b : FVal) : FVal × Flags :=
  match a, b with
  | .nan, _ => (.nan, 0)
  | _, .nan => (.nan, 0)
  | .inf n, .fin k m _ => if m == 0 then (.nan, fIV) else (.inf (n != k), 0)
  | .fin k m _, .inf n => if m == 0 then (.nan, fIV) else (.inf (n != k), 0)
  | .inf n, .inf k => (.inf (n != k), 0)
  | .fin n m e, .fin k p x => (.fin (n != k) (m * p) (e + x), 0)

/-- The signed integer multiple of 2^q that a finite value is, for q at most its exponent. -/
def FVal.atExp (q : Int) : FVal → Int
  | .fin n m e => let x : Int := (m * 2 ^ (e - q).toNat : Nat); if n then -x else x
  | _ => 0

/-- The exponent of a value. -/
def FVal.exp : FVal → Int
  | .fin _ _ e => e
  | _ => 0

/-- An exact sum of terms (R139, R143, R145): NaN, infinities of both signs (IV), infinity, or the finite sum; an exact zero is −0 when
every term is a zero of sign −; any other zero sum is −0 under RD and +0 under every other mode. -/
def FVal.sum (mode : RMode) (ts : List FVal) : FVal × Flags :=
  let pinf := ts.any fun t => t == .inf false
  let ninf := ts.any fun t => t == .inf true
  let iv : Flags := if pinf && ninf then fIV else 0
  if ts.any (fun t => t == .nan) || (pinf && ninf) then (.nan, iv)
  else if pinf then (.inf false, 0)
  else if ninf then (.inf true, 0)
  else
    let nz := ts.filter fun t => !t.isZero
    let q := nz.foldl (fun (q : Int) t => if t.exp < q then t.exp else q) ((nz.headD (.fin false 0 0)).exp)
    let x := nz.foldl (fun (a : Int) t => a + t.atExp q) 0
    if x == 0 then
      let allNegZero := !ts.isEmpty && ts.all fun t => t.isZero && t.sign
      (.fin (allNegZero || mode == .rd) 0 0, 0)
    else (.fin (x < 0) x.natAbs q, 0)

/-- Largest k with k² ≤ n, found bit by bit from the top. -/
def isqrtFrom (n : Nat) : Nat → Nat → Nat
  | 0, r => r
  | b + 1, r => let t := r + 2 ^ b; isqrtFrom n b (if t * t ≤ n then t else r)

/-- The integer square root. -/
def isqrt (n : Nat) : Nat := isqrtFrom n (Nat.log2 n / 2 + 1) 0

/-- The quotient a/b of non-zero magnitudes to 160 more bits than its operands need, with the last bit set when it is not exact: every
rounding into a format of this part gives the same result from it as from the exact quotient (R161). -/
def divMag (am : Nat) (ae : Int) (bm : Nat) (be : Int) : Nat × Int :=
  let k := 160 + Nat.log2 bm
  let n := am * 2 ^ k
  let q := n / bm
  (2 * q + (if n % bm == 0 then 0 else 1), ae - be - k - 1)

/-- The square root of m × 2^e in the same manner (R161). -/
def sqrtMag (m : Nat) (e : Int) : Nat × Int :=
  let odd := e % 2 != 0
  let m1 := if odd then 2 * m else m
  let e1 := if odd then e - 1 else e
  let n := m1 * 2 ^ 320
  let r := isqrt n
  (2 * r + (if r * r == n then 0 else 1), e1 / 2 - 161)

/-- FDIV's value and flags before rounding (R139, R161). -/
def FVal.div (a b : FVal) : FVal × Flags :=
  match a, b with
  | .nan, _ => (.nan, 0)
  | _, .nan => (.nan, 0)
  | .inf _, .inf _ => (.nan, fIV)
  | .inf n, .fin k _ _ => (.inf (n != k), 0)
  | .fin n _ _, .inf k => (.fin (n != k) 0 0, 0)
  | .fin n m e, .fin k p x =>
    if p == 0 then (if m == 0 then (.nan, fIV) else (.inf (n != k), fDZ))
    else if m == 0 then (.fin (n != k) 0 0, 0)
    else let d := divMag m e p x; (.fin (n != k) d.1 d.2, 0)

/-- FSQRT's value and flags before rounding (R161). -/
def FVal.sqrt : FVal → FVal × Flags
  | .nan => (.nan, 0)
  | .inf n => if n then (.nan, fIV) else (.inf false, 0)
  | .fin n m e => if m == 0 then (.fin n 0 0, 0) else if n then (.nan, fIV) else let d := sqrtMag m e; (.fin false d.1 d.2, 0)

/-- Is a below b, both numbers (+0 equals −0)? -/
def FVal.lt (a b : FVal) : Bool :=
  match a, b with
  | .nan, _ => false
  | _, .nan => false
  | .inf n, .inf k => n && !k
  | .inf n, _ => n
  | _, .inf k => !k
  | .fin _ _ e, .fin _ _ x => let q := if e < x then e else x; a.atExp q < b.atExp q

/-- Are a and b equal numbers? -/
def FVal.eq (a b : FVal) : Bool := a != .nan && b != .nan && !a.lt b && !b.lt a

/-- The order of FMIN and FMAX, in which −0 lies below +0 (R155). -/
def FVal.ltZ (a b : FVal) : Bool := a.lt b || (a.isZero && b.isZero && a.sign && !b.sign)

/-- Round a finite value to an integer (R159, R166): the magnitude, and whether it differs. -/
def FVal.toInt (mode : RMode) (rnd : Nat) : FVal → Int × Bool
  | .fin n m e => let r := roundAt mode n rnd m e 0; (if n then -(r.1 : Int) else r.1, r.2)
  | _ => (0, false)

/-- The value of an E8M0 scale byte below 0xFF (R130). -/
def e8m0 (e : Nat) : FVal := .fin false 1 ((e : Int) - 127)

/-- Multiply a finite value by a power of two. -/
def FVal.scale (k : Int) : FVal → FVal
  | .fin n m e => .fin n m (e + k)
  | v => v

/-- The magnitude of an E2M1 code, in halves (R131). -/
def e2m1Half (code : Nat) : Nat := [0, 1, 2, 3, 4, 6, 8, 12].getD (code % 8) 0

/-- Read an E2M1 element through its scale and extra bytes (R131, R134). -/
def e2m1Read (code scale extra : Nat) : FVal × Flags :=
  if scale % 256 == 0xFF then (.nan, fIV)
  else if code % 16 == 8 then
    let r := Fmt.e4m3.read false (extra % 256)
    if r.1 == .nan then (.nan, fIV) else (r.1.scale ((scale % 256 : Nat) - 127), 0)
  else (.fin (code / 8 % 2 == 1) (e2m1Half code) ((scale % 256 : Nat) - 128), 0)

/-- Read an FP8 code, scaled when `scaled` (R132, R134). -/
def fp8Read (f : Fmt) (scaled : Bool) (code scale : Nat) : FVal × Flags :=
  if scaled && scale % 256 == 0xFF then (.nan, fIV)
  else
    let r := f.read false code
    (if scaled then r.1.scale ((scale % 256 : Nat) - 127) else r.1, r.2)

/-- The rounding candidates of an E2M1 element (R138), each a code and its signed value divided by the scale, in units of 2^-9. -/
def e2m1Cands (extra : Nat) : List (Nat × Int) :=
  let ord := (List.range 8).map fun c => (c, (e2m1Half c * 256 : Nat))
  let pos : List (Nat × Int) := ord.map fun p => (p.1, (p.2 : Int))
  let neg : List (Nat × Int) := (ord.drop 1).map fun p => (p.1 + 8, -(p.2 : Int))
  let all := pos ++ neg
  let ev : Option Int := match (Fmt.e4m3.read false (extra % 256)).1 with
    | .fin n m e => some (let x : Int := (m * 2 ^ (e + 9).toNat : Nat); if n then -x else x)
    | _ => none
  match ev with
  | none => all
  | some x => if all.any (fun p => p.2 == x) then all else all ++ [(8, x)]

/-- Write a value into an E2M1 element whose block has the extra byte given; the value is already divided by the scale (R138, R141, R143).
`rnd` is the number of the stochastic rounding. -/
def e2m1Write (mode : RMode) (rnd extra : Nat) (v : FVal) : Rounded :=
  let cands := e2m1Cands extra
  let top := cands.foldl (fun (b : Nat × Int) p => if b.2 < p.2 then p else b) (0, 0)
  let bot := cands.foldl (fun (b : Nat × Int) p => if p.2 < b.2 then p else b) (0, 0)
  match v with
  | .nan => { code := 0, flags := fIV }
  | .inf n => { code := if n then bot.1 else top.1, flags := fOF ||| fIX }
  | .fin n m e =>
    if m == 0 then { code := 0 }
    else
      let q : Int := if e < -9 then e else -9
      let x := (FVal.fin n m e).atExp q
      let sc : Int := (2 ^ ((-9 - q).toNat) : Nat)
      let cs := cands.map fun p => (p.1, p.2 * sc)
      match cs.find? (fun p => p.2 == x) with
      | some p => { code := p.1 }
      | none =>
        if top.2 * sc < x then { code := top.1, flags := fOF ||| fIX }
        else if x < bot.2 * sc then { code := bot.1, flags := fOF ||| fIX }
        else
          let below := cs.foldl (fun (b : Nat × Int) p => if p.2 < x && b.2 < p.2 then p else b) (bot.1, bot.2 * sc)
          let above := cs.foldl (fun (b : Nat × Int) p => if x < p.2 && p.2 < b.2 then p else b) (top.1, top.2 * sc)
          let dl := x - below.2
          let dh := above.2 - x
          let evenC (c : Nat) : Bool := c % 2 == 0
          let lo := if n then above else below
          let hi := if n then below else above
          let g := ((if n then dh else dl) * 16777216 / (dl + dh)).toNat
          let pick : Nat × Int := match mode with
            | .rne =>
              if dl < dh then below else if dh < dl then above
              else if evenC below.1 && evenC above.1 then (if below.1 == 8 then above else below)
              else if evenC below.1 then below else above
            | .rz => lo
            | .ru => above
            | .rd => below
            | .rs => if rnd < g then hi else lo
          { code := pick.1, flags := fIX ||| (if pick.2 == 0 then fUF else 0) }

end Sys2Proof
end

