-- ==== Sys2Proof/Machine/Special.lean ====
section
/-! DEFINITION. The special functions (R162, R163): exact and special cases, and elsewhere a value within the bound of R162, chosen by a
number that the caller takes from the configuration. Exact values are approximated in fixed point with 400 fraction bits (log 10). -/
namespace Sys2Proof

/-- floor(π × 2^400). -/
def piFx : Nat :=
  8112377246730971238862271351300894519161151600179265203591191037615230905373990498745523360926816815427566779727327576236
/-- floor(ln 2 × 2^400). -/
def ln2Fx : Nat :=
  1789879222497203190815761498240779176894896805856420935579692301363062920687047601279850318367644315849030039181347319086
/-- 1 in fixed point. -/
def oneFx : Nat := 2 ^ 400

/-- The series of exp at y, from its k-th term on. -/
def expTerms (y : Nat) : Nat → Nat → Nat → Nat
  | 0, _, _ => 0
  | fuel + 1, k, t => t + expTerms y fuel (k + 1) (t * y / 2 ^ 400 / k)

/-- exp(y) for 0 ≤ y < 1 in fixed point. -/
def expFx (y : Nat) : Nat := expTerms y 100 1 oneFx

/-- 2^(t / 2^400): a fixed-point number in [1, 2) and a power of two. -/
def exp2Fx (t : Int) : Nat × Int :=
  (expFx ((t % (2 ^ 400 : Nat)).toNat * ln2Fx / 2 ^ 400), t / (2 ^ 400 : Nat))

/-- The digits of log2 of y in [1, 2), most significant first, as a number of that many bits. -/
def log2Digits : Nat → Nat → Nat → Nat
  | 0, _, acc => acc
  | n + 1, y, acc =>
    let s := y * y / 2 ^ 400
    if 2 ^ 401 ≤ s then log2Digits n (s / 2) (2 * acc + 1) else log2Digits n s (2 * acc)

/-- log2(m × 2^e) × 2^250, for m > 0. -/
def log2Fx (m : Nat) (e : Int) : Int :=
  let top := Nat.log2 m
  ((top : Int) + e) * (2 ^ 250 : Nat) + (log2Digits 250 (m * 2 ^ 400 / 2 ^ top) 0 : Nat)

/-- The series of sin at th, from its k-th power on. -/
def sinTerms (th2 : Nat) : Nat → Nat → Int → Int
  | 0, _, _ => 0
  | fuel + 1, k, t => t + sinTerms th2 fuel (k + 2) (-(t * (th2 : Int) / (2 ^ 400 : Nat) / (((k + 1) * (k + 2) : Nat) : Int)))

/-- sin(π t / 2^400) in fixed point: its sign and magnitude. -/
def sinPiFx (t : Int) : Bool × Nat :=
  let r := (t % (2 ^ 401 : Nat)).toNat
  let neg := 2 ^ 400 ≤ r
  let r := if neg then r - 2 ^ 400 else r
  let r := if 2 ^ 399 < r then 2 ^ 400 - r else r
  let th := piFx * r / 2 ^ 400
  (neg, (sinTerms (th * th / 2 ^ 400) 70 1 (th : Int)).toNat)

/-- tanh(t / 2^400) in fixed point, for t > 0. -/
def tanhFx (t : Nat) : Nat :=
  if 2 ^ 408 ≤ t then 2 ^ 400 - 1
  else
    let x := exp2Fx ((2 * t * 2 ^ 400 / ln2Fx : Nat) : Int)
    let e := x.1 * 2 ^ x.2.toNat
    (e - 2 ^ 400) * 2 ^ 400 / (e + 2 ^ 400)

/-- A value as a fixed-point integer. -/
def FVal.toFx : FVal → Int
  | .fin n m e => let x : Int := if 0 ≤ e + 400 then (m * 2 ^ (e + 400).toNat : Nat) else (m / 2 ^ (-(e + 400)).toNat : Nat); if n then -x else x
  | _ => 0

/-- The magnitude code of m × 2^e rounded down, or up, to the precision of a format with no bound on its exponent above. -/
def Fmt.magCode (f : Fmt) (up : Bool) (m : Nat) (e : Int) : Nat :=
  if m == 0 then 0
  else
    let top : Int := (Nat.log2 m : Int) + e
    let q := (if top < f.emin then f.emin else top) - f.fbits
    f.encMag (roundAt (if up then .ru else .rz) false 0 m e q).1 q

/-- Codes as numbers in the order of their values: the greatest whose value is at most x × 2^e. -/
def Fmt.ordFloor (f : Fmt) (x : Int) (e : Int) : Int := if x < 0 then -(f.magCode true x.natAbs e : Int) else f.magCode false x.natAbs e

/-- Is an inexact value tiny: rounded to nearest with an unbounded exponent, is it below the smallest normal (R143, log 10)? -/
def Fmt.tiny (f : Fmt) (m : Nat) (e : Int) : Bool :=
  let top : Int := (Nat.log2 m : Int) + e
  top + 1 < f.emin || (top < f.emin && (roundAt .rne false 0 m e (top - f.fbits)).1 < 2 ^ (f.fbits + 1))

/-- A value of the format within b × 2^be of the inexact exact value ±m × 2^e: the choice picks one of them all (R162). UF goes by the exact
value (R143) or by the flush of the chosen one (R137); a chosen zero takes the exact value's sign. -/
def Fmt.within (f : Fmt) (ftz neg : Bool) (m : Nat) (e : Int) (b : Nat) (be : Int) (choice : Nat) : Rounded :=
  let E := if e < be then e else be
  let x : Int := (m * 2 ^ (e - E).toNat : Nat)
  let w : Int := (b * 2 ^ (be - E).toNat : Nat)
  let hi := f.ordFloor (x + w) E
  let lo := -(f.ordFloor (w - x) E)
  let n := lo + (choice % (hi - lo + 1).toNat : Nat)
  let s := if (n < 0) != neg then f.signBit else 0
  let code := n.natAbs
  let uf : Flags := if f.tiny m e then fUF else 0
  if f.maxCode < code then { code := s + f.infCode, flags := fOF ||| fIX }
  else if ftz && code != 0 && code < 2 ^ f.fbits then { code := s, flags := fUF ||| fIX }
  else { code := s + code, flags := fIX ||| uf }

/-- The exponent of one unit in the last place at m × 2^e: the spacing of the format's values where the exact value lies, so below a power
of two that of the lower binade (DESIGN CHOICE, log 10: R162 does not define its ulp). -/
def Fmt.ulpExp (f : Fmt) (m : Nat) (e : Int) : Int :=
  let top : Int := (Nat.log2 m : Int) + e
  (if top < f.emin then f.emin else top) - f.fbits

/-- A value within some units in the last place of an exact value. -/
def Fmt.nearby (f : Fmt) (ftz neg : Bool) (ulps choice m : Nat) (e : Int) : Rounded := f.within ftz neg m e ulps (f.ulpExp m e) choice

/-- A value within 2^-u of an exact fixed-point value. -/
def Fmt.absolute (f : Fmt) (ftz neg : Bool) (u choice mag : Nat) : Rounded := f.within ftz neg (2 * mag + 1) (-401) 1 (-(u : Int)) choice

/-- A power of two, written exactly where the format holds it (R162). -/
def Fmt.pow2 (f : Fmt) (ftz neg : Bool) (e : Int) : Rounded := f.roundMag { ftz := ftz } neg 1 e

/-- Is the magnitude a power of two? Its exponent then. -/
def pow2? (m : Nat) (e : Int) : Option Int := if m == 2 ^ Nat.log2 m then some ((Nat.log2 m : Int) + e) else none

/-- A quiet NaN result with IV. -/
def Fmt.invalid (f : Fmt) : Rounded := { code := f.nanCode, flags := fIV }

/-- A zero of a sign. -/
def Fmt.zero (f : Fmt) (neg : Bool) : Rounded := { code := if neg then f.signBit else 0 }
/-- An infinity of a sign. -/
def Fmt.infinity (f : Fmt) (neg : Bool) (fl : Flags := 0) : Rounded := { code := (if neg then f.signBit else 0) + f.infCode, flags := fl }

/-- RCP (R162, R163). -/
def sfuRcp (f : Fmt) (ftz : Bool) (choice : Nat) : FVal → Rounded
  | .nan => { code := f.nanCode }
  | .inf n => f.zero n
  | .fin n m e =>
    if m == 0 then f.infinity n fDZ
    else match pow2? m e with
      | some k => f.pow2 ftz n (-k)
      | none => let d := divMag 1 0 m e; f.nearby ftz n 1 choice d.1 d.2

/-- RSQ (R162, R163). -/
def sfuRsq (f : Fmt) (ftz : Bool) (choice : Nat) : FVal → Rounded
  | .nan => { code := f.nanCode }
  | .inf n => if n then f.invalid else f.zero false
  | .fin n m e =>
    if m == 0 then f.infinity n fDZ
    else if n then f.invalid
    else
      let d := divMag 1 0 m e
      let r := sqrtMag d.1 d.2
      match pow2? m e with
      | some k => if k % 2 == 0 then f.pow2 ftz false (-(k / 2)) else f.nearby ftz false 1 choice r.1 r.2
      | none => f.nearby ftz false 1 choice r.1 r.2

/-- EXP2 (R162, R163); the f32 bound is two units in the last place, the 16-bit formats' one. -/
def sfuExp2 (f : Fmt) (ftz : Bool) (choice : Nat) : FVal → Rounded
  | .nan => { code := f.nanCode }
  | .inf n => if n then f.zero false else f.infinity false
  | .fin n m e =>
    let v := FVal.fin n m e
    if m == 0 then f.pow2 ftz false 0
    else
      let t := v.toFx
      if (2 ^ 412 : Nat) < t then f.infinity false (fOF ||| fIX)
      else if t < -((2 ^ 412 : Nat) : Int) then f.nearby ftz false (if f.fbits == 23 then 2 else 1) choice 1 (-4096)
      else if t % (2 ^ 400 : Nat) == 0 then f.pow2 ftz false (t / (2 ^ 400 : Nat))
      else let x := exp2Fx t; f.nearby ftz false (if f.fbits == 23 then 2 else 1) choice (2 * x.1 + 1) (x.2 - 401)

/-- LOG2 (R162, R163). -/
def sfuLog2 (f : Fmt) (ftz : Bool) (choice : Nat) : FVal → Rounded
  | .nan => { code := f.nanCode }
  | .inf n => if n then f.invalid else f.infinity false
  | .fin n m e =>
    if m == 0 then f.infinity true fDZ
    else if n then f.invalid
    else match pow2? m e with
      | some k => if k == 0 then f.zero false else f.round { ftz := ftz } (.fin (k < 0) k.natAbs 0)
      | none =>
        let l := log2Fx m e
        let v := FVal.fin false m e
        if f.fbits == 23 && !v.lt (.fin false 1 (-1)) && !(FVal.fin false 1 1).lt v then f.absolute ftz (l < 0) 22 choice (l.natAbs * 2 ^ 150)
        else f.nearby ftz (l < 0) (if f.fbits == 23 then 2 else 1) choice (2 * l.natAbs + 1) (-251)

/-- SIN and COS of π x (R162, R163); COS is SIN a half later. -/
def sfuSin (f : Fmt) (cos ftz : Bool) (choice : Nat) : FVal → Rounded
  | .nan => { code := f.nanCode }
  | .inf _ => f.invalid
  | .fin n m e =>
    let t := (FVal.fin n m e).toFx
    let t' := if cos then t + (2 ^ 399 : Nat) else t
    if m == 0 then (if cos then f.pow2 ftz false 0 else f.zero n)
    else if t' % (2 ^ 400 : Nat) == 0 then (if cos then f.zero false else f.zero n)
    else if t' % (2 ^ 399 : Nat) == 0 then f.pow2 ftz ((t' % (2 ^ 401 : Nat)) != (2 ^ 399 : Nat)) 0
    else
      let x := sinPiFx t'
      if f.fbits == 23 then f.absolute ftz x.1 22 choice x.2 else f.nearby ftz x.1 1 choice (2 * x.2 + 1) (-401)

/-- TANH (R162, R163): of the two f32 bounds the wider one holds, below 1/4 the absolute one. -/
def sfuTanh (f : Fmt) (ftz : Bool) (choice : Nat) : FVal → Rounded
  | .nan => { code := f.nanCode }
  | .inf n => f.pow2 ftz n 0
  | .fin n m e =>
    if m == 0 then f.zero n
    else
      let x := tanhFx (FVal.fin false m e).toFx.toNat
      if f.fbits == 23 && x < 2 ^ 398 then f.absolute ftz n 24 choice x
      else f.nearby ftz n (if f.fbits == 23 then 2 else 1) choice (2 * x + 1) (-401)

end Sys2Proof
end

