-- ==== Sys2Proof/Machine/Flags.lean ====
section
/-! DEFINITION. FMT's fields (R71), the rounding each element of a result receives (R137, R142, R153), and the flags and traps that come of
it (R143, R171). -/
namespace Sys2Proof

/-- FMT.RM (R71). -/
def fmtRM (fmt : Word) : RMode := RMode.ofCode (fld fmt.toNat 12 10)
/-- FMT.FTZ. -/
def fmtFTZ (fmt : Word) : Bool := fmt.getLsbD 13
/-- FMT.SATP. -/
def fmtSATP (fmt : Word) : Bool := fmt.getLsbD 14
/-- FMT.F8S. -/
def fmtF8S (fmt : Word) : Bool := fmt.getLsbD 15
/-- FMT.TE, in the order of FLAGS. -/
def fmtTE (fmt : Word) : Flags := fmt.extractLsb' 16 5

/-- Is a value one that FMTSET accepts (R71, R82, R129)? -/
def fmtLegal (n : Word) : Bool :=
  fld n.toNat 31 21 == 0 && fld n.toNat 12 10 ≤ 4 && fld n.toNat 3 0 ≤ 6 && fld n.toNat 7 4 ≤ 6 && fld n.toNat 9 8 ≤ 1

/-- The rounding mode of FADD, FSUB, FMUL and FFMA (R153). -/
def fnMode (fmt : Word) (fn : Nat) : RMode :=
  match fn % 8 with
  | 0 => fmtRM fmt
  | 1 => .rne
  | 2 => .rz
  | 3 => .ru
  | 4 => .rd
  | _ => .rs

/-- Round a value into a format as one written element: under RS the LFSR steps once, whatever the value (R141, R142). -/
def Fmt.emit (f : Fmt) (fmt : Word) (mode : RMode) (lf : Word) (v : FVal) : Rounded × Word :=
  let lf' := if mode == .rs then lfsrStep lf else lf
  (f.round { mode := mode, rnd := (lf' >>> 8).toNat, ftz := fmtFTZ fmt, satp := fmtSATP fmt } v, lf')

/-- Add flags to a rounded element. -/
def Rounded.add (r : Rounded) (fl : Flags) : Rounded := { r with flags := r.flags ||| fl }

/-- What a lane computes: D's bits, a predicate result, S2P's predicates, the flags and the LFSR afterwards. -/
structure LaneOut where
  val : Nat := 0
  pred : Bool := false
  preds : BitVec 8 := 0
  flags : Flags := 0
  lfsr : Word := 0
  deriving DecidableEq, Repr

/-- The element format and count of a float type (R53). -/
def tyFmt (ty : Nat) : Fmt × Nat :=
  if ty == 0x0F then (.f64, 1) else if ty == 0x06 then (.f16, 2) else if ty == 0x07 then (.bf16, 2)
  else if ty == 0x10 then (.f16, 1) else if ty == 0x11 then (.bf16, 1) else (.f32, 1)

/-- Element i of a packed value. -/
def elemAt (bits x i : Nat) : Nat := x / 2 ^ (bits * i) % 2 ^ bits

/-- Compute the elements of a packed type in ascending order, threading the LFSR (R142), and join them. -/
def packElems (bits : Nat) (lf : Word) (g : Nat → Word → Rounded × Word) : Nat → Nat → LaneOut
  | 0, _ => { lfsr := lf }
  | k + 1, i =>
    let r := g i lf
    let rest := packElems bits r.2 g k (i + 1)
    { val := r.1.code + 2 ^ bits * rest.val, flags := r.1.flags ||| rest.flags, lfsr := rest.lfsr }

/-- The clamp of `.sat` to [+0.0, 1.0]; NaN and −0 become +0 (R153). -/
def Fmt.clamp01 (f : Fmt) (code : Nat) : Nat :=
  let one := f.bias * 2 ^ f.fbits
  if f.neg code then 0 else if f.infCode < code then 0 else if one < code then one else code

/-- Flush a subnormal code to a zero of its sign (R136). -/
def Fmt.flush (f : Fmt) (ftz : Bool) (code : Nat) : Nat :=
  if ftz && f.lowExp code then (if f.neg code then f.signBit else 0) else code

/-- FMIN or FMAX of two codes (R155). -/
def Fmt.minmax (f : Fmt) (ftz max nanForm : Bool) (a b : Nat) : Nat :=
  let va := (f.read ftz a).1
  let vb := (f.read ftz b).1
  if va == .nan && vb == .nan then f.nanCode
  else if va == .nan then (if nanForm then f.nanCode else f.flush ftz b)
  else if vb == .nan then (if nanForm then f.nanCode else f.flush ftz a)
  else if (if max then va.ltZ vb else vb.ltZ va) then f.flush ftz b else f.flush ftz a

/-- The relation of FCMP and FSET on one element (R156). -/
def cmpRel (fn : Nat) (a b : FVal) : Bool :=
  let n := a == .nan || b == .nan
  let r := match fn % 8 with
    | 0 => a.eq b
    | 1 => !n && !a.eq b
    | 2 => a.lt b
    | 3 => !n && !b.lt a
    | 4 => b.lt a
    | 5 => !n && !a.lt b
    | 6 => !n
    | _ => n
  r || (8 ≤ fn && n)

/-- The class bit of a stored code (R157). -/
def Fmt.classOf (f : Fmt) (code : Nat) : Nat :=
  let e := code / 2 ^ f.fbits % 2 ^ f.ebits
  let fr := code % 2 ^ f.fbits
  let n := f.neg code
  if e == 2 ^ f.ebits - 1 then
    if fr == 0 then (if n then 2 else 9) else if fr / 2 ^ (f.fbits - 1) == 0 then 0 else 1
  else if e == 0 then (if fr == 0 then (if n then 5 else 6) else if n then 4 else 7)
  else if n then 3 else 8

end Sys2Proof
end

