-- ==== Sys2Proof/Machine/Alu.lean ====
section
/-! DEFINITION. What each integer, float and conversion instruction computes in one lane, on operand bits already read (R101 to R125, R154
to R170). PAIR slots and sink bodies use the same functions. -/
namespace Sys2Proof

/-- The operands of one lane: the bits of A, B, C and of D where it is read, predicate operands, and the lane's predicates. -/
structure LaneIn where
  a : Nat := 0
  b : Nat := 0
  c : Nat := 0
  d : Nat := 0
  pa : Bool := false
  pb : Bool := false
  pc : Bool := false
  p : BitVec 8 := 1
  deriving DecidableEq, Repr

/-- The signed or unsigned reading of x under an integer type (i32 and i64 signed). -/
def valTy (ty x : Nat) : Int := if ty == 1 then sgn 32 x else if ty == 3 then sgn 64 x else (x : Int)

/-- The table position of R109. -/
def lutPos (g : Nat) : Nat := g ^^^ (g / 2) ^^^ (g / 4)

/-- The function table of LOP3 and PLOP (R109, R119). -/
def lutOf (fn ty : Nat) : Nat := fn % 4 * 64 + ty

/-- LOP3 over n bits (R109). -/
def lop3N (lut x y z : Nat) : Nat → Nat
  | 0 => 0
  | n + 1 => (if tb lut (lutPos (x % 2 + 2 * (y % 2) + 4 * (z % 2))) then 1 else 0) + 2 * lop3N lut (x / 2) (y / 2) (z / 2) n

/-- The end of the bit field that BFX and BFI name in B (R112). -/
def bfEnd (b : Nat) : Nat := min (b % 256 + b / 256 % 256) 32

/-- BFX (R112). -/
def bfx (signed : Bool) (x b : Nat) : Nat :=
  let pos := b % 256
  let e := bfEnd b
  if e ≤ pos then 0 else let f := x / 2 ^ pos % 2 ^ (e - pos); if signed then sextN (e - pos) 32 f else f

/-- BFI (R113). -/
def bfi (x b z : Nat) : Nat :=
  let pos := b % 256
  let e := bfEnd b
  if e ≤ pos then z else z / 2 ^ e * 2 ^ e + x % 2 ^ (e - pos) * 2 ^ pos + z % 2 ^ pos

/-- The comparison of ICMP and ISET (R118). -/
def icmpRel (cc : Nat) (x y : Int) : Bool :=
  match cc with
  | 0 => x == y
  | 1 => x != y
  | 2 => x < y
  | 3 => x ≤ y
  | 4 => y < x
  | _ => y ≤ x

/-- Quotient and remainder of IDIV (R104). -/
def idivQR (x y : Int) : Int × Int := if y == 0 then (-1, x) else (Int.tdiv x y, x - Int.tdiv x y * y)

/-- The range of a destination type of I2I (R125). -/
def i2iRange (ty : Nat) : Int × Int :=
  match ty with
  | 1 => (-2147483648, 2147483647)
  | 2 => (0, 4294967295)
  | 3 => (-9223372036854775808, 9223372036854775807)
  | 4 => (0, 18446744073709551615)
  | 0x10 => (-128, 127)
  | 0x11 => (0, 255)
  | 0x12 => (-32768, 32767)
  | _ => (0, 65535)

/-- The source value of I2I (R125). -/
def i2iSrc (src a : Nat) : Int :=
  match src with
  | 0 => sgn 32 a
  | 1 => (a % 2 ^ 32 : Nat)
  | 2 => sgn 64 a
  | 3 => (a % 2 ^ 64 : Nat)
  | 4 => sgn 8 a
  | 5 => (a % 256 : Nat)
  | 6 => sgn 16 a
  | _ => (a % 65536 : Nat)

/-- The register bits that I2I writes (R125). -/
def i2iWrite (ty : Nat) (s : Int) : Nat :=
  match ty with
  | 1 | 2 => wrapN 32 s
  | 3 | 4 => wrapN 64 s
  | 0x10 => sextN 8 32 (wrapN 8 s)
  | 0x11 => wrapN 8 s
  | 0x12 => sextN 16 32 (wrapN 16 s)
  | _ => wrapN 16 s

/-- Integer and address instructions in one lane (R101 to R125): D's bits. -/
def intVal (o : Opc) (fn ty : Nat) (x : LaneIn) : Nat :=
  let sa := valTy ty x.a
  let sb := valTy ty x.b
  let m32 := 2 ^ 32
  match o with
  | .iadd => (x.a + x.b) % m32
  | .isub => (x.a + (m32 - x.b % m32)) % m32
  | .imul => x.a * x.b % m32
  | .imulh => wrapN 32 (sa * sb / (2 ^ 32 : Nat))
  | .imad => (x.a * x.b + x.c) % m32
  | .imadw => wrapN 64 (sa * sb + (x.c : Int))
  | .idiv =>
    let q := idivQR (valTy (ty % 32) x.a) (valTy (ty % 32) x.b)
    wrapN (if ty64 (ty % 32) then 64 else 32) (if ty / 32 == 0 then q.1 else q.2)
  | .iabs => let v : Int := ((sgn 32 x.a).natAbs : Int); wrapN 32 (if fn == 1 then clampI (-2147483648) 2147483647 v else v)
  | .ineg => let v := -(sgn 32 x.a); wrapN 32 (if fn == 1 then clampI (-2147483648) 2147483647 v else v)
  | .imin => if sb < sa then x.b else x.a
  | .imax => if sa < sb then x.b else x.a
  | .isad => ((sa - sb).natAbs + x.c) % m32
  | .iaddc => (x.a + x.b + (if x.pc then 1 else 0)) % m32
  | .isubb => wrapN 32 ((x.a : Int) - x.b - (if x.pc then 1 else 0))
  | .iadds => wrapN 32 (if ty == 1 then clampI (-2147483648) 2147483647 (sa + sb) else clampI 0 4294967295 (sa + sb))
  | .isubs => wrapN 32 (if ty == 1 then clampI (-2147483648) 2147483647 (sa - sb) else clampI 0 4294967295 (sa - sb))
  | .and => x.a &&& x.b
  | .or => x.a ||| x.b
  | .xor => x.a ^^^ x.b
  | .lop3 => lop3N (lutOf fn ty) x.a x.b x.c 32
  | .shl => let n := if fn == 1 then x.b % 32 else x.b; if 32 ≤ n then 0 else x.a * 2 ^ n % m32
  | .shr =>
    let n := if fn == 1 then x.b % 32 else x.b
    let k := if 32 ≤ n then 32 else n
    if ty == 1 then wrapN 32 (sgn 32 x.a / (2 ^ k : Nat)) else x.a / 2 ^ k
  | .rot => let n := x.b % 32; x.a * 2 ^ n % m32 + x.a / 2 ^ (32 - n)
  | .funl =>
    let t := x.b * m32 + x.a
    let n := x.c % 32
    if fn == 1 then t * 2 ^ n / m32 % m32 else t / 2 ^ n % m32
  | .bfx => bfx (ty == 1) x.a x.b
  | .bfi => bfi x.a x.b x.c
  | .popc => popN 32 x.a
  | .clz => if x.a == 0 then 32 else 31 - Nat.log2 x.a
  | .brev => revN 32 x.a
  | .sel => if x.pc then x.a else x.b
  | .mov => x.a
  | .movi => x.b
  | .iset => if icmpRel fn (valTy ty x.a) (valTy ty x.b) then 1 else 0
  | .p2s => x.p.toNat
  | .lea => wrapN 64 ((x.a : Int) + (if ty == 1 then sgn 32 x.b else (x.b : Int)) * (2 ^ fn : Nat))
  | .iadd64 => wrapN 64 (if fn == 1 then (x.a : Int) - x.b else (x.a : Int) + x.b)
  | .imul64 => let p := sa * sb; wrapN 64 (if fn == 1 then p / (2 ^ 64 : Nat) else p)
  | .i2i =>
    let s := i2iSrc (fn % 8) x.a
    let r := i2iRange ty
    i2iWrite ty (if 8 ≤ fn then clampI r.1 r.2 s else s)
  | _ => 0

/-- The predicate an integer instruction writes: ICMP and PLOP to D, IADDC and ISUBB to C (R107, R118, R119). -/
def intPred (o : Opc) (fn ty : Nat) (x : LaneIn) : Bool :=
  match o with
  | .icmp => icmpRel fn (valTy ty x.a) (valTy ty x.b)
  | .plop => tb (lutOf fn ty) (lutPos ((if x.pa then 1 else 0) + (if x.pb then 2 else 0) + (if x.pc then 4 else 0)))
  | .iaddc => 2 ^ 32 ≤ x.a + x.b + (if x.pc then 1 else 0)
  | .isubb => x.a < x.b + (if x.pc then 1 else 0)
  | _ => false

/-- S2P: the predicates that B masks take A's bits; p0 stays 1 (R121). -/
def s2pVal (x : LaneIn) : BitVec 8 :=
  let m := BitVec.ofNat 8 x.b &&& 0xFE#8
  (x.p &&& ~~~m) ||| (BitVec.ofNat 8 x.a &&& m) ||| 1#8

/-- One element of FADD, FSUB, FMUL or FFMA (R153, R154). -/
def arithElem (o : Opc) (f : Fmt) (fmt : Word) (fn : Nat) (lf : Word) (a b c : Nat) : Rounded × Word :=
  let ftz := fmtFTZ fmt
  let mode := fnMode fmt fn
  let ra := f.read ftz a
  let rb := f.read ftz b
  let rc := f.read ftz c
  let v : FVal × Flags := match o with
    | .fadd => let s := FVal.sum mode [ra.1, rb.1]; (s.1, s.2 ||| ra.2 ||| rb.2)
    | .fsub => let s := FVal.sum mode [ra.1, rb.1.negate]; (s.1, s.2 ||| ra.2 ||| rb.2)
    | .fmul => let p := FVal.mul ra.1 rb.1; (p.1, p.2 ||| ra.2 ||| rb.2)
    | _ => let p := FVal.mul ra.1 rb.1; let s := FVal.sum mode [p.1, rc.1]; (s.1, s.2 ||| p.2 ||| ra.2 ||| rb.2 ||| rc.2)
  let r := f.emit fmt mode lf v.1
  let out := r.1.add v.2
  (if 8 ≤ fn then { out with code := f.clamp01 out.code } else out, r.2)

/-- The exact sum of products and an addend, rounded into f32 (R146, R160). -/
def dotVal (fmt : Word) (lf : Word) (terms : List ((FVal × Flags) × (FVal × Flags))) (c : FVal × Flags) : LaneOut :=
  let ps := terms.map fun t => let p := FVal.mul t.1.1 t.2.1; (p.1, p.2 ||| t.1.2 ||| t.2.2)
  let s := FVal.sum (fmtRM fmt) (ps.map (·.1) ++ [c.1])
  let r := Fmt.f32.emit fmt (fmtRM fmt) lf s.1
  { val := r.1.code, flags := r.1.flags ||| s.2 ||| c.2 ||| ps.foldl (fun a p => a ||| p.2) 0, lfsr := r.2 }

/-- FSCALE of one element; 2^n beyond any format's range acts as the end of the range does (R159). -/
def fscaleElem (f : Fmt) (fmt : Word) (lf : Word) (a n : Nat) : Rounded × Word :=
  let ra := f.read (fmtFTZ fmt) a
  let r := f.emit fmt (fmtRM fmt) lf (ra.1.scale (clampI (-5000) 5000 (sgn 32 n)))
  (r.1.add ra.2, r.2)

/-- FRND of one element (R159). -/
def frndElem (f : Fmt) (fmt : Word) (fn : Nat) (lf : Word) (a : Nat) : Rounded × Word :=
  let mode := match fn % 8 with
    | 0 => fmtRM fmt
    | 1 => .rne
    | 2 => .rz
    | 3 => .ru
    | _ => .rd
  let lf' := if mode == .rs then lfsrStep lf else lf
  let ra := f.read (fmtFTZ fmt) a
  let out : Rounded := match ra.1 with
    | .fin n m e =>
      let i := (FVal.fin n m e).toInt mode (lf' >>> 8).toNat
      { f.round {} (.fin n i.1.natAbs 0) with flags := if 8 ≤ fn && i.2 then fIX else 0 }
    | v => f.round {} v
  (out.add ra.2, lf')

/-- The source format and code that CVT or F2I names (R151). -/
def cvtSrc (src a : Nat) (hi : Bool) : Fmt × Nat :=
  match src with
  | 0 => (.f32, a % 2 ^ 32)
  | 1 => (.f64, a)
  | 2 => (.f16, if hi then a / 65536 % 65536 else a % 65536)
  | _ => (.bf16, if hi then a / 65536 % 65536 else a % 65536)

/-- F2I (R166). -/
def f2iVal (fn ty a : Nat) (ftz : Bool) : Nat × Flags :=
  let s := cvtSrc (fn % 4) a false
  let r := s.1.read ftz s.2
  let mode : RMode := match fn / 4 with
    | 0 => .rz
    | 1 => .rne
    | 2 => .rd
    | _ => .ru
  let lim := i2iRange ty
  let w := if ty64 ty then 64 else 32
  match r.1 with
  | .nan => (0, fIV)
  | .inf n => (wrapN w (if n then lim.1 else lim.2), fIV)
  | v =>
    let i := (v.toInt mode 0).1
    if i < lim.1 then (wrapN w lim.1, fIV) else if lim.2 < i then (wrapN w lim.2, fIV) else (wrapN w i, 0)

/-- The elements that PACK takes, in order, each a value and the flag of its reading (R168). -/
def packSrc (fn : Nat) (ftz : Bool) (a b : Nat) : List (FVal × Flags) :=
  match fn / 4 with
  | 0 => [Fmt.f32.read ftz a, Fmt.f32.read ftz b]
  | 1 => [Fmt.f16.read ftz (elemAt 16 a 0), Fmt.f16.read ftz (elemAt 16 a 1), Fmt.f16.read ftz (elemAt 16 b 0), Fmt.f16.read ftz (elemAt 16 b 1)]
  | _ => [Fmt.bf16.read ftz (elemAt 16 a 0), Fmt.bf16.read ftz (elemAt 16 a 1), Fmt.bf16.read ftz (elemAt 16 b 0),
      Fmt.bf16.read ftz (elemAt 16 b 1)]

/-- The format of an FP8 type. -/
def fp8Fmt (ty : Nat) : Fmt := if ty == 8 then .e4m3 else .e5m2

/-- Bits of an element of PACK's destination. -/
def packBits (ty : Nat) : Nat := if ty == 0x0A then 4 else if ty == 8 || ty == 9 then 8 else 16

/-- One element of PACK (R138, R141, R168). -/
def packElem (ty : Nat) (fmt : Word) (entry : Nat) (lf : Word) (v : FVal × Flags) : Rounded × Word :=
  let mode := fmtRM fmt
  let lf' := if mode == .rs then lfsrStep lf else lf
  let rnd := (lf' >>> 8).toNat
  let sc := entry % 256
  if ty == 0x0A then
    if sc == 0xFF then ({ code := 0, flags := fIV }, lf')
    else ((e2m1Write mode rnd (entry / 256) (v.1.scale (127 - (sc : Int)))).add v.2, lf')
  else if ty == 8 || ty == 9 then
    let f := fp8Fmt ty
    if fmtF8S fmt then
      if sc == 0xFF then ({ code := 0x7F, flags := fIV }, lf')
      else let r := f.emit fmt mode lf (v.1.scale (127 - (sc : Int))); (r.1.add v.2, r.2)
    else let r := f.emit fmt mode lf v.1; (r.1.add v.2, r.2)
  else
    let f := if ty == 6 then Fmt.f16 else Fmt.bf16
    let r := f.emit fmt mode lf v.1
    (r.1.add v.2, r.2)

/-- PACK (R168). -/
def packVal (fn ty : Nat) (fmt : Word) (lf : Word) (x : LaneIn) : LaneOut :=
  let src := packSrc fn (fmtFTZ fmt) x.a x.b
  let bits := packBits ty
  let r := packElems bits lf (fun i l => packElem ty fmt x.c l (src.getD i (.nan, 0))) src.length 0
  let w := bits * src.length
  let v := if w == 32 then r.val else if fn % 2 == 1 then x.d % 65536 + 65536 * r.val else x.d / 65536 * 65536 + r.val
  { r with val := v }

/-- Element idx of UNPACK's source (R170). -/
def unpackElem (ty : Nat) (fmt : Word) (a entry idx : Nat) : FVal × Flags :=
  if ty == 6 then Fmt.f16.read (fmtFTZ fmt) (elemAt 16 a idx)
  else if ty == 7 then Fmt.bf16.read (fmtFTZ fmt) (elemAt 16 a idx)
  else if ty == 0x0A then e2m1Read (elemAt 4 a idx) (entry % 256) (entry / 256)
  else fp8Read (fp8Fmt ty) (fmtF8S fmt) (elemAt 8 a idx) (entry % 256)

/-- UNPACK (R170). -/
def unpackVal (fn ty : Nat) (fmt : Word) (lf : Word) (x : LaneIn) : LaneOut :=
  let f := if 8 ≤ fn then Fmt.bf16 else Fmt.f32
  let k := if 8 ≤ fn then 2 else 1
  packElems f.bits lf (fun i l =>
    let v := unpackElem ty fmt x.a x.c (if 8 ≤ fn then 2 * (fn % 8) + i else fn % 8)
    let r := f.emit fmt (fmtRM fmt) l v.1
    (r.1.add v.2, r.2)) k 0

/-- The least k from k0 on with |amax| ≤ Fmax × 2^k, within a few steps (R169). -/
def bscaleExp (v : FVal) (fm : Nat) (fe : Int) : Nat → Int → Int
  | 0, k => k
  | n + 1, k => if (FVal.fin false fm (fe + k)).lt v then bscaleExp v fm fe n (k + 1) else k

/-- BSCALE (R169). DEDUCED (log 112): B takes part for e2m1x8 alone, and a signalling NaN there raises IV for no other type. -/
def bscaleVal (ty : Nat) (fmt : Word) (lf : Word) (x : LaneIn) : LaneOut :=
  let ra := Fmt.f32.read (fmtFTZ fmt) x.a
  let rb := Fmt.f32.read (fmtFTZ fmt) x.b
  let fm : Nat × Int := if ty == 0x0A then (3, 1) else if ty == 8 then (7, 6) else (7, 13)
  let s : Nat × Flags := match ra.1 with
    | .nan => (0xFF, fIV)
    | .inf _ => (0xFF, fIV)
    | .fin _ m e =>
      if m == 0 then (0x7F, 0)
      else
        let k := bscaleExp (.fin false m e) fm.1 fm.2 6 ((Nat.log2 m : Int) + e - fm.2 - 3)
        ((clampI (-127) 127 k + 127).toNat, 0)
  if ty == 0x0A && s.1 != 0xFF then
    let xr : Rounded := match rb.1 with
      | .nan => { code := 0x7F, flags := fIV }
      | v => Fmt.e4m3.round { satp := true } (v.scale (127 - (s.1 : Int)))
    { val := xr.code * 256 + s.1, flags := s.2 ||| xr.flags ||| ra.2 ||| rb.2, lfsr := lf }
  else { val := s.1, flags := s.2 ||| ra.2, lfsr := lf }

/-- The special-function instructions on one element; the choice within the bound is the configuration's (R162). -/
def sfuElem (o : Opc) (f : Fmt) (fmt : Word) (lf : Word) (a b : Nat) : Rounded × Word :=
  let ftz := fmtFTZ fmt
  let ra := f.read ftz a
  let ch := Config.sfuChoice o.code (f.bits * 64 + f.fbits) a
  match o with
  | .fdiv =>
    let rb := f.read ftz b
    let q := FVal.div ra.1 rb.1
    let r := f.emit fmt (fmtRM fmt) lf q.1
    (r.1.add (q.2 ||| ra.2 ||| rb.2), r.2)
  | .fsqrt => let q := FVal.sqrt ra.1; let r := f.emit fmt (fmtRM fmt) lf q.1; (r.1.add (q.2 ||| ra.2), r.2)
  | .rcp => ((sfuRcp f ftz ch ra.1).add ra.2, lf)
  | .rsq => ((sfuRsq f ftz ch ra.1).add ra.2, lf)
  | .exp2 => ((sfuExp2 f ftz ch ra.1).add ra.2, lf)
  | .log2 => ((sfuLog2 f ftz ch ra.1).add ra.2, lf)
  | .sin => ((sfuSin f false ftz ch ra.1).add ra.2, lf)
  | .cos => ((sfuSin f true ftz ch ra.1).add ra.2, lf)
  | _ => ((sfuTanh f ftz ch ra.1).add ra.2, lf)

/-- FSIGN on bits (R158). -/
def fsignElem (f : Fmt) (fn a b : Nat) : Nat :=
  let m := a % f.signBit
  let sa := a / f.signBit % 2
  let sb := b / f.signBit % 2
  m + f.signBit * (match fn with
    | 0 => sb
    | 1 => 1 - sa
    | 2 => 0
    | _ => (sa + sb) % 2)

/-- Float and conversion instructions in one lane (R154 to R170). -/
def floatVal (o : Opc) (fn ty : Nat) (fmt : Word) (lf : Word) (x : LaneIn) : LaneOut :=
  let fk := tyFmt ty
  let f := fk.1
  let k := fk.2
  let ftz := fmtFTZ fmt
  let el (y i : Nat) := elemAt f.bits y i
  match o with
  | .fadd | .fsub | .fmul | .ffma => packElems f.bits lf (fun i l => arithElem o f fmt fn l (el x.a i) (el x.b i) (el x.c i)) k 0
  | .fmin | .fmax => packElems f.bits lf (fun i l =>
      ({ code := f.minmax ftz (o == .fmax) (fn == 1) (el x.a i) (el x.b i),
         flags := (f.read ftz (el x.a i)).2 ||| (f.read ftz (el x.b i)).2 }, l)) k 0
  | .fmed3 => packElems f.bits lf (fun i l =>
      let a := el x.a i
      let b := el x.b i
      let c := el x.c i
      ({ code := f.minmax ftz true false (f.minmax ftz false false a b) (f.minmax ftz false false (f.minmax ftz true false a b) c),
         flags := (f.read ftz a).2 ||| (f.read ftz b).2 ||| (f.read ftz c).2 }, l)) k 0
  | .fcmp | .fset =>
    let r := packElems f.bits lf (fun i l =>
      let ra := f.read ftz (el x.a i)
      let rb := f.read ftz (el x.b i)
      ({ code := if cmpRel fn ra.1 rb.1 then 2 ^ f.bits - 1 else 0, flags := ra.2 ||| rb.2 }, l)) k 0
    { r with pred := r.val == 2 ^ (f.bits * k) - 1 }
  | .fclass =>
    { val := if k == 2 then 2 ^ f.classOf (el x.a 0) + 65536 * 2 ^ f.classOf (el x.a 1) else 2 ^ f.classOf (el x.a 0), lfsr := lf }
  | .fscale => packElems f.bits lf (fun i l => fscaleElem f fmt l (el x.a i) x.b) k 0
  | .frnd => packElems f.bits lf (fun i l => frndElem f fmt fn l (el x.a i)) k 0
  | .fdot2 =>
    let r (y i : Nat) := f.read ftz (elemAt 16 y i)
    dotVal fmt lf [(r x.a 0, r x.b 0), (r x.a 1, r x.b 1)] (Fmt.f32.read ftz x.c)
  | .fdot4 =>
    let r (y i : Nat) := (fp8Fmt ty).read false (elemAt 8 y i)
    dotVal fmt lf [(r x.a 0, r x.b 0), (r x.a 1, r x.b 1), (r x.a 2, r x.b 2), (r x.a 3, r x.b 3)] (Fmt.f32.read ftz x.c)
  | .fsign => packElems f.bits lf (fun i l => ({ code := fsignElem f fn (el x.a i) (el x.b i) }, l)) k 0
  | .cvt =>
    let s := cvtSrc (fn % 8) x.a (8 ≤ fn)
    let v := s.1.read ftz s.2
    let r := f.emit fmt (fmtRM fmt) lf v.1
    { val := r.1.code, flags := r.1.flags ||| v.2, lfsr := r.2 }
  | .f2i => let r := f2iVal fn ty x.a ftz; { val := r.1, flags := r.2, lfsr := lf }
  | .i2f =>
    let s := i2iSrc (fn % 4) x.a
    let r := f.emit fmt (fmtRM fmt) lf (.fin (s < 0) s.natAbs 0)
    { val := r.1.code, flags := r.1.flags, lfsr := r.2 }
  | .pack => packVal fn ty fmt lf x
  | .unpack => unpackVal fn ty fmt lf x
  | .bscale => bscaleVal ty fmt lf x
  | .fdiv | .fsqrt | .rcp | .rsq | .exp2 | .log2 | .sin | .cos | .tanh =>
    packElems f.bits lf (fun i l => sfuElem o f fmt l (el x.a i) (el x.b i)) k 0
  | _ => { lfsr := lf }

/-- What an integer, float or conversion instruction computes in one lane. -/
def aluVal (o : Opc) (fn ty : Nat) (fmt : Word) (lf : Word) (x : LaneIn) : LaneOut :=
  if o.family == .integer then { val := intVal o fn ty x, pred := intPred o fn ty x, preds := s2pVal x, lfsr := lf }
  else floatVal o fn ty fmt lf x

/-- An operand value that an instruction refuses at execution in a lane, with ILLOP code 9: PACK's scale entry with bits [31:16] set
(R168), FDOT4 under F8S (R160). -/
def aluRefuses (o : Opc) (ty : Nat) (fmt : Word) (x : LaneIn) : Bool :=
  match o with
  | .fdot4 => fmtF8S fmt
  | .pack => (ty == 0x0A || ((ty == 8 || ty == 9) && fmtF8S fmt)) && x.c / 65536 % 65536 != 0
  | _ => false

end Sys2Proof
end

