-- ==== Sys2Proof/Machine/Store.lean ====
section
/-! DEFINITION. Sparse data in one canonical form: a store lists the keys whose value is not zero, strictly rising; a table lists records
by key. -/
namespace Sys2Proof

/-- A sparse map from keys to w-bit values; an unlisted key reads as zero. -/
abbrev Store (w : Nat) := List (Nat × BitVec w)

/-- The value at a key. -/
def Store.get {w : Nat} : Store w → Nat → BitVec w
  | [], _ => 0#w
  | (a, v) :: r, k => if k < a then 0#w else if k = a then v else Store.get r k

/-- The store without the entries at its front whose keys are at most k. -/
def Store.dropTo {w : Nat} (k : Nat) : Store w → Store w
  | [] => []
  | (a, v) :: r => if a ≤ k then Store.dropTo k r else (a, v) :: r

/-- Write a value at a key; writing zero removes the entry. -/
def Store.set {w : Nat} : Store w → Nat → BitVec w → Store w
  | [], k, v => if v = 0#w then [] else [(k, v)]
  | (a, x) :: r, k, v =>
    if k < a then (if v = 0#w then (a, x) :: r else (k, v) :: (a, x) :: r)
    else if k = a then (if v = 0#w then Store.dropTo k r else (k, v) :: r)
    else (a, x) :: Store.set r k v

/-- The keys from lo on, strictly rising, and no value zero. -/
def Store.wfFrom {w : Nat} : Nat → Store w → Bool
  | _, [] => true
  | lo, (a, v) :: r => lo ≤ a && v != 0#w && Store.wfFrom (a + 1) r

/-- The canonical form: keys strictly rising, no value zero. -/
def Store.wf {w : Nat} (m : Store w) : Bool := Store.wfFrom 0 m

/-- Write consecutive values from a key. -/
def Store.setList {w : Nat} (m : Store w) (k : Nat) : List (BitVec w) → Store w
  | [] => m
  | v :: vs => Store.setList (m.set k v) (k + 1) vs

/-- Read n consecutive values from a key. -/
def Store.getList {w : Nat} (m : Store w) (k n : Nat) : List (BitVec w) := (List.range n).map fun i => m.get (k + i)

/-- Remove the keys from lo to k. -/
def Store.clearTo {w : Nat} (lo k : Nat) : Store w → Store w
  | [] => []
  | (a, v) :: r => if a < lo then (a, v) :: Store.clearTo lo k r else Store.dropTo k ((a, v) :: r)

/-- Remove the keys in [lo, lo + n). -/
def Store.clear {w : Nat} (m : Store w) (lo n : Nat) : Store w := if n = 0 then m else Store.clearTo lo (lo + n - 1) m

/-- Records by key. -/
abbrev Table (α : Type) := List (Nat × α)

/-- The record at a key. -/
def Table.get? {α : Type} : Table α → Nat → Option α
  | [], _ => none
  | (a, x) :: r, k => if k = a then some x else Table.get? r k

/-- The record at a key, or a default. -/
def Table.getD {α : Type} (t : Table α) (k : Nat) (d : α) : α := (Table.get? t k).getD d

/-- Put a record at a key. -/
def Table.put {α : Type} : Table α → Nat → α → Table α
  | [], k, y => [(k, y)]
  | (a, x) :: r, k, y => if k = a then (a, y) :: r else (a, x) :: Table.put r k y

/-- Remove a key. -/
def Table.erase {α : Type} (t : Table α) (k : Nat) : Table α := t.filter fun e => e.1 != k

end Sys2Proof
end

