-- ==== Sys2Proof/Machine/State.lean ====
section
/-! DEFINITION. The state of the KQ-9480, every piece of it the spec names (INVENTORY.md, State), as plain data; and the state after reset.
Caches and translation caches hold tags only: the data of a byte is in the one store of device memory (log 13). -/
namespace Sys2Proof.Machine

/-- Bytes of memory in canonical form: addresses strictly rising, no zero byte listed; an unlisted address reads zero (R192). -/
abbrev Memory := List Host.Cell

/-- The canonical form of memory. -/
def Memory.wf (m : Memory) : Bool := Store.wf (w := 8) m

/-- A trap record: the contents of the trap registers at delivery (R404, R407). -/
structure TrapRec where
  cause : BitVec 8 := 0
  pc : DWord := 0
  addr : DWord := 0
  lanes : DWord := 0
  shadow : BitVec 4 := 0
  aux : Word := 0
  deriving DecidableEq, Repr

/-- An entry of q3: a gathered word, or a faulted gather with its address (R309). -/
structure GEntry where
  val : Word
  addr : DWord := 0
  fault : Option Bad := none
  deriving DecidableEq, Repr

/-- One lane of a group (R69, R75, R140, R306). DESIGN CHOICE (log 89): both LFSRs of a lane that has never held an item are 1. -/
structure Lane where
  v : Store 32 := []
  p : BitVec 8 := 1
  idle : Bool := true
  exm : Bool := false
  workid : DWord := 0
  wgid : DWord := 0
  age : BitVec 16 := 0
  rcpt : BitVec 2 := 0
  vlfsr : Word := 1
  mlfsr : Word := 1
  q0 : List Word := []
  q1 : List Word := []
  q2 : List Word := []
  q3 : List GEntry := []
  /-- gathers already performed for the first addresses of q2, whose entries q3 has had no room for (R309) -/
  gbuf : List GEntry := []
  deriving DecidableEq, Repr

/-- An entry of a reconvergence stack (R367). -/
structure StackEntry where
  phase : Bool
  tpc : BitVec 50
  tmask : BitVec 4
  fmask : BitVec 4
  sexm : BitVec 4
  sfmt : Word
  deriving DecidableEq, Repr

/-- Why a split is not ready (R35, R294, R365). -/
inductive Wait where
  | ready
  /-- the instruction could not issue: a queue, a unit or an earlier result holds it; it is tried whenever its scheduler looks at it -/
  | stall
  /-- FWAIT on a handle that is PEND (R314) -/
  | future (h : BitVec 4)
  /-- BWAIT or BARW on a barrier register: until its PHASE differs (R423); `since` is the start of the time-out -/
  | barrier (b : BitVec 4) (phase : BitVec 16) (since : DWord)
  /-- DBWAIT on the object at an address (R428) -/
  | dbar (addr : DWord) (phase : BitVec 16) (since : DWord)
  /-- arrived at REGANG or REFILL (R376); GTIMER counts from `since`; none once its time-out has been delivered (R378) -/
  | gather (since : Option DWord)
  deriving DecidableEq, Repr

/-- What became of one lane's sunk group (R271, R273, R281). -/
inductive SinkSt where
  /-- sent, not yet run -/
  | sent
  /-- run at a level and unit: the two words that SRET returns, the flags, and the level -/
  | done (r0 r1 : Word) (flags : BitVec 5) (level : BitVec 2) (unit : Nat)
  /-- returned: its registers are written and its entry is free; its receipt waits for the sector it goes to (R276) -/
  | receipt (level : BitVec 2) (unit : Nat)
  /-- returned, its receipt written -/
  | returned
  /-- returned unexecuted with a fault; the aux bits above those of R243 are in the record -/
  | failed (b : Bad)
  deriving DecidableEq, Repr

/-- The anchor of a lane's sunk group as its core found it at issue (R269): ea, its place in DRAM and the leaf that maps it. -/
structure Aim where
  lane : Nat
  ea : Nat
  place : Nat
  leaf : DWord
  /-- the place that its receipt goes to, as step 4 translated it -/
  rplace : Nat := 0
  deriving DecidableEq, Repr

/-- The instruction of a split that lies between issue and fault point (R54, R56): its place, what it is, the lanes active at issue, the
shadow instructions it still allows and those already completed. -/
structure Pend where
  pc : BitVec 50
  opc : Opc
  op : Op
  lanes : DWord
  budget : Nat
  shadow : Nat
  /-- SINK: the lanes' groups and their anchors -/
  sink : List (Nat × SinkSt) := []
  aims : List Aim := []
  /-- MDRAIN: its operation; a special function under an enabled trap: its result -/
  id : Nat := 0
  /-- registers, predicates, queues and handles that it reads or writes, and those that it writes (R54) -/
  regs : List Nat := []
  dst : List Nat := []
  /-- SINK: its body (R263) and the program counter of the instruction after SRET -/
  body : List (Opc × Op) := []
  after : BitVec 50 := 0
  /-- the epoch of its core at issue, which its messages bear (R455) -/
  epoch : BitVec 16 := 0
  /-- a memory instruction: lanes that it has found faulting while others still wait; `lanes` are those that wait (R393) -/
  bad : List (Nat × Bad) := []
  deriving DecidableEq, Repr

/-- Accesses that a FENCE holds back: kinds in Q, until the operations and gathers named have been performed (R258, R309). -/
structure Fence where
  q : BitVec 6
  ids : List Nat
  /-- gathers of the split's lanes that were outstanding: lane and how many are still to come -/
  gathers : List (Nat × Nat) := []
  deriving DecidableEq, Repr

/-- An entry of the split table (R365) with the registers each split holds (R69). -/
structure Split where
  slices : BitVec 16
  pc : BitVec 50
  s : Store 32 := []
  fmt : Word := 0
  flags : BitVec 5 := 0
  priv : BitVec 2 := 0
  order : DWord := 0
  starve : BitVec 10 := 0
  mark : BitVec 16 := 0
  wait : Wait := .ready
  held : Option TrapRec := none
  /-- FPE of an instruction that raised a gather fault in other lanes: delivered once its re-execution completes (R171, R309; log 90) -/
  owed : Option TrapRec := none
  /-- the program counter of that instruction -/
  owedBy : BitVec 50 := 0
  pend : Option Pend := none
  /-- RTE: the lanes in which the next instruction runs, and the instructions to pass over after it (R89) -/
  rerun : Option (DWord × Nat) := none
  skip : Nat := 0
  /-- the program counter was set by a transfer of control (R42) -/
  jumped : Bool := false
  fences : List Fence := []
  /-- waits that timed out: the instruction and the wait, which RTE resumes (R378, R425) -/
  timedOut : List (BitVec 50 × Wait) := []
  /-- the last value read from CLOCK (R80) -/
  lastClock : DWord := 0
  deriving DecidableEq, Repr

/-- A future handle (R312): its state code, what kind of operation it names (1 copy, 2 matrix, 3 TIERPF, 4 LAUNCH, 5 CTXLOAD) and which. -/
structure Handle where
  st : BitVec 2 := 0
  kind : Nat := 0
  op : Nat := 0
  deriving DecidableEq, Repr

/-- The accumulators of one octet (R319): element (i, j) of accumulator a at key 256a + 32i + j. -/
structure Octet where
  elems : Store 64 := []
  tag : BitVec 4 := 0
  poison : BitVec 4 := 0
  deriving DecidableEq, Repr

/-- The kinds of matrix operation. -/
inductive MatKind where
  | mma | mmaz | mdrain | mfill
  deriving DecidableEq, Repr

/-- A matrix operation issued and not complete (R327, R333, R334): what was captured at issue and, for MDRAIN and MFILL, the rounds moved. -/
structure MatOp where
  id : Nat
  kind : MatKind
  acc : Nat
  /-- the lowest slice of the issuing split -/
  slice : Nat
  slices : BitVec 16
  fmt : Word
  lanes : DWord
  idle : DWord
  arows : Store 256 := []
  ascale : Store 32 := []
  desc : MatDesc := ⟨0, 0, 0, 0, 0, 0, 0, 0, 0, 0, 0⟩
  ls : Bool := false
  z : Bool := false
  base : Nat := 0
  pitch : Nat := 0
  round : Nat := 0
  /-- MDRAIN, MFILL: the TAG of each octet as the operations issued before it leave it -/
  tags : BitVec 8 := 0
  /-- sub-arrays on which its residue check failed (R337) -/
  avoid : BitVec 8 := 0
  deriving DecidableEq, Repr

/-- A result of the special-function unit not yet written (R105, R164). -/
structure SfuRes where
  id : Nat
  slices : BitVec 16
  dst : Opnd
  n : Nat
  lanes : DWord
  vals : Store 64
  flags : BitVec 5
  /-- lanes in which a flag with its trap enabled was raised, and those flags -/
  trapLanes : DWord := 0
  trapFlags : BitVec 5 := 0
  traps : Bool := false
  /-- D = q4: a device record was lost after the push took its place (R310) -/
  ovf : Bool := false
  deriving DecidableEq, Repr

/-- A record of q4 (R310), with how many of its words are still to pop. -/
structure EvtRec where
  w0 : Word
  w1 : Word
  w2 : Word
  w3 : Word
  deriving DecidableEq, Repr

/-- The task a group runs (R355, R356). -/
structure TaskRun where
  env : DWord
  budget : Word
  /-- the cycle from which the budget counter counts -/
  start : DWord := 0
  /-- the budget of this run has been delivered -/
  spent : Bool := false
  deriving DecidableEq, Repr

/-- A resident group (R6, R69, R75, R365, R417). -/
structure Group where
  wg : Nat
  gid : BitVec 4
  width : Nat
  lanes : List Lane
  splits : List Split
  rstacks : List (List StackEntry)
  handles : List Handle
  q4 : List EvtRec := []
  q4pos : Nat := 0
  trap : TrapRec := {}
  tpriv : BitVec 2 := 0
  towner : BitVec 4 := 0
  /-- open traps that handlers have set aside with TRAPCAUSE = 0 to take traps of their own (R406) -/
  aside : Nat := 0
  octets : List Octet := []
  mops : List MatOp := []
  results : List SfuRes := []
  sealSeq : Word := 0
  /-- the lowest identifier the group held when it started (R21) -/
  first : DWord := 0
  admitted : DWord := 0
  /-- the start block has been read (R6, R475) -/
  started : Bool := false
  retired : Bool := false
  /-- ended by a trap while it runs a task: the task is completed when the group has drained (R360) -/
  ending : Bool := false
  task : Option TaskRun := none
  deriving DecidableEq, Repr

/-- A barrier register with its LEFT, FIRST and postmark record (R417, R418, R426). -/
structure BarReg where
  tb : Word := 0
  phase : BitVec 16 := 0
  arrived : BitVec 8 := 0
  expected : BitVec 8 := 0
  left : BitVec 16 := 0
  first : DWord := 0
  /-- 4 rows of 17 entries -/
  post : List (BitVec 16) := List.replicate 68 0xFFFF#16
  /-- some arrival has been made in the open phase, and the groups that made one -/
  seen : Bool := false
  who : BitVec 16 := 0
  /-- the groups of which some split has executed BARV or BARW in the open phase (R420) -/
  marked : BitVec 16 := 0
  deriving DecidableEq, Repr

/-- What a launch gives its workgroups (R344). -/
structure Params where
  kind : Nat := 0
  width : Nat := 16
  vregs : Nat := 16
  localkb : Nat := 0
  entry : DWord := 0
  widths : List Nat := [64, 0, 0, 0, 0, 0]
  wglevel : Nat := 1
  tilelevel : Nat := 1
  refill : Nat := 1
  items : DWord := 0
  producer : BitVec 8 := 0xFF
  groups : Nat := 1
  privwords : Word := 0
  args : DWord := 0
  traptab : DWord := 0
  targets : DWord := 0
  deadline : DWord := 0
  budget : Word := 0
  barto : Word := 0
  fmtinit : Word := 0
  devset : DWord := 0
  deriving DecidableEq, Repr

/-- A pre-emption of a workgroup (R409, R414): the save area, its REASON, and whether the control processor loads the image again on the
same die at once (R454). -/
structure Preempt where
  area : DWord
  reason : BitVec 8
  reload : Bool := false
  deriving DecidableEq, Repr

/-- A running workgroup (R13, R17, R203, R205). -/
structure Workgroup where
  core : Nat
  part : Nat
  launch : Nat
  par : Params
  slots : List Nat
  wgid : DWord := 0
  /-- dispenser: the next identifier, and the end of the run it may dispense without adopting (R21, R24) -/
  next : Nat := 0
  stop : Nat := 0
  /-- the tile the dispenser's items come from, and every tile it has taken items of -/
  tile : Nat := 0
  tiles : List Nat := []
  ls : Memory := []
  lsPoison : Store 1 := []
  lsBad : Store 1 := []
  bars : List BarReg := []
  bufset : Option Nat := none
  task : Bool := false
  /-- pre-emption requested (R409) -/
  preempt : Option Preempt := none
  deriving DecidableEq, Repr

/-- A copy in flight (R294): its rows' source addresses and lanes, with the translation of each 64 KiB page. -/
structure CopyOp where
  id : Nat
  key : Nat
  wg : Nat
  core : Nat
  bar : BitVec 4
  lane : Nat
  rot : Nat
  dst : Nat
  dest : Nat
  dp : Nat
  rowb : Nat
  rows : List (DWord × Nat)
  /-- 64 KiB virtual page, physical base, hash -/
  pages : List (Nat × Nat × Nat)
  batch : Option Word := none
  /-- CPYG: the lanes of its rows (R300) -/
  lanes : DWord := 0
  /-- the epoch of its core at issue (R455) -/
  epoch : BitVec 16 := 0
  deriving DecidableEq, Repr

/-- A TIERPF in progress (R261). -/
structure TierOp where
  id : Nat
  core : Nat
  wg : Nat
  lines : List Nat
  bar : Option (BitVec 4) := none
  cancelled : Bool := false
  deriving DecidableEq, Repr

/-- A sector's state in an L1 or the class of its line (R196). -/
inductive LineCls where
  | priv | shared | owned
  deriving DecidableEq, Repr

/-- A line of an L1 data cache (R196, R200, R385): its place in DRAM / 128, its tag, its sectors and the slot that filled it. -/
structure L1Line where
  line : Nat
  ctx : BitVec 16
  cls : LineCls
  valid : BitVec 4
  dirty : BitVec 4
  slot : BitVec 6
  deriving DecidableEq, Repr

/-- A line of an instruction cache (R195, R200): the blocks held. -/
structure ILine where
  line : Nat
  ctx : BitVec 16
  valid : BitVec 4
  deriving DecidableEq, Repr

/-- A line of an L2 slice with its directory entry (R198), and the forwarded mark (R271). -/
structure L2Line where
  line : Nat
  ctx : BitVec 16
  shr : BitVec 192
  p : Bool
  o : Bool
  sv : BitVec 4
  sd : BitVec 4
  fwd : Bool := false
  deriving DecidableEq, Repr

/-- An entry of a translation cache (R396): a leaf and the level and address it was read at. -/
structure TlbEntry where
  ctx : BitVec 16
  page : Nat
  level : Nat
  leaf : DWord
  at' : Nat
  deriving DecidableEq, Repr

/-- An entry of a walk cache (R396): the table that a pointer entry names. -/
structure WalkEntry where
  ctx : BitVec 16
  page : Nat
  level : Nat
  table : Nat
  deriving DecidableEq, Repr

/-- State of a sink pending table entry (R275). -/
inductive EntrySt where
  | inFlight | unexecuted | resending
  deriving DecidableEq, Repr

/-- An entry of the sink pending table (R275): the physical sector PA[40:5], the group slot and lane. -/
structure SinkEntry where
  sector : Nat
  slot : Nat
  lane : Nat
  st : EntrySt
  deriving DecidableEq, Repr

/-- An entry of the miss tracker (R241) or of the translation-miss table (R398): a sector or a 64 KiB virtual page, and the group slot and
split whose accesses it serves; for a translation miss, the fault of a walk of the page that it shares (R399). -/
structure MissEntry where
  what : Nat
  slot : Nat
  split : Nat
  fault : Option Bad := none
  deriving DecidableEq, Repr

/-- The matrix engine's sub-arrays (R337, R339). -/
structure MatUnit where
  trans : BitVec 8 := 0
  fenced : BitVec 8 := 0
  inject : BitVec 8 := 0
  /-- cycles each sub-array has worked since its last test -/
  work : List Nat := List.replicate 8 0
  deriving DecidableEq, Repr

/-- A core (R75, R76, R195, R205, R275, R383, R385, R396). -/
structure Core where
  carve : BitVec 4 := 1
  carvePend : Bool := false
  carveReq : BitVec 4 := 1
  mmin : BitVec 5 := 2
  mmax : BitVec 5 := 16
  fix : Bool := false
  lmin : BitVec 4 := 1
  lmax : BitVec 4 := 8
  ctxid : BitVec 16 := 0
  /-- memory-active set size of each scheduler -/
  m : List (BitVec 5) := [16, 16, 16, 16]
  /-- core event counters, at 8 × scheduler + k -/
  ev : Store 48 := []
  lls : Store 8 := []
  sink : List SinkEntry := []
  misses : List MissEntry := []
  xmiss : List MissEntry := []
  l1 : List L1Line := []
  icache : List ILine := []
  vta : List (Nat × Nat) := []
  tlb : List TlbEntry := []
  walk : List WalkEntry := []
  /-- operand buffers: byte at 131072 × set + 16384 × buffer + offset; poisoned and uncorrectable granules -/
  bufs : Memory := []
  bufPoison : Store 1 := []
  bufBad : Store 1 := []
  mat : MatUnit := {}
  retired : Bool := false
  asleep : Bool := false
  stopped : Bool := false
  epoch : BitVec 16 := 0
  /-- on its way to another partition: the CARVELIM, CTXID and THROTTLE that it is to take once its workgroups have drained (R415) -/
  moving : Option (BitVec 8 × BitVec 16 × BitVec 17) := none
  deriving DecidableEq, Repr

/-- A partition's registers (R75, R443). -/
structure Partition where
  accepted : BitVec 56 := 0
  completed : BitVec 56 := 0
  lwbase : DWord := 0
  ctxtbase : DWord := 0
  poolbase : DWord := 0
  poolsize : DWord := 0
  tfbase : DWord := 0
  svec : DWord := 0
  hvec : DWord := 0
  ctxret : Word := 0
  pdies : BitVec 4 := 0
  pctx : BitVec 16 := 0
  pcores : BitVec 192 := 0
  /-- letterboxes whose record the host wrote before it crashed, and has not written again (R448) -/
  stale : BitVec 64 := 0
  deriving DecidableEq, Repr

/-- A started tile (R25, R430): its cursor, the end of its items, and whether its last item has been dispensed and it is Done. -/
structure Started where
  tile : Nat
  die : Nat
  cursor : Nat
  stop : Nat
  done : Bool := false
  deriving DecidableEq, Repr

/-- A die's share of a launch's tiles (R15, R430): the tiles from `next` to `stop` are Queued, or Stealable once `steal` is set; those it
has Claimed from other dies. -/
structure Share where
  next : Nat
  stop : Nat
  steal : Bool := false
  claimed : List Nat := []
  deriving DecidableEq, Repr

/-- A launch in the launch table (R343 to R349, R354). -/
structure Launch where
  part : Nat
  seq : BitVec 56
  prio : Nat
  par : Params
  dep : List DWord
  doneaddr : DWord
  /-- a child launch: its parent, and the operation its LAUNCH handle names -/
  parent : Option Nat := none
  handle : Nat := 0
  tasks : Word := 0
  faults : Word := 0
  shares : Table Share := []
  started : List Started := []
  /-- items dispensed -/
  given : Nat := 0
  /-- items of this device's share -/
  total : Nat := 0
  seeded : Bool := false
  aborted : Bool := false
  /-- entered for a peer device, which writes the completion record (R453); peers that have still to report -/
  forPeer : Bool := false
  peers : Nat := 0
  deriving DecidableEq, Repr

/-- A reference on a die task queue (R353). -/
structure TaskRef where
  env : DWord
  launch : Nat
  deadline : DWord
  num : Nat
  deriving DecidableEq, Repr

/-- MASK and TS of a row group (R212, R213). -/
structure RowGroup where
  mask : BitVec 8 := 0
  ts : BitVec 16 := 0
  stale : Bool := true
  /-- the refresh window that the group took over at its last slot: true for 16 ms -/
  high : Bool := false
  deriving DecidableEq, Repr

/-- A completion that a saved image still waits for (R410): the operation, the group and handle, and a bound barrier. -/
structure SavedOp where
  id : Nat
  gid : Nat
  handle : Option Nat
  bar : Option (BitVec 4)
  deriving DecidableEq, Repr

/-- A saved image (R410, R412, R414): its area, context and launch; its WGID; the tiles it took items of; its groups as they were saved, for
what the area does not list of them (log 103); and, once queued for admission, the operation that the handle of its CTXLOAD names. -/
structure Image where
  area : DWord
  ctx : BitVec 16
  part : Nat
  launch : Nat
  die : Nat
  wgid : DWord := 0
  task : Bool := false
  tile : Nat := 0
  tiles : List Nat := []
  groups : List Group := []
  ops : List SavedOp := []
  queued : Bool := false
  handle : Nat := 0
  deriving DecidableEq, Repr

/-- Which split issues: its group's key, core × 64 + slot, and its lowest slice. -/
structure Who where
  key : Nat
  split : Nat
  deriving DecidableEq, Repr

/-- What the step does next, where timing leaves it open (R38, R221, R474): a split issues or a machine step is taken, after dt cycles. -/
inductive Turn where
  | issue (dt : Nat) (w : Who)
  | event (dt : Nat) (i : Instr)
  | cycle (dt : Nat)
  deriving DecidableEq, Repr

/-- The home's older copy of a sector that an owner of its private page holds Dirty (R395): its bytes, STAGED, and the code of its
condition (R243). -/
structure OldSector where
  bytes : List Byte
  staged : Bool
  code : Nat
  deriving DecidableEq, Repr

/-- A trap delivered in this cycle: the group, the split and its lowest raising lane (R405). -/
structure TrapAt where
  key : Nat
  split : Nat
  lane : Nat
  deriving DecidableEq, Repr

/-- What this cycle has seen so far, for the orders that R472 states. -/
structure Cycle where
  /-- the place of the last issue in the cycle's order -/
  last : List Nat := []
  /-- retirement drops still to be applied: workgroup and group -/
  drops : List (Nat × BitVec 4) := []
  /-- barriers whose completion test is still to come, and those that have had it: workgroup and number -/
  due : List (Nat × Nat) := []
  closed : List (Nat × Nat) := []
  traps : List TrapAt := []
  deriving DecidableEq, Repr

/-- The device. -/
structure State where
  -- device-wide
  clock : DWord := 0
  powered : Bool := true
  verMin : BitVec 48 := 0
  verMax : BitVec 48 := 0
  versel : BitVec 48 := 0
  go : Bool := false
  err : Bool := false
  fwstat : BitVec 8 := 0
  /-- the image that the boot ROM is verifying: header, body and signature (R443, R450) -/
  fwImage : Option (List Byte × List Byte × List Byte) := none
  devnum : BitVec 6 := 0
  xm : List (BitVec 24) := []
  errHead : BitVec 12 := 0
  errTail : BitVec 12 := 0
  errBase : DWord := 0
  /-- the device memory windows of the CXL.mem decoders, base and size in GiB (R442); DESIGN CHOICE (log 92): one, over all of HBM4E -/
  hdm : List (Nat × Nat) := [(0, 512)]
  fabric : Store 64 := []
  parts : Table Partition := []
  cores : Table Core := []
  groups : Table Group := []
  wgs : Table Workgroup := []
  launches : Table Launch := []
  taskq : Table (List TaskRef) := []
  taskNum : Table Nat := []
  -- memory: bytes and metadata by place in DRAM; the host's memory by address
  mem : Memory := []
  poison : Store 1 := []
  staged : Store 1 := []
  bad : Store 1 := []
  hostMem : Memory := []
  /-- by sector: what a home still holds of sectors Dirty in an owner's L1 (R395) -/
  older : Table OldSector := []
  /-- lines that caches have held since before the hash matrix changed: line of the physical address, and the place it keeps (R207) -/
  xmHeld : List (Nat × Nat) := []
  l2 : List L2Line := []
  sliceTlb : Table (List TlbEntry) := []
  execTlb : Table (List TlbEntry) := []
  gens : Store 4 := []
  retire : List (Nat × BitVec 12) := []
  rows : Table RowGroup := []
  trefwHigh : BitVec 40 := 0
  selfRefresh : BitVec 40 := 0
  chan : Store 48 := []
  ulock : Bool := true
  freeze : Bool := false
  copies : List CopyOp := []
  tierOps : List TierOp := []
  images : Table Image := []
  -- reliability
  retiredUnits : Nat := 0
  spare : List Nat := []
  /-- retired links: fabric links, then die links from bit 16 on (R454) -/
  links : BitVec 32 := 0
  sliceAsleep : BitVec 256 := 0
  hostEpoch : BitVec 16 := 0
  hostFailed : Bool := false
  peerEpoch : Store 16 := []
  peerFailed : BitVec 64 := 0
  coreFailed : BitVec 192 := 0
  throttled : Bool := false
  fwHash : BitVec 512 := 0
  fwVersion : Nat := 0
  spdm : List (Nat × BitVec 512) := []
  -- the model's own
  cur : Option Who := none
  agenda : List Turn := []
  /-- the splits whose issue still holds their scheduler: for this cycle and those to come, whether a gang half issues in it (R11) -/
  issued : List (Who × List Bool) := []
  cyc : Cycle := {}
  nextId : Nat := 1
  /-- requests that wait at the DRAM controllers (R210): sector and whether it writes -/
  dram : List (Nat × Bool) := []
  freeCtr : Nat := 0
  deriving DecidableEq, Repr

/-- Why the machine stops with a fault. -/
inductive Fault where
  /-- Raised when an instruction is run while no resident split issues: the state names none. The spec has no such case: an instruction
  always issues from a split. Safe: no run of the machine reaches it. -/
  | noIssuingSplit
  deriving DecidableEq, Repr

/-- Why the machine refuses. -/
inductive Refusal where
  /-- Raised for an instruction whose meaning is not written. Safe: nothing is claimed of it. -/
  | notModelled (mnemonic : String)
  deriving DecidableEq, Repr

/-- XM[i] at reset: 2^i + 2^(9+i), and 2^(18+i) for i up to 5 (R207). -/
def xmReset : List (BitVec 24) :=
  (List.range 9).map fun i => BitVec.ofNat 24 (2 ^ i + 2 ^ (9 + i) + if i ≤ 5 then 2 ^ (18 + i) else 0)

/-- The machine right after reset: every field at the value the spec gives for reset; no launch, no group, memory with nothing listed. -/
def State.reset : State := { xm := xmReset }

end Sys2Proof.Machine
end

