-- ==== Sys2Proof/Machine/Memory.lean ====
section
/-! DEFINITION. Physical memory: where a line lies (R191, R206), the bytes and metadata of granules (R192 to R194), the host's memory and
the error log in it (R456, R476). A byte's key is its place: the tier's base, then (512 m + h) lines of 128 bytes. -/
namespace Sys2Proof.Machine

/-- The tier that a physical address lies in: false HBM4E, true LPDDR6 (R191). -/
def tierOf (pa : Nat) : Option Bool :=
  if pa < 2 ^ 39 then some false else if 2 ^ 40 ≤ pa && pa < 2 ^ 41 then some true else none

/-- The 9-bit rotation of R206. -/
def rotl9 (x k : Nat) : Nat := x * 2 ^ k % 512 + x / 2 ^ (9 - k)

/-- The home index h and local index m of a line index L under a hash (R206). -/
def homeOf (xm : List (BitVec 24)) (lp : Bool) (hash L : Nat) : Nat × Nat :=
  let n := if lp then 33 else 32
  match hash with
  | 0 => (fld L 8 0 ^^^ fld L 17 9 ^^^ fld L 26 18 ^^^ fld L (n - 1) 27, fld L (n - 1) 9)
  | 1 => (fld L 8 0 ^^^ revN 9 (fld L 17 9) ^^^ rotl9 (fld L 26 18) 4 ^^^ fld L (n - 1) 27, fld L (n - 1) 9)
  | 2 => (128 * fld L (n - 1) (n - 2) + (fld L 6 0 ^^^ fld L 13 7 ^^^ fld L 20 14 ^^^ fld L 27 21 ^^^ fld L (n - 3) 28), fld L (n - 3) 7)
  | _ => (((List.range 9).map fun i => 2 ^ i * ((fld L i i + parN 24 (fld L (n - 1) 9 &&& (xm.getD i 0).toNat)) % 2)).sum, fld L (n - 1) 9)

/-- The place that R206 gives a physical byte under a hash and the matrix as it stands. -/
def placeIn (xm : List (BitVec 24)) (pa hash : Nat) : Nat :=
  let lp := 2 ^ 40 ≤ pa
  let base := if lp then 2 ^ 40 else 0
  let hm := homeOf xm lp hash ((pa - base) / 128)
  base + (hm.2 * 512 + hm.1) * 128 + pa % 128

/-- The place that a line keeps while caches hold it from before the matrix changed (R207). -/
def State.keptPlace (s : State) (pa hash : Nat) : Option Nat :=
  if hash == 3 then (s.xmHeld.find? fun e => e.1 == pa / 128).map fun e => e.2 * 128 + pa % 128 else none

/-- The place of a physical byte under a hash. -/
def State.place (s : State) (pa hash : Nat) : Nat := (s.keptPlace pa hash).getD (placeIn s.xm pa hash)

/-- The home L2 slice of a line number (R206). -/
def sliceOf (line : Nat) : Nat := line % 512 / 2
/-- The die of a line's home slice. -/
def homeDie (line : Nat) : Nat := sliceOf line / 64
/-- Is the line in the LPDDR6 tier? -/
def lineLp (line : Nat) : Bool := 2 ^ 33 ≤ line

/-- The n bytes from a place. -/
def State.bytes (s : State) (p n : Nat) : List Byte := Store.getList s.mem p n
/-- The little-endian value of n bytes from a place (R2). -/
def State.rd (s : State) (p n : Nat) : Nat := ofBytes (s.bytes p n)

/-- What a read of a granule finds (R192, R193, R243). -/
inductive Gran where
  | ok | uncorrectable | poisoned
  deriving DecidableEq, Repr

/-- Bad bytes of a granule (R192). -/
def State.badCount (s : State) (gr : Nat) : Nat := ((List.range 32).filter fun i => s.bad.get (gr * 32 + i) != 0).length

/-- The condition of granule number gr. -/
def State.gran (s : State) (gr : Nat) : Gran :=
  if s.poison.get gr != 0 then .poisoned else if s.bad != [] && 2 ≤ s.badCount gr then .uncorrectable else .ok

/-- The granules that the n bytes at a place touch. -/
def granules (p n : Nat) : List Nat := if n == 0 then [] else rangeFrom (p / 32) ((p + n - 1) / 32 + 1 - p / 32)

/-- Set POISON in a granule; its bad bytes are then known (R193). -/
def State.poisonGran (s : State) (gr : Nat) : State := { s with poison := s.poison.set gr 1, bad := s.bad.clear (gr * 32) 32 }

/-- DATAERR code of a condition (R243): 0 none, 1 uncorrectable, 2 poisoned. -/
def Gran.code : Gran → Nat
  | .ok => 0
  | .uncorrectable => 1
  | .poisoned => 2

/-- The least faulty granule among those the bytes touch, with its code. -/
def State.badGran (s : State) (p n : Nat) : Option (Nat × Nat) :=
  match (granules p n).filter fun g => s.gran g != .ok with
  | [] => none
  | g :: _ => some (g, (s.gran g).code)

/-- A read that finds an uncorrectable error poisons the granule (R193, R247). -/
def State.markRead (s : State) (p n : Nat) : State :=
  (granules p n).foldl (fun s g => if s.gran g == .uncorrectable then s.poisonGran g else s) s

/-- Write bytes at a place, without metadata. -/
def State.setBytes (s : State) (p : Nat) (bs : List Byte) : State := { s with mem := Store.setList s.mem p bs }

/-- The core record of a core number. -/
def State.core (s : State) (c : Nat) : Core := s.cores.getD c {}
/-- Change a core's record. -/
def State.modCore (s : State) (c : Nat) (f : Core → Core) : State := { s with cores := s.cores.put c (f (s.core c)) }

/-- A core's L1 entry for a line under a context (R200). -/
def Core.l1At (k : Core) (line : Nat) (ctx : BitVec 16) : Option L1Line := k.l1.find? fun l => l.line == line && l.ctx == ctx
/-- Does a core's instruction cache hold the line? -/
def Core.holdsCode (k : Core) (line : Nat) (ctx : BitVec 16) : Bool := k.icache.any fun l => l.line == line && l.ctx == ctx
/-- The L2 entry of a line under a context. -/
def State.l2At (s : State) (line : Nat) (ctx : BitVec 16) : Option L2Line := s.l2.find? fun l => l.line == line && l.ctx == ctx

/-- Put an L2 entry in the place of the one with its tag, or after the others. -/
def State.l2Put (s : State) (x : L2Line) : State :=
  if (s.l2At x.line x.ctx).isSome then { s with l2 := s.l2.map fun l => if l.line == x.line && l.ctx == x.ctx then x else l }
  else { s with l2 := s.l2 ++ [x] }

/-- The cores whose L1 or instruction cache holds a line (SHR of a shared page's line, R198). -/
def State.holders (s : State) (line : Nat) (ctx : BitVec 16) : BitVec 192 :=
  maskOf 192 ((s.cores.filter fun e => (e.2.l1At line ctx).isSome || e.2.holdsCode line ctx).map (·.1))

/-- Bring SHR and O of a line's directory entry up to date (R198). -/
def State.syncDir (s : State) (line : Nat) (ctx : BitVec 16) : State :=
  match s.l2At line ctx with
  | none => s
  | some x =>
    if x.p then s
    else s.l2Put { x with shr := s.holders line ctx, o := s.cores.any fun e => match e.2.l1At line ctx with
      | some l => l.cls == .owned
      | none => false }

/-- Bring every directory entry of a line up to date, whatever its context (R198). -/
def State.syncLine (s : State) (line : Nat) : State :=
  (s.l2.filter fun l => l.line == line).foldl (fun s l => s.syncDir line l.ctx) s

/-- Drop a granule's copies from every instruction cache (R194, R231). -/
def dropBlock (line sector : Nat) (t : Table Core) : Table Core :=
  t.map fun e => (e.1, { e.2 with icache :=
    (e.2.icache.map fun l => if l.line == line then { l with valid := l.valid &&& ~~~(1#4 <<< sector) } else l).filter fun l => l.valid != 0 })

/-- The metadata of one granule after a write: `full` says that all 32 bytes were written, `host` that the host wrote them (R193, R194,
R247). -/
def State.granWritten (s : State) (gr : Nat) (full host : Bool) : State :=
  let s := { s with staged := s.staged.set gr (if host then 0 else 1) }
  let s := if full then { s with poison := s.poison.set gr 0, bad := if s.bad == [] then [] else s.bad.clear (gr * 32) 32 }
    else if s.gran gr == .uncorrectable then s.poisonGran gr else s
  ({ s with cores := dropBlock (gr / 4) (gr % 4) s.cores }).syncLine (gr / 4)

/-- Write bytes at a place as one write of the device or the host: granules that it covers whole lose POISON. -/
def State.wr (s : State) (p : Nat) (bs : List Byte) (host : Bool := false) : State :=
  let s1 := (granules p bs.length).foldl (fun s g => s.granWritten g (p ≤ g * 32 && g * 32 + 32 ≤ p + bs.length) host) s
  s1.setBytes p bs

/-- The home keeps what it holds of a sector before its owner's L1 holds it Dirty (R395). -/
def State.keepOld (s : State) (sector : Nat) : State :=
  if (s.older.get? sector).isSome then s
  else { s with older := s.older.put sector ⟨s.bytes (sector * 32) 32, s.staged.get sector != 0, (s.gran sector).code⟩ }

/-- The bytes of a sector as its home holds them: while an owner of its private page holds it Dirty, the older copy (R388, R395). -/
def State.blockRd (s : State) (place n : Nat) : Nat :=
  match s.older.get? (place / 32) with
  | some o => ofBytes ((o.bytes.drop (place % 32)).take n)
  | none => s.rd place n

/-- STAGED of a block at its home (R194, R395). -/
def State.stagedAtHome (s : State) (sector : Nat) : Bool := match s.older.get? sector with
  | some o => o.staged
  | none => s.staged.get sector != 0

/-- DATAERR code of a sector as its home holds it (R243, R395). -/
def State.codeAtHome (s : State) (sector : Nat) : Nat := match s.older.get? sector with
  | some o => o.code
  | none => (s.gran sector).code

/-- Write the n low bytes of a value. -/
def State.wrN (s : State) (p n v : Nat) : State := s.wr p (toBytes n v)

/-- The n bytes at an address of the host's memory. -/
def State.hostRd (s : State) (a n : Nat) : Nat := ofBytes (Store.getList s.hostMem a n)
/-- Write the host's memory. -/
def State.hostWr (s : State) (a : Nat) (bs : List Byte) : State := { s with hostMem := Store.setList s.hostMem a bs }

/-- The fields of an error-log record (R456). -/
structure ErrRec where
  type : Nat
  cls : Nat
  unit : Nat
  code : Nat := 0
  addr : Nat := 0
  seq : Nat := 0
  flags : Nat := 0
  deriving DecidableEq, Repr

/-- The bytes of a record (R456). -/
def ErrRec.bytes (r : ErrRec) (clock : Nat) : List Byte :=
  toBytes 1 r.type ++ toBytes 1 r.cls ++ toBytes 2 r.unit ++ toBytes 4 r.code ++ toBytes 8 r.addr ++ toBytes 8 clock ++ toBytes 7 r.seq ++
    toBytes 1 r.flags

/-- Records that the log still has room for: ERRTAIL never reaches ERRHEAD (R456). -/
def State.logRoom (s : State) : Nat := (s.errHead - s.errTail - 1#12).toNat

/-- Address of record k of the log. -/
def State.logAt (s : State) (k : BitVec 12) : Nat := (s.errBase.toNat + 32 * k.toNat) % 2 ^ 64

/-- Enter one record, with the room checked. -/
def State.logPut (s : State) (r : ErrRec) : State :=
  { s.hostWr (s.logAt s.errTail) (r.bytes s.clock.toNat) with errTail := s.errTail + 1 }

/-- Set LOST in the newest record held; an empty log holds none (R456). -/
def State.logLost (s : State) : State :=
  if s.errHead == s.errTail then s
  else
    let a := s.logAt (s.errTail - 1) + 0x1F
    s.hostWr a [(Store.get s.hostMem a) ||| 1#8]

/-- Enter a set of records whole, or drop it whole and set LOST (R456, R476). -/
def State.logSet (s : State) (rs : List ErrRec) : State :=
  if rs.length ≤ s.logRoom then rs.foldl State.logPut s else s.logLost

/-- Number of a launch's SEQ, for the log. -/
def State.launchSeq (s : State) (l : Nat) : Nat :=
  match s.launches.get? l with
  | some x => x.seq.toNat
  | none => 0

end Sys2Proof.Machine
end

