-- ==== Sys2Proof/Machine/Cache.lean ====
section
/-! DEFINITION. The caches as tags: which lines an L1, an instruction cache and an L2 slice hold, and in what state (R196 to R200, R246,
R304, R385). Their bytes are those of the one store of memory (log 13). -/
namespace Sys2Proof.Machine

/-- How an access reaches its line (R246, R392): in the L1 of the owner of a private page, as a shared line, or at the home alone. -/
inductive Path where
  | priv | shared | home
  deriving DecidableEq, Repr

/-- Is a context's generation current? No lookup under a stale one hits (R200). -/
def State.liveCtx (s : State) (ctx : BitVec 16) : Bool := s.gens.get (ctx.toNat % 4096) == ctx.extractLsb' 12 4
/-- The L1 line that a lookup hits (R200). -/
def State.l1Hit (s : State) (c line : Nat) (ctx : BitVec 16) : Option L1Line := if s.liveCtx ctx then (s.core c).l1At line ctx else none
/-- Put an L1 entry in the place of the one with its tag, or after the others. -/
def Core.l1Put (k : Core) (x : L1Line) : Core :=
  if (k.l1At x.line x.ctx).isSome then { k with l1 := k.l1.map fun l => if l.line == x.line && l.ctx == x.ctx then x else l }
  else { k with l1 := k.l1 ++ [x] }

/-- Ask the controllers for the sectors of a mask (R210). -/
def State.dramAsk (s : State) (line : Nat) (mask : BitVec 4) (write : Bool) : State :=
  { s with dram := s.dram ++ (((List.range 4).filter fun i => mask.getLsbD i).map fun i => (line * 4 + i, write)) }

/-- Sectors of a line that the home has written: dirty in L2, or written to DRAM where L2 does not hold the line (R198). -/
def State.l2Dirty (s : State) (line : Nat) (ctx : BitVec 16) (mask : BitVec 4) : State :=
  match s.l2At line ctx with
  | some x => s.l2Put { x with sv := x.sv ||| mask, sd := x.sd ||| mask }
  | none => s.dramAsk line mask true

/-- Dirty data of an L1 sector goes back to the home slice; a line that L2 does not hold goes to DRAM (R198). Where the home held an older
copy, instruction caches that fetched it lose it (R231, R395). -/
def State.takeBack (s : State) (line : Nat) (ctx : BitVec 16) (mask : BitVec 4) : State :=
  if mask == 0 then s
  else
    let mine (e : Nat × OldSector) : Bool := e.1 / 4 == line && mask.getLsbD (e.1 % 4)
    let s := { s with older := s.older.filter (fun e => !mine e),
                      cores := (s.older.filter mine).foldl (fun t (e : Nat × OldSector) => dropBlock line (e.1 % 4) t) s.cores }
    (s.l2Dirty line ctx mask).syncLine line

/-- Take a line out of a core's L1, dirty sectors first written back. -/
def State.dropL1 (s : State) (c line : Nat) (ctx : BitVec 16) : State :=
  match (s.core c).l1At line ctx with
  | none => s
  | some l => (s.takeBack line ctx l.dirty).modCore c fun k => { k with l1 := k.l1.filter fun x => !(x.line == line && x.ctx == ctx) }

/-- Take the sectors of a mask out of a core's L1, the dirty ones written back (R303): a line without a valid sector goes. -/
def State.dropSectors (s : State) (c line : Nat) (ctx : BitVec 16) (mask : BitVec 4) : State :=
  match (s.core c).l1At line ctx with
  | none => s
  | some l =>
    if l.valid &&& ~~~mask == 0 then s.dropL1 c line ctx
    else (s.takeBack line ctx (l.dirty &&& mask)).modCore c (Core.l1Put · { l with valid := l.valid &&& ~~~mask, dirty := l.dirty &&& ~~~mask })

/-- Take a line out of a core's instruction cache. -/
def Core.dropCode (k : Core) (line : Nat) : Core := { k with icache := k.icache.filter fun x => x.line != line }

/-- Take every copy of a line, L1s and instruction caches, out of the cores that a test accepts; of a private line in its owner's L1 the
sectors of a mask alone (R272, R303). -/
def State.dropCopies (s : State) (line : Nat) (ctx : BitVec 16) (mask : BitVec 4) (p : Nat → Bool) : State :=
  let one (s : State) (c : Nat) : State := match (s.core c).l1At line ctx with
    | some l => if l.cls == .priv then s.dropSectors c line ctx mask else s.dropL1 c line ctx
    | none => s
  ((s.cores.filter fun e => p e.1).foldl (fun s e => (one s e.1).modCore e.1 (Core.dropCode · line)) s).syncLine line

/-- An L2 line leaves its slice: every copy is taken back first (R198). -/
def State.evictL2 (s : State) (x : L2Line) : State :=
  let s := s.dropCopies x.line x.ctx 0xF#4 fun _ => true
  let s := match s.l2At x.line x.ctx with
    | some y => s.dramAsk y.line y.sd true
    | none => s
  { s with l2 := s.l2.filter fun l => !(l.line == x.line && l.ctx == x.ctx), xmHeld := s.xmHeld.filter fun e => e.2 != x.line }

/-- Make room in an L2 set of 16 ways before a fill (R195, R199, R304); a forwarded line stays until its groups' results pass back (R271). -/
def State.roomL2 (s : State) (line : Nat) : State :=
  if s.l2.length < 16 then s
  else
    let same := s.l2.filter fun l => !l.fwd && sliceOf l.line == sliceOf line && Config.l2Set l.line % 768 == Config.l2Set line % 768
    if same.length < 16 then s
    else match same[Config.victim s.freeCtr % 16]? with
      | some x => ({ s with freeCtr := s.freeCtr + 1 }).evictL2 x
      | none => s

/-- The home slice holds the sectors of a mask, filled from DRAM where they are missing; under a stale generation every sector is (R200).
`priv` is the owner of a private page whose L1 the line goes to; without one the entry keeps the class that it has (R198, R394). -/
def State.l2Fill (s : State) (line : Nat) (ctx : BitVec 16) (priv : Option Nat) (mask : BitVec 4) (fill : Bool) : State :=
  let s := if (s.l2At line ctx).isSome then s else s.roomL2 line
  let x : L2Line := (s.l2At line ctx).getD { line := line, ctx := ctx, shr := 0, p := false, o := false, sv := 0, sd := 0 }
  let miss := if s.liveCtx ctx then mask &&& ~~~x.sv else mask
  let s := if fill then s.dramAsk line miss false else s
  let x := match priv with
    | some c => { x with p := true, shr := BitVec.ofNat 192 c, o := false }
    | none => x
  s.l2Put { x with sv := x.sv ||| mask }

/-- A line that a core accesses as one of a shared page becomes one in its directory entry (R198, R394). -/
def State.l2Share (s : State) (line : Nat) (ctx : BitVec 16) : State :=
  match s.l2At line ctx with
  | some x => if x.p then s.l2Put { x with p := false, shr := 0 } else s
  | none => s

/-- A miss finds its line in the victim tag array with its own slot: LLS rises (R385). -/
def Core.countMiss (k : Core) (line : Nat) (slot : BitVec 6) : Core :=
  if k.vta.contains (line, slot.toNat) then
    let l := k.lls.get slot.toNat
    { k with vta := k.vta.erase (line, slot.toNat), lls := if l == 255#8 then k.lls else k.lls.set slot.toNat (l + 1) }
  else k

/-- An eviction enters the victim tag array, first in, first out (R385). -/
def Core.enterVictim (k : Core) (l : L1Line) : Core :=
  let v := k.vta ++ [(l.line, l.slot.toNat)]
  { k with vta := if 1024 < v.length then v.drop 1 else v }

/-- Make room in an L1 set of 8 ways; the L1 holds 64 KiB per unit of CARVE.L1. -/
def State.roomL1 (s : State) (c line : Nat) : State :=
  let k := s.core c
  if k.l1.length < 8 then s
  else
    let sets := 64 * k.carve.toNat
    let same := k.l1.filter fun l => Config.l1Set l.line % sets == Config.l1Set line % sets
    if same.length < 8 then s
    else match same[Config.victim s.freeCtr % 8]? with
      | some x => ((({ s with freeCtr := s.freeCtr + 1 }).dropL1 c x.line x.ctx).modCore c (Core.enterVictim · x)).syncDir x.line x.ctx
      | none => s

/-- A line enters an L1; a line of the same tag and a stale generation is replaced, its dirty sectors first written back (R200). -/
def State.enterL1 (s : State) (c : Nat) (x : L1Line) : State :=
  let s := if s.liveCtx x.ctx then s else s.dropL1 c x.line x.ctx
  let s := if ((s.core c).l1At x.line x.ctx).isSome then s else s.roomL1 c x.line
  s.modCore c (Core.l1Put · x)

/-- Dirty or Owned copies in other cores go back to the home: an owner keeps its line Shared (R197), a private owner gives the sectors of a
mask up (R303). -/
def State.recallOthers (s : State) (c line : Nat) (ctx : BitVec 16) (mask : BitVec 4) : State :=
  (s.cores.filter fun e => e.1 != c).foldl (fun s e => match e.2.l1At line ctx with
    | none => s
    | some l => match l.cls with
      | .owned => (s.takeBack line ctx l.dirty).modCore e.1 (Core.l1Put · { l with cls := .shared, dirty := 0 })
      | .priv => s.dropSectors e.1 line ctx mask
      | .shared => s) s

/-- A load of a sector (R196, R246). -/
def State.loadLine (s : State) (c : Nat) (slot : BitVec 6) (ctx : BitVec 16) (path : Path) (na : Bool) (sector : Nat) : State :=
  let line := sector / 4
  let bit : BitVec 4 := 1#4 <<< (sector % 4)
  match path with
  | .priv =>
    let cur := s.l1Hit c line ctx
    if (cur.any fun l => l.valid &&& bit != 0) then s
    else
      let s := (s.modCore c (Core.countMiss · line slot)).l2Fill line ctx (some c) bit true
      if na then s
      else s.enterL1 c { line := line, ctx := ctx, cls := .priv, valid := (cur.map (·.valid)).getD 0 ||| bit, dirty := (cur.map (·.dirty)).getD 0, slot := slot }
  | .shared =>
    if (s.l1Hit c line ctx).isSome then s
    else
      let s := (s.modCore c (Core.countMiss · line slot)).recallOthers c line ctx 0xF#4
      let s := (s.l2Fill line ctx none 0xF#4 true).l2Share line ctx
      let s := if na then s else s.enterL1 c { line := line, ctx := ctx, cls := .shared, valid := 0xF#4, dirty := 0, slot := slot }
      s.syncDir line ctx
  | .home => ((s.recallOthers c line ctx bit).l2Fill line ctx none bit true).syncDir line ctx

/-- The home performs a store to a sector: every copy of the line that a test accepts is dropped (R197, R246). -/
def State.storeHome (s : State) (c line : Nat) (ctx : BitVec 16) (bit : BitVec 4) (full : Bool) (p : Nat → Bool) : State :=
  let s := (s.recallOthers c line ctx bit).l2Fill line ctx none bit (!full)
  ((s.dropCopies line ctx bit p).takeBack line ctx bit).syncDir line ctx

/-- A store to a sector; `full` says that it writes all 32 bytes, `na` that a miss allocates nothing in L1 (R197, R235, R246). -/
def State.storeLine (s : State) (c : Nat) (slot : BitVec 6) (ctx : BitVec 16) (path : Path) (full : Bool) (sector : Nat)
    (na : Bool := false) : State :=
  let line := sector / 4
  let bit : BitVec 4 := 1#4 <<< (sector % 4)
  match path with
  | .priv =>
    let cur := s.l1Hit c line ctx
    let hit := cur.any fun l => l.valid &&& bit != 0
    let s := if hit then s
      else (s.modCore c (Core.countMiss · line slot)).l2Fill line ctx (some c) (if full then 0 else bit) true
    if na && !hit then s.takeBack line ctx bit
    else
      let valid := (cur.map (·.valid)).getD 0 ||| bit
      let dirty := (cur.map (·.dirty)).getD 0 ||| bit
      s.enterL1 c { line := line, ctx := ctx, cls := .priv, valid := valid, dirty := dirty, slot := (cur.map (·.slot)).getD slot }
  | .shared =>
    let other := s.holders line ctx &&& ~~~(1#192 <<< c)
    match s.l1Hit c line ctx with
    | some l =>
      if l.cls == .owned then s.modCore c (Core.l1Put · { l with dirty := l.dirty ||| bit })
      else if other == 0 then (s.modCore c (Core.l1Put · { l with cls := .owned, dirty := bit })).syncDir line ctx
      else s.storeHome c line ctx bit full (· != c)
    | none =>
      let s := s.modCore c (Core.countMiss · line slot)
      if other == 0 && !na then
        let s := (s.l2Fill line ctx none 0xF#4 true).l2Share line ctx
        (s.enterL1 c { line := line, ctx := ctx, cls := .owned, valid := 0xF#4, dirty := bit, slot := slot }).syncDir line ctx
      else s.storeHome c line ctx bit full (· != c)
  | .home => s.storeHome c line ctx bit full fun _ => true

/-- Is a sector writable in a core's L1 (R196)? -/
def State.writable (s : State) (c sector : Nat) (ctx : BitVec 16) : Bool :=
  match s.l1Hit c (sector / 4) ctx with
  | some l => l.cls == .owned || (l.cls == .priv && l.valid.getLsbD (sector % 4))
  | none => false

/-- Does the home slice hold the sector valid? -/
def State.inL2 (s : State) (sector : Nat) (ctx : BitVec 16) : Bool :=
  match s.l2At (sector / 4) ctx with
  | some l => l.sv.getLsbD (sector % 4)
  | none => false

/-- Write a line's dirty data back to DRAM, from L1s and L2; `inv` also drops every copy (R262). -/
def State.cleanLine (s : State) (line : Nat) (inv : Bool) : State :=
  let tags := (s.l2.filter fun l => l.line == line).map (·.ctx)
  let s := s.cores.foldl (fun s e => (e.2.l1.filter fun l => l.line == line).foldl (fun s l =>
    (s.takeBack line l.ctx l.dirty).modCore e.1 (Core.l1Put · { l with dirty := 0 })) s) s
  tags.foldl (fun s t => match s.l2At line t with
    | none => s
    | some x =>
      let s := (s.dramAsk line x.sd true).l2Put { x with sd := 0 }
      if inv then s.evictL2 { x with sd := 0 } else s) s

/-- Does the private path write a sector that its owner does not hold Dirty yet (R395)? -/
def State.firstDirty (s : State) (c : Nat) (ctx : BitVec 16) (path : Path) (sector : Nat) : Bool :=
  path == .priv && !((s.core c).l1At (sector / 4) ctx).any fun l => l.cls == .priv && l.dirty.getLsbD (sector % 4)

/-- Before a write of a core reaches its caches, the home keeps what it holds where the write will be Dirty in the owner's L1 alone. -/
def State.aside (s : State) (c : Nat) (ctx : BitVec 16) (path : Path) (sector : Nat) : State :=
  if s.firstDirty c ctx path sector then s.keepOld sector else s

/-- A fetch block enters an instruction cache of 128 KiB, 8 ways (R195, R231): the home recalls the line from an owner first, and the
directory forgets a line that is replaced (R197, R198). -/
def State.enterCode (s : State) (c : Nat) (ctx : BitVec 16) (sector : Nat) : State :=
  let line := sector / 4
  let bit : BitVec 4 := 1#4 <<< (sector % 4)
  let s := (s.recallOthers c line ctx 0).l2Fill line ctx none bit true
  let k := s.core c
  let s := if k.icache.any fun l => l.line == line && l.ctx == ctx then
      s.modCore c fun k => { k with icache := k.icache.map fun l => if l.line == line && l.ctx == ctx then { l with valid := l.valid ||| bit } else l }
    else
      let same := if k.icache.length < 8 then [] else k.icache.filter fun l => Config.l1Set l.line % 128 == Config.l1Set line % 128
      let drop := if same.length < 8 then none else same[Config.victim s.freeCtr % 8]?
      let s := if same.length < 8 then s else { s with freeCtr := s.freeCtr + 1 }
      let s := s.modCore c fun k => { k with icache := (k.icache.filter fun l => some l != drop) ++ [{ line := line, ctx := ctx, valid := bit }] }
      match drop with
      | some l => s.syncDir l.line l.ctx
      | none => s
  s.syncDir line ctx

/-- Does a lookup of a core's instruction cache hit the block (R200)? -/
def State.hasCode (s : State) (c : Nat) (ctx : BitVec 16) (sector : Nat) : Bool :=
  s.liveCtx ctx && (s.core c).icache.any fun l => l.line == sector / 4 && l.ctx == ctx && l.valid.getLsbD (sector % 4)

end Sys2Proof.Machine
end

