-- ==== Sys2Proof/Machine/Translate.lean ====
section
/-! DEFINITION. Translation: the walk (R387, R388), the checks on a leaf (R390, R391), classification (R392, R393) and the translation
caches (R396, R397). Tables are read at their home under H0 (log 19). -/
namespace Sys2Proof.Machine

/-- The kinds of access of R243 and R391. -/
inductive Acc where
  | read | write | atomic | range | copy | gather | matrix | fetch
  deriving DecidableEq, Repr

/-- TRAPAUX[6:4] (R243). -/
def Acc.code : Acc → Nat
  | .read => 0 | .write => 1 | .atomic => 2 | .range => 3 | .copy => 4 | .gather => 5 | .matrix => 6 | .fetch => 7

/-- A memory fault: cause, code in [3:0], access in [6:4], the bits above, and TRAPADDR (R243). -/
def memBad (c : Cause) (code : Nat) (acc : Acc) (addr : Nat) (more : Nat := 0) : Bad :=
  { cause := c, aux := BitVec.ofNat 32 (code + 16 * acc.code + more), addr := BitVec.ofNat 64 addr }

/-- Fields of a page-table entry (R389). -/
def pteV (e : DWord) : Bool := e.getLsbD 0
/-- LEAF. -/
def pteLeaf (e : DWord) : Bool := e.getLsbD 1
/-- R. -/
def pteR (e : DWord) : Bool := e.getLsbD 2
/-- W. -/
def pteW (e : DWord) : Bool := e.getLsbD 3
/-- X. -/
def pteX (e : DWord) : Bool := e.getLsbD 4
/-- CLASS. -/
def pteClass (e : DWord) : Nat := (e.extractLsb' 5 2).toNat
/-- OWNER. -/
def pteOwner (e : DWord) : Nat := (e.extractLsb' 7 8).toNat
/-- HASH. -/
def pteHash (e : DWord) : Nat := (e.extractLsb' 15 2).toNat
/-- TIER. -/
def pteTier (e : DWord) : Bool := e.getLsbD 17
/-- SINK. -/
def pteSink (e : DWord) : Bool := e.getLsbD 18
/-- CP. -/
def pteCP (e : DWord) : Bool := e.getLsbD 20
/-- ADDR as a physical address, with the bits below a size taken as zero. -/
def pteAddr (e : DWord) (bits : Nat) : Nat := (e.extractLsb' 24 33).toNat * 256 / 2 ^ bits * 2 ^ bits
/-- An entry with another CLASS and OWNER; the other bits stay. -/
def pteSet (e : DWord) (cls owner : Nat) : DWord :=
  (e &&& ~~~0x7FE0#64) ||| (BitVec.ofNat 64 (cls * 32 + owner * 128))

/-- Bits of the page offset of a leaf at a walk level (R388). -/
def pageBits : Nat → Nat
  | 0 => 35 | 1 => 30 | 2 => 21 | _ => 16
/-- Bits of the size of a table at a walk level (R388). -/
def tableBits : Nat → Nat
  | 0 => 20 | 1 => 8 | 2 => 12 | _ => 8
/-- The index of an address at a walk level (R388). -/
def walkIndex (va : Nat) : Nat → Nat
  | 0 => fld va 51 35 | 1 => fld va 34 30 | 2 => fld va 29 21 | _ => fld va 20 16

/-- The physical address of a line under a hash: the inverse of R206, whose fold over m is the hash of m's line 0. -/
def State.linePA (s : State) (hash line : Nat) : Nat :=
  let lp := lineLp line
  let base := if lp then 2 ^ 40 else 0
  let n := if lp then 33 else 32
  let x := line - base / 128
  let m := x / 512
  let h := x % 512
  match if hash == 3 then s.xmHeld.find? fun e => e.2 == line else none with
  | some e => e.1 * 128
  | none =>
  if hash == 2 then
    let top := h / 128 * 2 ^ (n - 2) + m * 128
    base + (top + (h % 128 ^^^ (homeOf s.xm lp 2 top).1 % 128)) * 128
  else base + (m * 512 + (h ^^^ (homeOf s.xm lp hash (m * 512)).1)) * 128

/-- Does a leaf's page hold the line? -/
def State.pageHas (s : State) (leaf : DWord) (level line : Nat) : Bool :=
  s.linePA (pteHash leaf) line / 2 ^ pageBits level == pteAddr leaf (pageBits level) / 2 ^ pageBits level

/-- Which translation cache an access uses (R396). -/
inductive Tc where
  | core (c : Nat)
  | slice (k : Nat)
  | exec (k : Nat)
  deriving DecidableEq, Repr

/-- The entries of a translation cache. -/
def State.tlbOf (s : State) : Tc → List TlbEntry
  | .core c => (s.core c).tlb
  | .slice k => s.sliceTlb.getD k []
  | .exec k => s.execTlb.getD k []

/-- Set the entries of a translation cache. -/
def State.setTlb (s : State) (t : Tc) (l : List TlbEntry) : State :=
  match t with
  | .core c => s.modCore c fun k => { k with tlb := l }
  | .slice k => { s with sliceTlb := s.sliceTlb.put k l }
  | .exec k => { s with execTlb := s.execTlb.put k l }

/-- Entries that a translation cache holds (R396). -/
def Tc.size : Tc → Nat
  | .core _ => 2048 | .slice _ => 512 | .exec _ => 256

/-- The core whose cache it is. -/
def Tc.coreNum : Tc → Option Nat
  | .core c => some c
  | _ => none

/-- Put an entry into a full or partly filled cache of `size` entries (R199). -/
def putCache {α : Type} (size v : Nat) (l : List α) (x : α) : List α := if l.length < size then l ++ [x] else setAt l (v % size) x

/-- The entry that translates an address. -/
def findTlb (l : List TlbEntry) (ctx : BitVec 16) (va : Nat) : Option TlbEntry :=
  l.find? fun e => e.ctx == ctx && e.page == va / 2 ^ pageBits e.level

/-- The entry that a lookup of a translation cache hits; under a stale generation none (R200). -/
def State.tlbHit (s : State) (t : Tc) (ctx : BitVec 16) (va : Nat) : Option TlbEntry :=
  if s.liveCtx ctx then findTlb (s.tlbOf t) ctx va else none

/-- What reading a table entry at its home gives, never from an L1 (R388, R399); the home fills the entry's line. -/
def State.readEntry (s : State) (ctx : BitVec 16) (acc : Acc) (va pa : Nat) : State × Except Bad DWord :=
  let p := s.place pa 0
  let code := s.codeAtHome (p / 32)
  let s := s.l2Fill (p / 128) ctx none (1#4 <<< (p / 32 % 4)) true
  if code == 0 then (s, .ok (BitVec.ofNat 64 (s.blockRd p 8))) else (s.markRead p 8, .error (memBad .dataerr code acc va))

/-- What a finished walk found: the leaf, its level and its place. -/
structure Walked where
  leaf : DWord
  level : Nat
  entryAt : Nat
  deriving DecidableEq, Repr

/-- The walk from a level on; pointers read are returned for the walk cache (R388). -/
def walkFrom (ctx : BitVec 16) (acc : Acc) (va : Nat) : List Nat → Nat → State → State × Except Bad Walked × List (Nat × Nat)
  | [], _, s => (s, .error (memBad .page 1 acc va), [])
  | lev :: rest, t, s =>
    let pa := t + 8 * walkIndex va lev
    match s.readEntry ctx acc va pa with
    | (s, .error b) => (s, .error b, [])
    | (s, .ok e) =>
      if !pteV e || (lev == 3 && !pteLeaf e) then (s, .error (memBad .page 1 acc va (128 * lev)), [])
      else if pteLeaf e then (s, .ok { leaf := e, level := lev, entryAt := s.place pa 0 }, [])
      else
        let nt := pteAddr e (tableBits (lev + 1))
        let r := walkFrom ctx acc va rest nt s
        (r.1, r.2.1, (lev, nt) :: r.2.2)

/-- Where a walk begins: after the deepest pointer that the walk cache holds, else at the top table (R387, R396). -/
def walkStart (k : Core) (ctx : BitVec 16) (va : Nat) : Option (List Nat × Nat) :=
  let at' (lev : Nat) := k.walk.find? fun e => e.ctx == ctx && e.level == lev && e.page == va / 2 ^ pageBits lev
  match at' 2 with
  | some e => some ([3], e.table)
  | none => match at' 1 with
    | some e => some ([2, 3], e.table)
    | none => match at' 0 with
      | some e => some ([1, 2, 3], e.table)
      | none => none

/-- A faulting walk returns its fault to every request of the core that misses on its 64 KiB page (R398, R399). -/
def State.walkFails (s : State) (c va : Nat) (b : Bad) : State :=
  if (s.core c).xmiss == [] then s
  else s.modCore c fun k => { k with xmiss := k.xmiss.map fun e => if e.what == va / 65536 then { e with fault := e.fault.or (some b) } else e }

/-- The walk for an address under a context (R387, R388), with the core's walk cache; a fault goes to all that share it (R399). -/
def State.walk (s : State) (core : Option Nat) (ctx : BitVec 16) (ctxt : Nat) (acc : Acc) (va : Nat) : State × Except Bad Walked :=
  let k := match core with
    | some c => s.core c
    | none => {}
  let r : State × Except Bad Walked × List (Nat × Nat) := match if s.liveCtx ctx then walkStart k ctx va else none with
    | some (levs, t) => walkFrom ctx acc va levs t s
    | none =>
      match s.readEntry ctx acc va (ctxt + 8 * (ctx.toNat % 4096)) with
      | (s, .error b) => (s, .error b, [])
      | (s, .ok e) =>
        if !pteV e then (s, .error (memBad .page 1 acc va), [])
        else walkFrom ctx acc va [0, 1, 2, 3] (e.toNat / 2 ^ 20 % 2 ^ 21 * 2 ^ 20) s
  match r.2.1, core with
  | .error b, some c => (r.1.walkFails c va b, .error b)
  | .ok w, some c =>
    (r.2.2.foldl (fun s p => { s.modCore c fun k => { k with
        walk := putCache 256 (Config.victim s.freeCtr) k.walk ⟨ctx, va / 2 ^ pageBits p.1, p.1, p.2⟩ } with freeCtr := s.freeCtr + 1 }) r.1, .ok w)
  | x, _ => (r.1, x)

/-- The checks of R390 and R391 on a leaf at a level, for an address. -/
def leafCheck (acc : Acc) (va : Nat) (leaf : DWord) (level : Nat) : Option Bad :=
  if pteW leaf && pteX leaf then some (memBad .prot 3 acc va)
  else if tierOf (pteAddr leaf (pageBits level)) != some (pteTier leaf) then some (memBad .page 3 acc va)
  else match acc with
  | .write => if pteW leaf then none else some (memBad .prot 2 acc va)
  | .atomic => if !pteR leaf then some (memBad .prot 1 acc va) else if !pteW leaf then some (memBad .prot 2 acc va) else none
  | .fetch => if pteX leaf then none else some (memBad .prot 6 acc va)
  | .range => if pteW leaf || pteX leaf then none else some (memBad .prot 5 acc va)
  | _ => if pteR leaf then none else some (memBad .prot 1 acc va)

/-- Does a claim by core c change the entry (R392)? -/
def claimActs (c : Nat) (leaf : DWord) : Bool :=
  match pteClass leaf with
  | 0 => true
  | 1 => pteOwner leaf != c || pteX leaf || pteCP leaf
  | _ => false

/-- The path of an access by core c through a leaf (R246, R392). -/
def pathOf (c : Option Nat) (leaf : DWord) : Path :=
  if (pteClass leaf == 1 || pteClass leaf == 3) && c == some (pteOwner leaf) then .priv
  else if pteClass leaf == 3 || pteCP leaf || c.isNone then .home else .shared

/-- Flush every sector of a page out of its owner's L1, and the page out of its translation cache, and rewrite its lines' directory entries
(R198, R305, R393). -/
def State.flushPage (s : State) (ctx : BitVec 16) (leaf : DWord) (level owner page : Nat) : State :=
  let ls := (s.core owner).l1.filter fun l => s.pageHas leaf level l.line
  let s := ls.foldl (fun s l => s.dropL1 owner l.line l.ctx) s
  let s := s.modCore owner fun k => { k with tlb := k.tlb.filter fun e => !(e.ctx == ctx && e.level == level && e.page == page) }
  { s with l2 := s.l2.map fun l => if l.p && l.ctx == ctx && s.pageHas leaf level l.line then { l with p := false, shr := 0, o := false } else l }

/-- The walker swaps a table entry at its home, where the write is merged in L2 (R211, R393); an L1 that holds the sector Dirty keeps its
own. -/
def State.swapEntry (s : State) (ctx : BitVec 16) (p : Nat) (e : DWord) : State :=
  let bit : BitVec 4 := 1#4 <<< (p / 32 % 4)
  let s := (s.l2Fill (p / 128) ctx none bit true).l2Dirty (p / 128) ctx bit
  match s.older.get? (p / 32) with
  | some o =>
    let o := { o with bytes := o.bytes.take (p % 32) ++ toBytes 8 e.toNat ++ o.bytes.drop (p % 32 + 8), staged := true }
    { s with older := s.older.put (p / 32) o }
  | none => s.wrN p 8 e.toNat

/-- The walker's action on CLASS for a claiming access of core c (R392, R393): the entry is compared and swapped at its home. -/
def State.claim (s : State) (c : Nat) (ctx : BitVec 16) (va : Nat) (w : Walked) : State × Walked :=
  let wr (s : State) (cls owner : Nat) : State × Walked :=
    let e := pteSet w.leaf cls owner
    (s.swapEntry ctx w.entryAt e, { w with leaf := e })
  match pteClass w.leaf with
  | 0 => if pteX w.leaf || pteCP w.leaf then wr s 2 0 else wr s 1 c
  | 1 =>
    if pteOwner w.leaf == c && !pteX w.leaf && !pteCP w.leaf then (s, w)
    else wr (s.flushPage ctx w.leaf w.level (pteOwner w.leaf) (va / 2 ^ pageBits w.level)) 2 0
  | _ => (s, w)

/-- What translation gives: the byte's place, the leaf and the path. -/
structure Xl where
  place : Nat
  leaf : DWord
  path : Path
  deriving DecidableEq, Repr

/-- The place of an address in a leaf's page. -/
def State.leafPlace (s : State) (leaf : DWord) (level va : Nat) : Nat :=
  s.place (pteAddr leaf (pageBits level) + va % 2 ^ pageBits level) (pteHash leaf)

/-- Translate an address under a context whose table lies at `ctxt` (R387 to R393, R397): the cached entry where it serves, else a walk;
`claim` says that the access claims its page. -/
def State.translate (s : State) (t : Tc) (ctx : BitVec 16) (ctxt : Nat) (acc : Acc) (claim : Bool) (va : Nat) : State × Except Bad Xl :=
  let done (s : State) (leaf : DWord) (level : Nat) : State × Except Bad Xl :=
    (s, .ok { place := s.leafPlace leaf level va, leaf := leaf, path := pathOf t.coreNum leaf })
  if 2 ^ 52 ≤ va then (s, .error (memBad .page 2 acc va))
  else
    let hit := match s.tlbHit t ctx va with
      | some e => if claim && claimActs (t.coreNum.getD 0) e.leaf then none else some e
      | none => none
    match hit with
    | some e => match leafCheck acc va e.leaf e.level with
      | some b => (s, .error b)
      | none => done s e.leaf e.level
    | none =>
      match s.walk t.coreNum ctx ctxt acc va with
      | (s, .error b) => (s, .error b)
      | (s, .ok w) =>
        match leafCheck acc va w.leaf w.level with
        | some b => (s, .error b)
        | none =>
          let r := match claim, t.coreNum with
            | true, some c => s.claim c ctx va w
            | _, _ => (s, w)
          let e : TlbEntry := ⟨ctx, va / 2 ^ pageBits w.level, w.level, r.2.leaf, w.entryAt⟩
          let old := (r.1.tlbOf t).filter fun x => !(x.ctx == ctx && x.level == e.level && x.page == e.page)
          let s := r.1.setTlb t (putCache t.size (Config.victim r.1.freeCtr) old e)
          done (if old.length < t.size then s else { s with freeCtr := s.freeCtr + 1 }) r.2.leaf w.level

/-- Translate without changing anything, for the accesses that never claim and never fault (R260 to R262). -/
def State.peek (s : State) (t : Tc) (ctx : BitVec 16) (ctxt : Nat) (acc : Acc) (va : Nat) : Option (Xl × Nat) :=
  if 2 ^ 52 ≤ va then none
  else match s.tlbHit t ctx va with
  | some e => if (leafCheck acc va e.leaf e.level).isSome then none
      else some ({ place := s.leafPlace e.leaf e.level va, leaf := e.leaf, path := pathOf t.coreNum e.leaf }, e.level)
  | none => match (s.walk t.coreNum ctx ctxt acc va).2 with
    | .error _ => none
    | .ok w => if (leafCheck acc va w.leaf w.level).isSome then none
        else some ({ place := s.leafPlace w.leaf w.level va, leaf := w.leaf, path := pathOf t.coreNum w.leaf }, w.level)

/-- Drop the entries of a context that a test on page and level accepts, from every translation cache and walk cache (R401). -/
def State.dropTlb (s : State) (p : BitVec 16 → Nat → Nat → Bool) : State :=
  let f (l : List TlbEntry) := l.filter fun e => !p e.ctx e.page e.level
  { s with
    cores := s.cores.map fun e => (e.1, { e.2 with tlb := f e.2.tlb, walk := e.2.walk.filter fun w => !p w.ctx w.page w.level })
    sliceTlb := s.sliceTlb.map fun e => (e.1, f e.2)
    execTlb := s.execTlb.map fun e => (e.1, f e.2) }

end Sys2Proof.Machine
end

