-- ==== Sys2Proof/Machine/Access.lean ====
section
/-! DEFINITION. Reaching the issuing split, its group, lanes and workgroup, and changing them (R66, R67, R365, R366). -/
namespace Sys2Proof.Machine

/-- The outcome of an instruction. -/
abbrev Out := Host.Outcome State Fault Refusal

/-- The number of a split: its lowest slice (SPLITID, R366). -/
def Split.id (x : Split) : Nat := ((List.range 16).find? fun i => x.slices.getLsbD i).getD 16
/-- The split of that number. -/
def Group.split? (g : Group) (n : Nat) : Option Split := g.splits.find? fun x => x.id == n
/-- Replace the split of that number. -/
def Group.setSplit (g : Group) (n : Nat) (y : Split) : Group := { g with splits := g.splits.map fun x => if x.id == n then y else x }
/-- Change the split of that number. -/
def Group.modSplit (g : Group) (n : Nat) (f : Split → Split) : Group := { g with splits := g.splits.map fun x => if x.id == n then f x else x }
/-- Lane l of a group. -/
def Group.lane (g : Group) (l : Nat) : Lane := g.lanes.getD l {}
/-- Change lane l. -/
def Group.modLane (g : Group) (l : Nat) (f : Lane → Lane) : Group := { g with lanes := modAt g.lanes l f }
/-- Change several lanes, each by its number. -/
def Group.modLanes (g : Group) (ls : List Nat) (f : Nat → Lane → Lane) : Group := ls.foldl (fun g l => g.modLane l (f l)) g
/-- The reconvergence stack of a slice. -/
def Group.stack (g : Group) (k : Nat) : List StackEntry := g.rstacks.getD k []

/-- Replace a group. -/
def State.setGroup (s : State) (key : Nat) (g : Group) : State := { s with groups := s.groups.put key g }
/-- Change a group that is present. -/
def State.modGroup (s : State) (key : Nat) (f : Group → Group) : State :=
  match s.groups.get? key with
  | some g => s.setGroup key (f g)
  | none => s
/-- Change a split that is present. -/
def State.modSplit (s : State) (w : Who) (f : Split → Split) : State := s.modGroup w.key fun g => g.modSplit w.split f
/-- Change a workgroup that is present. -/
def State.modWg (s : State) (n : Nat) (f : Workgroup → Workgroup) : State :=
  match s.wgs.get? n with
  | some w => { s with wgs := s.wgs.put n (f w) }
  | none => s
/-- Change a launch that is present. -/
def State.modLaunch (s : State) (n : Nat) (f : Launch → Launch) : State :=
  match s.launches.get? n with
  | some x => { s with launches := s.launches.put n (f x) }
  | none => s
/-- A partition's registers. -/
def State.part (s : State) (p : Nat) : Partition := s.parts.getD p {}
/-- Change a partition's registers. -/
def State.modPart (s : State) (p : Nat) (f : Partition → Partition) : State := { s with parts := s.parts.put p (f (s.part p)) }
/-- The workgroup of a group. -/
def State.wgOf (s : State) (g : Group) : Workgroup := s.wgs.getD g.wg { core := 0, part := 0, launch := 0, par := {}, slots := [] }

/-- The group, split and place that issue. -/
structure Iss where
  who : Who
  g : Group
  sp : Split
  deriving DecidableEq, Repr

/-- The core that issues. -/
def Iss.core (x : Iss) : Nat := x.who.key / 64
/-- The group slot that issues. -/
def Iss.slot (x : Iss) : BitVec 6 := BitVec.ofNat 6 x.who.key

/-- The issuing group and split of a state. -/
def State.iss? (s : State) : Option Iss :=
  match s.cur with
  | none => none
  | some w => match s.groups.get? w.key with
    | none => none
    | some g => match g.split? w.split with
      | none => none
      | some sp => some ⟨w, g, sp⟩

/-- Run a meaning for the issuing split; a state in which none issues is the model's one fault. -/
def issue (s : State) (k : Iss → State) : Out :=
  match s.iss? with
  | some x => .next (k x)
  | none => .fault .noIssuingSplit

/-- The same split, read again after the state has changed. -/
def State.again (s : State) (x : Iss) : Iss :=
  match s.groups.get? x.who.key with
  | none => x
  | some g => match g.split? x.who.split with
    | none => x
    | some sp => ⟨x.who, g, sp⟩

/-- Does a split hold the lane? -/
def Split.has (x : Split) (l : Nat) : Bool := x.slices.getLsbD (l / 4)
/-- The slices of a split. -/
def Split.sliceList (x : Split) : List Nat := (List.range 16).filter fun k => x.slices.getLsbD k

/-- The lanes of a split, ascending. -/
def lanesOf (g : Group) (x : Split) : List Nat := (List.range g.width).filter x.has
/-- The non-idle lanes of a split. -/
def liveLanes (g : Group) (x : Split) : List Nat := (lanesOf g x).filter fun l => !(g.lane l).idle
/-- The non-idle lanes with EXM = 1 (E of R369, the executing lanes of R175). -/
def exmLanes (g : Group) (x : Split) : List Nat := (liveLanes g x).filter fun l => (g.lane l).exm
/-- A lane's guard under PG and PN (R66). -/
def Lane.guard (ln : Lane) (pg : BitVec 3) (pn : BitVec 1) : Bool := (ln.p.getLsbD pg.toNat || pg == 0) != (pn == 1#1)
/-- The lanes that RTE lets the instruction run in (R89). -/
def Split.mayRun (x : Split) (l : Nat) : Bool := match x.rerun with
  | some (m, _) => m.getLsbD l
  | none => true
/-- The active lanes of an instruction (R66, R89). -/
def activeLanes (g : Group) (x : Split) (o : Op) : List Nat :=
  (exmLanes g x).filter fun l => (g.lane l).guard o.pg o.pn && x.mayRun l
/-- The guard of a split-scope instruction (R67). -/
def splitGuard (g : Group) (x : Split) (o : Op) : Bool := (liveLanes g x).any fun l => (g.lane l).guard o.pg o.pn
/-- The lowest-numbered non-idle lane of a split. -/
def lowLane (g : Group) (x : Split) : Nat := (liveLanes g x).headD 0
/-- The 64-bit mask of lanes. -/
def laneMask (l : List Nat) : DWord := maskOf 64 l

/-- Units of an instruction (R39). -/
def opUnits (o : Op) : Nat := o.len.toNat + 1

/-- A split moves past an instruction: a re-execution under RTE is over, and a shadow instruction counts (R55, R89). -/
def Split.adv (x : Split) (units : Nat) : Split :=
  { x with pc := x.pc + BitVec.ofNat 50 units, skip := (x.rerun.map (·.2)).getD x.skip, rerun := none, wait := .ready, jumped := false,
           pend := x.pend.map fun p => { p with shadow := p.shadow + 1 } }

/-- A split continues at a target. -/
def Split.jump (x : Split) (pc : BitVec 50) : Split := { x.adv 0 with pc := pc, jumped := true }

/-- The instruction completes: the split moves past it. -/
def State.done (s : State) (x : Iss) (o : Op) : State := s.modSplit x.who (·.adv (opUnits o))

/-- The instruction cannot issue now: a queue or a unit that it needs cannot serve it (R35, R294). -/
def State.stall (s : State) (x : Iss) : State := s.modSplit x.who fun y => { y with wait := .stall }

/-- The launch's context of a workgroup: the CTXID of its core (R445). -/
def State.ctxOf (s : State) (c : Nat) : BitVec 16 := (s.core c).ctxid
/-- The context table of a group's partition (R387). -/
def State.ctxtOf (s : State) (g : Group) : Nat := (s.part (s.wgOf g).part).ctxtbase.toNat

/-- Translate an address for a group, through its core's cache. -/
def State.gx (s : State) (x : Iss) (acc : Acc) (claim : Bool) (va : Nat) : State × Except Bad Xl :=
  s.translate (.core x.core) (s.ctxOf x.core) (s.ctxtOf x.g) acc claim va

/-- Are the units from a program counter to the end of its block a pad run (R41)? The block is read as it stands, and nothing changes. -/
def State.padAt (s : State) (x : Iss) (pc : BitVec 50) : Bool :=
  match s.peek (.core x.core) (s.ctxOf x.core) (s.ctxtOf x.g) .fetch (pc.toNat / 8 * 32) with
  | none => false
  | some t => s.blockRd (t.1.place + 4 * (pc.toNat % 8)) (32 - 4 * (pc.toNat % 8)) == 0

/-- The instruction at or after a program counter: a pad run is passed over (R41). -/
def State.pastPads (s : State) (x : Iss) : Nat → BitVec 50 → BitVec 50
  | 0, pc => pc
  | fuel + 1, pc => if s.padAt x pc then s.pastPads x fuel (BitVec.ofNat 50 (pc.toNat / 8 * 8 + 8)) else pc

/-- Blocks that the program counter can name: the most that a run of pads can fill. -/
def allBlocks : Nat := 2 ^ 47

/-- The program counter of the instruction after the issuing split's, of that many units. -/
def State.nextPc (s : State) (x : Iss) (units : Nat) : BitVec 50 := s.pastPads x allBlocks (x.sp.pc + BitVec.ofNat 50 units)

/-- The physical sector PA[40:5] of a translated address, by which the sink pending table compares (R275, R276). -/
def State.sectorPA (s : State) (leaf : DWord) (place : Nat) : Nat := s.linePA (pteHash leaf) (place / 128) / 32 + place / 32 % 4

/-- A sector that holds an entry of the group in flight makes its later accesses wait (R276). -/
def State.sinkBusy (s : State) (core slot sector : Nat) : Bool :=
  (s.core core).sink.any fun e => e.sector == sector && e.slot == slot && e.st != .unexecuted

/-- The same for an access of a group to an address, as far as it translates now. -/
def State.sinkBusyAt (s : State) (key : Nat) (g : Group) (acc : Acc) (va : Nat) : Bool :=
  (s.core (key / 64)).sink != [] && (match s.peek (.core (key / 64)) (s.ctxOf (key / 64)) (s.ctxtOf g) acc va with
    | some t => s.sinkBusy (key / 64) (key % 64) (s.sectorPA t.1.leaf t.1.place)
    | none => false)

/-- The core's index among its partition's cores, ascending (R302). -/
def State.coreIndex (s : State) (p c : Nat) : Nat := popN c (s.part p).pcores.toNat
/-- The dies of a partition, ascending (R445). -/
def Partition.dies (p : Partition) : List Nat := (List.range 4).filter fun d => p.pdies.getLsbD d
/-- The cores of a partition, ascending. -/
def Partition.cores (p : Partition) : List Nat := (List.range 192).filter fun c => p.pcores.getLsbD c

/-- Depth of q4 in records (R306). -/
def q4Depth : Nat := 16

/-- Push a record onto a group's q4 if it has room (R310). -/
def Group.pushEvt (g : Group) (r : EvtRec) : Group := { g with q4 := g.q4 ++ [r] }

/-- Slots of q4 that long-latency results on their way will fill (R306). DEDUCED (log 106): a push takes its place in q4 at its issue (R308), so
these records are held, and q4 is full with them. -/
def Group.q4Due (g : Group) : Nat := (g.results.map fun r => if r.dst == .q 4#8 then popN 64 r.lanes.toNat else 0).sum

/-- Set OVF in the newest record of q4. -/
def Group.markOvf (g : Group) : Group :=
  { g with q4 := modAt g.q4 (g.q4.length - 1) fun r => { r with w0 := r.w0 ||| 0x800000#32 } }

/-- Set OVF in the newest record held (R310): the last of those whose push has been issued, or the last in q4. -/
def Group.setOvf (g : Group) : Group :=
  match (g.results.filter fun r => r.dst == .q 4#8 && r.lanes != 0).getLast? with
  | some n => { g with results := g.results.map fun r => if r.id == n.id then { r with ovf := true } else r }
  | none => g.markOvf

/-- Enter an error in the log as TYPE 1 (R306, R456). -/
def State.logData (s : State) (launch : Nat) (code addr : Nat) : State :=
  s.logSet [{ type := 1, cls := 0, unit := 0, code := code, addr := addr, seq := s.launchSeq launch }]

/-- A DATAERR event of a group: a record in q4 and one in the error log (R247, R310). -/
def State.dataEvent (s : State) (key lane code addr : Nat) : State :=
  match s.groups.get? key with
  | none => s
  | some g =>
    let r : EvtRec := { w0 := BitVec.ofNat 32 (0x0D * 2 ^ 24 + lane * 2 ^ 17 + code % 1024), w1 := BitVec.ofNat 32 addr,
                        w2 := BitVec.ofNat 32 (addr / 2 ^ 32), w3 := BitVec.ofNat 32 s.clock.toNat }
    let s := s.setGroup key (if g.q4.length + g.q4Due < q4Depth then g.pushEvt r else g.setOvf)
    s.logData (s.wgOf g).launch code addr

/-- Seed of a lane's vector LFSR (R140). -/
def vseed (id : DWord) : Word :=
  let f := id.extractLsb' 0 32 ^^^ id.extractLsb' 32 32 ^^^ 0x9E3779B9#32
  if f == 0 then 1 else f
/-- Seed of a lane's matrix LFSR (R140). -/
def mseed (id : DWord) : Word :=
  let f := id.extractLsb' 0 32 ^^^ id.extractLsb' 32 32 ^^^ 0x6A09E667#32
  if f == 0 then 1 else f

/-- WGID of an identifier: the fields below WGLEVEL zeroed (R7, R75). -/
def wgidOf (p : Params) (id : DWord) : DWord :=
  let b := (p.widths.take p.wglevel).sum
  if 64 ≤ b then 0 else (id >>> b) <<< b

end Sys2Proof.Machine
end

