-- ==== Sys2Proof/Machine/Barrier.lean ====
section
/-! DEFINITION. Barrier registers: arrivals, completion of a phase, the retirement drop and the postmark record (R27, R28, R418 to R421,
R426). -/
namespace Sys2Proof.Machine

/-- The 64 bits that BREAD reads (R418). -/
def BarReg.word (b : BarReg) : DWord := b.tb ++ b.phase ++ b.arrived ++ b.expected

/-- The barrier register at admission (R417). -/
def BarReg.init (groups : Nat) : BarReg := { expected := BitVec.ofNat 8 groups }

/-- Put a postmark entry (R426). -/
def BarReg.mark (b : BarReg) (clock : DWord) (member : Nat) : BarReg :=
  let row := b.phase.toNat % 4
  let b := if b.seen then b else
    { b with first := clock, post := (List.range 17).foldl (fun p k => setAt p (row * 17 + k) 0xFFFF#16) b.post, seen := true }
  let off := (clock - b.first).toNat / 16
  { b with post := setAt b.post (row * 17 + member) (BitVec.ofNat 16 (min off 0xFFFE)) }

/-- An engine arrival with its transfer bytes (R420). -/
def BarReg.engine (b : BarReg) (clock : DWord) (bytes : Nat) : BarReg :=
  { b.mark clock 16 with arrived := b.arrived + 1, tb := BitVec.ofNat 32 (b.tb.toNat - bytes) }

/-- A group arrival (R420). -/
def BarReg.group (b : BarReg) (clock : DWord) (gid : BitVec 4) : BarReg :=
  { b.mark clock gid.toNat with arrived := b.arrived + 1, who := b.who ||| (1#16 <<< gid.toNat) }

/-- The drop of a member that retires (R27, R421). -/
def BarReg.drop (b : BarReg) (gid : BitVec 4) : BarReg :=
  if b.left.getLsbD gid.toNat then b
  else { b with left := b.left ||| (1#16 <<< gid.toNat), expected := b.expected - 1,
                arrived := if b.who.getLsbD gid.toNat then b.arrived - 1 else b.arrived }

/-- Does the phase complete (R419)? -/
def BarReg.full (b : BarReg) : Bool := b.arrived == b.expected && b.tb == 0

/-- The register after the phase completes (R419). -/
def BarReg.next (b : BarReg) (groups : Nat) : BarReg :=
  { b with phase := b.phase + 1, arrived := 0, tb := 0, expected := BitVec.ofNat 8 (groups - popN 16 (b.left.toNat % 2 ^ groups)),
           seen := false, who := 0, marked := 0 }

/-- Units of BWAIT, BARW and DBWAIT (R422, R428). -/
def waitUnits : Nat := 2

/-- Does a split wait on that phase of barrier n? -/
def Split.awaits (x : Split) (n : Nat) (old : BitVec 16) : Bool :=
  match x.wait with
  | .barrier b p _ => b.toNat == n && p == old
  | _ => false

/-- A split after barrier n completes a phase: its MARK clears, and a wait on that phase ends, so that the split moves past it (R419). -/
def Split.released (x : Split) (n : Nat) (old : BitVec 16) : Split :=
  let y := { x with mark := x.mark &&& ~~~(1#16 <<< n) }
  if x.awaits n old then y.adv waitUnits else y

/-- Barrier register n of a workgroup. -/
def Workgroup.bar (w : Workgroup) (n : Nat) : BarReg := w.bars.getD n {}

/-- Change a barrier register without the completion test (BEXP and BINIT, R419). -/
def State.barSet (s : State) (wg n : Nat) (f : BarReg → BarReg) : State :=
  s.modWg wg fun w => { w with bars := setAt w.bars n (f (w.bar n)) }

/-- The completion test of a barrier register (R419): a full phase ends, and every wait on it with it. -/
def State.barTest (s : State) (wg n : Nat) : State :=
  match s.wgs.get? wg with
  | none => s
  | some w =>
    let b := w.bar n
    if !b.full then s
    else
      { s with wgs := s.wgs.put wg { w with bars := setAt w.bars n (b.next w.par.groups) },
               groups := s.groups.map fun e => (e.1, if e.2.wg == wg then { e.2 with splits := e.2.splits.map (·.released n b.phase) } else e.2) }

/-- An arrival at a barrier register (R420): the completion test of the cycle is due for it (R419). -/
def State.barChange (s : State) (wg n : Nat) (f : BarReg → BarReg) : State :=
  let s := s.barSet wg n f
  { s with cyc := { s.cyc with due := (wg, n) :: s.cyc.due } }

/-- The groups of a workgroup that have retired in this cycle. -/
def State.barDrops (s : State) (wg : Nat) : List (BitVec 4) := (s.cyc.drops.filter fun d => d.1 == wg).map (·.2)

/-- A barrier register after this cycle's retirement drops and completion test, in that order (R419); one that no arrival and no drop has
changed is not tested. -/
def State.barSettle (s : State) (wg n : Nat) : State :=
  match s.wgs.get? wg with
  | none => s
  | some w =>
    let ds := (s.barDrops wg).filter fun d => !(w.bar n).left.getLsbD d.toNat
    if ds == [] && !s.cyc.due.contains (wg, n) then s
    else
      let s := (s.barSet wg n fun b => ds.foldl BarReg.drop b).barTest wg n
      { s with cyc := { s.cyc with due := s.cyc.due.filter (· != (wg, n)) } }

/-- The cycle's changes to a barrier register are over, for an instruction that takes effect after its completion test: arrivals of later
turns belong to the next cycle (R419, R424), and so does the test of what the instruction leaves. -/
def State.barClose (s : State) (wg n : Nat) : State :=
  let s := s.barSettle wg n
  { s with cyc := { s.cyc with closed := (wg, n) :: s.cyc.closed } }

/-- Every barrier register of a workgroup is brought up to date. -/
def State.barSettleAll (s : State) (wg : Nat) : State := (List.range 16).foldl (fun s n => s.barSettle wg n) s

/-- A workgroup leaves its core or restarts: its barrier registers are brought up to date, and nothing of this cycle is left for them. -/
def State.barFlush (s : State) (wg : Nat) : State :=
  let s := s.barSettleAll wg
  { s with cyc := { s.cyc with drops := s.cyc.drops.filter fun d => d.1 != wg } }

/-- The barriers whose test is due again in the next cycle: those that BEXP or BINIT may have changed after this cycle's test, and those that
completed a phase and are full still, since they have no member (R419, log 104). -/
def State.barAgain (s t : State) : List (Nat × Nat) :=
  let tested := s.cyc.due ++ (s.cyc.drops.map fun d => (List.range 16).map fun n => (d.1, n)).flatten
  (s.cyc.closed ++ tested.filter fun d => match t.wgs.get? d.1 with
    | some w => (w.bar d.2).full
    | none => false).eraseDups

/-- A cycle ends for every barrier register that changed in it (R419). -/
def State.barCycleEnds (s : State) : State :=
  let t := (dedup (s.cyc.due.map (·.1) ++ s.cyc.drops.map (·.1))).foldl State.barSettleAll s
  { t with cyc := { due := s.barAgain t } }

/-- Some cycles end (R419). -/
def State.barCycles : Nat → State → State
  | 0, s => s
  | n + 1, s => if s.cyc == {} then s else s.barCycleEnds.barCycles n

/-- A group retires: every barrier it is a member of expects one arrival less, in the order that R419 gives the cycle (R27, R28). -/
def State.barDropAll (s : State) (wg : Nat) (gid : BitVec 4) : State :=
  { s with cyc := { s.cyc with drops := s.cyc.drops ++ [(wg, gid)] } }

/-- Does a group arrive at barrier n when a split of it ends? It does where that split alone was without MARK, and some split has executed
an arrival in the open phase (R420). -/
def State.endArrives (s : State) (g : Group) (x : Split) (n : Nat) : Bool :=
  match s.wgs.get? g.wg with
  | none => false
  | some w =>
    let b := w.bar n
    !x.mark.getLsbD n && ((g.splits.filter fun y => y.id != x.id).all fun y => y.mark.getLsbD n) && b.marked.getLsbD g.gid.toNat &&
      !b.who.getLsbD g.gid.toNat && !b.left.getLsbD g.gid.toNat

/-- A split of a group ends: the arrivals that this makes (R420). -/
def State.barSplitEnds (s : State) (g : Group) (x : Split) : State :=
  (List.range 16).foldl (fun s n => if s.endArrives g x n then s.barChange g.wg n (·.group s.clock g.gid) else s) s

end Sys2Proof.Machine
end

