-- ==== Sys2Proof/Machine/Ops.lean ====
section
/-! DEFINITION. The shared operations: task queues and envelopes as every user of them changes them (R353, R357), the end of a split and of a
group (R20, R27, R360), taking a trap and returning from it (R402 to R406, R89), and the routes by which an instruction raises one. -/
namespace Sys2Proof.Machine

/-- The die of a core. -/
def dieOf (c : Nat) : Nat := c / 48

/-- Entries of a die task queue (R306). -/
def taskDepth : Nat := 65536

/-- References queued on a die. -/
def State.queueLen (s : State) (d : Nat) : Nat := (s.taskq.getD d []).length

/-- The die that takes an enqueue meant for die d: d itself, or the partition die with the most free entries when d is full (R353). -/
def State.queueDie (s : State) (p d : Nat) : Option Nat :=
  if s.queueLen d < taskDepth then some d
  else leastBy (fun k => [s.queueLen k, k]) ((s.part p).dies.filter fun k => s.queueLen k < taskDepth)

/-- Put a reference onto a die's queue with its stamps (R353). -/
def State.enqueueOn (s : State) (d : Nat) (env : DWord) (launch : Nat) (deadline : DWord) : State :=
  let n := s.taskNum.getD d 0
  { s with taskq := s.taskq.put d (s.taskq.getD d [] ++ [{ env := env, launch := launch, deadline := deadline, num := n }]),
           taskNum := s.taskNum.put d (n + 1) }

/-- Enqueue for die d; with every queue full, the reference stays on die d's queue, for a caller that cannot wait (log 20). -/
def State.enqueue (s : State) (p d : Nat) (env : DWord) (launch : Nat) (deadline : DWord) : State :=
  s.enqueueOn ((s.queueDie p d).getD d) env launch deadline

/-- Translate for an agent that has no core: the line monitor and the I/O die (R346, R354). -/
def State.sysXlate (s : State) (ctx : BitVec 16) (ctxt : Nat) (acc : Acc) (va : Nat) : State × Except Bad Xl :=
  if 2 ^ 52 ≤ va then (s, .error (memBad .page 2 acc va))
  else match s.walk none ctx ctxt acc va with
  | (s, .error b) => (s, .error b)
  | (s, .ok w) => match leafCheck acc va w.leaf w.level with
    | some b => (s, .error b)
    | none => (s, .ok { place := s.leafPlace w.leaf w.level va, leaf := w.leaf, path := .home })

/-- A write performed at the home of its line (R219). -/
def State.homeWr (s : State) (ctx : BitVec 16) (p : Nat) (bs : List Byte) : State :=
  (s.wr p bs).storeLine 1000 0 ctx .home false (p / 32)

/-- Place, context and launch of an envelope that is being changed. -/
structure Env where
  place : Nat
  addr : DWord
  ctx : BitVec 16
  deriving DecidableEq, Repr

/-- STATE of an envelope (R352). -/
def State.envState (s : State) (e : Env) : Nat := s.rd (e.place + 0x30) 4
/-- Write STATE. -/
def State.envSetState (s : State) (e : Env) (v : Nat) : State := s.homeWr e.ctx (e.place + 0x30) (toBytes 4 v)
/-- JOIN. -/
def State.envJoin (s : State) (e : Env) : Nat := s.rd (e.place + 0x28) 4
/-- ST of a STATE word. -/
def stOf (v : Nat) : Nat := v % 8
/-- A STATE word with another ST. -/
def withSt (v st : Nat) : Nat := v / 8 * 8 + st
/-- A STATE word with FAILED set (R352). -/
def withFailed (v : Nat) : Nat := v ||| 256

/-- tdec of R357: FAILED first, then JOIN, and the enqueue of an armed task whose JOIN reaches zero. -/
def State.tdec (s : State) (e : Env) (fail : Bool) (p d : Nat) : State :=
  let s := if fail then s.envSetState e (withFailed (s.envState e)) else s
  let j := s.envJoin e
  if j == 0 then s
  else
    let s := s.homeWr e.ctx (e.place + 0x28) (toBytes 4 (j - 1))
    let v := s.envState e
    if j == 1 && stOf v == 1 then
      (s.envSetState e (withSt v 2)).enqueue p d e.addr (1024 * p + s.rd (e.place + 0x34) 4 % 1024) (BitVec.ofNat 64 (s.rd (e.place + 0x10) 8))
    else s

/-- A failure counts against a launch, once it is aborted no more (R346, R416). -/
def Launch.fault (l : Launch) : Launch := if l.aborted then l else { l with faults := l.faults + 1 }

/-- Count a failure against a launch (R346). -/
def State.faulted (s : State) (launch : Nat) : State := s.modLaunch launch Launch.fault

/-- A SUCC is passed over (R357). -/
def State.succSkipped (s : State) (p launch : Nat) (succ : DWord) : State :=
  (s.logSet [{ type := 7, cls := 5, unit := p, code := 1, addr := succ.toNat, seq := s.launchSeq launch }]).faulted launch

/-- The completion of a task (TDONE after its drain, R357): its envelope becomes DONE, its successors are decremented, and its launch's
counts change. -/
def State.taskComplete (s : State) (e : Env) (fail : Bool) (p d launch : Nat) (ctxt : Nat) : State :=
  let v := s.envState e
  let v := if fail then withFailed v else v
  let failed := tb v 8
  let s := s.envSetState e (withSt v 4)
  let s := [0x18, 0x20].foldl (fun s o =>
    let a := BitVec.ofNat 64 (s.rd (e.place + o) 8)
    if a == 0 then s
    else if a.toNat % 64 != 0 then s.succSkipped p launch a
    else match s.sysXlate e.ctx ctxt .atomic a.toNat with
    | (s, .error _) => s.succSkipped p launch a
    | (s, .ok x) =>
      if (s.badGran x.place 64).isSome then (s.markRead x.place 64).succSkipped p launch a
      else s.tdec { place := x.place, addr := a, ctx := e.ctx } failed p d) s
  s.modLaunch launch fun l => let l := { l with tasks := l.tasks - 1 }; if failed then l.fault else l

/-- The envelope of the task that a group runs, completed as TDONE does; an envelope that no longer translates is left (R357, R360). -/
def State.groupTaskDone (s : State) (key : Nat) (g : Group) (fail : Bool) : State :=
  match g.task with
  | none => s
  | some t =>
    let w := s.wgOf g
    match s.sysXlate (s.ctxOf (key / 64)) (s.ctxtOf g) .atomic t.env.toNat with
    | (s, .error _) => s.modLaunch w.launch fun l => { l with tasks := l.tasks - 1 }.fault
    | (s, .ok x) => s.taskComplete { place := x.place, addr := t.env, ctx := s.ctxOf (key / 64) } fail w.part (dieOf (key / 64)) w.launch (s.ctxtOf g)

/-- The key that names no group. -/
def noKey : Nat := 12288

/-- Is something that a retired group's drain waits for still under way: a sunk group, a store or atomic, a matrix operation (R29)? A transfer
of queue words ends by itself. -/
def Group.undrained (g : Group) : Bool :=
  (g.splits.any fun x => x.pend.isSome) || g.mops.any fun m => m.kind == .mma || m.kind == .mmaz || m.ls

/-- The task of a group that a trap has ended is completed once the group has drained (R357, R360). -/
def State.drained (s : State) (key : Nat) : State :=
  match s.groups.get? key with
  | none => s
  | some g =>
    if g.ending && g.retired && !g.undrained then (s.modGroup key fun g => { g with ending := false }).groupTaskDone key g true else s

/-- A group retires: its lanes are idle, its splits end, its handles are released, its copies are no group's and in no batch, and its
workgroup's barriers drop it (R27, R317, R433). Splits whose access is still under way stay until it is performed (R29). -/
def State.retireGroup (s : State) (key : Nat) : State :=
  match s.groups.get? key with
  | none => s
  | some g =>
    let s := s.setGroup key { g with
      lanes := g.lanes.map fun l => { l with idle := true, exm := false }
      splits := g.splits.filter fun x => x.pend.isSome
      handles := g.handles.map fun _ => {}
      retired := true }
    let s := { s with copies := s.copies.map fun (c : CopyOp) => if c.key == key then { c with key := noKey, batch := none } else c }
    s.barDropAll g.wg g.gid

/-- A split whose lanes are all idle ends; a group without a non-idle lane retires (R20, R27, R379). -/
def State.settle (s : State) (key : Nat) (n : Nat) : State :=
  match s.groups.get? key with
  | none => s
  | some g => match g.split? n with
    | none => s
    | some x =>
      if (liveLanes g x) != [] then s
      else
        let s := s.barSplitEnds g x
        let s := s.modGroup key fun g => { g with
          splits := g.splits.filter fun y => y.id != n
          rstacks := x.sliceList.foldl (fun st k => setAt st k []) g.rstacks }
        if g.lanes.all (·.idle) then s.retireGroup key else s

/-- The records of R476 for a trap that finds no handler; `second` marks the second trap of a double trap. -/
def errSet (core : Nat) (key : Nat) (g : Group) (seq : Nat) (r : TrapRec) (tpriv : BitVec 2) (towner : BitVec 4) (second : Bool) : List ErrRec :=
  let f (i : Nat) := 2 * i + if second then 16 else 0
  let b : ErrRec := { type := 4, cls := 3, unit := core, seq := seq }
  [{ b with code := r.aux.toNat, addr := r.addr.toNat, flags := f 0 },
   { b with code := r.cause.toNat + 256 * r.shadow.toNat + 2 ^ 12 * tpriv.toNat + 2 ^ 14 * towner.toNat + 2 ^ 18 * (key % 64) + 2 ^ 24 * g.gid.toNat,
            addr := r.pc.toNat * 4 % 2 ^ 64, flags := f 1 },
   { b with addr := r.lanes.toNat, flags := f 2 }] ++
  (match g.task with
   | some t => [{ b with addr := t.env.toNat, flags := f 3 }]
   | none => [])

/-- A group is ended by a trap that finds no handler (R360), once: the log's sets, the launch's FAULTS or the task's completion after the
drain, and retirement. -/
def State.endGroup (s : State) (key : Nat) (sets : List (List ErrRec)) : State :=
  match s.groups.get? key with
  | none => s
  | some g =>
    if g.retired then s
    else
      let s := sets.foldl State.logSet s
      let s := if g.task.isSome then s.modGroup key fun g => { g with ending := true } else s.faulted (s.wgOf g).launch
      (s.retireGroup key).drained key

/-- Where a cause's handler lies (R403): the program counter and level, or none with the record that R476 asks for. -/
inductive Route where
  | handler (pc : BitVec 50) (priv : BitVec 2)
  | none (rec : Option ErrRec)
  deriving DecidableEq, Repr

/-- The program counter of a byte address (VA[51:2]). -/
def pcOf (a : Nat) : BitVec 50 := BitVec.ofNat 50 (a / 4)

/-- The route of a cause (R402, R403). -/
def State.route (s : State) (x : Iss) (cause : Nat) : State × Route :=
  let w := s.wgOf x.g
  let p := s.part w.part
  if w.par.traptab == 0 then (s, .none none)
  else
    let a := (w.par.traptab.toNat + 8 * cause) % 2 ^ 64
    let log (kind : Nat) (bits failed : Bool) : Option ErrRec :=
      some { type := 8, cls := 3, unit := x.core, addr := a, seq := s.launchSeq w.launch,
             code := cause + 256 * kind + (if bits then 1024 else 0) + if failed then 2048 else 0 }
    match s.gx x .read false a with
    | (s, .error _) => (s, .none (log 0 false true))
    | (s, .ok l) =>
      if s.gran (l.place / 32) != .ok then (s.markRead l.place 8, .none (log 0 false true))
      else
        let e := s.rd l.place 8
        let kind := e % 4
        if e / 2 ^ 52 != 0 then (s, .none (log kind true false))
        else match kind with
        | 1 => (s, .handler (pcOf e) 0)
        | 2 =>
          if p.svec != 0 then (s, .handler (pcOf p.svec.toNat) 1)
          else if p.hvec != 0 then (s, .handler (pcOf p.hvec.toNat) 2)
          else (s, .none none)
        | 3 => (s, .none (log 3 false false))
        | _ => (s, .none none)

/-- The address of a group slot's trap frame (R404). -/
def State.frameAddr (s : State) (x : Iss) : Nat :=
  let p := (s.wgOf x.g).part
  ((s.part p).tfbase.toNat + 256 * (64 * s.coreIndex p x.core + x.who.key % 64)) % 2 ^ 64

/-- Bytes of scalar registers r to r + n − 1. -/
def scalarBytes (x : Split) (r n : Nat) : List Byte := ((List.range n).map fun i => toBytes 4 (x.s.get (r + i)).toNat).flatten

/-- Write the trap frame's bytes from an offset on, under the launch's context (R404). None when it cannot be written. -/
def State.frameWrite (s : State) (x : Iss) (off : Nat) (bs : List Byte) : State × Bool :=
  match s.gx x .write false (s.frameAddr x + off) with
  | (s, .error _) => (s, false)
  | (s, .ok l) => if s.gran (l.place / 32) == .uncorrectable then (s, false)
      else (((s.aside x.core (s.ctxOf x.core) l.path (l.place / 32)).wr l.place bs).storeLine x.core x.slot (s.ctxOf x.core) l.path (bs.length == 32) (l.place / 32), true)

/-- Read the trap frame's saved registers (R404). -/
def State.frameRead (s : State) (x : Iss) : State × Option (List Word) :=
  match s.gx x .read false (s.frameAddr x) with
  | (s, .error _) => (s, none)
  | (s, .ok l) => if s.gran (l.place / 32) != .ok then (s.markRead l.place 32, none)
      else (s, some ((List.range 8).map fun i => BitVec.ofNat 32 (s.rd (l.place + 4 * i) 4)))

/-- The byte address of the program counter of the lowest split of the group with a number in a workgroup; 0 where there is none. -/
def State.groupPc (s : State) (wg gid : Nat) : Nat :=
  match s.groups.find? fun e => e.2.wg == wg && e.2.gid.toNat == gid with
  | none => 0
  | some (key, g) => match leastBy (fun (y : Split) => [y.id]) g.splits with
    | none => 0
    | some y => (s.pastPads ⟨⟨key, y.id⟩, g, y⟩ allBlocks y.pc).toNat * 4

/-- The trap frame's words for a time-out of a barrier register: the program counters of the member groups that have not arrived (R425). -/
def State.frameTimeout (s : State) (x : Iss) (r : TrapRec) : State :=
  if r.cause != Cause.bartimeout.code || r.aux.extractLsb' 0 4 != 1#4 then s
  else (List.range 4).foldl (fun s k =>
    (s.frameWrite x (32 + 32 * k) ((rangeFrom (4 * k) 4).map fun g =>
      toBytes 8 (if r.aux.getLsbD (16 + g) then s.groupPc x.g.wg g else 0)).flatten).1) s

/-- The lanes in which the trap of a record was raised: for FPE TRAPADDR names them, else TRAPLANES (R171, R405). -/
def TrapRec.raised (r : TrapRec) : DWord := if r.cause == Cause.fpe.code then r.addr else r.lanes

/-- The lowest lane of a mask; 64 for none. -/
def lowestOf (m : DWord) : Nat := ((List.range 64).find? fun l => m.getLsbD l).getD 64

/-- TAKING A TRAP (R404, R405, R406): the delivery of a record to a split. The saved registers, the trap registers, the level and the
program counter change as R404 says; while another trap is open the split is held, or the group ends in a double trap; a cause
without a handler ends the group (R360). The delivery is noted for the order of this cycle's traps (R405). -/
def State.deliver (s : State) (w : Who) (r : TrapRec) : State :=
  match s.groups.get? w.key with
  | none => s
  | some g => match g.split? w.split with
    | none => s
    | some sp =>
      if g.retired then s
      else
      let core := w.key / 64
      let seq := s.launchSeq (s.wgOf g).launch
      let sp := { sp with pend := none, wait := .ready, rerun := none, skip := 0 }
      let g := g.setSplit w.split sp
      let s := s.setGroup w.key g
      let x : Iss := ⟨w, g, sp⟩
      let s := if r.cause == Cause.dataerr.code then s.logData (s.wgOf g).launch r.aux.toNat r.addr.toNat else s
      if g.trap.cause != 0 then
        if w.split == g.towner.toNat then
          s.endGroup w.key [errSet core w.key g seq g.trap g.tpriv g.towner false, errSet core w.key g seq r sp.priv (BitVec.ofNat 4 w.split) true]
        else s.modSplit w fun y => { y with held := some r }
      else
        let dead (s : State) := s.endGroup w.key [errSet core w.key g seq r sp.priv (BitVec.ofNat 4 w.split) false]
        match s.route x r.cause.toNat with
        | (s, .none rec) => dead (match rec with
            | some e => s.logSet [e]
            | none => s)
        | (s, .handler pc priv) =>
          match s.frameWrite x 0 (scalarBytes sp 56 8) with
          | (s, false) => dead s
          | (s, true) =>
            let s := s.frameTimeout x r
            let fa := s.frameAddr x
            let s := { s with cyc := { s.cyc with traps := ⟨w.key, w.split, lowestOf r.raised⟩ :: s.cyc.traps } }
            (s.modGroup w.key fun g => { g.setSplit w.split { sp with
                  priv := priv, pc := pc, jumped := true,
                  s := (sp.s.set 62 (BitVec.ofNat 32 fa)).set 63 (BitVec.ofNat 32 (fa / 2 ^ 32)) } with
                trap := r, tpriv := sp.priv, towner := BitVec.ofNat 4 w.split })

/-- The held split that receives its trap next: the one with the lowest raising lane (R405). -/
def nextHeld (g : Group) : Option (Nat × TrapRec) :=
  leastBy (fun e => [lowestOf e.2.raised, e.1])
    (g.splits.filterMap fun x => x.held.map fun r => (x.id, r))

/-- The FPE that a split owes falls due at an RTE that does not go back to the instruction that raised it: a handler has completed that one,
or goes on elsewhere, and TRAPPC is where the split goes on (R89, R171, log 90). -/
def Split.dueFpe (x : Split) (pc : DWord) : Split :=
  match x.owed with
  | some r => if x.owedBy == BitVec.ofNat 50 pc.toNat then x else { x with held := some { r with pc := pc }, owed := none }
  | none => x

/-- The return from a trap (R89, R404): the split takes back its program counter, level and s56 to s63, and the lanes and shadow that it
re-executes; then the next held split's trap is delivered (R405), unless the return is from a trap taken inside a handler: held splits stay
held throughout (R406). A frame that cannot be read ends the group. -/
def State.rte (s : State) (x : Iss) : State :=
  match s.frameRead x with
  | (s, none) => s.endGroup x.who.key
      [errSet x.core x.who.key x.g (s.launchSeq (s.wgOf x.g).launch) x.g.trap x.g.tpriv x.g.towner false]
  | (s, some ws) =>
    let t := x.g.trap
    let sp := { x.sp with pc := BitVec.ofNat 50 t.pc.toNat, s := x.sp.s.setList 56 ws, priv := x.g.tpriv,
                          rerun := some (t.lanes, t.shadow.toNat), skip := 0, jumped := true, wait := .ready }
    let sp := if x.g.aside == 0 then sp.dueFpe t.pc else sp
    let g := { x.g.setSplit x.who.split sp with trap := { x.g.trap with cause := 0 } }
    match if x.g.aside == 0 then nextHeld g else none with
    | none => (s.setGroup x.who.key g)
    | some (n, r) =>
      ((s.setGroup x.who.key (g.modSplit n fun y => { y with held := none })).deliver ⟨x.who.key, n⟩ r)

/-- The record of a fault raised at the issuing instruction (R65, R407): it has not issued, so TRAPSHADOW is 0. -/
def Iss.record (x : Iss) (b : Bad) (lanes : List Nat) : TrapRec :=
  { cause := b.cause.code, pc := x.sp.pc.setWidth 64, addr := b.addr, lanes := laneMask lanes, aux := b.aux }

/-- An instruction raises a fault and takes no effect. While an earlier instruction of the split is short of its fault point, the trap
condition waits for it (R55). -/
def State.raise (s : State) (x : Iss) (b : Bad) (lanes : List Nat) : State :=
  if x.sp.pend.isSome then s.stall x else s.deliver x.who (x.record b lanes)

/-- A fault of a split-scope instruction: TRAPLANES holds the split's non-idle lanes. -/
def State.raiseAll (s : State) (x : Iss) (b : Bad) : State := s.raise x b (liveLanes x.g x.sp)

/-- An operand value refused at execution: ILLOP code 9 with a sub-code in [11:8] (R408). -/
def illop9 (sub : Nat := 0) : Bad := { cause := .illop, aux := BitVec.ofNat 32 (9 + 256 * sub) }

/-- The PROT of an instruction that needs a level (R86, R401, R413, R434). -/
def levelBad (write : Bool) (level index : Nat) : Bad :=
  { cause := .prot, aux := BitVec.ofNat 32 (2 ^ 31 + (if write then 2 ^ 30 else 0) + 2 ^ 28 * level + index) }

/-- A split-scope instruction: no effect under a false guard (R67). -/
def splitScope (o : Op) (s : State) (k : Iss → State) : Out :=
  issue s fun x => if splitGuard x.g x.sp o then k x else s.done x o

end Sys2Proof.Machine
end

