-- ==== Sys2Proof/Machine/Operands.lean ====
section
/-! DEFINITION. Reading operands (R46, R48 to R52) and writing destinations; the pops and pushes of queues with their waits and faults (R49,
R306, R308 to R310). -/
namespace Sys2Proof.Machine

/-- How an operand's bits are read, for the conversion of immediates (R50, R51). -/
inductive RdTy where
  | int (bits : Nat)
  | f32 | f64
  /-- a half type; packed operands carry it twice -/
  | half (f : Fmt) (packed : Bool)
  deriving DecidableEq, Repr

/-- Bits of an operand read so. -/
def RdTy.bits : RdTy → Nat
  | .int b => b
  | .f64 => 64
  | _ => 32

/-- The exact code of an integer in a format (R50). -/
def intCode (f : Fmt) (i : Int) : Nat := (f.round {} (.fin (i < 0) i.natAbs 0)).code

/-- The value of an 8-bit immediate under a reading (R50). -/
def RdTy.imm (t : RdTy) (i : BitVec 8) : Nat :=
  match t with
  | .int b => sextN 8 b i.toNat
  | .f32 => intCode .f32 (sgn 8 i.toNat)
  | .f64 => intCode .f64 (sgn 8 i.toNat)
  | .half f packed => let c := intCode f (sgn 8 i.toNat); if packed then c + 65536 * c else c

/-- The value of a 32-bit long immediate under a reading (R51). -/
def RdTy.long (t : RdTy) (w : Word) : Nat :=
  match t with
  | .int b => if b == 64 then sextN 32 64 w.toNat else w.toNat % 2 ^ b
  | .f64 => (Fmt.f64.round {} (Fmt.f32.read false w.toNat).1).code
  | _ => w.toNat

/-- The reading of an element type (R50). -/
def tyRd (ty : Nat) : RdTy :=
  match ty with
  | 0x03 | 0x04 | 0x0D => .int 64
  | 0x05 => .f32
  | 0x0F => .f64
  | 0x06 => .half .f16 true
  | 0x07 => .half .bf16 true
  | 0x0B => .int 8
  | 0x0C => .int 16
  | _ => .int 32

/-- The reading of a source that FN names: CVT's FN[2:0] and F2I's FN[1:0] use another order than I2F and I2I. -/
def srcRd (o : Opc) (fn : Nat) : RdTy :=
  match o with
  | .cvt => match fn % 8 with
    | 0 => .f32 | 1 => .f64 | 2 => .half .f16 false | _ => .half .bf16 false
  | .f2i => match fn % 4 with
    | 0 => .f32 | 1 => .f64 | 2 => .half .f16 false | _ => .half .bf16 false
  | .i2f => if 2 ≤ fn % 4 then .int 64 else .int 32
  | .i2i => match fn % 8 with
    | 0 | 1 => .int 32 | 2 | 3 => .int 64 | 4 | 5 => .int 8 | _ => .int 16
  | .pack => match fn / 4 with
    | 0 => .f32 | 1 => .half .f16 true | _ => .half .bf16 true
  | _ => .int 32

/-- The readings of A, B and C of an integer, float or conversion form (R50). -/
def opRd (o : Opc) (fn ty : Nat) : RdTy × RdTy × RdTy :=
  match o with
  | .cvt | .f2i | .i2f | .i2i => (srcRd o fn, .int 32, .int 32)
  | .pack => (srcRd o fn, srcRd o fn, .int 32)
  | .unpack => (if ty == 6 || ty == 7 then tyRd ty else .int 32, .int 32, .int 32)
  | .fdot2 => (tyRd ty, tyRd ty, .f32)
  | .fdot4 => (.int 32, .int 32, .f32)
  | .bscale => (.f32, .f32, .int 32)
  | .fscale => (tyRd ty, .int 32, .int 32)
  | .imadw => (.int 32, .int 32, .int 64)
  | .lea => (.int 64, .int 32, .int 32)
  | .idiv => (tyRd (ty % 32), tyRd (ty % 32), .int 32)
  | .lop3 | .plop | .funl | .bfi | .s2p => (.int 32, .int 32, .int 32)
  | _ => (tyRd ty, tyRd ty, tyRd ty)

/-- n registers from r of a register file, as one value, the lowest register in the lowest bits (R48). -/
def readRegs (m : Store 32) (r : Nat) : Nat → Nat
  | 0 => 0
  | n + 1 => (m.get r).toNat + 2 ^ 32 * readRegs m (r + 1) n

/-- Write the low n × 32 bits of a value to n registers. -/
def writeRegs (m : Store 32) (r v : Nat) : Nat → Store 32
  | 0 => m
  | n + 1 => writeRegs (m.set r (BitVec.ofNat 32 v)) (r + 1) (v / 2 ^ 32) n

/-- Registers that a value of so many bits occupies. -/
def bitsN (b : Nat) : Nat := if b == 64 then 2 else 1

/-- An operand's bits in a lane, queues apart: registers, immediates (R46, R50 to R52). DEDUCED (log 72): FSCALE's B is an i32, so of a 128-bit
long immediate it takes the low 32 bits (R151, R159). -/
def readOpnd (sp : Split) (ln : Lane) (t : RdTy) : Opnd → Nat
  | .v r => readRegs ln.v r.toNat (bitsN t.bits)
  | .s r => readRegs sp.s r.toNat (bitsN t.bits)
  | .imm i => t.imm i
  | .l32 w => t.long w
  | .l64 w => if t.bits == 64 then w.toNat else w.toNat % 2 ^ 32
  | _ => 0

/-- A scalar-only operand as a 32-bit number. -/
def scalar32 (sp : Split) (x : Opnd) : Nat := readOpnd sp {} (.int 32) x
/-- A scalar-only operand as a 64-bit number: a pair. -/
def scalar64 (sp : Split) (x : Opnd) : Nat := readOpnd sp {} (.int 64) x

/-- The predicate that an operand names, in a lane; p0 reads 1 (R70). -/
def readPred (ln : Lane) : Opnd → Bool
  | .p r => r == 0 || ln.p.getLsbD r.toNat
  | _ => false

/-- Write a predicate; a write to p0 is discarded (R70). -/
def Lane.setPred (ln : Lane) (n : Nat) (b : Bool) : Lane :=
  if n == 0 then ln else { ln with p := (ln.p &&& ~~~(1#8 <<< n)) ||| (if b then 1#8 <<< n else 0) }

/-- Queue numbers popped by an instruction, in the order A, B, C (R49). -/
def opPops (o : Op) : List Nat := [o.a, o.b, o.c].filterMap fun x => match x with
  | .q r => some r.toNat
  | _ => none

/-- The queue number that an instruction pushes. -/
def opPush (o : Op) : Option Nat := match o.d with
  | .q r => some r.toNat
  | _ => none

/-- How many times a queue is named in a list. -/
def timesIn (n : Nat) (l : List Nat) : Nat := (l.filter (· == n)).length

/-- Depths of q1 and q2 in words (R306). -/
def q1Depth : Nat := 32
/-- See `q1Depth`. -/
def q2Depth : Nat := 16

/-- Is an MDRAIN (or an MFILL) of the group in flight? -/
def Group.moving (g : Group) (k : MatKind) : Bool := g.mops.any fun m => m.kind == k

/-- What stands in the way of an instruction's queue operands: nothing, a wait, or a QFAULT with its lanes (R308). -/
inductive QGate where
  | go | wait
  | fault (b : Bad) (lanes : List Nat)
  deriving DecidableEq, Repr

/-- Words that long-latency results on their way will push onto a lane's q2. -/
def Group.q2Due (g : Group) (l : Nat) : Nat := (g.results.filter fun r => r.dst == .q 2#8 && r.lanes.getLsbD l).length

/-- The gate of a pop of queue n in the active lanes, k entries each. -/
def popGate (g : Group) (ls : List Nat) (n k : Nat) : QGate :=
  match n with
  | 0 =>
    let short := ls.filter fun l => (g.lane l).q0.length < k
    if short == [] then .go else if g.moving .mdrain then .wait else .fault (qfaultBad 2 0) short
  | 3 =>
    let short := ls.filter fun l => (g.lane l).q3.length < k
    let dead := short.filter fun l => (g.lane l).q2.length + g.q2Due l < 2
    if short == [] then .go else if dead == [] then .wait else .fault (qfaultBad 4 3) dead
  | _ => .go

/-- The gate of a push of queue n in the active lanes. -/
def pushGate (g : Group) (ls : List Nat) (n : Nat) : QGate :=
  match n with
  | 1 =>
    let short := ls.filter fun l => q1Depth ≤ (g.lane l).q1.length
    if short == [] then .go else if g.moving .mfill then .wait else .fault (qfaultBad 3 1) short
  | 2 => if ls.all fun l => (g.lane l).q2.length < q2Depth then .go else .wait
  | 4 => if g.q4.length + g.q4Due + ls.length ≤ q4Depth then .go else .wait
  | _ => .go

/-- The first gate that is not open; a fault before a wait. -/
def firstGate (l : List QGate) : QGate :=
  match l.find? fun x => match x with | .fault _ _ => true | _ => false with
  | some x => x
  | none => if l.contains .wait then .wait else .go

/-- The gate of all the queue operands of an instruction. -/
def queueGate (g : Group) (ls : List Nat) (o : Op) : QGate :=
  firstGate ((dedup (opPops o)).map (fun n => popGate g ls n (timesIn n (opPops o))) ++ (match opPush o with
    | some n => [pushGate g ls n]
    | none => []))

/-- One word popped from q4 for the instruction; an empty q4 gives 0 (R308, R310). -/
def Group.popEvt (g : Group) : Word × Group :=
  match g.q4 with
  | [] => (0, g)
  | r :: rest =>
    let w := match g.q4pos with
      | 0 => r.w0
      | 1 => r.w1
      | 2 => r.w2
      | _ => r.w3
    (w, if g.q4pos == 3 then { g with q4 := rest, q4pos := 0 } else { g with q4pos := g.q4pos + 1 })

/-- The words of q4 that an instruction's pops take, in order, once for all active lanes. -/
def popEvts : Nat → Group → List Word × Group
  | 0, g => ([], g)
  | n + 1, g => let r := g.popEvt; let rest := popEvts n r.2; (r.1 :: rest.1, rest.2)

/-- The value of a queue operand in a lane: `i` is how often the same queue is named before it; `ev` the words of q4. -/
def queueVal (ln : Lane) (ev : List Word) (n i : Nat) : Nat :=
  match n with
  | 0 => (ln.q0.getD i 0).toNat
  | 3 => ((ln.q3[i]?.map fun (e : GEntry) => e.val).getD 0).toNat
  | _ => (ev.getD i 0).toNat

/-- An operand's bits in a lane, queues included; `before` are the queue numbers named earlier in the instruction. -/
def readAny (sp : Split) (ln : Lane) (ev : List Word) (before : List Nat) (t : RdTy) (x : Opnd) : Nat :=
  match x with
  | .q r => queueVal ln ev r.toNat (timesIn r.toNat before)
  | x => readOpnd sp ln t x

/-- The queue numbers of one operand. -/
def opndQs : Opnd → List Nat
  | .q r => [r.toNat]
  | _ => []

/-- The inputs of an instruction in a lane. `dn` is the registers of D, for the forms that read it. -/
def laneIn (o : Opc) (x : Op) (sp : Split) (ln : Lane) (ev : List Word) : LaneIn :=
  let r := opRd o x.fn.toNat x.ty.toNat
  { a := readAny sp ln ev [] r.1 x.a
    b := readAny sp ln ev (opndQs x.a) r.2.1 x.b
    c := readAny sp ln ev (opndQs x.a ++ opndQs x.b) r.2.2 x.c
    d := readOpnd sp ln (.int 32) x.d
    pa := readPred ln x.a
    pb := readPred ln x.b
    pc := readPred ln x.c
    p := ln.p ||| 1#8 }

/-- A lane after the pops of an instruction that takes effect in it. -/
def Lane.popped (ln : Lane) (pops : List Nat) : Lane :=
  { ln with q0 := ln.q0.drop (timesIn 0 pops), q3 := ln.q3.drop (timesIn 3 pops) }

/-- The fault of a lane whose pops meet a faulted gather (R309). -/
def gatherBad (ln : Lane) (pops : List Nat) : Option Bad := (ln.q3.take (timesIn 3 pops)).findSome? (·.fault)

/-- Registers that D of a form occupies. -/
def dstN (o : Opc) (x : Op) : Nat := match x.d with
  | .v _ => match (o.slots x.fn.toNat x.ty.toNat x.scalarD x.ext).d.k0 with
    | .v n => n
    | _ => 1
  | _ => (o.slots x.fn.toNat x.ty.toNat x.scalarD x.ext).d.s

/-- Write one lane's result to D: a vector register, or the queue that D pushes; a predicate. -/
def Lane.write (ln : Lane) (d : Opnd) (n : Nat) (val : Nat) (pred : Bool) : Lane :=
  match d with
  | .v r => { ln with v := writeRegs ln.v r.toNat val n }
  | .p r => ln.setPred r.toNat pred
  | .q r => match r.toNat with
    | 1 => { ln with q1 := ln.q1 ++ [BitVec.ofNat 32 val] }
    | 2 => { ln with q2 := ln.q2 ++ [BitVec.ofNat 32 val] }
    | _ => ln
  | _ => ln

/-- Write a scalar destination. -/
def Split.write (sp : Split) (d : Opnd) (n : Nat) (val : Nat) : Split :=
  match d with
  | .s r => { sp with s := writeRegs sp.s r.toNat val n }
  | _ => sp

/-- The user record that a push to q4 makes (R310). -/
def userEvt (clock : DWord) (lane val : Nat) : EvtRec :=
  { w0 := BitVec.ofNat 32 (2 ^ 24 + lane * 2 ^ 17), w1 := BitVec.ofNat 32 val, w2 := 0, w3 := BitVec.ofNat 32 clock.toNat }

end Sys2Proof.Machine
end

