-- ==== Sys2Proof/Machine/AluRun.lean ====
section
/-! DEFINITION. How an integer, float or conversion instruction runs over a split: the lanes it acts in, its queue operands, the flags and
the traps that come of it (R67, R95, R171), its long-latency results (R105, R164) and pairs (R60). -/
namespace Sys2Proof.Machine

/-- A lane after an instruction takes effect in it. -/
def laneAfter (o : Opc) (x : Op) (out : LaneOut) (ln : Lane) : Lane :=
  let ln := ({ ln.popped (opPops x) with vlfsr := out.lfsr } : Lane).write x.d (dstN o x) out.val out.pred
  match o with
  | .iaddc | .isubb => match x.c with
    | .p r => ln.setPred r.toNat out.pred
    | _ => ln
  | .s2p => { ln with p := out.preds }
  | _ => ln

/-- A group after the lanes of an instruction take effect, and the user records of a push to q4 (R310). -/
def applyLanes (clock : DWord) (o : Opc) (x : Op) (outs : List (Nat × LaneOut)) (g : Group) : Group :=
  let g := outs.foldl (fun g e => g.modLane e.1 (laneAfter o x e.2)) g
  if opPush x == some 4 then outs.foldl (fun g e => g.pushEvt (userEvt clock e.1 e.2.val)) g else g

/-- The flags of all lanes. -/
def orFlags (outs : List (Nat × LaneOut)) : Flags := outs.foldl (fun f e => f ||| e.2.flags) 0

/-- The lanes in which an enabled flag was raised. -/
def trapLanes (te : Flags) (outs : List (Nat × LaneOut)) : List Nat := (outs.filter fun e => e.2.flags &&& te != 0).map (·.1)

/-- The FPE of an instruction whose effect is complete (R171): `pc` is the instruction after it. -/
def fpeRecord (pc : BitVec 50) (live raised : List Nat) (te all : Flags) (pair : Bool) : TrapRec :=
  { cause := Cause.fpe.code, pc := pc.setWidth 64, addr := laneMask raised, lanes := laneMask live,
    aux := BitVec.ofNat 32 ((all &&& te).toNat + 32 * all.toNat + if pair then 1024 else 0) }

/-- What each lane of a list computes. -/
def evalLanes (o : Opc) (x : Op) (i : Iss) (ev : List Word) (ls : List Nat) : List (Nat × LaneOut) :=
  ls.map fun l => (l, aluVal o x.fn.toNat x.ty.toNat i.sp.fmt (i.g.lane l).vlfsr (laneIn o x i.sp (i.g.lane l) ev))

/-- What a scalar-destination form computes: its sources are scalar or immediate; SEL's predicate and the LFSR are those of the split's
lowest-numbered non-idle lane (R115, R142). -/
def evalScalar (o : Opc) (x : Op) (i : Iss) : LaneOut :=
  let ln := i.g.lane (lowLane i.g i.sp)
  aluVal o x.fn.toNat x.ty.toNat i.sp.fmt ln.vlfsr (laneIn o x i.sp ln [])

/-- The FPE that an earlier execution of the instruction at a program counter owes (R171; log 90). -/
def Split.owedAt (x : Split) (pc : BitVec 50) : Option TrapRec :=
  match x.owed with
  | some r => if x.owedBy == pc then some r else none
  | none => none

/-- The FPE of an instruction performed in two executions: one record for both. -/
def mergeFpe : Option TrapRec → Option TrapRec → Option TrapRec
  | some a, some b => some { b with addr := a.addr ||| b.addr, aux := a.aux ||| b.aux }
  | some a, none => some a
  | none, b => b

/-- The FPE of an instruction's own flags, if one of them is enabled. -/
def ownFpe (pc : BitVec 50) (live raised : List Nat) (te all : Flags) (pair : Bool) : Option TrapRec :=
  if all &&& te == 0 then none else some (fpeRecord pc live raised te all pair)

/-- A split's FPE stays owed while a gather fault in other lanes of the same instruction is handled (R171, R309). DESIGN CHOICE (log 90):
the spec does not rank the two; the gather fault is delivered first. -/
def Split.owes (x : Split) (pc : BitVec 50) (own : Option TrapRec) : Split :=
  { x with owed := mergeFpe (x.owedAt pc) own, owedBy := pc }

/-- The split delivers an FPE, its own or owed, once the instruction at a program counter is complete (R171). -/
def State.payFpe (s : State) (w : Who) (sp : Split) (pc : BitVec 50) (own : Option TrapRec) : State :=
  match sp.owedAt pc with
  | none => match own with
    | none => s
    | some r => s.deliver w r
  | some r => (s.modSplit w fun y => { y with owed := none }).deliver w ((mergeFpe (some r) own).getD r)

/-- Complete an instruction whose flags are known: past it, then FPE where an enabled flag was raised (R171). -/
def State.doneFlags (s : State) (i : Iss) (x : Op) (all : Flags) (raised : List Nat) (pair : Bool := false) : State :=
  let s := (s.modSplit i.who fun y => { y with flags := y.flags ||| all }).done i x
  s.payFpe i.who i.sp i.sp.pc (ownFpe (s.nextPc i (opUnits x)) (liveLanes i.g i.sp) raised (fmtTE i.sp.fmt) all pair)

/-- What a gather from an address finds (R309). -/
def State.gatherAt (s : State) (core : Nat) (slot : BitVec 6) (ctxt va : Nat) : State × GEntry :=
  let e : GEntry := { val := 0, addr := BitVec.ofNat 64 va }
  if va % 4 != 0 then (s, { e with fault := some (memBad .align 1 .gather va) })
  else match s.translate (.core core) (s.ctxOf core) ctxt .gather true va with
  | (s, .error b) => (s, { e with fault := some b })
  | (s, .ok t) =>
    let g := s.gran (t.place / 32)
    if g != .ok then (s.markRead t.place 4, { e with fault := some (memBad .dataerr g.code .gather va) })
    else (s.loadLine core slot (s.ctxOf core) t.path false (t.place / 32), { e with val := BitVec.ofNat 32 (s.rd t.place 4) })

/-- The faulted entries that an instruction's pops meet in a lane. -/
def faultedHeads (ln : Lane) (pops : List Nat) : List GEntry := (ln.q3.take (timesIn 3 pops)).filter fun e => e.fault.isSome

/-- Gather an entry again where it is faulted. -/
def State.gatherAgain (s : State) (i : Iss) (e : GEntry) : State × GEntry :=
  if e.fault.isNone then (s, e) else s.gatherAt i.core i.slot (s.ctxtOf i.g) e.addr.toNat

/-- Gather again the faulted entries at the heads of the q3 of lanes that re-execute a pop (R309). -/
def State.regather (s : State) (i : Iss) (pops : List Nat) (ls : List Nat) : State :=
  let one (s : State) (l : Nat) : State :=
    let ln := (s.again i).g.lane l
    let n := timesIn 3 pops
    let r := (ln.q3.take n).foldl (fun (a : State × List GEntry) e => let f := a.1.gatherAgain i e; (f.1, a.2 ++ [f.2])) (s, [])
    r.1.modGroup i.who.key fun g => g.modLane l fun ln => { ln with q3 := r.2 ++ ln.q3.drop n }
  if i.sp.rerun.isSome && 0 < timesIn 3 pops then ls.foldl one s else s

/-- Must a re-executed pop wait, because a sector that it gathers from again holds a group of the sink pending table (R276)? -/
def State.regatherHeld (s : State) (i : Iss) (pops : List Nat) (ls : List Nat) : Bool :=
  i.sp.rerun.isSome && ls.any fun l => (faultedHeads (i.g.lane l) pops).any fun e => s.sinkBusyAt i.who.key i.g .gather e.addr.toNat

/-- The group after the words of q4 that an instruction pops have been taken; nothing is popped when it takes effect in no lane (R49). -/
def takeEvts (i : Iss) (x : Op) (ls : List Nat) : List Word × Group :=
  if ls == [] then ([], i.g) else popEvts (timesIn 4 (opPops x)) i.g

/-- A lane-scope integer, float or conversion instruction. DESIGN CHOICE (log 113): a scale entry that PACK refuses is looked for in the lanes
without a faulted gather; where both stand, the refusal comes first if another lane has it, and the gather's fault if it is the same lane
(R168, R309). -/
def aluLanes (o : Opc) (x : Op) (s : State) (i : Iss) : State :=
  let ls := activeLanes i.g i.sp x
  match queueGate i.g ls x with
  | .wait => s.stall i
  | .fault b l => s.raise i b l
  | .go =>
    if s.regatherHeld i (opPops x) ls then s.stall i
    else
    let s := s.regather i (opPops x) ls
    let i := s.again i
    let pops := opPops x
    let faulted := ls.filter fun l => (gatherBad (i.g.lane l) pops).isSome
    let good := ls.filter fun l => (gatherBad (i.g.lane l) pops).isNone
    let ev := takeEvts i x good
    if good.any fun l => aluRefuses o x.ty.toNat i.sp.fmt (laneIn o x i.sp (i.g.lane l) ev.1) then s.raise i illop9 ls
    else
      let outs := evalLanes o x i ev.1 good
      let all := orFlags outs
      if i.sp.pend.isSome && (faulted != [] || all &&& fmtTE i.sp.fmt != 0) then s.stall i
      else
        let s1 := s.setGroup i.who.key (applyLanes s.clock o x outs ev.2)
        match faulted with
        | [] => s1.doneFlags i x all (trapLanes (fmtTE i.sp.fmt) outs)
        | l :: _ =>
          let b := (gatherBad (i.g.lane l) pops).getD illop9
          let own := ownFpe (s1.nextPc i (opUnits x)) (liveLanes i.g i.sp) (trapLanes (fmtTE i.sp.fmt) outs) (fmtTE i.sp.fmt) all false
          (s1.modSplit i.who fun y => { y.owes i.sp.pc own with flags := y.flags ||| all }).raise i b faulted

/-- A split-scope integer, float or conversion instruction: D is scalar (R67, R94). -/
def aluScalar (o : Opc) (x : Op) (s : State) (i : Iss) : State :=
  if !splitGuard i.g i.sp x then s.done i x
  else
    let low := lowLane i.g i.sp
    let ln := i.g.lane low
    if aluRefuses o x.ty.toNat i.sp.fmt (laneIn o x i.sp ln []) then s.raiseAll i illop9
    else
      let out := evalScalar o x i
      if i.sp.pend.isSome && out.flags &&& fmtTE i.sp.fmt != 0 then s.stall i
      else
        let s := (s.modGroup i.who.key fun g => g.modLane low fun ln => { ln with vlfsr := out.lfsr }).modSplit i.who
          (·.write x.d (dstN o x) out.val)
        s.doneFlags i x out.flags [low]

/-- An integer, float or conversion instruction that is not long-latency. -/
def runAlu (o : Opc) (x : Op) (s : State) : Out :=
  issue s fun i => if x.scalarD then aluScalar o x s i else aluLanes o x s i

/-- The result of a long-latency arithmetic instruction, waiting to be written. -/
def sfuRes (id : Nat) (o : Opc) (x : Op) (i : Iss) (scalar : Bool) (outs : List (Nat × LaneOut)) : SfuRes :=
  let te := fmtTE i.sp.fmt
  let all := orFlags outs
  { id := id, slices := i.sp.slices, dst := x.d, n := dstN o x,
    lanes := laneMask (outs.map (·.1)),
    vals := outs.foldl (fun m e => m.set (if scalar then 0 else e.1) (BitVec.ofNat 64 e.2.val)) [],
    flags := all, trapLanes := laneMask (trapLanes te outs), trapFlags := all &&& te, traps := all &&& te != 0 }

/-- A long-latency arithmetic instruction enters the special-function unit (R105, R164): with every trap enable off its fault point is at
issue; otherwise the split is held until the result returns. -/
def State.sfuIssue (s : State) (o : Opc) (x : Op) (i : Iss) (scalar : Bool) (outs : List (Nat × LaneOut)) (lanes : List Nat) : State :=
  let r := sfuRes s.nextId o x i scalar outs
  let s := { s.modGroup i.who.key fun g => { g with results := g.results ++ [r] } with nextId := s.nextId + 1 }
  let s := s.done i x
  if o == .idiv || fmtTE i.sp.fmt == 0 then s.payFpe i.who i.sp i.sp.pc none
  else
    let p : Pend := { pc := i.sp.pc, opc := o, op := x, lanes := laneMask lanes, budget := 0, shadow := 0, id := r.id }
    s.modSplit i.who fun y => { y with pend := some p }

/-- A long-latency arithmetic instruction (R105, R164). -/
def runSfu (o : Opc) (x : Op) (s : State) : Out :=
  issue s fun i =>
    if x.scalarD then
      if !splitGuard i.g i.sp x then s.done i x
      else
        let low := lowLane i.g i.sp
        let out := evalScalar o x i
        (s.modGroup i.who.key fun g => g.modLane low fun ln => { ln with vlfsr := out.lfsr }).sfuIssue o x i true [(low, out)] [low]
    else
      let ls := activeLanes i.g i.sp x
      match queueGate i.g ls x with
      | .wait => s.stall i
      | .fault b l => s.raise i b l
      | .go =>
        if s.regatherHeld i (opPops x) ls then s.stall i
        else
        let s := s.regather i (opPops x) ls
        let i := s.again i
        let pops := opPops x
        let faulted := ls.filter fun l => (gatherBad (i.g.lane l) pops).isSome
        let good := ls.filter fun l => (gatherBad (i.g.lane l) pops).isNone
        let ev := takeEvts i x good
        let outs := evalLanes o x i ev.1 good
        let s := s.setGroup i.who.key (outs.foldl (fun g e => g.modLane e.1 fun ln => { ln.popped pops with vlfsr := e.2.lfsr }) ev.2)
        match faulted with
        | [] => if ls == [] then (s.done i x).payFpe i.who i.sp i.sp.pc none else s.sfuIssue o x i false outs ls
        | l :: _ =>
          let b := (gatherBad (i.g.lane l) pops).getD illop9
          let r := sfuRes s.nextId o x i false outs
          let own := ownFpe (s.nextPc i (opUnits x)) (liveLanes i.g i.sp) (trapLanes (fmtTE i.sp.fmt) outs) (fmtTE i.sp.fmt) r.flags false
          let s := { s.modGroup i.who.key fun g => { g with results := g.results ++ [r] } with nextId := s.nextId + 1 }
          (s.modSplit i.who (·.owes i.sp.pc own)).raise i b faulted

/-- Write a long-latency result: D in its lanes, or the scalar in every split that its slices are in (R366), and FLAGS. DESIGN CHOICE (log 111):
where the issuing split has divided meanwhile, its flags go to every split that holds a slice of it, as a scalar result does. -/
def Group.writeRes (g : Group) (clock : DWord) (r : SfuRes) : Group :=
  let ls := (List.range g.width).filter fun l => r.lanes.getLsbD l
  let val (l : Nat) := (r.vals.get l).toNat
  let g := match r.dst with
    | .s _ => { g with splits := g.splits.map fun (y : Split) => if y.slices &&& r.slices != 0 then y.write r.dst r.n (val 0) else y }
    | .q q => if q == 4#8 then
          let g := ls.foldl (fun (g : Group) l => g.pushEvt (userEvt clock l (val l))) g
          if r.ovf then g.markOvf else g
        else g.modLanes ls fun l ln => ln.write r.dst r.n (val l) false
    | d => g.modLanes ls fun l ln => ln.write d r.n (val l) false
  { g with splits := g.splits.map (fun (y : Split) => if y.slices &&& r.slices != 0 then { y with flags := y.flags ||| r.flags } else y)
           results := g.results.filter fun z => z.id != r.id }

/-- A result of the special-function unit is written; the instruction's fault point passes, or FPE is delivered (R164, R171). In a retired
group it only ends the split (R29, R360). -/
def State.sfuReturn (s : State) (key id : Nat) : State :=
  match s.groups.get? key with
  | none => s
  | some g => match g.results.find? fun r => r.id == id with
    | none => s
    | some r =>
      let s := (s.setGroup key (g.writeRes s.clock r))
      match g.splits.findSome? fun y => match y.pend with
        | some p => if p.id == id then some (y, p.pc) else none
        | none => none with
      | none => s
      | some (y, pc) =>
        let w : Who := ⟨key, y.id⟩
        if g.retired then (s.modGroup key fun g => { g with splits := g.splits.filter fun z => z.id != y.id }).drained key
        else
          let s := s.modSplit w fun z => { z with pend := none }
          let ls := (List.range g.width).filter fun l => r.trapLanes.getLsbD l
          let own := fpeRecord (s.pastPads ⟨w, g, y⟩ allBlocks y.pc) (liveLanes g y) ls r.trapFlags r.flags false
          s.payFpe w y pc (if r.traps then some own else none)

/-- A pair (R57, R60): both slots read before either writes. DESIGN CHOICE (log 110): in a lane where both slots round stochastically the X
slot's steps of the vector LFSR come first; R60 and R142 do not order the slots. -/
def runPair (xo : Opc) (x : Op) (yo : Opc) (y : Op) (s : State) : Out :=
  issue s fun i =>
    let xl := activeLanes i.g i.sp x
    let yl := activeLanes i.g i.sp y
    if xl.any fun l => aluRefuses xo x.ty.toNat i.sp.fmt (laneIn xo x i.sp (i.g.lane l) []) then
      s.raise i illop9 ((List.range i.g.width).filter fun l => xl.contains l || yl.contains l)
    else
      let xs := evalLanes xo x i [] xl
      -- the LFSRs after the X slot; the registers are those before the pair
      let gx := xs.foldl (fun g e => g.modLane e.1 fun ln => { ln with vlfsr := e.2.lfsr }) i.g
      let j : Iss := { i with g := gx }
      let sc := y.scalarD && splitGuard i.g i.sp y
      let ys := if y.scalarD then [] else evalLanes yo y j [] yl
      let yv := evalScalar yo y j
      let low := lowLane i.g i.sp
      let all := orFlags xs ||| orFlags ys ||| (if sc then yv.flags else 0)
      let te := fmtTE i.sp.fmt
      if i.sp.pend.isSome && all &&& te != 0 then s.stall i
      else
        let g := applyLanes s.clock yo y ys (applyLanes s.clock xo x xs i.g)
        let g := if sc then (g.modLane low fun ln => { ln with vlfsr := yv.lfsr }).modSplit i.who.split (·.write y.d (dstN yo y) yv.val) else g
        let raised := (List.range i.g.width).filter fun l => (trapLanes te xs ++ trapLanes te ys ++ (if sc && yv.flags &&& te != 0 then [low] else [])).contains l
        (s.setGroup i.who.key g).doneFlags i x all raised true

end Sys2Proof.Machine
end

