-- ==== Sys2Proof/Machine/Issue.lean ====
section
/-! DEFINITION. When a split may issue an instruction: its registers (R54, R97), shadows (R54), fences (R258), pre-emption (R56, R409) and
the memory-active set (R384). -/
namespace Sys2Proof.Machine

/-- The numbers by which hazards name registers: vector, scalar, predicate, queue, handle. -/
def opndRes (sl : Slot) : Opnd → List Nat
  | .v r => match sl.k0 with
    | .v n => regs n r
    | .v8 => regs 8 r
    | _ => []
  | .s r => (regs sl.s r).map (256 + ·)
  | .p r => [320 + r.toNat]
  | .q r | .qn r => [330 + r.toNat]
  | .h r => [340 + r.toNat]
  | _ => []

/-- The slots of an operation. -/
def slotsOf (o : Opc) (x : Op) : Slots := o.slots x.fn.toNat x.ty.toNat x.scalarD x.ext

/-- What an operation reads: its guard and its sources; PACK reads the half of D that it keeps (R168). -/
def opReads (o : Opc) (x : Op) : List Nat :=
  let sl := slotsOf o x
  [320 + x.pg.toNat] ++ opndRes sl.a x.a ++ opndRes sl.b x.b ++ opndRes sl.c x.c ++ (match o with
    | .pack | .fmov => opndRes sl.d x.d
    | .p2s => (List.range 8).map (320 + ·)
    | _ => [])

/-- What an operation writes. -/
def opWrites (o : Opc) (x : Op) : List Nat :=
  let sl := slotsOf o x
  opndRes sl.d x.d ++ (match o with
    | .iaddc | .isubb => opndRes sl.c x.c
    | .s2p => (List.range 7).map (321 + ·)
    | .fmov | .fcancel | .frel => opndRes sl.a x.a
    | .sret => opndRes sl.a x.a ++ opndRes sl.b x.b
    | _ => []) ++ (opPops x).map (330 + ·)

/-- Two lists of registers meet. -/
def meets (a b : List Nat) : Bool := a.any b.contains

/-- Opcode and operation of an instruction, the X slot's for a pair. -/
def Instr.ops (i : Instr) : List (Opc × Op) :=
  match i with
  | .pair xo x yo y => [(xo, x), (yo, y)]
  | i => match i.op? with
    | some p => [p]
    | none => []

/-- What an instruction reads. -/
def insReads (i : Instr) : List Nat := ((Instr.ops i).map fun p => opReads p.1 p.2).flatten
/-- What an instruction writes. -/
def insWrites (i : Instr) : List Nat := ((Instr.ops i).map fun p => opWrites p.1 p.2).flatten

/-- The memory word of an operation. -/
def memW (x : Op) : MemWord := match x.ext with
  | .mem m => m
  | _ => MemWord.ofWord 0

/-- Is the instruction one whose accesses MEMORY_ACCESS_COMPLETION performs? -/
def memPending (o : Opc) : Bool :=
  match o with
  | .ld | .ldl | .ldp | .ldc | .st | .stl | .stp | .atom | .atomnr | .cas | .fatom | .fatomnr | .atoml | .publish => true
  | _ => false

/-- Does an instruction end a pending shadow, as R54 and R422 list them? -/
def endsShadow (o : Opc) : Bool :=
  o.ll || o.family == .control || o.family == .system || o.family == .counter || o == .seal || o == .waitb

/-- Is the pending instruction an acquire? No later access, a fetch included, is performed before it (R222). -/
def Pend.acquires (p : Pend) : Bool :=
  memPending p.opc && ((memW p.op).ord == 2#3 || (memW p.op).ord == 4#3)

/-- May an instruction issue in the shadow of a pending one (R54)? -/
def shadowOk (p : Pend) (i : Instr) : Bool :=
  p.shadow < p.budget && !p.acquires && ((Instr.ops i).all fun q => !endsShadow q.1) && !meets (insWrites i) p.regs && !meets (insReads i) p.dst

/-- The registers of a result that is not yet written (R97). -/
def resDst (r : SfuRes) : List Nat :=
  match r.dst with
  | .v q => regs r.n q
  | .s q => (regs r.n q).map (256 + ·)
  | .q q => [330 + q.toNat]
  | _ => []

/-- Does an instruction wait for every earlier result of its split: REGANG, REFILL and accesses of FLAGS (R84, R376)? -/
def waitsResults (i : Instr) : Bool :=
  match i with
  | .regang _ | .refill _ => true
  | .sysrd x | .syswr x => match x.ext with
    | .sys idx _ => idx == 0x010#12
    | _ => false
  | .clk x => x.fn == 1#4
  | _ => false

/-- The scoreboard lets an instruction issue (R97, R164): a result on its way to the group's q4 holds every split that names q4, as queue
operations take effect in issue order (R308). -/
def boardOk (g : Group) (x : Split) (i : Instr) : Bool :=
  let names := insReads i ++ insWrites i
  g.results.all fun r => (r.slices &&& x.slices == 0 || (!waitsResults i && !meets names (resDst r))) &&
    !((resDst r).contains 334 && names.contains 334)

/-- The kinds of access that an opcode makes, as FENCE numbers them: r, w, cr, cw, mr, mw (R214, R238). -/
def opKinds (o : Opc) (x : Op) : List Nat :=
  match o with
  | .ld | .ldl | .ldp | .ldc | .sld | .dbwait => [0]
  | .st | .stl | .stp | .sst => [1]
  | .atom | .atomnr | .cas | .fatom | .fatomnr | .atoml | .sink | .dbarv => [0, 1]
  | .cpy | .cpyb | .cpyo | .cpyg => [2, 3]
  | .mma | .mmaz => [4]
  | .mfill => if x.ty.toNat % 2 == 1 then [4] else []
  | .mdrain => if x.ty.toNat % 2 == 1 then [5] else []
  | _ => []

/-- The kinds of access that an instruction makes; a push of q2 is the read of its gather (R309). -/
def accessKinds (o : Opc) (x : Op) : List Nat := opKinds o x ++ if opPush x == some 2 then [0] else []

/-- Is the instruction a release: an access with `.rel`, an arrival, or a task instruction (R222, R224, R277, R359, R428)? -/
def releases (o : Opc) (x : Op) : Bool :=
  match o with
  | .barv | .barw | .dbarv | .tspawn | .tarm | .tdec | .tdone | .tyield | .launch => true
  | .sink => x.ty.toNat / 8 % 4 == 2
  | o => memPending o && 3 ≤ (memW x).ord.toNat

/-- Addresses of a lane's q2 that the gather unit has still to read (R309). -/
def Lane.unread (ln : Lane) : Nat := ln.q2.length / 2 - ln.gbuf.length

/-- The address of a lane's next gather. -/
def Lane.nextGather (ln : Lane) : Nat :=
  let k := 2 * ln.gbuf.length
  (ln.q2.getD k 0).toNat + 2 ^ 32 * (ln.q2.getD (k + 1) 0).toNat

/-- Gathers of a lane still to be performed, those of words that long-latency instructions have still to push among them (R94, R309). -/
def Group.gathersDue (g : Group) (l : Nat) : Nat := ((g.lane l).q2.length + g.q2Due l) / 2 - (g.lane l).gbuf.length

/-- Has a lane of a split a gather still to be performed? -/
def gathersLeft (g : Group) (x : Split) : Bool := (lanesOf g x).any fun l => g.gathersDue l != 0

/-- Was a copy issued for a lane of the split? -/
def CopyOp.of (c : CopyOp) (key : Nat) (x : Split) : Bool := c.key == key && (List.range 64).any fun l => (c.lanes.getLsbD l || c.lane == l) && x.has l

/-- Has a split accesses of its engines under way: copies, and matrix operations that access memory (R214)? -/
def State.engineBusy (s : State) (key : Nat) (g : Group) (x : Split) : Bool :=
  (s.copies.any fun c => c.of key x) || g.mops.any fun m => m.slices &&& x.slices != 0 && (m.kind == .mma || m.kind == .mmaz || m.ls)

/-- The group arrives at a barrier with this split's end: which an EXIT of all its lanes is (R420). -/
def State.exitArrives (s : State) (i : Iss) (ins : Instr) : Bool :=
  match ins with
  | .exit o => (liveLanes i.g i.sp == activeLanes i.g i.sp o) && (List.range 16).any fun n => s.endArrives i.g i.sp n
  | _ => false

/-- Program order and releases let an instruction issue: it follows the gathers of its split's earlier pushes where it accesses memory, and a
release follows every earlier access, pending ones and those of the engines included (R222, R224, R309, R359, R420). -/
def orderOk (s : State) (i : Iss) (ins : Instr) : Bool :=
  let rel := ((Instr.ops ins).any fun p => releases p.1 p.2) || s.exitArrives i ins
  let acc := (Instr.ops ins).any fun p => (opKinds p.1 p.2).any fun k => k ≤ 1
  !((rel || acc) && gathersLeft i.g i.sp) && !(rel && (s.engineBusy i.who.key i.g i.sp || (i.sp.pend.any fun p => opKinds p.opc p.op != [])))

/-- Is an operation that a fence waits for still under way: a copy or a matrix operation (R258)? -/
def State.underWay (s : State) (g : Group) (id : Nat) : Bool := (s.copies.any fun c => c.id == id) || g.mops.any fun m => m.id == id

/-- Does a fence still wait for something? -/
def State.fenceWaits (s : State) (g : Group) (f : Fence) : Bool := (f.ids.any fun id => s.underWay g id) || f.gathers.any fun e => e.2 != 0

/-- Fences let an instruction issue (R258). -/
def fenceOk (s : State) (g : Group) (x : Split) (i : Instr) : Bool :=
  x.fences.all fun f => !s.fenceWaits g f || (Instr.ops i).all fun p => (accessKinds p.1 p.2).all fun k => !f.q.getLsbD k

/-- A memory instruction, for the memory-active set (R384). -/
def memoryIns (i : Instr) : Bool :=
  (Instr.ops i).any fun p => let c := p.1.code
    (0x80 ≤ c && c ≤ 0x91) || c == 0xA0 || (0xA8 ≤ c && c ≤ 0xAB) || opPush p.2 == some 2

/-- Scheduler of a group slot (R11). -/
def schedOf (key : Nat) : Nat := key % 64 % 4

/-- Is a return from a trap still to be finished: the instruction that it re-executes, or those that it passes over (R89)? -/
def Split.returning (x : Split) : Bool := x.wait == .ready && (x.rerun.isSome || x.skip != 0)

/-- Has the launch of a group been aborted (R416)? -/
def State.aborting (s : State) (g : Group) : Bool := (s.launches.get? (s.wgOf g).launch).any fun l => l.aborted

/-- A split is at a point where it can look at its next instruction: nothing that R35 names, and no hold, stops it. Splits that have all
gathered go on with the lowest of them (R376). The groups of an aborted launch issue nothing more (R416). Under a pre-emption a return from a trap is finished first (R409, R473). -/
def State.splitReady (s : State) (g : Group) (x : Split) : Bool :=
  g.started && !g.retired && !s.aborting g && x.held.isNone && ((s.wgOf g).preempt.isNone || x.returning) && s.powered && !(s.core (s.wgOf g).core).stopped && !s.coreFailed.getLsbD (s.wgOf g).core &&
  (match x.wait with
   | .ready | .stall => true
   | .future h => (g.handles.getD h.toNat {}).st != 1
   | .gather _ => g.splits.all fun y => x.id ≤ y.id && y.pc == x.pc && (match y.wait with
     | .gather _ => true
     | _ => false)
   | _ => false)

/-- Is a group of an aborted launch at a boundary, where it ends (R56, R416)? -/
def Group.abortable (g : Group) : Bool := !g.retired && g.splits.all fun x => x.pend.isNone

/-- May the issuing split issue the instruction now? -/
def mayIssue (s : State) (i : Iss) (ins : Instr) : Bool :=
  (match i.sp.pend with
   | some p => shadowOk p ins
   | none => true) && boardOk i.g i.sp ins && fenceOk s i.g i.sp ins && orderOk s i ins

/-- Fetch the block at a virtual address for the issuing split (R231, R391): the units, or the fetch fault. While an owner of its private page
holds the block Dirty, its home has the older one (R395). DESIGN CHOICE (log 93): a block that is both poisoned and STAGED raises DATAERR. -/
def State.fetch (s : State) (i : Iss) (block : Nat) : State × Except Bad (List Word) :=
  match s.gx i .fetch false block with
  | (s, .error b) => (s, .error b)
  | (s, .ok l) =>
    let units := (List.range 8).map fun k => BitVec.ofNat 32 (s.blockRd (l.place + 4 * k) 4)
    let sector := l.place / 32
    let ctx := s.ctxOf i.core
    let code := s.codeAtHome sector
    if s.hasCode i.core ctx sector then (s, .ok units)
    else if code != 0 then (if code == 1 then s.poisonGran sector else s, .error (memBad .dataerr code .fetch block))
    else if s.stagedAtHome sector then (s, .error (memBad .unpub 1 .fetch block))
    else (s.enterCode i.core ctx sector, .ok units)

/-- Byte address of the block that holds a program counter. -/
def blockOf (pc : BitVec 50) : Nat := pc.toNat / 8 * 32

/-- A fetch from a sector that holds an entry in flight of the group waits (R276). -/
def State.fetchHeld (s : State) (i : Iss) : Bool := s.sinkBusyAt i.who.key i.g .fetch (blockOf i.sp.pc)

/-- What a decode depends on, for a group (R46, R181). -/
def State.decCx (s : State) (g : Group) : DecCx := { vregs := (s.wgOf g).par.vregs, width := g.width }

/-- TRAPADDR of a decode fault (R65). -/
def decodeAddr (pc : BitVec 50) (b : Bad) : Bad :=
  if b.cause == .illplace then { b with addr := BitVec.ofNat 64 (if b.aux == 1 then blockOf pc + 32 else pc.toNat * 4) } else b

/-- What stands at the issuing split's program counter. -/
def State.reach (s : State) (i : Iss) : State × Dec :=
  match s.fetch i (blockOf i.sp.pc) with
  | (s, .error b) => (s, .bad b)
  | (s, .ok us) => match decodeBlock (s.decCx i.g) i.sp.jumped us (i.sp.pc.toNat % 8) with
    | .bad b => (s, .bad (decodeAddr i.sp.pc b))
    | d => (s, d)

/-- Units of a decoded instruction as the split passes over it. -/
def State.passOver (s : State) (i : Iss) (units : Nat) : State :=
  (s.modSplit i.who fun x => { x.adv units with skip := x.skip - 1, pend := x.pend })

/-- Does an operation take its pipe for two issue cycles in each gang half (R100, R152)? -/
def twoCycles (o : Opc) (x : Op) : Bool :=
  match o with
  | .imul64 | .fdiv | .fsqrt | .rcp | .rsq | .exp2 | .log2 | .sin | .cos | .tanh => true
  | .fadd | .fsub | .fmul | .ffma | .fmin | .fmax | .fmed3 | .fset | .fsign | .fscale | .frnd | .fcmp | .fclass | .i2f => x.ty == 0x0F#6
  | .cvt => x.ty == 0x0F#6 || x.fn.toNat % 8 == 1
  | .f2i => x.fn.toNat % 4 == 1
  | .reduce | .scan => x.ty == 0x0F#6
  | _ => false

/-- Does an instruction hold its pipe or unit for two issue cycles (R100, R152, R177)? The integer forms with a scalar D, IMUL64's among
them, execute in the scheduler's scalar unit and occupy no pipe (R100). -/
def longPipe (i : Instr) : Bool := (Instr.ops i).any fun p => twoCycles p.1 p.2 && !(p.1 == .imul64 && p.2.scalarD)

/-- The cycles for which an instruction holds its scheduler, and whether a gang half issues in each: a split of more than 8 slices issues
every instruction as two halves (R11), and a pipe may take two issue cycles for each (R100, R152, R177). -/
def issueCycles (x : Split) (i : Instr) : List Bool :=
  let half := if longPipe i then [true, false] else [true]
  if 8 < popN 16 x.slices.toNat then half ++ half else half

/-- Count an instruction issued, and an issue forced by STARVE (R383, R436). -/
def State.countIssue (s : State) (key : Nat) (forced : Bool) : State :=
  let k := 8 * schedOf key
  s.modCore (key / 64) fun c =>
    let ev := c.ev.set k (c.ev.get k + 1)
    { c with ev := if forced then ev.set (k + 3) (ev.get (k + 3) + 1) else ev }

end Sys2Proof.Machine
end

