-- ==== Sys2Proof/Machine/Dispense.lean ====
section
/-! DEFINITION. How items reach lanes: workgroups and tiles as runs of identifiers (R7 to R9), cursors and adoption (R24, R25), and the
dispenser (R21, R23). -/
namespace Sys2Proof.Machine

/-- Items of a unit of a level: those that agree from the level up (R8). -/
def levelSize (p : Params) (lev : Nat) : Nat := 2 ^ min 64 (p.widths.take lev).sum
/-- Items of a workgroup (R9). -/
def wgItems (p : Params) : Nat := levelSize p p.wglevel
/-- Items of a tile (R9). -/
def tileItems (p : Params) : Nat := levelSize p p.tilelevel
/-- Tiles of a launch (R15). -/
def tileCount (p : Params) : Nat := (p.items.toNat + tileItems p - 1) / tileItems p
/-- The end of a run that begins at an identifier: the unit's size, or the launch's items. -/
def runEnd (p : Params) (size a : Nat) : Nat := min (a + size) p.items.toNat

/-- A started tile's record. -/
def Launch.startedAt (l : Launch) (tile : Nat) : Option Started := l.started.find? fun t => t.tile == tile
/-- Replace a started tile's record. -/
def Launch.setStarted (l : Launch) (t : Started) : Launch := { l with started := l.started.map fun x => if x.tile == t.tile then t else x }

/-- Start a tile on a die (R16, R430). -/
def Launch.start (l : Launch) (tile die : Nat) : Launch :=
  { l with started := l.started ++ [{ tile := tile, die := die, cursor := tile * tileItems l.par, stop := runEnd l.par (tileItems l.par) (tile * tileItems l.par) }] }

/-- Take the workgroup at a tile's cursor, and advance it (R25): the first identifier and the end. -/
def Launch.take (l : Launch) (t : Started) : Launch × Nat × Nat :=
  let e := min (t.cursor + wgItems l.par) t.stop
  (l.setStarted { t with cursor := e }, t.cursor, e)

/-- A die's share of a launch. -/
def Launch.share (l : Launch) (die : Nat) : Share := l.shares.getD die { next := 0, stop := 0 }

/-- The next workgroup that a running dispenser adopts, in the bound of the group's first item (R24): of its tile, else of the next tile of
its die's share. -/
def Launch.adopt (l : Launch) (die tile : Nat) (first : DWord) : Option (Launch × Nat × Nat × Nat) :=
  let inBound (a : Nat) := agree (BitVec.ofNat 64 a)
  match l.startedAt tile with
  | some t =>
    if t.cursor < t.stop then
      (if inBound t.cursor then let r := l.take t; some (r.1, tile, r.2.1, r.2.2) else none)
    else
      let sh := l.share die
      let a := sh.next * tileItems l.par
      if sh.next < sh.stop && inBound a then
        let l := { l with shares := l.shares.put die { sh with next := sh.next + 1 } }.start sh.next die
        match l.startedAt sh.next with
        | some t => let r := l.take t; some (r.1, sh.next, r.2.1, r.2.2)
        | none => none
      else none
  | none => none
where
  /-- Agreement with the group's first item from REFILLLVL up. -/
  agree (a : DWord) : Bool :=
    let n := (l.par.widths.take l.par.refill).sum
    64 ≤ n || a >>> n == first >>> n

/-- The dispenser gives the next item that agrees from REFILLLVL up with the group's first item, adopting a workgroup where it may (R21,
R24). DESIGN CHOICE (log 108): it adopts when an item is asked of it and its own are all dispensed, not before. -/
def State.dispense (s : State) (wg : Nat) (first : DWord) : Option (DWord × State) :=
  match s.wgs.get? wg with
  | none => none
  | some w => match s.launches.get? w.launch with
    | none => none
    | some l =>
      let give (l : Launch) (w : Workgroup) : Option (DWord × State) :=
        let a := BitVec.ofNat 64 w.next
        let n := (w.par.widths.take w.par.refill).sum
        if w.next < w.stop && (64 ≤ n || a >>> n == first >>> n) then
          some (a, { s with launches := s.launches.put w.launch { l with given := l.given + 1 }, wgs := s.wgs.put wg { w with next := w.next + 1 } })
        else none
      if w.next < w.stop then give l w
      else if w.task || w.par.refill ≤ w.par.wglevel || l.aborted then none
      else match l.adopt (w.core / 48) w.tile first with
      | none => none
      | some (l, tile, a, e) => give l { w with next := a, stop := e, tile := tile, tiles := if w.tiles.contains tile then w.tiles else w.tiles ++ [tile] }

/-- A lane takes an item (R22, R380); `fresh` at group start, where LANEAGE is zero. -/
def Lane.refilled (ln : Lane) (p : Params) (id : DWord) : Lane :=
  { ln with idle := false, exm := true, workid := id, wgid := wgidOf p id, age := ln.age + 1, rcpt := 0, vlfsr := vseed id, mlfsr := mseed id }

/-- Zero the registers of a range (R22). -/
def Lane.zeroed (ln : Lane) (lo hi : Nat) : Lane := { ln with v := ln.v.clear lo (hi + 1 - lo) }

/-- Idle lanes take items in ascending order, as far as items remain (R21). -/
def State.refillLanes (s : State) (key wg : Nat) (p : Params) (first : DWord) (range : Option (Nat × Nat)) : List Nat → State
  | [] => s
  | l :: ls => match s.dispense wg first with
    | none => s
    | some (id, s) =>
      (s.modGroup key fun g => g.modLane l fun ln =>
        let ln := ln.refilled p id
        match range with
        | some (lo, hi) => ln.zeroed lo hi
        | none => ln).refillLanes key wg p first range ls

end Sys2Proof.Machine
end

