-- ==== Sys2Proof/Machine/Control.lean ====
section
/-! DEFINITION. The control instructions (R362 to R381), the pad run, the unassigned opcodes and the fetch of a block. -/
namespace Sys2Proof.Machine

/-- The branch target of an instruction (R43, R363). -/
def relTarget (pc : BitVec 50) : Ext → BitVec 50
  | .rel off => pc + off.signExtend 50
  | _ => pc

/-- The issuing split continues at a target. -/
def State.goto (s : State) (i : Iss) (pc : BitVec 50) : State := (s.modSplit i.who (·.jump pc))

/-- The byte address of the instruction after one (R368). -/
def State.linkOf (s : State) (i : Iss) (o : Op) : Nat := (s.nextPc i (opUnits o)).toNat * 4

/-- NOP (R381). -/
def execNop (o : Op) (s : State) : Out := splitScope o s fun i => s.done i o

/-- BR (R368). -/
def execBr (o : Op) (s : State) : Out := splitScope o s fun i => s.goto i (relTarget i.sp.pc o.ext)

/-- BRU (R368). -/
def execBru (o : Op) (s : State) : Out :=
  splitScope o s fun i => if (scalar32 i.sp o.a != 0) == (o.fn == 0) then s.goto i (relTarget i.sp.pc o.ext) else s.done i o

/-- CALL (R368). -/
def execCall (o : Op) (s : State) : Out :=
  splitScope o s fun i => (s.modSplit i.who (·.write o.d 2 (s.linkOf i o))).goto i (relTarget i.sp.pc o.ext)

/-- BADTARGET with its code and TRAPADDR (R375). -/
def badTarget (code addr : Nat) : Bad := { cause := .badtarget, aux := BitVec.ofNat 32 code, addr := BitVec.ofNat 64 addr }

/-- One read of the target table (R374). -/
def State.tableRead (s : State) (i : Iss) (a n : Nat) : State × Except Bad Nat :=
  match s.gx i .read false a with
  | (s, .error b) => (s, .error b)
  | (s, .ok l) => match s.badGran l.place n with
    | some (_, c) => (s.markRead l.place n, .error (memBad .dataerr c .read a))
    | none => (s, .ok (s.rd l.place n))

/-- The target at an index of the launch's table, with the checks of R375 in their order. -/
def State.target (s : State) (i : Iss) (idx : Nat) : State × Except Bad (BitVec 50) :=
  let t := (s.wgOf i.g).par.targets.toNat
  if t == 0 then (s, .error (badTarget 1 idx))
  else if t % 8 != 0 then (s, .error (badTarget 5 t))
  else match s.tableRead i t 4 with
  | (s, .error b) => (s, .error b)
  | (s, .ok count) =>
    if min count 65536 ≤ idx then (s, .error (badTarget 2 idx))
    else match s.tableRead i (t + 8 + 8 * idx) 8 with
    | (s, .error b) => (s, .error b)
    | (s, .ok e) => if e % 4 != 0 || 2 ^ 52 ≤ e then (s, .error (badTarget 3 e)) else (s, .ok (pcOf e))

/-- BRX (R372). -/
def execBrx (o : Op) (s : State) : Out :=
  splitScope o s fun i => match s.target i (scalar32 i.sp o.a) with
    | (s, .error b) => s.raiseAll i b
    | (s, .ok pc) => s.goto i pc

/-- CALLX (R372). -/
def execCallx (o : Op) (s : State) : Out :=
  splitScope o s fun i => match s.target i (scalar32 i.sp o.a) with
    | (s, .error b) => s.raiseAll i b
    | (s, .ok pc) => (s.modSplit i.who (·.write o.d 2 (s.linkOf i o))).goto i pc

/-- RET (R372, R375). -/
def execRet (o : Op) (s : State) : Out :=
  splitScope o s fun i =>
    let a := scalar64 i.sp o.a
    if a % 4 != 0 || 2 ^ 52 ≤ a then s.raiseAll i (badTarget 4 a) else s.goto i (pcOf a)

/-- The lanes of T in BRC (R369). -/
def brcTaken (g : Group) (sp : Split) (o : Op) : List Nat :=
  (exmLanes g sp).filter fun l => (g.lane l).guard o.pg o.pn && readPred (g.lane l) o.a != (o.fn == 1)

/-- The slices that hold lanes of a list. -/
def slicesOf (ls : List Nat) : BitVec 16 := maskOf 16 (ls.map (· / 4))

/-- The lanes of a slice in a list, as a 4-bit mask. -/
def slicePart (ls : List Nat) (k : Nat) : BitVec 4 := maskOf 4 ((ls.filter fun l => l / 4 == k).map (· % 4))

/-- RSTACK with its code and the depth (R371). -/
def rstack (code depth : Nat) : Bad := { cause := .rstack, aux := BitVec.ofNat 32 (code + 16 * depth) }

/-- Depth of the reconvergence stacks of a split (R366). -/
def stackDepth (g : Group) (x : Split) : Nat := (g.stack x.id).length

/-- A split forms at a target with some of the slices of its parent (R366, R369). -/
def Group.fork (g : Group) (x : Split) (sl : BitVec 16) (target : BitVec 50) (units : Nat) : Group :=
  let y := x.adv units
  { g with splits := (g.splits.map fun z => if z.id == x.id then { y with slices := x.slices &&& ~~~sl } else z) ++
      [{ x.jump target with slices := sl, starve := 0 }] }

/-- Every slice of a split pushes an entry and runs its fall-through lanes (R367, R369). -/
def Group.pushAll (g : Group) (x : Split) (t f : List Nat) (target : BitVec 50) : Group :=
  let e := exmLanes g x
  let g1 := x.sliceList.foldl (fun (g : Group) k => { g with rstacks := modAt g.rstacks k fun st =>
    { phase := false, tpc := target, tmask := slicePart t k, fmask := slicePart f k, sexm := slicePart e k, sfmt := x.fmt } :: st }) g
  g1.modLanes (lanesOf g x) fun l ln => { ln with exm := f.contains l }

/-- BRC (R369). -/
def execBrc (o : Op) (s : State) : Out :=
  issue s fun i =>
    let t := brcTaken i.g i.sp o
    let f := (exmLanes i.g i.sp).filter fun l => !t.contains l
    let target := relTarget i.sp.pc o.ext
    if t == [] then s.done i o
    else if f == [] then s.goto i target
    else if slicesOf t &&& slicesOf f == 0 then (s.setGroup i.who.key (i.g.fork i.sp (slicesOf t) target (opUnits o)))
    else if 8 ≤ stackDepth i.g i.sp then s.raiseAll i (rstack 1 8)
    else (s.setGroup i.who.key (i.g.pushAll i.sp t f target)).done i o

/-- RCV on a group's stacks: the taken path begins, or the entry is popped (R370). The entry of slice k is the head of its stack. -/
def Group.rcv (g : Group) (x : Split) (taken : Bool) : Group :=
  let g1 := g.modLanes (lanesOf g x) fun l ln => match (g.stack (l / 4)).head? with
    | some e => { ln with exm := (if taken then e.tmask else e.sexm).getLsbD (l % 4) && !ln.idle }
    | none => ln
  { g1 with rstacks := x.sliceList.foldl (fun st k => modAt st k fun l => match l with
    | e :: rest => if taken then { e with phase := true } :: rest else rest
    | [] => []) g1.rstacks }

/-- RCV (R370). -/
def execRcv (o : Op) (s : State) : Out :=
  splitScope o s fun i => match (i.g.stack i.sp.id).head? with
    | none => s.done i o
    | some e =>
      let s := (s.setGroup i.who.key (i.g.rcv i.sp (!e.phase))).modSplit i.who fun y => { y with fmt := e.sfmt }
      if e.phase then s.done i o else s.goto i e.tpc

/-- EXIT (R379). -/
def execExit (o : Op) (s : State) : Out :=
  issue s fun i =>
    let ls := activeLanes i.g i.sp o
    let s := (s.modGroup i.who.key fun g => g.modLanes ls fun _ ln => { ln with idle := true, exm := false }).done i o
    s.settle i.who.key i.who.split

/-- YIELD (R381). -/
def execYield (o : Op) (s : State) : Out :=
  splitScope o s fun i => (s.modSplit i.who fun y => { y with order := s.clock }).done i o

/-- Has every valid split of the group arrived at this one's instruction (R376)? -/
def gathered (g : Group) (x : Split) : Bool := g.splits.all fun y => y.id == x.id || (y.pc == x.pc && match y.wait with
  | .gather _ => true
  | _ => false)

/-- The split's record of a time-out at this instruction is used up (R378, R425). -/
def Split.forget (x : Split) : Split := { x with timedOut := x.timedOut.filter fun e => e.1 != x.pc }

/-- Does RTE re-execute the REGANG or REFILL at which this split took its BARTIMEOUT (R378)? -/
def Split.arrivesAgain (x : Split) : Bool := x.rerun.isSome && x.timedOut.any fun e => e.1 == x.pc

/-- A split arrives at REGANG or REFILL (R376, R378): the time-out is that of the gathering, started afresh for every split that waits there
when the split that took the time-out arrives again. -/
def Group.arrive (g : Group) (x : Split) (clock : DWord) : Group :=
  let here := g.splits.findSome? fun y => match y.wait with
    | .gather t => if y.pc == x.pc && y.id != x.id then some t else none
    | _ => none
  let t := if x.arrivesAgain then some clock else here.getD (some clock)
  { g with splits := g.splits.map fun y =>
      if y.id == x.id then { y.forget with wait := .gather t }
      else match y.wait with
        | .gather _ => if y.pc == x.pc then { y with wait := .gather t } else y
        | _ => y }

/-- The slices of a group of that width. -/
def allSlices (width : Nat) : BitVec 16 := BitVec.ofNat 16 (2 ^ (width / 4) - 1)

/-- The splits of a group merge into one at the instruction after (R377, R420); the slices of splits that have ended are in it again (R22,
R366). -/
def Group.merge (g : Group) (x : Split) (units : Nat) : Group :=
  let low := (leastBy (fun y => [y.id]) g.splits).getD x
  let m : Split := { low with
    slices := allSlices g.width
    flags := g.splits.foldl (fun a y => a ||| y.flags) 0
    mark := g.splits.foldl (fun a y => a &&& y.mark) 0xFFFF#16
    fences := (g.splits.map (·.fences)).flatten
    lastClock := BitVec.ofNat 64 (g.splits.foldl (fun a y => max a y.lastClock.toNat) 0)
    starve := 0, held := none, rerun := none, skip := 0 }
  { g with splits := [m.adv units] }

/-- REGANG (R376, R377). -/
def execRegang (o : Op) (s : State) : Out :=
  splitScope o s fun i =>
    if stackDepth i.g i.sp != 0 then s.raiseAll i (rstack 2 (stackDepth i.g i.sp))
    else if gathered i.g i.sp then (s.setGroup i.who.key (i.g.merge i.sp (opUnits o)))
    else (s.setGroup i.who.key (i.g.arrive i.sp s.clock))

/-- The register range of REFILL. -/
def refillRange (o : Op) : Option (Nat × Nat) :=
  match o.a, o.b with
  | .v a, .v b => if o.fn == 1 then some (a.toNat, b.toNat) else none
  | _, _ => none

/-- REFILL (R21, R22, R376, R380): a range that runs backwards is refused whatever the guard. -/
def execRefill (o : Op) (s : State) : Out :=
  issue s fun i =>
    if (refillRange o).any fun r => r.2 < r.1 then s.raiseAll i illop9
    else if !splitGuard i.g i.sp o then s.done i o
    else if stackDepth i.g i.sp != 0 then s.raiseAll i (rstack 2 (stackDepth i.g i.sp))
    else if !gathered i.g i.sp then (s.setGroup i.who.key (i.g.arrive i.sp s.clock))
    else
      let s := (s.setGroup i.who.key (i.g.merge i.sp (opUnits o)))
      let idle := (List.range i.g.width).filter fun l => (i.g.lane l).idle
      s.refillLanes i.who.key i.g.wg (s.wgOf i.g).par i.g.first (refillRange o) idle

/-- PAD: the counter moves to the next block; it is no instruction (R41). -/
def execPad (s : State) : Out :=
  issue s fun i => (s.modSplit i.who fun y => { y with pc := BitVec.ofNat 50 (y.pc.toNat / 8 * 8 + 8), jumped := false })

/-- UNASSIGNED_OPCODE: ILLOP with code 1 (R62, R65). -/
def execUnassignedOpcode (_opc : BitVec 8) (s : State) : Out := issue s fun i => s.raiseAll i (illop 1)

/-- INSTRUCTION_FETCH: the issuing split's block enters its core's instruction cache, or the fetch fault is raised (R231). -/
def execInstructionFetch (s : State) : Out :=
  issue s fun i => match s.fetch i (blockOf i.sp.pc) with
    | (t, .error b) => if i.sp.pend.isSome then s.stall i else t.raiseAll (t.again i) b
    | (t, .ok _) => t

end Sys2Proof.Machine
end

