-- ==== Sys2Proof/Machine/Mem.lean ====
section
/-! DEFINITION. The memory instructions (R235 to R262): addresses, the fault point of an access, loads, stores, atomics and the range
instructions. A lane-scope form is held from issue to the step in which every lane's access is performed or found faulting (R242). -/
namespace Sys2Proof.Machine

/-- The memory that an opcode names (R239). -/
inductive Space where
  | glob | loc | prv
  deriving DecidableEq, Repr

/-- The memory of a memory opcode. -/
def spaceOf : Opc → Space
  | .ldl | .stl | .atoml => .loc
  | .ldp | .stp => .prv
  | _ => .glob

/-- Bytes of a memory element (R236). -/
def memBytes (ty : Nat) : Nat :=
  match ty with
  | 0x0B | 0x10 => 1
  | 0x0C | 0x12 => 2
  | 0x03 | 0x04 | 0x0D | 0x0F => 8
  | 0x0E => 16
  | _ => 4

/-- The scaled index of a lane (R239). -/
def memIdx (x : Op) (sp : Split) (ln : Lane) : Nat :=
  if (memW x).ixp == 1#1 then readOpnd sp ln (.int 32) x.b * 2 ^ (memW x).scale.toNat else 0

/-- ea of a lane (R239). -/
def globAddr (x : Op) (sp : Split) (ln : Lane) : Nat :=
  wrapN 64 (((readOpnd sp ln (.int 64) x.a + memIdx x sp ln : Nat) : Int) + sgn 16 (memW x).ofs.toNat)

/-- o of a lane (R239). -/
def offAddr (x : Op) (sp : Split) (ln : Lane) : Int :=
  ((readOpnd sp ln (.int 32) x.a + memIdx x sp ln : Nat) : Int) + sgn 16 (memW x).ofs.toNat

/-- The access that an opcode makes (R243). -/
def accOf : Opc → Acc
  | .st | .stl | .stp | .sst => .write
  | .atom | .atomnr | .cas | .fatom | .fatomnr | .atoml => .atomic
  | .publish => .range
  | _ => .read

/-- Bytes of a slot's region of the private pool (R204). -/
def poolRegion (p : Params) : Nat := roundUp (64 * p.privwords.toNat * 4) 65536

/-- The pool address of private word w of lane l of a group of a workgroup, in slot key % 64 of core key / 64 (R204, R302). -/
def State.poolWord (s : State) (wg : Workgroup) (key width l w : Nat) : Nat :=
  ((s.part wg.part).poolbase.toNat + (64 * s.coreIndex wg.part (key / 64) + key % 64) * poolRegion wg.par + (w * width + l) * 4) % 2 ^ 64

/-- The pool address of private word w of lane l for the issuing group (R204, R302). -/
def State.poolAddr (s : State) (i : Iss) (l w : Nat) : Nat := s.poolWord (s.wgOf i.g) i.who.key i.g.width l w

/-- The addresses of a lane's access: TRAPADDR's value, and each part's address and length; or the fault found before translation (R239). -/
def State.accessOf (s : State) (i : Iss) (o : Opc) (x : Op) (l : Nat) : Except Bad (Nat × List (Nat × Nat)) :=
  let ln := i.g.lane l
  let n := memBytes x.ty.toNat
  match spaceOf o with
  | .glob =>
    let ea := globAddr x i.sp ln
    if ea % n != 0 then .error (memBad .align 1 (accOf o) ea) else .ok (ea, [(ea, n)])
  | .loc =>
    let a := offAddr x i.sp ln
    let t := wrapN 64 a
    if a % (n : Int) != 0 then .error (memBad .align 1 (accOf o) t)
    else if a < 0 || ((s.wgOf i.g).par.localkb * 1024 : Nat) < a + (n : Int) then .error (memBad .prot 4 (accOf o) t)
    else .ok (t, [(a.toNat, n)])
  | .prv =>
    let a := offAddr x i.sp ln
    let t := wrapN 64 a
    if a % (n : Int) != 0 then .error (memBad .align 1 (accOf o) t)
    else if a < 0 || (((s.wgOf i.g).par.privwords.toNat * 4 : Nat) : Int) < a + (n : Int) then .error (memBad .stacklim 1 (accOf o) t)
    else .ok (t, (List.range ((n + 3) / 4)).map fun k => (s.poolAddr i l (a.toNat / 4 + k) + a.toNat % 4, min n 4))

/-- One part of a lane's access once translated; `o` is its offset in the element. -/
structure Piece where
  place : Nat
  len : Nat
  off : Nat
  path : Path
  deriving DecidableEq, Repr

/-- A lane's access once checked: TRAPADDR's value and its parts. -/
structure Target where
  addr : Nat
  pieces : List Piece
  deriving DecidableEq, Repr

/-- Is the access performed at the home whatever L1 holds (R227, R246)? -/
def atHome (o : Opc) (x : Op) : Bool := (o == .ld || o == .ldc) && (memW x).ord == 2#3 && 2 ≤ (memW x).scope.toNat

/-- The path of an access: LDP and STP take the private path whatever the pool page says (R301). -/
def pathFor (o : Opc) (x : Op) (p : Path) : Path := if spaceOf o == .prv then .priv else if atHome o x then .home else p

/-- The fault of a walk that an access of the split shares with an earlier one, as it reports it (R399). -/
def State.sharedFault (s : State) (i : Iss) (acc : Acc) (va : Nat) : Option Bad :=
  ((s.core i.core).xmiss.findSome? fun e =>
    if e.slot == i.who.key % 64 && e.split == i.who.split && e.what == va / 65536 then e.fault else none).map fun b =>
      { b with aux := (b.aux &&& ~~~0x70#32) ||| BitVec.ofNat 32 (16 * acc.code), addr := BitVec.ofNat 64 va }

/-- Translate an address of a memory instruction (R387, R398, R399). -/
def State.mx (s : State) (i : Iss) (acc : Acc) (claim : Bool) (va : Nat) : State × Except Bad Xl :=
  match s.sharedFault i acc va with
  | some b => (s, .error b)
  | none => s.gx i acc claim va

/-- Translate the parts of an access in order (R241, R301). -/
def State.aimParts (s : State) (i : Iss) (o : Opc) (x : Op) : Nat → List (Nat × Nat) → State × Except Bad (List Piece)
  | _, [] => (s, .ok [])
  | off, (va, n) :: rest =>
    match s.mx i (accOf o) (spaceOf o == .glob) va with
    | (s, .error b) => (s, .error b)
    | (s, .ok t) => match s.aimParts i o x (off + n) rest with
      | (s, .error b) => (s, .error b)
      | (s, .ok ps) => (s, .ok (⟨t.place, n, off, pathFor o x t.path⟩ :: ps))

/-- Check and translate a lane's access (R239, R301). -/
def State.aim (s : State) (i : Iss) (o : Opc) (x : Op) (l : Nat) : State × Except Bad Target :=
  match s.accessOf i o x l with
  | .error b => (s, .error b)
  | .ok (t, parts) =>
    if spaceOf o == .loc then (s, .ok ⟨t, parts.map fun p => ⟨p.1, p.2, 0, .home⟩⟩)
    else match s.aimParts i o x 0 parts with
    | (s, .error b) => (s, .error b)
    | (s, .ok ps) => (s, .ok ⟨t, ps⟩)

/-- The condition of a granule of the local store (R249). -/
def Workgroup.lsGran (w : Workgroup) (gr : Nat) : Gran :=
  if w.lsPoison.get gr != 0 then .poisoned
  else if w.lsBad != [] && 2 ≤ ((List.range 32).filter fun k => w.lsBad.get (gr * 32 + k) != 0).length then .uncorrectable else .ok

/-- Poison a granule of the local store. -/
def Workgroup.lsPoisonGran (w : Workgroup) (gr : Nat) : Workgroup :=
  { w with lsPoison := w.lsPoison.set gr 1, lsBad := w.lsBad.clear (gr * 32) 32 }

/-- The metadata of a local granule after a write. -/
def Workgroup.lsWritten (w : Workgroup) (gr : Nat) (full : Bool) : Workgroup :=
  if full then { w with lsPoison := w.lsPoison.set gr 0, lsBad := if w.lsBad == [] then [] else w.lsBad.clear (gr * 32) 32 }
  else if w.lsGran gr == .uncorrectable then w.lsPoisonGran gr else w

/-- The condition of the granule of a part. -/
def State.partGran (s : State) (i : Iss) (loc : Bool) (place : Nat) : Gran :=
  if loc then (s.wgOf i.g).lsGran (place / 32) else s.gran (place / 32)

/-- A read meets a bad granule: it is poisoned if it was not (R193, R247). -/
def State.readBad (s : State) (i : Iss) (loc : Bool) (place : Nat) : State :=
  if loc then s.modWg i.g.wg fun w => if w.lsGran (place / 32) == .uncorrectable then w.lsPoisonGran (place / 32) else w
  else s.markRead place 1

/-- The first part of an access whose granule cannot be read, with its code (R243). -/
def State.firstBadPart (s : State) (i : Iss) (loc : Bool) (ps : List Piece) : Option (Piece × Nat) :=
  ps.findSome? fun p => match s.partGran i loc p.place with
    | .ok => none
    | g => some (p, g.code)

/-- The bytes of a part. -/
def State.partBytes (s : State) (i : Iss) (loc : Bool) (p : Piece) : List Byte :=
  if loc then Store.getList (s.wgOf i.g).ls p.place p.len else s.bytes p.place p.len

/-- The element that an access reads. -/
def State.element (s : State) (i : Iss) (loc : Bool) (ps : List Piece) : Nat := ofBytes (ps.map (s.partBytes i loc)).flatten

/-- The register value of a loaded element (R245). -/
def loadVal (ty v : Nat) : Nat :=
  match ty with
  | 0x10 => sextN 8 32 v
  | 0x12 => sextN 16 32 v
  | _ => v

/-- The parts of a load reach the caches (R246). -/
def State.loadParts (s : State) (i : Iss) (na : Bool) (ps : List Piece) : State :=
  ps.foldl (fun s p => s.loadLine i.core i.slot (s.ctxOf i.core) p.path na (p.place / 32)) s

/-- Read an element for a lane: its value, or the fault (R243, R245). -/
def State.readElem (s : State) (i : Iss) (o : Opc) (x : Op) (l : Nat) : State × Except Bad Nat :=
  let loc := spaceOf o == .loc
  match s.aim i o x l with
  | (s, .error b) => (s, .error b)
  | (s, .ok t) => match s.firstBadPart i loc t.pieces with
    | some (p, c) => (s.readBad i loc p.place, .error (memBad .dataerr c (accOf o) (t.addr + p.off)))
    | none =>
      let v := loadVal x.ty.toNat (s.element i loc t.pieces)
      (if loc then s else s.loadParts i ((memW x).hint == 1#2) t.pieces, .ok v)

/-- One lane of a load (R245). -/
def State.loadLane (s : State) (i : Iss) (o : Opc) (x : Op) (l : Nat) : State × Option Bad :=
  match s.readElem i o x l with
  | (s, .error b) => (s, some b)
  | (s, .ok v) => (s.modGroup i.who.key fun g => g.modLane l fun ln => ln.write x.d (memN x.ty.toNat) v false, none)

/-- Run an access in each lane, ascending; the lanes that performed nothing, with their faults. -/
def State.eachLane (f : State → Nat → State × Option Bad) : State → List Nat → State × List (Nat × Bad)
  | s, [] => (s, [])
  | s, l :: ls =>
    let r := f s l
    let t := State.eachLane f r.1 ls
    (t.1, match r.2 with
      | some b => (l, b) :: t.2
      | none => t.2)

/-- LDC reads once for the split and writes the scalar D (R250). -/
def State.loadScalar (s : State) (i : Iss) (x : Op) (lanes : List Nat) : State × List (Nat × Bad) :=
  match s.readElem i .ldc x (lowLane i.g i.sp) with
  | (s, .error b) => (s, lanes.map fun l => (l, b))
  | (s, .ok v) => (s.modSplit i.who fun y => y.write x.d (memN x.ty.toNat) v, [])

/-- One lane's write: TRAPADDR's value, place, path and bytes. -/
structure LaneWr where
  lane : Nat
  addr : Nat
  place : Nat
  path : Path
  bytes : List Byte
  deriving DecidableEq, Repr

/-- The element that a store writes: the low bytes of C (R245, R50). -/
def storeVal (x : Op) (sp : Split) (ln : Lane) : Nat :=
  match x.c with
  | .v r => readRegs ln.v r.toNat (memN x.ty.toNat)
  | .s r => readRegs sp.s r.toNat (memN x.ty.toNat)
  | .imm k => sextN 8 (8 * memBytes x.ty.toNat) k.toNat
  | _ => 0

/-- Check a lane's store; its parts as writes. -/
def State.storeLane (s : State) (i : Iss) (o : Opc) (x : Op) (l : Nat) : State × Except Bad (List LaneWr) :=
  match s.aim i o x l with
  | (s, .error b) => (s, .error b)
  | (s, .ok t) =>
    let bs := toBytes (memBytes x.ty.toNat) (storeVal x i.sp (i.g.lane l))
    (s, .ok (t.pieces.map fun p => ⟨l, wrapN 64 (t.addr + p.off : Nat), p.place, p.path, (bs.drop p.off).take p.len⟩))

/-- Check every lane of a store. -/
def State.storeLanes (s : State) (i : Iss) (o : Opc) (x : Op) : List Nat → State × List LaneWr × List (Nat × Bad)
  | [] => (s, [], [])
  | l :: ls =>
    match s.storeLane i o x l with
    | (s, .error b) => let r := s.storeLanes i o x ls; (r.1, r.2.1, (l, b) :: r.2.2)
    | (s, .ok ws) => let r := s.storeLanes i o x ls; (r.1, ws ++ r.2.1, r.2.2)

/-- Do the writes of one instruction together cover a granule (R248)? -/
def covers (ws : List LaneWr) (gr : Nat) : Bool :=
  let near := ws.filter fun w => w.place / 32 == gr
  32 ≤ (near.map (·.bytes.length)).sum &&
    (List.range 32).all fun k => near.any fun w => w.place ≤ gr * 32 + k && gr * 32 + k < w.place + w.bytes.length

/-- One granule of a store: a partial write to a bad granule makes a DATAERR event (R247); then metadata and caches. DESIGN CHOICE (log 40):
where several lanes of one store write the granule in part, one event is made, with the lowest such lane and its address. -/
def State.storeGran (s : State) (i : Iss) (loc na : Bool) (ws : List LaneWr) (gr : Nat) : State :=
  match ws.find? fun w => w.place / 32 == gr with
  | none => s
  | some w =>
    let full := covers ws gr
    let g := s.partGran i loc (gr * 32)
    let s := if full || g == .ok then s else s.dataEvent i.who.key w.lane (g.code + 16 * Acc.code .write) w.addr
    if loc then s.modWg i.g.wg fun y => y.lsWritten gr full
    else ((s.aside i.core (s.ctxOf i.core) w.path gr).storeLine i.core i.slot (s.ctxOf i.core) w.path full gr na).granWritten gr full false

/-- Write the bytes of a lane's write. -/
def State.putWr (s : State) (i : Iss) (loc : Bool) (w : LaneWr) : State :=
  if loc then s.modWg i.g.wg fun y => { y with ls := Store.setList y.ls w.place w.bytes } else s.setBytes w.place w.bytes

/-- Perform the writes of one instruction, in ascending lane order (R218, R248); under HINT `.na` a miss allocates nothing (R235). -/
def State.storeAll (s : State) (i : Iss) (loc na : Bool) (ws : List LaneWr) : State :=
  ws.foldl (fun s w => s.putWr i loc w) ((dedup (ws.map (·.place / 32))).foldl (fun s gr => s.storeGran i loc na ws gr) s)

/-- What an atomic stores, and its flags (R254, R255): a float `.add` ignores FMT, a float minimum or maximum follows it as FMIN and FMAX do. -/
def atomNew (o : Opc) (aop ty : Nat) (fmt : Word) (old c : Nat) : Nat × Flags :=
  let bits := 8 * memBytes ty
  let v (x : Nat) : Int := if ty == 1 || ty == 3 then sgn bits x else (x : Int)
  let flt (k : Opc) (fmt : Word) : Nat × Flags := let r := aluVal k 0 ty fmt 1 { a := old, b := c, c := 0, d := 0, pa := false, pb := false, pc := false, p := 1 }; (r.val, r.flags)
  if o == .cas || aop == 9 then (if old == c % 2 ^ bits then c / 2 ^ bits else old, 0)
  else match tyF ty, aop with
  | true, 0 => flt .fadd 0
  | true, 1 => flt .fmin fmt
  | true, _ => flt .fmax fmt
  | false, 0 => ((old + c) % 2 ^ bits, 0)
  | false, 1 => (if v c < v old then c else old, 0)
  | false, 2 => (if v old < v c then c else old, 0)
  | false, 3 => (old &&& c, 0)
  | false, 4 => (old ||| c, 0)
  | false, 5 => (old ^^^ c, 0)
  | false, 6 => (c, 0)
  | false, 7 => (if c ≤ old then 0 else old + 1, 0)
  | false, _ => (if old == 0 || c < old then c else old - 1, 0)

/-- C of an atomic: a compare and swap takes twice the width (R236). -/
def atomC (o : Opc) (x : Op) (sp : Split) (ln : Lane) : Nat :=
  if o == .cas || (memW x).aop == 9#4 then
    let n := 2 * tyN x.ty.toNat
    match x.c with
    | .v r => readRegs ln.v r.toNat n
    | .s r => readRegs sp.s r.toNat n
    | _ => 0
  else readOpnd sp ln (tyRd x.ty.toNat) x.c

/-- Does an atomic return its old value? -/
def atomReturns (o : Opc) : Bool := o == .atom || o == .cas || o == .fatom || o == .atoml

/-- The level at which an anchor's group runs: 0 the core, 1 the home slice, 2 the base die, 3 the tier executor (R251, R270). -/
def State.levelOf (s : State) (c : Nat) (ctx : BitVec 16) (leaf : DWord) (sector : Nat) (writes : Bool) : Nat :=
  let valid := match s.l1Hit c (sector / 4) ctx with
    | some l => l.valid.getLsbD (sector % 4)
    | none => false
  if if writes then s.writable c sector ctx else valid then 0
  else if s.liveCtx ctx && (s.l2At (sector / 4) ctx).isSome then 1
  else if pteSink leaf then (if pteTier leaf then 3 else 2) else 1

/-- A group's execution reaches the caches at its level: it reads its anchor sector, and `writes` says that it writes it (R271). DEDUCED
(log 91): an atomic to a line that no L1 holds runs at the level of R251 and leaves no copy in an L1, as R269 and R271 state of groups, where
R197 has the home grant Owned to the core of a store. A home that does not hold the line first fills it, all of it (R251). -/
def State.levelTouch (s : State) (i : Iss) (path : Path) (level sector : Nat) (writes : Bool) : State :=
  let ctx := s.ctxOf i.core
  let bit : BitVec 4 := 1#4 <<< (sector % 4)
  match level with
  | 0 => if writes then s.storeLine i.core i.slot ctx path false sector else s
  | 1 =>
    let held := s.liveCtx ctx && (s.l2At (sector / 4) ctx).isSome
    let s := (s.recallOthers 1000 (sector / 4) ctx bit).l2Fill (sector / 4) ctx none (if held then bit else 0xF#4) true
    (if writes then (s.dropCopies (sector / 4) ctx 0xF#4 fun _ => true).takeBack (sector / 4) ctx bit else s).syncDir (sector / 4) ctx
  | _ => let s := s.dramAsk (sector / 4) bit false; if writes then s.dramAsk (sector / 4) bit true else s

/-- An atomic or the anchor of a sunk group misses in L1 (R269, R385). -/
def State.anchorMiss (s : State) (i : Iss) (sector : Nat) : State :=
  if (s.l1Hit i.core (sector / 4) (s.ctxOf i.core)).any fun l => l.valid.getLsbD (sector % 4) then s
  else s.modCore i.core (Core.countMiss · (sector / 4) i.slot)

/-- One lane of a global atomic (R251, R252, R254). -/
def State.atomLane (s : State) (i : Iss) (o : Opc) (x : Op) (l : Nat) : State × Option Bad :=
  match s.accessOf i o x l with
  | .error b => (s, some b)
  | .ok (ea, _) => match s.mx i .atomic true ea with
    | (s, .error b) => (s, some b)
    | (s, .ok t) =>
      let g := s.gran (t.place / 32)
      if g != .ok then
        let s1 := s.markRead t.place 1
        if atomReturns o then (s1, some (memBad .dataerr g.code .atomic ea))
        else (s1.dataEvent i.who.key l (g.code + 16 * Acc.code .atomic) ea, none)
      else
        let n := memBytes x.ty.toNat
        let old := s.rd t.place n
        let r := atomNew o (memW x).aop.toNat x.ty.toNat i.sp.fmt old (atomC o x i.sp (i.g.lane l))
        let level := s.levelOf i.core (s.ctxOf i.core) t.leaf (t.place / 32) true
        let s := s.anchorMiss i (t.place / 32)
        let s := ((if level == 0 then s.aside i.core (s.ctxOf i.core) t.path (t.place / 32) else s).wrN t.place n r.1).levelTouch i t.path level (t.place / 32) true
        (if !atomReturns o then s
         else (s.modGroup i.who.key fun g => g.modLane l fun ln =>
             { ln.write x.d (tyN x.ty.toNat) old false with rcpt := BitVec.ofNat 2 level }).modSplit i.who fun y => { y with flags := y.flags ||| r.2 }, none)

/-- One lane of ATOML (R256). -/
def State.atomlLane (s : State) (i : Iss) (x : Op) (l : Nat) : State × Option Bad :=
  match s.aim i .atoml x l with
  | (s, .error b) => (s, some b)
  | (s, .ok t) => match s.firstBadPart i true t.pieces with
    | some (p, c) => (s.readBad i true p.place, some (memBad .dataerr c .atomic t.addr))
    | none =>
      let old := s.element i true t.pieces
      let r := atomNew .atoml (memW x).aop.toNat x.ty.toNat i.sp.fmt old (atomC .atoml x i.sp (i.g.lane l))
      let s := s.modWg i.g.wg fun w => { w with ls := Store.setList w.ls t.addr (toBytes 4 r.1) }
      ((s.modGroup i.who.key fun g => g.modLane l fun ln => ln.write x.d 1 old false).modSplit i.who fun y => { y with flags := y.flags ||| r.2 }, none)

/-- The leaf that a walk finds for an address, whatever rights it gives, and its level; nothing changes. -/
def State.walked (s : State) (t : Tc) (ctx : BitVec 16) (ctxt va : Nat) : Option (DWord × Nat) :=
  match (s.walk t.coreNum ctx ctxt .read va).2 with
  | .error _ => none
  | .ok w => some (w.leaf, w.level)

/-- The leaf that maps an address, whatever rights it gives; nothing changes (R261, R262). -/
def State.mapped (s : State) (t : Tc) (ctx : BitVec 16) (ctxt va : Nat) : Option (DWord × Nat) :=
  if 2 ^ 52 ≤ va then none
  else match s.tlbHit t ctx va with
  | some e => some (e.leaf, e.level)
  | none => s.walked t ctx ctxt va

/-- The 64 KiB pages that a range of addresses meets. -/
def pagesOf (ea len : Nat) : List Nat := if len == 0 then [] else rangeFrom (ea / 65536) ((ea + len - 1) / 65536 + 1 - ea / 65536)

/-- The virtual address of a line's first byte in the 64 KiB page at `page`, if that page's leaf holds it there. -/
def State.lineVA (s : State) (leaf : DWord) (level page line : Nat) : Option Nat :=
  if !s.pageHas leaf level line then none
  else
    let off := s.linePA (pteHash leaf) line % 2 ^ pageBits level
    let va := page * 65536 / 2 ^ pageBits level * 2 ^ pageBits level + off
    if va / 65536 == page then some va else none

/-- The range of PUBLISH, TIERPF or FLUSH: its first address and length (R259). -/
def rangeOf (x : Op) (sp : Split) : Nat × Nat :=
  (wrapN 64 ((scalar64 sp x.a : Int) + sgn 16 (memW x).ofs.toNat), scalar32 sp x.b)

/-- Check every page of a PUBLISH's range (R259); its leaves. A fault of any page has ea as its address (R243). -/
def State.publishPages (s : State) (i : Iss) (ea : Nat) : List Nat → State × Except Bad (List (Nat × DWord × Nat))
  | [] => (s, .ok [])
  | p :: ps =>
    let va := max ea (p * 65536)
    match s.gx i .range false va with
    | (s, .error b) => (s, .error { b with addr := BitVec.ofNat 64 ea })
    | (s, .ok _) => match s.mapped (.core i.core) (s.ctxOf i.core) (s.ctxtOf i.g) va with
      | none => (s, .error (memBad .page 1 .range ea))
      | some m => match s.publishPages i ea ps with
        | (s, .error b) => (s, .error b)
        | (s, .ok r) => (s, .ok ((p, m) :: r))

/-- PUBLISH: STAGED clears in every block that overlaps the range (R232, R259). -/
def State.publish (s : State) (i : Iss) (x : Op) (lanes : List Nat) : State × List (Nat × Bad) :=
  let r := rangeOf x i.sp
  match s.publishPages i r.1 (pagesOf r.1 r.2) with
  | (s, .error b) => (s, lanes.map fun l => (l, b))
  | (s, .ok pages) =>
    let hit (gr : Nat) : Bool := pages.any fun e => match s.lineVA e.2.1 e.2.2 e.1 (gr / 4) with
      | some va => let a := va + gr % 4 * 32; r.1 < a + 32 && a < r.1 + r.2
      | none => false
    ({ s with staged := s.staged.filter fun e => !hit e.1,
              older := s.older.map fun (e : Nat × OldSector) => (e.1, if hit e.1 then { e.2 with staged := false } else e.2) }, [])

/-- The addresses that a lane's access names, part by part; none where it faults before translation or stays in the local store. -/
def State.partsOf (s : State) (i : Iss) (o : Opc) (x : Op) (l : Nat) : List Nat :=
  if spaceOf o == .loc || o == .publish then []
  else match s.accessOf i o x l with
  | .error _ => []
  | .ok (_, ps) => ps.map (·.1)

/-- The physical sector of an address for an access, as far as it translates now (R276). -/
def State.sectorAt (s : State) (i : Iss) (o : Opc) (va : Nat) : Option Nat :=
  (s.peek (.core i.core) (s.ctxOf i.core) (s.ctxtOf i.g) (accOf o) va).map fun t => s.sectorPA t.1.leaf t.1.place

/-- The physical sectors that the lanes of an access touch, each with its lane. -/
def State.sectorsOf (s : State) (i : Iss) (o : Opc) (x : Op) (ls : List Nat) : List (Nat × Nat) :=
  (ls.map fun l => (s.partsOf i o x l).filterMap fun va => (s.sectorAt i o va).map fun n => (n, l)).flatten

/-- The lanes of a split's second gang half: those beyond its 8 lowest slices (R11). -/
def Split.later (x : Split) (l : Nat) : Bool := !(x.sliceList.take 8).contains (l / 4)

/-- The gang halves of a list of lanes: the first, and where it has lanes the second. -/
def halvesOf (x : Split) (ls : List Nat) : List (List Nat) :=
  let h := ls.filter x.later
  if h == [] then [ls] else [ls.filter fun l => !x.later l, h]

/-- Do requests, one after another, each find `free` entries of a table of `size`, of which `used` are taken? -/
def roomFor (size free : Nat) : Nat → List Nat → Bool
  | _, [] => true
  | used, n :: ns => used + free ≤ size && roomFor size free (used + n) ns

/-- Does the sink pending table make an access wait: an entry in flight of the group on a sector, or a gang half without 32 free entries
(R269, R276)? -/
def State.sinkHolds (s : State) (i : Iss) (takes : Bool) (sectors : List (Nat × Nat)) : Bool :=
  (s.core i.core).sink != [] &&
    ((sectors.any fun e => s.sinkBusy i.core (i.who.key % 64) e.1) ||
     (takes && !roomFor 2048 32 (s.core i.core).sink.length ((halvesOf i.sp (sectors.map (·.2))).map (·.length))))

/-- The requests of an access: for each gang half, and each word pass of a wide private access, its addresses (R241). -/
def State.passesOf (s : State) (i : Iss) (o : Opc) (x : Op) (ls : List Nat) : List (List Nat) :=
  ((halvesOf i.sp ls).map fun h =>
    (List.range (max 1 (memBytes x.ty.toNat / 4))).map fun k => h.filterMap fun l => (s.partsOf i o x l)[k]?).flatten.filter (· != [])

/-- The distinct physical sectors of a request. -/
def State.passSectors (s : State) (i : Iss) (o : Opc) (vas : List Nat) : List Nat := dedup (vas.filterMap (s.sectorAt i o))

/-- The 64 KiB pages of a request that the core's translation cache does not hold (R398). -/
def State.passPages (s : State) (i : Iss) (vas : List Nat) : List Nat :=
  dedup ((vas.filter fun va => (s.tlbHit (.core i.core) (s.ctxOf i.core) va).isNone).map (· / 65536))

/-- Does the translation-miss table make requests wait (R398)? A page that another request misses on shares its entry; the passes of an access
that alone needs more than the table holds follow one another in it. -/
def State.xmissHolds (s : State) (i : Iss) (ps : List (List Nat)) : Bool :=
  (s.core i.core).xmiss != [] && 64 < (dedup ((s.core i.core).xmiss.map (·.what) ++ (ps.map (s.passPages i)).flatten)).length

/-- Does the miss tracker or the translation-miss table make an access wait (R241, R398)? -/
def State.missHolds (s : State) (i : Iss) (o : Opc) (x : Op) (ls : List Nat) : Bool :=
  let ps := s.passesOf i o x ls
  !roomFor 1024 32 (s.core i.core).misses.length (ps.map fun vas => (s.passSectors i o vas).length) || s.xmissHolds i ps

/-- An access takes its entries of both tables (R241, R398). -/
def State.takeMisses (s : State) (i : Iss) (o : Opc) (x : Op) (ls : List Nat) : State :=
  let ps := s.passesOf i o x ls
  let entry (n : Nat) : MissEntry := { what := n, slot := i.who.key % 64, split := i.who.split }
  s.modCore i.core fun k => { k with
    misses := k.misses ++ (ps.map fun vas => (s.passSectors i o vas).map entry).flatten
    xmiss := k.xmiss ++ ((ps.map fun vas => (s.passPages i vas).map entry).flatten.take 64) }

/-- The entries of a split's access are free again. -/
def State.freeMisses (s : State) (w : Who) : State :=
  let k := s.core (w.key / 64)
  if k.misses == [] && k.xmiss == [] then s
  else
    let keep (e : MissEntry) : Bool := !(e.slot == w.key % 64 && e.split == w.split)
    s.modCore (w.key / 64) fun k => { k with misses := k.misses.filter keep, xmiss := k.xmiss.filter keep }

/-- Does the opcode take entries of the sink pending table (R275)? -/
def takesEntry (o : Opc) : Bool := o == .atom || o == .atomnr || o == .cas || o == .fatom || o == .fatomnr || o == .sink

/-- Take an entry for each lane; RTE sends again (R269, R275). -/
def State.takeEntries (s : State) (i : Iss) (sectors : List (Nat × Nat)) : State :=
  let st : EntrySt := if i.sp.rerun.isSome then .resending else .inFlight
  s.modCore i.core fun k => { k with sink := k.sink ++ sectors.map fun e => { sector := e.1, slot := i.who.key % 64, lane := e.2, st := st } }

/-- Free the entries of some lanes of a group (R273). -/
def State.freeEntries (s : State) (key : Nat) (ls : List Nat) : State :=
  if (s.core (key / 64)).sink == [] then s
  else s.modCore (key / 64) fun k => { k with sink := k.sink.filter fun e => !(e.slot == key % 64 && ls.contains e.lane) }

/-- The lanes of a mask, ascending. -/
def maskLanes (m : DWord) : List Nat := (List.range 64).filter fun l => m.getLsbD l

/-- What a split holds between the issue of an instruction and its fault point (R54). -/
def pendOf (i : Iss) (o : Opc) (x : Op) (lanes : List Nat) (budget : Nat) : Pend :=
  { pc := i.sp.pc, opc := o, op := x, lanes := laneMask lanes, budget := budget, shadow := (i.sp.rerun.map (·.2)).getD 0,
    regs := opReads o x ++ opWrites o x, dst := opWrites o x }

/-- The epoch that messages of a core bear (R455). -/
def State.epochOf (s : State) (core : Nat) : BitVec 16 := (s.core core).epoch

/-- Are messages of an epoch of a core still accepted: is the core neither failed nor joined again since (R455)? -/
def State.inEpoch (s : State) (core : Nat) (e : BitVec 16) : Bool := !s.coreFailed.getLsbD core && s.epochOf core == e

/-- The split moves past an instruction whose fault point is still to come. -/
def State.pending (s : State) (i : Iss) (x : Op) (p : Pend) : State :=
  (s.done i x).modSplit i.who fun y => { y with pend := some { p with epoch := s.epochOf i.core } }

/-- A lane-scope memory instruction issues (R240, R241, R276, R398). -/
def memIssue (o : Opc) (x : Op) (s : State) : Out :=
  issue s fun i =>
    let ls := activeLanes i.g i.sp x
    if ls == [] then s.done i x
    else
      let sectors := if (s.core i.core).sink == [] && !takesEntry o then [] else s.sectorsOf i o x ls
      if s.sinkHolds i (takesEntry o) sectors || s.missHolds i o x ls then s.stall i
      else ((if takesEntry o then s.takeEntries i sectors else s).takeMisses i o x ls).pending i x (pendOf i o x ls x.fn.toNat)

/-- The accesses of a pending memory instruction are performed (R242): the lanes that performed nothing, with their faults. -/
def State.perform (s : State) (i : Iss) (o : Opc) (x : Op) (ls : List Nat) : State × List (Nat × Bad) :=
  match o with
  | .ld | .ldl | .ldp => State.eachLane (fun s l => s.loadLane i o x l) s ls
  | .ldc => s.loadScalar i x ls
  | .st | .stl | .stp => let r := s.storeLanes i o x ls; (r.1.storeAll i (spaceOf o == .loc) ((memW x).hint == 1#2) r.2.1, r.2.2)
  | .atom | .atomnr | .cas | .fatom | .fatomnr =>
    let r := State.eachLane (fun s l => s.atomLane i o x l) s ls
    (r.1.freeEntries i.who.key ls, r.2)
  | .atoml => State.eachLane (fun s l => s.atomlLane i x l) s ls
  | .publish => s.publish i x ls
  | _ => (s, [])

/-- The fault point of a pending instruction passes: a fault of its lanes is delivered at it (R242); a retired group only ends the split
(R29). `more` are bits that a SINK adds to TRAPAUX (R282). -/
def State.faultPoint (s : State) (w : Who) (p : Pend) (bad : List (Nat × Bad)) (more : Word := 0) : State :=
  let s := (s.modSplit w fun y => { y with pend := none }).freeMisses w
  match s.groups.get? w.key with
  | none => s
  | some g =>
    if g.retired then (s.setGroup w.key { g with splits := g.splits.filter fun y => y.id != w.split }).drained w.key
    else match bad with
    | [] => s
    | (_, b) :: _ => s.deliver w { cause := b.cause.code, pc := p.pc.setWidth 64, addr := b.addr, lanes := laneMask (bad.map (·.1)),
                                   shadow := BitVec.ofNat 4 p.shadow, aux := b.aux ||| more }

/-- The private page that an access of a core would flush and reclassify: its owner, leaf and level (R392, R393). -/
def State.wouldClaim (s : State) (core : Nat) (ctx : BitVec 16) (ctxt va : Nat) : Option (Nat × DWord × Nat) :=
  let acts (m : DWord × Nat) : Bool := pteClass m.1 == 1 && claimActs core m.1
  ((s.mapped (.core core) ctx ctxt va).filter acts).bind fun _ =>
    ((s.walked (.core core) ctx ctxt va).filter acts).map fun m => (pteOwner m.1, m)

/-- The private pages that a group's accesses to some addresses would flush. -/
def State.claimsOf (s : State) (i : Iss) (vas : List Nat) : List (Nat × DWord × Nat) :=
  vas.filterMap (s.wouldClaim i.core (s.ctxOf i.core) (s.ctxtOf i.g))

/-- The address that a lane's receipt goes to (R269). -/
def receiptAddr (x : Op) (sp : Split) (l : Nat) : Nat := (scalar64 sp x.b + 4 * l) % 2 ^ 64

/-- Does an access of a group reach a page, without flushing it first? -/
def State.touches (s : State) (i : Iss) (acc : Acc) (leaf : DWord) (level va : Nat) : Bool :=
  (match s.peek (.core i.core) (s.ctxOf i.core) (s.ctxtOf i.g) acc va with
   | some t => s.pageHas leaf level (t.1.place / 128)
   | none => false) && s.claimsOf i [va] == []

/-- Has a group's SINK accesses to a page still to be performed in its core's L1: groups sent that run at level 0, and receipts (R273, R279)?
Groups whose bodies access memory elsewhere count where `all` says so: they may wait for a flush themselves. -/
def State.sinkTouches (s : State) (i : Iss) (p : Pend) (all : Bool) (leaf : DWord) (level : Nat) : Bool :=
  let plain := p.body.all fun q => q.1 != .sld && q.1 != .sst
  p.sink.any fun e => match e.2 with
    | .sent => (all || plain) && p.aims.any fun a => a.lane == e.1 && s.pageHas leaf level (a.place / 128) &&
        s.levelOf i.core (s.ctxOf i.core) a.leaf (a.place / 32) (p.body.any fun q => q.1 == .sst) == 0
    | .receipt _ _ => s.touches i .write leaf level (receiptAddr p.op i.sp e.1)
    | _ => false

/-- Has a group issued accesses to a page that are still to be performed (R393)? -/
def State.groupTouches (s : State) (key : Nat) (g : Group) (all : Bool) (leaf : DWord) (level : Nat) : Bool :=
  g.splits.any fun y =>
    let j : Iss := ⟨⟨key, y.id⟩, g, y⟩
    match y.pend with
    | some p => s.inEpoch j.core p.epoch && (if p.opc == .sink then s.sinkTouches j p all leaf level
        else memPending p.opc && (maskLanes p.lanes).any fun l => (s.partsOf j p.opc p.op l).any (s.touches j (accOf p.opc) leaf level))
    | none => (lanesOf g y).any fun l => (g.lane l).unread != 0 && s.touches j .gather leaf level (g.lane l).nextGather

/-- The private pages that a copy's reads would flush. -/
def State.copyClaims (s : State) (c : CopyOp) : List (Nat × DWord × Nat) :=
  let ctxt := match s.wgs.get? c.wg with
    | some w => (s.part w.part).ctxtbase.toNat
    | none => 0
  c.pages.filterMap fun p => s.wouldClaim c.core (s.ctxOf c.core) ctxt (p.1 * 65536)

/-- Has the owner of a page issued accesses to it that are still to be performed, for a flush that core c starts (R220, R279, R393)? An access
that itself flushes the page is not one of them. Copies and sunk bodies (`compound`) may need several flushes, so that two of them could wait
for each other: of those that flush pages themselves, one waits for those of the cores before its own alone (log 105). -/
def State.ownerPending (s : State) (c : Nat) (compound : Bool) (owner : Nat) (leaf : DWord) (level : Nat) : Bool :=
  let all := !compound || owner < c
  (s.groups.any fun e => e.1 / 64 == owner && s.groupTouches e.1 e.2 all leaf level) ||
  s.copies.any fun d => d.core == owner && s.inEpoch owner d.epoch && (d.pages.any fun p => s.pageHas leaf level (s.place p.2.1 p.2.2 / 128)) &&
    (let q := s.copyClaims d; q == [] || (all && q.all fun z => z.2.1 != leaf))

/-- Must accesses to some addresses wait until owners of their pages have performed what they issued before the flush (R220, R393)? -/
def State.flushWaits (s : State) (i : Iss) (vas : List Nat) (compound : Bool := false) : Bool :=
  (s.claimsOf i vas).any fun q => s.ownerPending i.core compound q.1 q.2.1 q.2.2

/-- May a lane's pending access be performed now (R393)? Those of the private pool claim nothing (R301). -/
def State.laneFree (s : State) (i : Iss) (p : Pend) (l : Nat) : Bool :=
  spaceOf p.opc != .glob || !s.flushWaits i (s.partsOf i p.opc p.op l)

/-- The lanes of a pending access that can be performed now (R393, R455). -/
def State.freeLanes (s : State) (i : Iss) (p : Pend) : List Nat :=
  if s.inEpoch i.core p.epoch then (maskLanes p.lanes).filter (s.laneFree i p) else []

/-- May a pending access be performed in all its lanes now (R393, R455)? -/
def State.mayPerform (s : State) (i : Iss) (p : Pend) : Bool := s.inEpoch i.core p.epoch && (maskLanes p.lanes).all (s.laneFree i p)

/-- Faults of lanes in ascending order. -/
def byLane (bad : List (Nat × Bad)) : List (Nat × Bad) := (List.range 64).filterMap fun l => bad.find? fun e => e.1 == l

/-- MEMORY_ACCESS_COMPLETION of a split: the access of every active lane is performed or found faulting, but for those that must wait for a
flush (R242, R393); when none is left the fault point passes. -/
def State.memComplete (s : State) (w : Who) : State :=
  match ({ s with cur := some w } : State).iss? with
  | none => s
  | some i => match i.sp.pend with
    | none => s
    | some p =>
      let now := s.freeLanes i p
      if !memPending p.opc || (now == [] && p.lanes != 0) then s
      else
        let r := s.perform i p.opc p.op now
        let rest := (maskLanes p.lanes).filter fun l => !now.contains l
        let bad := if p.bad == [] then r.2 else byLane (p.bad ++ r.2)
        if rest == [] then r.1.faultPoint w p bad
        else r.1.modSplit w fun y => { y with pend := some { p with lanes := laneMask rest, bad := bad } }

/-- MEMORY_ACCESS_COMPLETION (R242). -/
def execMemoryAccessCompletion (key split : Nat) (s : State) : Out := .next (s.memComplete ⟨key, split⟩)

/-- LD (R245). -/
def execLd (o : Op) (s : State) : Out := memIssue .ld o s
/-- ST (R245). -/
def execSt (o : Op) (s : State) : Out := memIssue .st o s
/-- LDL (R249). -/
def execLdl (o : Op) (s : State) : Out := memIssue .ldl o s
/-- STL (R249). -/
def execStl (o : Op) (s : State) : Out := memIssue .stl o s
/-- LDP (R249, R301). -/
def execLdp (o : Op) (s : State) : Out := memIssue .ldp o s
/-- STP (R249, R301). -/
def execStp (o : Op) (s : State) : Out := memIssue .stp o s
/-- ATOM (R251). -/
def execAtom (o : Op) (s : State) : Out := memIssue .atom o s
/-- ATOMNR (R251). -/
def execAtomnr (o : Op) (s : State) : Out := memIssue .atomnr o s
/-- CAS (R251). -/
def execCas (o : Op) (s : State) : Out := memIssue .cas o s
/-- FATOM (R251). -/
def execFatom (o : Op) (s : State) : Out := memIssue .fatom o s
/-- FATOMNR (R251). -/
def execFatomnr (o : Op) (s : State) : Out := memIssue .fatomnr o s
/-- ATOML (R256). -/
def execAtoml (o : Op) (s : State) : Out := memIssue .atoml o s

/-- LDC (R250). -/
def execLdc (o : Op) (s : State) : Out :=
  splitScope o s fun i =>
    let ls := [lowLane i.g i.sp]
    if s.sinkHolds i false (if (s.core i.core).sink == [] then [] else s.sectorsOf i .ldc o ls) || s.missHolds i .ldc o ls then s.stall i
    else (s.takeMisses i .ldc o ls).pending i o (pendOf i .ldc o (liveLanes i.g i.sp) o.fn.toNat)

/-- PUBLISH: it issues as though L = 0 (R242, R259). -/
def execPublish (o : Op) (s : State) : Out := splitScope o s fun i => s.pending i o (pendOf i .publish o (liveLanes i.g i.sp) 0)

/-- The immediate set of a FENCE operand (R238). -/
def fenceBits : Opnd → BitVec 6
  | .imm k => k.setWidth 6
  | _ => 0

/-- The operations that a FENCE waits for: the split's copies and its matrix operations that access memory (R214, R258, R300). A `.grp` fence does not reach the
copy engine. -/
def State.fenceIds (s : State) (i : Iss) (scope : Nat) (p : BitVec 6) : List Nat :=
  (if scope != 0 && (p.getLsbD 2 || p.getLsbD 3) then (s.copies.filter fun c => c.of i.who.key i.sp).map (·.id) else []) ++
  ((i.g.mops.filter fun m => m.slices &&& i.sp.slices != 0 && (match m.kind with
    | .mma | .mmaz => p.getLsbD 4
    | .mfill => m.ls && p.getLsbD 4
    | .mdrain => m.ls && p.getLsbD 5)).map (·.id))

/-- The gathers that a FENCE waits for: those outstanding in the split's lanes, of pushes still on their way too (R309). -/
def fenceGathers (i : Iss) (p : BitVec 6) : List (Nat × Nat) :=
  if p.getLsbD 0 then ((lanesOf i.g i.sp).map fun l => (l, i.g.gathersDue l)).filter fun e => e.2 != 0 else []

/-- FENCE (R258). -/
def execFence (o : Op) (s : State) : Out :=
  splitScope o s fun i =>
    let ids := s.fenceIds i o.ty.toNat (fenceBits o.a)
    let gs := fenceGathers i (fenceBits o.a)
    let s := s.done i o
    if ids == [] && gs == [] then s
    else s.modSplit i.who fun y => { y with fences := y.fences ++ [{ q := fenceBits o.b, ids := ids, gathers := gs }] }

/-- PREF of one lane (R260): a lane that would fault or reclassify its page is dropped. -/
def State.prefLane (s : State) (i : Iss) (x : Op) (l : Nat) : State :=
  let ea := globAddr x i.sp (i.g.lane l)
  match s.peek (.core i.core) (s.ctxOf i.core) (s.ctxtOf i.g) .read ea with
  | none => s
  | some (t, _) =>
    if claimActs i.core t.leaf then s
    else if (memW x).sub == 1#1 then s.l2Fill (t.place / 128) (s.ctxOf i.core) (if t.path == .priv then some i.core else none) (1#4 <<< (t.place / 32 % 4)) true
    else s.loadLine i.core i.slot (s.ctxOf i.core) t.path false (t.place / 32)

/-- PREF (R260). -/
def execPref (o : Op) (s : State) : Out :=
  issue s fun i => ((activeLanes i.g i.sp o).foldl (fun s l => s.prefLane i o l) s).done i o

/-- The lines that caches hold and a range covers. -/
def State.heldLines (s : State) (i : Iss) (ea len : Nat) : List Nat :=
  let held := dedup (s.l2.map (·.line) ++ (s.cores.map fun e => e.2.l1.map (·.line) ++ e.2.icache.map (·.line)).flatten)
  let pages := (pagesOf ea len).filterMap fun p => (s.mapped (.core i.core) (s.ctxOf i.core) (s.ctxtOf i.g) (max ea (p * 65536))).map fun m => (p, m)
  held.filter fun line => pages.any fun e => match s.lineVA e.2.1 e.2.2 e.1 line with
    | some va => ea < va + 128 && va < ea + len
    | none => false

/-- FLUSH (R262). -/
def execFlush (o : Op) (s : State) : Out :=
  splitScope o s fun i =>
    let r := rangeOf o i.sp
    ((s.heldLines i r.1 r.2).foldl (fun s line => s.cleanLine line ((memW o).sub == 1#1)) s).done i o

end Sys2Proof.Machine
end

