-- ==== Sys2Proof/Machine/Futures.lean ====
section
/-! DEFINITION. Queues and futures: QTEST (R311), the future instructions (R312 to R317), the gather unit (R309), TIERPF and its completion
(R261). -/
namespace Sys2Proof.Machine

/-- HANDLE with its code, handle and target group (R315). -/
def handleBad (code h : Nat) (g : Nat := 0) : Bad := { cause := .handle, aux := BitVec.ofNat 32 (code + 16 * h + 256 * g) }

/-- Handle h of a group. -/
def Group.handle (g : Group) (h : Nat) : Handle := g.handles.getD h {}
/-- Set handle h of a group. -/
def Group.setHandle (g : Group) (h : Nat) (v : Handle) : Group := { g with handles := setAt g.handles h v }

/-- The number of a handle operand. -/
def opndH : Opnd → Nat
  | .h r => r.toNat
  | _ => 0

/-- An operation of a kind completes: the handle that names it becomes DONE, wherever it has been moved (R312, R314). -/
def State.futureDone (s : State) (kind id : Nat) (st : BitVec 2) : State :=
  { s with groups := s.groups.map fun e => (e.1, { e.2 with handles := e.2.handles.map fun (h : Handle) =>
      if h.st == 1 && h.kind == kind && h.op == id then { h with st := st } else h }) }

/-- An asynchronous operation takes a handle (R312). -/
def State.futureTake (s : State) (key h kind id : Nat) : State := s.modGroup key fun g => g.setHandle h { st := 1, kind := kind, op := id }

/-- Entries ready in a queue, or its free room, for a lane or the group (R306, R311). -/
def queueCount (g : Group) (ln : Lane) (q : Nat) (free : Bool) : Nat :=
  let c (n depth : Nat) : Nat := if free then depth - n else n
  match q with
  | 0 => c ln.q0.length 64
  | 1 => c ln.q1.length q1Depth
  | 2 => c ln.q2.length q2Depth
  | 3 => c ln.q3.length 8
  | _ => c g.q4.length q4Depth

/-- QTEST (R311). -/
def execQtest (o : Op) (s : State) : Out :=
  splitScope o s fun i =>
    let q := match o.a with
      | .qn r => r.toNat
      | _ => 0
    let free := o.fn == 1
    let n := if q == 4 then queueCount i.g {} 4 free
      else minD 0 ((liveLanes i.g i.sp).map fun l => queueCount i.g (i.g.lane l) q free)
    (s.modSplit i.who (·.write o.d 1 n)).done i o

/-- Is the split in an FWAIT whose check has passed? -/
def inFwait (x : Split) : Bool := match x.wait with
  | .future _ => true
  | _ => false

/-- FWAIT (R314): a handle that leaves PEND ends the wait, be it freed or moved by another split. -/
def execFwait (o : Op) (s : State) : Out :=
  splitScope o s fun i =>
    let h := opndH o.a
    match (i.g.handle h).st.toNat with
    | 0 => if inFwait i.sp then s.done i o else s.raiseAll i (handleBad 2 h)
    | 1 => s.modSplit i.who fun y => { y with wait := .future (BitVec.ofNat 4 h) }
    | _ => s.done i o

/-- FTEST (R314). -/
def execFtest (o : Op) (s : State) : Out :=
  splitScope o s fun i => (s.modSplit i.who (·.write o.d 1 (i.g.handle (opndH o.a)).st.toNat)).done i o

/-- Cancellation of a TIERPF; other operations ignore it (R314). -/
def State.cancel (s : State) (h : Handle) : State :=
  if h.kind == 3 then { s with tierOps := s.tierOps.map fun t => if t.id == h.op then { t with cancelled := true } else t } else s

/-- FCANCEL (R314). -/
def execFcancel (o : Op) (s : State) : Out :=
  splitScope o s fun i =>
    let h := opndH o.a
    match (i.g.handle h).st.toNat with
    | 0 => s.raiseAll i (handleBad 2 h)
    | 1 => (s.cancel (i.g.handle h)).done i o
    | _ => s.done i o

/-- The key of the group with a number in a workgroup. -/
def State.groupAt (s : State) (wg gid : Nat) : Option Nat := (s.groups.find? fun e => e.2.wg == wg && e.2.gid.toNat == gid).map (·.1)

/-- FMOV (R314). Code 3 is about the target's handle hd, which TRAPAUX names then (R315; log 26). -/
def execFmov (o : Op) (s : State) : Out :=
  splitScope o s fun i =>
    let ha := opndH o.a
    let hd := opndH o.d
    let v := i.g.handle ha
    let n := if o.fn == 1 then scalar32 i.sp o.b else i.g.gid.toNat
    if v.st == 0 then s.raiseAll i (handleBad 2 ha)
    else match if (s.wgOf i.g).par.groups ≤ n then none else s.groupAt i.g.wg n with
    | none => s.raiseAll i (handleBad 4 ha (n % 16))
    | some key =>
      let t := if key == i.who.key then i.g else (s.groups.get? key).getD i.g
      if t.retired then s.raiseAll i (handleBad 4 ha n)
      else if key == i.who.key && hd == ha then s.done i o
      else if (t.handle hd).st != 0 then s.raiseAll i (handleBad 3 hd n)
      else ((s.modGroup key fun g => g.setHandle hd v).modGroup i.who.key fun g => g.setHandle ha {}).done i o

/-- FREL (R314). -/
def execFrel (o : Op) (s : State) : Out :=
  splitScope o s fun i => (s.modGroup i.who.key fun g => g.setHandle (opndH o.a) {}).done i o

/-- Entries that a lane's q3 has room for, of those read (R306). -/
def Lane.movable (ln : Lane) : Nat := min ln.gbuf.length (8 - ln.q3.length)

/-- The entries read go to q3 in order as far as it has room, and their addresses leave q2 (R306, R309). -/
def Lane.deliverGathers (ln : Lane) : Lane :=
  { ln with q3 := ln.q3 ++ ln.gbuf.take ln.movable, gbuf := ln.gbuf.drop ln.movable, q2 := ln.q2.drop (2 * ln.movable) }

/-- May a lane's next gather be read now? It follows the lane's earlier accesses in program order: one still pending was issued before the
push (R309), an entry in flight of the group on its sector makes it wait (R276), and so does a flush that it would start (R393). DESIGN CHOICE
(log 114): an access that faults is no longer pending, so that the gather of a push in its shadow may be read before RTE has it executed
again (R222, R309). -/
def State.mayGather (s : State) (key : Nat) (g : Group) (l : Nat) : Bool :=
  let ln := g.lane l
  ln.unread != 0 && !s.coreFailed.getLsbD (key / 64) && (g.splits.all fun x => !x.has l || (match x.pend with
    | some p => !(memPending p.opc || p.opc == .sink)
    | none => true)) && !s.sinkBusyAt key g .gather ln.nextGather && (match g.splits.find? fun x => x.has l with
    | some x => !s.flushWaits ⟨⟨key, x.id⟩, g, x⟩ [ln.nextGather]
    | none => true)

/-- Must a pop that gathers again under RTE wait for a flush that one of its gathers starts (R309, R393)? -/
def State.regatherWaits (s : State) (i : Iss) (ins : Instr) : Bool :=
  i.sp.rerun.isSome && (Instr.ops ins).any fun p =>
    s.flushWaits i ((activeLanes i.g i.sp p.2).map fun l => (faultedHeads (i.g.lane l) (opPops p.2)).map (·.addr.toNat)).flatten

/-- Has GATHER something to do for a lane (R306, R309)? -/
def State.gatherReady (s : State) (key : Nat) (g : Group) (l : Nat) : Bool := s.mayGather key g l || (g.lane l).movable != 0

/-- A gather of a lane has been performed: the fences that wait for it count it (R258). -/
def Split.gathered (x : Split) (l : Nat) : Split :=
  { x with fences := x.fences.map fun f => { f with gathers := f.gathers.map fun e => if e.1 == l then (l, e.2 - 1) else e } }

/-- A gather of one lane (R309): its next address is read if it may be, and what has been read goes to q3. -/
def State.gather (s : State) (key l : Nat) : State :=
  match s.groups.get? key with
  | none => s
  | some g =>
    if !s.gatherReady key g l then s
    else if !s.mayGather key g l then s.modGroup key fun g => g.modLane l Lane.deliverGathers
    else
      let r := s.gatherAt (key / 64) (BitVec.ofNat 6 key) (s.ctxtOf g) (g.lane l).nextGather
      r.1.modGroup key fun g =>
        { g.modLane l fun ln => ({ ln with gbuf := ln.gbuf ++ [r.2] } : Lane).deliverGathers with splits := g.splits.map (·.gathered l) }

/-- GATHER (R309). -/
def execGather (key lane : Nat) (s : State) : Out := .next (s.gather key lane)

/-- The lines on LPDDR6 pages that a range covers, skipping the others (R261). -/
def State.tierLines (s : State) (i : Iss) (ea len : Nat) : List Nat :=
  dedup ((pagesOf ea len).map fun p =>
    match s.mapped (.core i.core) (s.ctxOf i.core) (s.ctxtOf i.g) (max ea (p * 65536)) with
    | none => []
    | some (leaf, level) =>
      if !pteTier leaf then []
      else
        let lo := max ea (p * 65536) / 128
        let hi := (min (ea + len) (p * 65536 + 65536) + 127) / 128
        (rangeFrom lo (hi - lo)).map fun v => s.leafPlace leaf level (v * 128) / 128).flatten

/-- The barrier of TIERPF under SUB = 1. -/
def tierBar (x : Op) : Option (BitVec 4) := match x.c with
  | .bar r => some (r.setWidth 4)
  | _ => none

/-- TIERPF (R261). -/
def execTierpf (o : Op) (s : State) : Out :=
  splitScope o s fun i =>
    let h := opndH o.d
    if (i.g.handle h).st != 0 then s.raiseAll i (handleBad 1 h)
    else
      let r := rangeOf o i.sp
      let t : TierOp := { id := s.nextId, core := i.core, wg := i.g.wg, lines := s.tierLines i r.1 r.2, bar := tierBar o }
      (({ s with tierOps := s.tierOps ++ [t], nextId := s.nextId + 1 }).futureTake i.who.key h 3 t.id).done i o

/-- A completion that a saved image waits for is entered in it (R410): the image is written by the save area's own operations. -/
def State.tierBarrier (s : State) (t : TierOp) : State :=
  match t.bar with
  | some b => s.barChange t.wg b.toNat (·.engine s.clock 0)
  | none => s

/-- A TIERPF's lines have arrived in their home slices (R261); a cancelled one may have skipped lines (R314). -/
def State.tierArrive (s : State) (t : TierOp) : State × BitVec 2 :=
  if t.cancelled && !Config.tierpfDone s.freeCtr then ({ s with freeCtr := s.freeCtr + 1 }, if t.lines == [] then 2 else 3)
  else (t.lines.foldl (fun s line => s.l2Fill line (s.ctxOf t.core) none 0xF#4 true) s, 2)

end Sys2Proof.Machine
end

