-- ==== Sys2Proof/Machine/Copy.lean ====
section
/-! DEFINITION. Copies (R284 to R300) and sealed batches (R432, R433). A copy's checks and the translation of its source pages are made at
issue; its bytes move in the step of its arrival (R296). -/
namespace Sys2Proof.Machine

/-- The copy descriptor of an operation. -/
def copyD (x : Op) : CopyDesc := match x.ext with
  | .copy c => c
  | _ => CopyDesc.ofWord 0

/-- The producer's number, of a launch that has one (R285). -/
def Params.producerId (p : Params) : Option Nat := if p.producer == 0xFF#8 then none else some p.producer.toNat

/-- The NOCOPY code, or 0 (R285). -/
def State.nocopy (s : State) (i : Iss) : Nat :=
  match (s.wgOf i.g).par.producerId with
  | none => 2
  | some p =>
    if s.groups.any fun e => e.2.wg == i.g.wg && e.2.gid.toNat == p && e.2.retired then 3
    else if i.g.gid.toNat != p then 1 else 0

/-- NOCOPY (R292). -/
def nocopyBad (code : Nat) (gid : BitVec 4) : Bad := { cause := .nocopy, aux := BitVec.ofNat 32 (code + 256 * gid.toNat) }

/-- A copy as its operands give it (R290). -/
structure CopyShape where
  /-- source address and lane of each row -/
  rows : List (Nat × Nat)
  rowb : Nat
  dp : Nat
  dest : Nat
  /-- C, where the form has one -/
  c : Option Nat
  deriving DecidableEq, Repr

/-- The shape of a CPY, CPYB or CPYO (R290). DESIGN CHOICE (log 115): the producer lane of R300, whose later fences wait for the copy, is the
issuing split's lowest non-idle lane. -/
def blockShape (o : Opc) (x : Op) (i : Iss) : CopyShape :=
  let d := copyD x
  let low := lowLane i.g i.sp
  let a := scalar64 i.sp x.a
  let c := scalar32 i.sp x.c
  if o == .cpy then { rows := [(a, low)], rowb := c, dp := 0, dest := scalar32 i.sp x.b, c := some c }
  else { rows := (List.range d.rows.toNat).map fun j => ((a + j * c) % 2 ^ 64, low), rowb := d.rowb.toNat, dp := d.dpitch.toNat * 16,
         dest := scalar32 i.sp x.b, c := some c }

/-- The shape of a CPYG with its active lanes (R290). -/
def gatherShape (x : Op) (i : Iss) (act : List Nat) : CopyShape :=
  let d := copyD x
  { rows := act.map fun l => (readOpnd i.sp (i.g.lane l) (.int 64) x.a, l), rowb := d.rowb.toNat, dp := d.dpitch.toNat * 16,
    dest := scalar32 i.sp x.b, c := none }

/-- ALIGN of a copy operand (R292). -/
def copyAlign (opnd val : Nat) : Bad := { cause := .align, aux := BitVec.ofNat 32 (2 + 16 * opnd), addr := BitVec.ofNat 64 val }

/-- The alignment check of R292, in the order A, B, C: the A operand itself (in CPYG, of every active lane). -/
def alignCheck (o : Opc) (h : CopyShape) : Option Bad :=
  match (if o == .cpyg then h.rows else h.rows.take 1).find? fun r => r.1 % 16 != 0 with
  | some r => some (copyAlign 1 r.1)
  | none =>
    if h.dest % 16 != 0 then some (copyAlign 2 h.dest)
    else match h.c with
    | some c => if c % 16 != 0 || (o == .cpy && c == 0) then some (copyAlign 3 c) else none
    | none => none

/-- The bounds check of R292: the lowest destination offset outside the limit. -/
def boundsCheck (h : CopyShape) (dst limit : Nat) : Option Bad :=
  if h.dest + (h.rows.length - 1) * h.dp + h.rowb ≤ limit then none
  else
    let j := if limit < h.dest + h.rowb || h.dp == 0 then 0 else (limit - h.rowb - h.dest) / h.dp + 1
    let a := max (h.dest + j * h.dp) limit
    some { cause := .copybounds, aux := BitVec.ofNat 32 (if dst == 0 then 1 else 2 + 256 * (dst - 8)), addr := BitVec.ofNat 64 a }

/-- The parts of a row that lie in one 64 KiB page each: their first addresses. -/
def rowParts (src rowb : Nat) : List Nat := (pagesOf src rowb).map fun p => max src (p * 65536)

/-- Translate the pages of some addresses for a copy read: the page, its physical base and hash; and the faults, by address (R292). -/
def State.copyPages (s : State) (i : Iss) : List Nat → State × List (Nat × Nat × Nat) × List Bad
  | [] => (s, [], [])
  | va :: rest =>
    match s.gx i .copy false va with
    | (s, .error b) => let r := s.copyPages i rest; (r.1, r.2.1, b :: r.2.2)
    | (s, .ok _) =>
      let r := s.copyPages i rest
      match s.mapped (.core i.core) (s.ctxOf i.core) (s.ctxtOf i.g) va with
      | none => r
      | some (leaf, level) =>
        let page := va / 65536
        (r.1, (page, pteAddr leaf (pageBits level) + page * 65536 % 2 ^ pageBits level, pteHash leaf) :: r.2.1, r.2.2)

/-- One address for each distinct 64 KiB page, the lowest. -/
def pageFirsts : List Nat → List Nat
  | [] => []
  | a :: rest =>
    let t := pageFirsts rest
    match t.find? fun b => b / 65536 == a / 65536 with
    | none => a :: t
    | some b => if a < b then t.map fun c => if c == b then a else c else t

/-- The source check of R292: the fault at the lowest address, for CPYG that of the lowest lane. -/
def State.sourceCheck (s : State) (i : Iss) (o : Opc) (h : CopyShape) : State × Except Bad (List (Nat × Nat × Nat)) :=
  let r := s.copyPages i (pageFirsts (h.rows.map fun x => rowParts x.1 h.rowb).flatten)
  match r.2.2 with
  | [] => (r.1, .ok r.2.1)
  | b0 :: bs =>
    let bads := b0 :: bs
    let badPages := bads.map fun b => b.addr.toNat / 65536
    let ofRow (x : Nat × Nat) : List Nat := (rowParts x.1 h.rowb).filter fun a => badPages.contains (a / 65536)
    let cands := if o == .cpyg then ((h.rows.find? fun x => ofRow x != []).map ofRow).getD [] else (h.rows.map ofRow).flatten
    let a := minD b0.addr.toNat cands
    let b := (bads.find? fun b => b.addr.toNat / 65536 == a / 65536).getD b0
    (r.1, .error { b with addr := BitVec.ofNat 64 a })

/-- A copy instruction past its guard (R292 to R294): its checks in order, then its entry. -/
def State.copyIssue (s : State) (i : Iss) (o : Opc) (x : Op) (h : CopyShape) (lanes : List Nat) : State :=
  let d := copyD x
  let wg := s.wgOf i.g
  let code := s.nocopy i
  let limit := if d.dst == 0 then wg.par.localkb * 1024 else 16384
  if code != 0 then s.raise i (nocopyBad code i.g.gid) lanes
  else if d.hv == 1 && (i.g.handle d.hn.toNat).st != 0 then s.raise i (handleBad 1 d.hn.toNat) lanes
  else match alignCheck o h with
  | some b => s.raise i b lanes
  | none => match boundsCheck h d.dst.toNat limit with
    | some b => s.raise i b lanes
    | none => match s.sourceCheck i o h with
      | (s, .error b) => s.raise i b lanes
      | (s, .ok pages) =>
        if 128 ≤ (s.copies.filter fun c => c.core == i.core).length then s.stall i
        else
          let c : CopyOp := { id := s.nextId, key := i.who.key, wg := i.g.wg, core := i.core,
                              bar := (match x.d with | .bar r => r.setWidth 4 | _ => 0), lane := lowLane i.g i.sp, rot := d.rot.toNat,
                              dst := d.dst.toNat, dest := h.dest, dp := h.dp, rowb := h.rowb,
                              rows := h.rows.map fun r => (BitVec.ofNat 64 r.1, r.2), pages := pages,
                              lanes := laneMask (h.rows.map (·.2)), epoch := s.epochOf i.core }
          let s := { s with copies := s.copies ++ [c], nextId := s.nextId + 1 }
          (if d.hv == 1 then s.futureTake i.who.key d.hn.toNat 1 c.id else s).done i x

/-- A split-scope copy. -/
def blockCopy (o : Opc) (x : Op) (s : State) : Out :=
  splitScope x s fun i => s.copyIssue i o x (blockShape o x i) (liveLanes i.g i.sp)

/-- CPY (R289). -/
def execCpy (o : Op) (s : State) : Out := blockCopy .cpy o s
/-- CPYB (R289). -/
def execCpyb (o : Op) (s : State) : Out := blockCopy .cpyb o s
/-- CPYO (R289). -/
def execCpyo (o : Op) (s : State) : Out := blockCopy .cpyo o s
/-- CPYG (R289). -/
def execCpyg (o : Op) (s : State) : Out :=
  issue s fun i =>
    let act := activeLanes i.g i.sp o
    if act == [] then s.done i o else s.copyIssue i .cpyg o (gatherShape o i act) act

/-- One 16-byte unit of a copy: its source address, destination offset and lane (R290, R291). -/
structure CopyUnit where
  src : Nat
  off : Nat
  lane : Nat
  deriving DecidableEq, Repr

/-- The units of a copy, row by row. -/
def CopyOp.units (c : CopyOp) : List CopyUnit :=
  (c.rows.zipIdx.map fun e => (List.range (c.rowb / 16)).map fun k =>
    ({ src := (e.1.1.toNat + 16 * k) % 2 ^ 64, off := c.dest + e.2 * c.dp + 16 * (k ^^^ (e.2 % 2 ^ c.rot)),
       lane := e.1.2 } : CopyUnit)).flatten

/-- The place of a copy's source address, by the translation made at issue. -/
def State.copyPlace (s : State) (c : CopyOp) (va : Nat) : Nat :=
  match c.pages.find? fun p => p.1 == va / 65536 with
  | some p => s.place (p.2.1 + va % 65536) p.2.2
  | none => 0

/-- Key of a destination byte: in the local store, or in the core's operand buffers. -/
def destKey (w : Workgroup) (dst off : Nat) : Nat := if dst == 0 then off else 131072 * w.bufset.getD 0 + 16384 * (dst - 8) + off

/-- The condition of a granule of the operand buffers. -/
def Core.bufGran (k : Core) (gr : Nat) : Gran :=
  if k.bufPoison.get gr != 0 then .poisoned
  else if k.bufBad != [] && 2 ≤ ((List.range 32).filter fun b => k.bufBad.get (gr * 32 + b) != 0).length then .uncorrectable else .ok

/-- Poison a granule of the operand buffers. -/
def Core.bufPoisonGran (k : Core) (gr : Nat) : Core := { k with bufPoison := k.bufPoison.set gr 1, bufBad := k.bufBad.clear (gr * 32) 32 }

/-- The metadata of a buffer granule after a write. -/
def Core.bufWritten (k : Core) (gr : Nat) (full : Bool) : Core :=
  if full then { k with bufPoison := k.bufPoison.set gr 0, bufBad := if k.bufBad == [] then [] else k.bufBad.clear (gr * 32) 32 }
  else if k.bufGran gr == .uncorrectable then k.bufPoisonGran gr else k

/-- A DATAERR event of a copy: on the producer's q4, or in the log alone when it has retired (R298). -/
def State.copyEvent (s : State) (c : CopyOp) (lane code addr : Nat) : State :=
  if (s.groups.get? c.key).isSome then s.dataEvent c.key lane code addr
  else s.logData (((s.wgs.get? c.wg).map (·.launch)).getD 0) code addr

/-- The unit of least source address with a property. -/
def unitFor (us : List CopyUnit) (p : CopyUnit → Bool) : Option CopyUnit :=
  leastBy (fun u => [u.src]) (us.filter p)

/-- The source granules of a copy that cannot be read: each makes an event and is poisoned (R298). -/
def State.copySources (s : State) (c : CopyOp) (us : List CopyUnit) : State :=
  let grs := dedup (us.map fun u => s.copyPlace c u.src / 32)
  let bad := grs.filter fun g => s.gran g != .ok
  bad.foldl (fun s' g => match unitFor us fun u => s.copyPlace c u.src / 32 == g with
    | none => s'
    | some u => (s'.markRead (g * 32) 1).copyEvent c u.lane ((s.gran g).code + 16 * Acc.code .copy) u.src) s

/-- The source sectors that a copy reads: each once for each row (R438). -/
def CopyOp.sectors (c : CopyOp) : List Nat :=
  (c.rows.map fun r => dedup ((List.range (c.rowb / 16)).map fun k => (r.1.toNat + 16 * k) % 2 ^ 64 / 32 * 32)).flatten

/-- The source sectors reach the caches along a load's path without allocation (R295); their pages are claimed. -/
def State.copyReads (s : State) (c : CopyOp) : State :=
  let ctx := s.ctxOf c.core
  let ctxt := match s.wgs.get? c.wg with
    | some w => (s.part w.part).ctxtbase.toNat
    | none => 0
  c.sectors.foldl (fun s va =>
    let r := s.translate (.core c.core) ctx ctxt .copy true va
    let path := match r.2 with
      | .ok t => t.path
      | .error _ => .home
    r.1.loadLine c.core (BitVec.ofNat 6 c.key) ctx path true (s.copyPlace c va / 32)) s

/-- Change a destination granule's metadata. -/
def State.destGran (s : State) (c : CopyOp) (fw : Workgroup → Workgroup) (fk : Core → Core) : State :=
  if c.dst == 0 then s.modWg c.wg fw else s.modCore c.core fk

/-- The bytes of a copy move (R290, R298). -/
def State.copyMove (s : State) (c : CopyOp) : State :=
  match s.wgs.get? c.wg with
  | none => s
  | some w =>
    let us := c.units
    let badUnit (u : CopyUnit) : Bool := s.gran (s.copyPlace c u.src / 32) != .ok
    let dk (u : CopyUnit) : Nat := destKey w c.dst u.off
    let grs := dedup (us.map fun u => dk u / 32)
    let full (g : Nat) : Bool := (us.any fun u => dk u == g * 32) && us.any fun u => dk u == g * 32 + 16
    let s1 := (s.copySources c us).copyReads c
    let cond (g : Nat) : Gran := if c.dst == 0 then w.lsGran g else (s.core c.core).bufGran g
    let s2 := grs.foldl (fun s g =>
      let s := if cond g == .uncorrectable && !full g then s.copyEvent c c.lane (1 + 16 * Acc.code .write) (minD 0 ((us.filter fun u => dk u / 32 == g).map (·.off))) else s
      s.destGran c (·.lsWritten g (full g)) (·.bufWritten g (full g))) s1
    let s3 := us.foldl (fun t u =>
      let bs := s.bytes (s.copyPlace c u.src) 16
      t.destGran c (fun w => { w with ls := Store.setList w.ls u.off bs }) fun k => { k with bufs := Store.setList k.bufs (dk u) bs }) s2
    (dedup ((us.filter badUnit).map fun u => dk u / 32)).foldl (fun s g => s.destGran c (·.lsPoisonGran g) (·.bufPoisonGran g)) s3

/-- Must a copy's reads wait for what owners of its pages issued before the flush that the reads start (R393)? -/
def State.copyWaits (s : State) (c : CopyOp) : Bool :=
  (s.copyClaims c).any fun q => s.ownerPending c.core true q.1 q.2.1 q.2.2

/-- Can a copy arrive now? Nothing of a core that has failed arrives before it rejoins (R455). -/
def State.mayArrive (s : State) (c : CopyOp) : Bool := !s.coreFailed.getLsbD c.core && !s.copyWaits c

/-- A copy arrives: its bytes are written, its future completes, its entry is freed and its barrier counts it (R296). One that bears an older
epoch of its core is dropped (R455). -/
def State.copyArrive (s : State) (id : Nat) : State :=
  match s.copies.find? fun c => c.id == id with
  | none => s
  | some c =>
    if !s.mayArrive c then s
    else if c.epoch != s.epochOf c.core then { s with copies := s.copies.filter fun x => x.id != id }
    else
    let s := s.copyMove c
    let s := { s with copies := s.copies.filter fun x => x.id != id }
    ((s.futureDone 1 id 2).barChange c.wg c.bar.toNat (·.engine s.clock (c.rows.length * c.rowb)))

/-- COPY_ARRIVAL (R296). -/
def execCopyArrival (id : Nat) (s : State) : Out := .next (s.copyArrive id)

/-- SEAL (R433). -/
def execSeal (o : Op) (s : State) : Out :=
  splitScope o s fun i =>
    let n := i.g.sealSeq + 1
    let s := { s.modGroup i.who.key fun g => { g with sealSeq := n } with
      copies := s.copies.map fun (c : CopyOp) => if c.key == i.who.key && c.batch.isNone then { c with batch := some n } else c }
    (s.modSplit i.who (·.write o.d 1 n.toNat)).done i o

/-- WAITB (R433). -/
def execWaitb (o : Op) (s : State) : Out :=
  splitScope o s fun i =>
    let n : Word := BitVec.ofNat 32 (scalar32 i.sp o.b)
    if 2 ^ 31 ≤ (i.g.sealSeq - n).toNat then s.raiseAll i (illop9 7)
    else if s.copies.any fun (c : CopyOp) => c.key == i.who.key && c.batch.any fun b => (n - b).toNat < 2 ^ 31 then s.stall i
    else s.done i o

end Sys2Proof.Machine
end

