-- ==== Sys2Proof/Machine/Preempt.lean ====
section
/-! DEFINITION. Asking for a workgroup's pre-emption (R409), the size of the save area that it takes (R412), and the retirement of a core,
whose workgroups are pre-empted and reloaded on its die (R338, R454). -/
namespace Sys2Proof.Machine

/-- Has a launch copy rights, and so an operand buffer set (R205)? -/
def Params.buffers (p : Params) : Bool := p.producer != 0xFF#8

/-- S, the bytes of a group section (R412). -/
def Params.section (p : Params) : Nat := roundUp (0x2400 + p.width * (1568 + 4 * p.vregs)) 4096
/-- Offset of the local store in an area. -/
def areaLs : Nat := 0x1000
/-- Offset of the operand buffers. -/
def Params.areaBufs (p : Params) : Nat := areaLs + 1024 * p.localkb
/-- Offset of group section g. -/
def Params.areaGroup (p : Params) (g : Nat) : Nat := p.areaBufs + (if p.buffers then 131072 else 0) + g * p.section
/-- Offset of the private words of group g. -/
def Params.areaPriv (p : Params) (g : Nat) : Nat := p.areaGroup p.groups + g * (p.width * p.privwords.toNat * 4)
/-- Bytes of an area. -/
def Params.areaSize (p : Params) : Nat := p.areaPriv p.groups

/-- Ask for a workgroup's pre-emption into an area, unless one is asked for already (R409). -/
def State.askPreempt (s : State) (wg : Nat) (p : Preempt) : State :=
  (s.modWg wg fun w => if w.preempt.isSome then w else { w with preempt := some p })

/-- Pre-empt workgroups for a reload on the same die, into areas from an address on (R454). -/
def State.evacuate (s : State) (addr : Nat) : List (Nat × Workgroup) → State
  | [] => s
  | (n, w) :: rest =>
    (s.askPreempt n { area := BitVec.ofNat 64 addr, reason := 0x3F, reload := true }).evacuate (addr + roundUp w.par.areaSize 65536) rest

/-- A core is retired: it admits nothing more, and its workgroups are pre-empted into areas from an address on and reloaded on its die
(R338, R454). -/
def State.retireCore (s : State) (core addr : Nat) : State :=
  if (s.core core).retired then s
  else
    let s := ({ s.modCore core fun k => { k with retired := true } with retiredUnits := s.retiredUnits + 1 }).logSet [{ type := 3, cls := 3, unit := core }]
    s.evacuate addr (s.wgs.filter fun e => e.2.core == core)

end Sys2Proof.Machine
end

