-- ==== Sys2Proof/Machine/Matrix.lean ====
section
/-! DEFINITION. The matrix engine (R318 to R339): MMA and MMAZ with their K-step, draining and filling, poison, and the sub-arrays. -/
namespace Sys2Proof.Machine

/-- The matrix descriptor of an operation. -/
def matD (x : Op) : MatDesc := match x.ext with
  | .mat m => m
  | _ => MatDesc.ofWord 0

/-- The accumulator number of D. -/
def accNum (x : Op) : Nat := match x.d with
  | .acc r => r.toNat
  | _ => 0

/-- FMT.AF, BF and ACCF (R71). -/
def fmtAF (fmt : Word) : Nat := fld fmt.toNat 3 0
/-- FMT.BF. -/
def fmtBF (fmt : Word) : Nat := fld fmt.toNat 7 4
/-- FMT.ACCF: 0 f32, 1 f64. -/
def fmtACCF (fmt : Word) : Nat := fld fmt.toNat 9 8

/-- The combinations of R320. -/
def comboOk (fmt : Word) : Bool :=
  let a := fmtAF fmt
  let b := fmtBF fmt
  (match a with
   | 0 => b == 0 && fmtACCF fmt == 1
   | 1 | 2 | 3 | 6 => b == a && fmtACCF fmt == 0
   | 4 | 5 => (b == 4 || b == 5) && fmtACCF fmt == 0
   | _ => false)

/-- Bytes of the B scale plane; 0 when the formats are unscaled (R320, R322). -/
def planeBytes (fmt : Word) : Nat := if fmtAF fmt == 6 then 128 else if (fmtAF fmt == 4 || fmtAF fmt == 5) && fmtF8S fmt then 32 else 0

/-- The format of an accumulator (R319). -/
def accFmt (tag : Nat) : Fmt := if tag == 1 then .f64 else .f32

/-- The elements of a 32-byte A row or B column, with the flags of their reading (R321, R323); `sc` is its scale entries as one number. -/
def matElems (code : Nat) (fmt : Word) (row sc : Nat) : List (FVal × Flags) :=
  match code with
  | 0 => (List.range 4).map fun k => Fmt.f64.read (fmtFTZ fmt) (elemAt 64 row k)
  | 1 => (List.range 8).map fun k => Fmt.f32.read (fmtFTZ fmt) (elemAt 32 row k)
  | 2 => (List.range 16).map fun k => Fmt.f16.read (fmtFTZ fmt) (elemAt 16 row k)
  | 3 => (List.range 16).map fun k => Fmt.bf16.read (fmtFTZ fmt) (elemAt 16 row k)
  | 4 => (List.range 32).map fun k => fp8Read .e4m3 (fmtF8S fmt) (elemAt 8 row k) (elemAt 8 sc 0)
  | 5 => (List.range 32).map fun k => fp8Read .e5m2 (fmtF8S fmt) (elemAt 8 row k) (elemAt 8 sc 0)
  | _ => (List.range 64).map fun k => let e := elemAt 16 sc (k / 32); e2m1Read (elemAt 4 row k) (e % 256) (e / 256)

/-- One K-step (R145): the exact sum of the products and of C where it is present, rounded once into the accumulator's format. -/
def kstep (fmt : Word) (f : Fmt) (lf : Word) (c : Option (FVal × Flags)) (as bs : List (FVal × Flags)) : Rounded × Word :=
  let ps := (as.zip bs).map fun t => let p := FVal.mul t.1.1 t.2.1; (p.1, p.2 ||| t.1.2 ||| t.2.2)
  let ts := ps ++ c.toList
  let s := FVal.sum (fmtRM fmt) (ts.map (·.1))
  let r := f.emit fmt (fmtRM fmt) lf s.1
  (r.1.add (s.2 ||| ts.foldl (fun a p => a ||| p.2) 0), r.2)

/-- The octets that hold lanes of a list, ascending. -/
def octetsOf (ls : List Nat) : List Nat := dedup (ls.map (· / 8))

/-- Octet o of a group. -/
def Group.octet (g : Group) (o : Nat) : Octet := g.octets.getD o {}
/-- Change an octet. -/
def Group.modOctet (g : Group) (o : Nat) (f : Octet → Octet) : Group := { g with octets := modAt g.octets o f }
/-- TAG of an accumulator of an octet. -/
def Octet.tagOf (o : Octet) (n : Nat) : Nat := if o.tag.getLsbD n then 1 else 0
/-- Set TAG. -/
def Octet.setTag (o : Octet) (n t : Nat) : Octet := { o with tag := (o.tag &&& ~~~(1#4 <<< n)) ||| (BitVec.ofNat 4 t <<< n) }
/-- Set POISON. -/
def Octet.setPoison (o : Octet) (n : Nat) (b : Bool) : Octet := { o with poison := (o.poison &&& ~~~(1#4 <<< n)) ||| (if b then 1#4 <<< n else 0) }
/-- Element (i, j) of accumulator n. -/
def Octet.elem (o : Octet) (n i j : Nat) : Nat := (o.elems.get (256 * n + 32 * i + j)).toNat
/-- Set element (i, j) of accumulator n. -/
def Octet.setElem (o : Octet) (n i j v : Nat) : Octet := { o with elems := o.elems.set (256 * n + 32 * i + j) (BitVec.ofNat 64 v) }

/-- The offset of chunk c of the A row of lane l in its store (R324). -/
def aChunk (d : MatDesc) (base l c : Nat) : Nat :=
  base + l / 8 * (d.atp.toNat * 16) + l % 8 * (d.arp.toNat * 16) + 16 * ((2 * d.acol.toNat + c) ^^^ (l % 8 % 2 ^ d.arot.toNat))

/-- The A chunks that some lanes read. -/
def aChunks (d : MatDesc) (base : Nat) (ls : List Nat) : List Nat := (ls.map fun l => [aChunk d base l 0, aChunk d base l 1]).flatten

/-- An ILLOP of the matrix checks (R328). -/
def mmaBad (sub : Nat) : Bad := illop9 sub

/-- The checks of MMA and MMAZ at issue, in the order of R328, whose TRAPLANES are the active lanes also for HANDLE (log 98). -/
def State.mmaCheck (s : State) (i : Iss) (z : Bool) (x : Op) (ls : List Nat) : Option Bad :=
  let d := matD x
  let fmt := i.sp.fmt
  let w := s.wgOf i.g
  let base := scalar32 i.sp x.a
  let chunks := aChunks d base ls
  let local' := w.par.localkb * 1024
  if w.bufset.isNone then some (mmaBad 1)
  else if d.hv == 1 && (i.g.handle d.hn.toNat).st != 0 then some (handleBad 1 d.hn.toNat)
  else if !comboOk fmt then some (mmaBad 2)
  else if !z && (octetsOf ls).any (fun o => (i.g.octet o).tagOf (accNum x) != fmtACCF fmt) then some (mmaBad 3)
  else if planeBytes fmt != 0 && 16384 < d.bsofs.toNat * 32 + planeBytes fmt then some (mmaBad 4)
  else if d.asrc != 0 && base % 16 != 0 then some { cause := .align, aux := 1, addr := BitVec.ofNat 64 base }
  else if d.asrc == 2 && chunks.any fun a => 16384 < a + 16 then some (mmaBad 5)
  else match (chunks.filter fun a => local' < a + 16) with
  | [] => none
  | a :: as => if d.asrc == 1 then some { cause := .prot, aux := 4, addr := BitVec.ofNat 64 (max local' (minD a (a :: as))) } else none

/-- The register rows and scales that an MMA or MMAZ captures at issue (R323, R324). -/
def mmaCapture (g : Group) (x : Op) (ls : List Nat) : Store 256 × Store 32 :=
  let rows : Store 256 := match x.a with
    | .v r => ls.foldl (fun m l => m.set l (BitVec.ofNat 256 (readRegs (g.lane l).v r.toNat 8))) []
    | _ => []
  let sc : Store 32 := match x.c with
    | .v r => ls.foldl (fun m l => m.set l ((g.lane l).v.get r.toNat)) []
    | _ => []
  (rows, sc)

/-- An operation's number is taken and the operation joins its group (R327, R333, R334). -/
def State.matAdd (s : State) (i : Iss) (m : MatOp) : State :=
  { s.modGroup i.who.key fun g => { g with mops := g.mops ++ [m] } with nextId := s.nextId + 1 }

/-- MMA and MMAZ issue (R327, R328). -/
def mmaIssue (z : Bool) (x : Op) (s : State) : Out :=
  issue s fun i =>
    let ls := activeLanes i.g i.sp x
    if ls == [] then s.done i x
    else match s.mmaCheck i z x ls with
    | some b => s.raise i b ls
    | none =>
      let d := matD x
      let c := mmaCapture i.g x ls
      let m : MatOp := { id := s.nextId, kind := if z then .mmaz else .mma, acc := accNum x, slice := i.sp.id, slices := i.sp.slices, fmt := i.sp.fmt,
                         lanes := laneMask ls, idle := 0, arows := c.1, ascale := c.2, desc := d, base := scalar32 i.sp x.a }
      let s := s.matAdd i m
      let s := if z then s.modGroup i.who.key fun g => (octetsOf ls).foldl (fun g o => g.modOctet o (·.setTag m.acc (fmtACCF i.sp.fmt))) g else s
      (if d.hv == 1 then s.futureTake i.who.key d.hn.toNat 2 m.id else s).done i x

/-- MMA (R327). -/
def execMma (o : Op) (s : State) : Out := mmaIssue false o s
/-- MMAZ (R327). -/
def execMmaz (o : Op) (s : State) : Out := mmaIssue true o s

/-- Where an operand lies: the local store, or one of the buffers of the workgroup's set. -/
inductive MatSrc where
  | loc
  | buf (k : Nat)
  deriving DecidableEq, Repr

/-- The condition of the granule of an operand byte. -/
def State.matGran (s : State) (w : Workgroup) : MatSrc → Nat → Gran
  | .loc, off => w.lsGran (off / 32)
  | .buf k, off => (s.core w.core).bufGran ((131072 * w.bufset.getD 0 + 16384 * k + off) / 32)

/-- The bytes of an operand as one number. -/
def State.matRead (s : State) (w : Workgroup) (src : MatSrc) (off n : Nat) : Nat :=
  match src with
  | .loc => ofBytes (Store.getList w.ls off n)
  | .buf k => ofBytes (Store.getList (s.core w.core).bufs (131072 * w.bufset.getD 0 + 16384 * k + off) n)

/-- A read that found an uncorrectable error poisons the granule (R335). -/
def State.matMark (s : State) (g : Group) (w : Workgroup) (src : MatSrc) (off : Nat) : State :=
  match src with
  | .loc => s.modWg g.wg fun w => if w.lsGran (off / 32) == .uncorrectable then w.lsPoisonGran (off / 32) else w
  | .buf k =>
    let gr := (131072 * w.bufset.getD 0 + 16384 * k + off) / 32
    s.modCore w.core fun c => if c.bufGran gr == .uncorrectable then c.bufPoisonGran gr else c

/-- The A source of an operation. -/
def MatOp.aSrc (m : MatOp) : MatSrc := if m.desc.asrc == 1 then .loc else .buf m.desc.aidx.toNat
/-- The B source of an operation. -/
def MatOp.bSrc (m : MatOp) : MatSrc := .buf (4 + m.desc.bidx.toNat)

/-- The A row of a lane, as one number (R324). -/
def State.aRow (s : State) (w : Workgroup) (m : MatOp) (l : Nat) : Nat :=
  if m.desc.asrc == 0 then (m.arows.get l).toNat
  else s.matRead w m.aSrc (aChunk m.desc m.base l 0) 16 + 2 ^ 128 * s.matRead w m.aSrc (aChunk m.desc m.base l 1) 16

/-- The granules that an operation reads: source, offset, and the octets they count for (R335). -/
def mmaGrans (m : MatOp) (ls : List Nat) : List (MatSrc × Nat × List Nat) :=
  let octs := octetsOf ls
  let a := if m.desc.asrc == 0 then [] else (ls.map fun l => [aChunk m.desc m.base l 0, aChunk m.desc m.base l 1].map fun c => (m.aSrc, c, [l / 8])).flatten
  let b := (List.range 32).map fun k => (m.bSrc, m.desc.bofs.toNat * 32 + 32 * k, octs)
  let p := (List.range (planeBytes m.fmt / 32)).map fun k => (m.bSrc, m.desc.bsofs.toNat * 32 + 32 * k, octs)
  a ++ b ++ p

/-- Poison that an operation meets: its accumulators' POISON, one event, and the source granules (R335). -/
def State.mmaPoison (s : State) (key : Nat) (g : Group) (m : MatOp) (ls : List Nat) : State :=
  let w := s.wgOf g
  let bad := (mmaGrans m ls).filter fun e => s.matGran w e.1 e.2.1 != .ok
  match leastBy (fun o => [o]) (bad.map fun e => e.2.2).flatten with
  | none => if m.kind == .mmaz then s.modGroup key fun g => (octetsOf ls).foldl (fun g o => g.modOctet o (·.setPoison m.acc false)) g else s
  | some first =>
    let hit (o : Nat) : Bool := bad.any fun e => e.2.2.contains o
    let s1 := s.modGroup key fun g => (octetsOf ls).foldl (fun g o => g.modOctet o fun y =>
      y.setPoison m.acc (hit o || (m.kind == .mma && y.poison.getLsbD m.acc))) g
    let mine := bad.filter fun e => e.2.2.contains first
    let off := minD 0 (mine.map fun e => e.2.1)
    let code := ((mine.find? fun e => e.2.1 == off).map fun e => (s.matGran w e.1 e.2.1).code).getD 2
    let lane := ((ls.find? fun l => l / 8 == first)).getD 0
    bad.foldl (fun s e => s.matMark g w e.1 e.2.1) (s1.dataEvent key lane (code + 16 * Acc.code .matrix) off)

/-- One row of an operation: its elements in column order, with the lane's matrix LFSR (R142, R327). -/
def mmaRow (m : MatOp) (f : Fmt) (as : List (FVal × Flags)) (i : Nat) : List (Nat × List (FVal × Flags)) → Octet → Word → Flags → Octet × Word × Flags
  | [], o, lf, fl => (o, lf, fl)
  | (j, bs) :: rest, o, lf, fl =>
    let c := if m.kind == .mmaz then none else some (f.read (fmtFTZ m.fmt) (o.elem m.acc i j))
    let r := kstep m.fmt f lf c as bs
    mmaRow m f as i rest (o.setElem m.acc i j r.1.code) r.2 (fl ||| r.1.flags)

/-- The B columns of an operation (R321, R322). -/
def State.bCols (s : State) (w : Workgroup) (m : MatOp) : List (Nat × List (FVal × Flags)) :=
  (List.range 32).map fun j =>
    let sc := match planeBytes m.fmt with
      | 128 => s.matRead w m.bSrc (m.desc.bsofs.toNat * 32 + 4 * j) 4
      | 32 => s.matRead w m.bSrc (m.desc.bsofs.toNat * 32 + j) 1
      | _ => 0
    (j, matElems (fmtBF m.fmt) m.fmt (s.matRead w m.bSrc (m.desc.bofs.toNat * 32 + 32 * j) 32) sc)

/-- The rows of an operation, lane by lane (R327); `a` gives a lane's A elements. -/
def mmaRows (m : MatOp) (cols : List (Nat × List (FVal × Flags))) (a : Nat → List (FVal × Flags)) : List Nat → Group → Flags → Group × Flags
  | [], g, fl => (g, fl)
  | l :: ls, g, fl =>
    let r := mmaRow m (accFmt (fmtACCF m.fmt)) (a l) (l % 8) cols (g.octet (l / 8)) (g.lane l).mlfsr fl
    mmaRows m cols a ls ((g.modOctet (l / 8) fun _ => r.1).modLane l fun ln => { ln with mlfsr := r.2.1 }) r.2.2

/-- An operation is complete: it leaves its group, whose drain may have waited for it (R29). -/
def State.matDone (s : State) (key id : Nat) : State :=
  ((s.modGroup key fun g => { g with mops := g.mops.filter fun m => m.id != id }).futureDone 2 id 2).drained key

/-- An MMA or MMAZ takes effect (R327, R335). -/
def State.mmaPerform (s : State) (key : Nat) (g : Group) (m : MatOp) : State :=
  let w := s.wgOf g
  let ls := maskLanes m.lanes
  let a (l : Nat) := matElems (fmtAF m.fmt) m.fmt (s.aRow w m l) (m.ascale.get l).toNat
  let r := mmaRows m (s.bCols w m) a ls g 0
  let g' := { r.1 with splits := r.1.splits.map fun y => if y.slices.getLsbD m.slice then { y with flags := y.flags ||| r.2 } else y }
  ((s.setGroup key g').mmaPoison key g m ls).matDone key m.id

/-- Is an operation the group's first in flight on its accumulator (R336)? -/
def Group.firstOn (g : Group) (m : MatOp) : Bool :=
  match g.mops.find? fun y => y.acc == m.acc with
  | some y => y.id == m.id
  | none => false

/-- Has every MMA, MMAZ and MFILL of the group issued before an operation on its accumulator completed: the fault point of an MDRAIN (R333)? -/
def Group.pointReady (g : Group) (m : MatOp) : Bool :=
  (g.mops.takeWhile fun y => y.id != m.id).all fun y => y.acc != m.acc || y.kind == .mdrain

/-- Cycles that an operation occupies a sub-array (R330). -/
def matCycles (m : MatOp) : Nat := (match fmtAF m.fmt with | 0 => 32 | 1 => 8 | _ => 4) * (octetsOf (maskLanes m.lanes)).length

/-- Sub-arrays that are not fenced. -/
def MatUnit.healthy (u : MatUnit) : Nat := 8 - popN 8 u.fenced.toNat
/-- The status word (R339). -/
def MatUnit.status (u : MatUnit) : Nat := 65536 * u.trans.toNat + 256 * u.fenced.toNat + 16 * u.healthy

/-- Unit number of a sub-array in the error log. -/
def subUnit (core sub : Nat) : Nat := 8 * core + sub

/-- A transient fault of a sub-array (R337). -/
def State.subTransient (s : State) (core sub : Nat) : State :=
  (s.modCore core fun k => { k with mat := { k.mat with trans := if k.mat.trans == 255#8 then 255#8 else k.mat.trans + 1 } }).logSet
    [{ type := 2, cls := 1, unit := subUnit core sub }]

/-- A sub-array is fenced (R337); with its last one, the core is retired and its workgroups go to areas from an address on (R338). -/
def State.subFence (s : State) (core sub addr : Nat) : State :=
  let s := ({ s.modCore core fun k => { k with mat := { k.mat with fenced := k.mat.fenced ||| (1#8 <<< sub) } } with retiredUnits := s.retiredUnits + 1 }).logSet
    [{ type := 3, cls := 1, unit := subUnit core sub }]
  if (s.core core).mat.healthy == 0 then s.retireCore core addr else s

/-- A sub-array fails its test pattern: it is fenced (R337). Where that retires the core, the control processor names the save areas; which,
the spec leaves to it (log 99). -/
def State.patternFails (s : State) (core sub : Nat) : State :=
  { s with freeCtr := s.freeCtr + 1 }.subFence core sub (65536 * Config.saveAreaAt s.freeCtr)

/-- Set a sub-array's work count. -/
def MatUnit.setWork (u : MatUnit) (sub n : Nat) : MatUnit := { u with work := setAt u.work sub n }

/-- May a sub-array take an operation (R337)? -/
def MatUnit.ready (u : MatUnit) (sub : Nat) : Bool := sub < 8 && !u.fenced.getLsbD sub && u.work.getD sub 0 < 2 ^ 22

/-- Is a sub-array one on which an operation's residue check has failed, while a healthy one is left on which it has not (R337, step 2)? -/
def MatUnit.avoids (u : MatUnit) (m : MatOp) (sub : Nat) : Bool :=
  m.avoid.getLsbD sub && (List.range 8).any fun k => !u.fenced.getLsbD k && !m.avoid.getLsbD k

/-- May an operation run next, and on this sub-array (R336, R337)? -/
def Group.runsOn (g : Group) (u : MatUnit) (m : MatOp) (sub : Nat) : Bool :=
  (m.kind == .mma || m.kind == .mmaz) && g.firstOn m && u.ready sub && !u.avoids m sub

/-- The sub-arrays that an operation is to pass over once its residue check has failed on one: every one on which it has failed or, where no
healthy one is left besides, the last alone (R337, step 2). -/
def MatUnit.avoidNext (u : MatUnit) (m : MatOp) (sub : Nat) : BitVec 8 :=
  let all := m.avoid ||| (1#8 <<< sub)
  if all ||| u.fenced == 0xFF#8 then 1#8 <<< sub else all

/-- A matrix operation's residue check fails on a sub-array: nothing is written, the operation is to run on another, and the failing one has
run the test pattern (R337). -/
def State.matFails (s : State) (key : Nat) (m : MatOp) (sub : Nat) : State :=
  let u := (s.core (key / 64)).mat
  (s.modCore (key / 64) fun k => { k with mat := k.mat.setWork sub 0 }).modGroup key fun g =>
    { g with mops := g.mops.map fun y => if y.id == m.id then { y with avoid := u.avoidNext y sub } else y }

/-- A matrix operation runs on a sub-array and its residue is checked (R337); an injected failure is transient (R339). -/
def State.matComplete (s : State) (key id sub : Nat) (res : Residue) : State :=
  match s.groups.get? key with
  | none => s
  | some g => match g.mops.find? fun m => m.id == id with
    | none => s
    | some m =>
      let core := key / 64
      let u := (s.core core).mat
      if !g.runsOn u m sub then s
      else
        let inj := u.inject.getLsbD sub
        let s := s.modCore core fun k => { k with mat := { (k.mat.setWork sub (k.mat.work.getD sub 0 + matCycles m)) with inject := k.mat.inject &&& ~~~(1#8 <<< sub) } }
        match (if inj then .transient else res) with
        | .ok => s.mmaPerform key g m
        | .transient => (s.matFails key m sub).subTransient core sub
        | .lasting => (s.matFails key m sub).patternFails core sub

/-- MATRIX_OPERATION_COMPLETION (R327, R337). -/
def execMatrixOperationCompletion (key id sub : Nat) (res : Residue) (s : State) : Out := .next (s.matComplete key id sub res)

/-- SUBARRAY_SELF_TEST: the test pattern on a healthy sub-array (R337). -/
def execSubarraySelfTest (core sub : Nat) (passes : Bool) (s : State) : Out :=
  .next (if 8 ≤ sub || (s.core core).mat.fenced.getLsbD sub then s
    else
      let s := (s.modCore core fun k => { k with mat := k.mat.setWork sub 0 })
      if passes then s else s.patternFails core sub)

/-- Register words of an element: one at f32, two at f64. -/
def tagWords (tags : BitVec 8) (o : Nat) : Nat := if tags.getLsbD o then 2 else 1

/-- The element that round u gives lane l: its row and column (R332). -/
def roundCell (w u l : Nat) : Nat × Nat :=
  match w with
  | 16 => (u / 2, if u % 2 == 0 then l else l + 16)
  | 32 => (u, l)
  | _ => if l < 32 then (2 * u, l) else (2 * u + 1, l - 32)

/-- The octet of a round (R332). -/
def roundOctet (w u : Nat) : Nat := (roundCell w u 0).1 / 8

/-- The TAGs of accumulator n over a group's octets. -/
def Group.tagsOf (g : Group) (n : Nat) : BitVec 8 := maskOf 8 ((List.range (g.width / 8)).filter fun o => (g.octet o).tagOf n == 1)

/-- The words of an element, low word first. -/
def elemWords (k v : Nat) : List Word := (List.range k).map fun i => BitVec.ofNat 32 (v / 2 ^ (32 * i))

/-- Is an operation the first of the group's drains, or fills, through the queues (R308)? -/
def Group.firstMover (g : Group) (m : MatOp) : Bool :=
  match g.mops.find? fun y => y.kind == m.kind && !y.ls with
  | some y => y.id == m.id
  | none => false

/-- Can round u of a drain be pushed: room in every lane that takes words (R333); a retired group's lanes take none (R29). -/
def drainRoom (g : Group) (m : MatOp) : Bool :=
  g.retired || (List.range g.width).all fun l => m.idle.getLsbD l || (g.lane l).q0.length + tagWords m.tags (roundOctet g.width m.round) ≤ 64

/-- One round of a drain (R332, R333). -/
def drainRound (m : MatOp) (u : Nat) (g : Group) : Group :=
  let o := roundOctet g.width u
  let k := tagWords m.tags o
  let g1 := (List.range g.width).foldl (fun g l =>
    if m.idle.getLsbD l || g.retired then g
    else
      let c := roundCell g.width u l
      let v := (g.octet (c.1 / 8)).elem m.acc (c.1 % 8) c.2
      g.modLane l fun ln => { ln with q0 := ln.q0 ++ elemWords k v }) g
  if m.z then (List.range g.width).foldl (fun g l => let c := roundCell g.width u l; g.modOctet (c.1 / 8) (·.setElem m.acc (c.1 % 8) c.2 0)) g1 else g1

/-- As many rounds of a drain as there is room for, from the operation's next. -/
def drainRounds : Nat → MatOp → Group → MatOp × Group
  | 0, m, g => (m, g)
  | fuel + 1, m, g => if m.round < 32 && drainRoom g m then drainRounds fuel { m with round := m.round + 1 } (drainRound m m.round g) else (m, g)

/-- Does every lane that supplies words hold those of the next round of a fill (R334)? A retired group takes +0 for missing words (R29). -/
def fillReady (g : Group) (m : MatOp) : Bool :=
  g.retired || (List.range g.width).all fun l => m.idle.getLsbD l || tagWords m.tags (roundOctet g.width m.round) ≤ (g.lane l).q1.length

/-- One round of a fill (R332, R334). -/
def fillRound (m : MatOp) (u : Nat) (g : Group) : Group :=
  let k := tagWords m.tags (roundOctet g.width u)
  (List.range g.width).foldl (fun g l =>
    let c := roundCell g.width u l
    let ws := if m.idle.getLsbD l then [] else (g.lane l).q1.take k
    let v := (ws.getD 0 0).toNat + 2 ^ 32 * (ws.getD 1 0).toNat
    (g.modOctet (c.1 / 8) (·.setElem m.acc (c.1 % 8) c.2 v)).modLane l fun ln => { ln with q1 := ln.q1.drop ws.length }) g

/-- As many rounds of a fill as there are words for. -/
def fillRounds : Nat → MatOp → Group → MatOp × Group
  | 0, m, g => (m, g)
  | fuel + 1, m, g => if m.round < 32 && fillReady g m then fillRounds fuel { m with round := m.round + 1 } (fillRound m m.round g) else (m, g)

/-- Replace an operation of a group. -/
def Group.setMop (g : Group) (m : MatOp) : Group := { g with mops := g.mops.map fun y => if y.id == m.id then m else y }

/-- The offset of element (r, j) of a transfer through the local store, with its size (R333). -/
def MatOp.lsAt (m : MatOp) (r j : Nat) : Nat × Nat := let size := 4 * tagWords m.tags (r / 8); (m.base + r * m.pitch + j * size, size)

/-- An element's write meets a local granule with an uncorrectable error: it makes a DATAERR event (R247, R249). -/
def State.drainEvent (s : State) (key : Nat) (g : Group) (ws : List LaneWr) (gr : Nat) : State :=
  match if (s.wgOf g).lsGran gr == .uncorrectable then ws.find? fun w => w.place / 32 == gr else none with
  | some y => s.dataEvent key (y.lane / 8 * 8) (1 + 16 * Acc.code .matrix) y.place
  | none => s

/-- MDRAIN `.ls` writes its elements, each by a write of its own, which covers no granule (R193, R333). -/
def State.drainLs (s : State) (key : Nat) (g : Group) (m : MatOp) : State :=
  let rows := List.range g.width
  let poisoned (r : Nat) : Bool := (g.octet (r / 8)).poison.getLsbD m.acc
  let ws : List LaneWr := (rows.map fun r => (List.range 32).map fun j =>
    let a := m.lsAt r j
    (⟨r, a.1, a.1, .home, toBytes a.2 ((g.octet (r / 8)).elem m.acc (r % 8) j)⟩ : LaneWr)).flatten
  let s1 := (dedup (ws.map (·.place / 32))).foldl (fun s gr => (s.drainEvent key g ws gr).modWg g.wg (·.lsWritten gr false)) s
  let s2 := s1.modWg g.wg fun w => ws.foldl (fun w y => { w with ls := Store.setList w.ls y.place y.bytes }) w
  let bad := ws.filter fun y => poisoned y.lane
  let s3 := (dedup (bad.map (·.place / 32))).foldl (fun s gr => s.modWg g.wg (·.lsPoisonGran gr)) s2
  let s4 := match bad with
    | [] => s3
    | y :: _ => s3.dataEvent key (y.lane / 8 * 8) (2 + 16 * Acc.code .matrix) (minD y.place (bad.map (·.place)))
  if m.z then s4.modGroup key fun g => (List.range (g.width / 8)).foldl (fun g o => g.modOctet o fun y =>
    ({ y with elems := y.elems.clear (256 * m.acc) 256 }).setPoison m.acc false) g else s4

/-- MFILL `.ls` reads its elements (R334). -/
def State.fillLs (s : State) (key : Nat) (g : Group) (m : MatOp) : State :=
  let w := s.wgOf g
  let cells : List (Nat × Nat) := ((List.range g.width).map fun r => (List.range 32).map fun j => (r, j)).flatten
  let bad := cells.filter fun c => w.lsGran ((m.lsAt c.1 c.2).1 / 32) != .ok
  let s1 := s.modGroup key fun g => cells.foldl (fun g c =>
    let a := m.lsAt c.1 c.2
    g.modOctet (c.1 / 8) (·.setElem m.acc (c.1 % 8) c.2 (ofBytes (Store.getList w.ls a.1 a.2)))) g
  match bad with
  | [] => s1
  | c :: _ =>
    let off := minD (m.lsAt c.1 c.2).1 (bad.map fun c => (m.lsAt c.1 c.2).1)
    let s2 := s1.modGroup key fun g => bad.foldl (fun g c => g.modOctet (c.1 / 8) (·.setPoison m.acc true)) g
    let s3 := s2.dataEvent key (c.1 / 8 * 8) ((w.lsGran (off / 32)).code + 16 * Acc.code .matrix) off
    bad.foldl (fun s c => s.matMark g w .loc (m.lsAt c.1 c.2).1) s3

/-- Clear POISON of an accumulator in every octet. -/
def Group.clearPoison (g : Group) (n : Nat) : Group := (List.range (g.width / 8)).foldl (fun g o => g.modOctet o (·.setPoison n false)) g

/-- The split whose pending MDRAIN an operation is. -/
def Group.drainSplit (g : Group) (id : Nat) : Option (Nat × Pend) :=
  g.splits.findSome? fun y => match y.pend with
    | some p => if p.opc == .mdrain && p.id == id then some (y.id, p) else none
    | none => none

/-- MDRAIN's fault point: a poisoned accumulator raises DATAERR, and nothing is pushed (R333). True says that the drain goes on. -/
def State.drainPoint (s : State) (key : Nat) (g : Group) (m : MatOp) : State × Bool :=
  let bad := !m.ls && (List.range (g.width / 8)).any fun o => (g.octet o).poison.getLsbD m.acc
  match g.drainSplit m.id with
  | none => (s, true)
  | some (n, p) =>
    if bad && !g.retired then
      let e := memBad .dataerr 2 .matrix 0 (4096 * m.acc)
      ((s.modGroup key fun g => { g with mops := g.mops.filter fun y => y.id != m.id }).faultPoint ⟨key, n⟩ p ((maskLanes p.lanes).map fun l => (l, e)), false)
    else
      let s := s.faultPoint ⟨key, n⟩ p []
      (if m.z && !m.ls then s.modGroup key (·.clearPoison m.acc) else s, true)

/-- An MDRAIN or MFILL moves what it can, and completes once all of it has moved (R333, R334). -/
def State.matTransfer (s : State) (key id : Nat) : State :=
  match s.groups.get? key with
  | none => s
  | some g => match g.mops.find? fun m => m.id == id with
    | none => s
    | some m =>
      if m.kind == .mdrain then
        if !g.pointReady m then s
        else
        let r := s.drainPoint key g m
        if !r.2 then r.1
        else match r.1.groups.get? key with
        | none => r.1
        | some g =>
          if !g.firstOn m then r.1
          else if m.ls then (r.1.drainLs key g m).matDone key id
          else if !g.firstMover m then r.1
          else
            let t := drainRounds 32 m g
            let s := r.1.setGroup key (t.2.setMop t.1)
            if t.1.round == 32 then s.matDone key id else s
      else if m.kind != .mfill || !g.firstOn m then s
      else if m.ls then ((s.modGroup key (·.clearPoison m.acc)).fillLs key g m).matDone key id
      else if !g.firstMover m then s
      else
        let g := if m.round == 0 then g.clearPoison m.acc else g
        let t := fillRounds 32 m g
        let s := s.setGroup key (t.2.setMop t.1)
        if t.1.round == 32 then s.matDone key id else s

/-- ACCUMULATOR_TRANSFER_COMPLETION (R333, R334). -/
def execAccumulatorTransferCompletion (key id : Nat) (s : State) : Out := .next (s.matTransfer key id)

/-- The checks of MDRAIN `.ls` and MFILL `.ls` at issue (R333, R334). -/
def lsChecks (limit : Nat) (acc : Acc) (w : Nat) (m : MatOp) : Option Bad :=
  if m.base % 16 != 0 then some (memBad .align 1 acc m.base)
  else if m.pitch % 16 != 0 then some (memBad .align 1 acc m.pitch)
  else
    let spent := (List.range w).filterMap fun r => let a := (m.lsAt r 0).1; if limit < a + 32 * (m.lsAt r 0).2 then some (max a limit) else none
    match spent with
    | [] => none
    | a :: as => some (memBad .prot 4 acc (minD a (a :: as)))

/-- The idle lanes of a group. -/
def idleMask (g : Group) : DWord := laneMask ((List.range g.width).filter fun l => (g.lane l).idle)

/-- MDRAIN (R331, R333). -/
def execMdrain (o : Op) (s : State) : Out :=
  splitScope o s fun i =>
    let ls := o.ty.toNat % 2 == 1
    let m : MatOp := { id := s.nextId, kind := .mdrain, acc := accNum o, slice := i.sp.id, slices := i.sp.slices, fmt := i.sp.fmt,
                       lanes := 0, idle := idleMask i.g, ls := ls, z := o.ty.toNat / 2 % 2 == 1, base := scalar32 i.sp o.a,
                       pitch := scalar32 i.sp o.b, tags := i.g.tagsOf (accNum o) }
    let hv := 4 ≤ o.ty.toNat
    match (if ls then lsChecks ((s.wgOf i.g).par.localkb * 1024) .write i.g.width m else none) with
    | some b => s.raiseAll i b
    | none =>
      if hv && (i.g.handle (opndH o.c)).st != 0 then s.raiseAll i (handleBad 1 (opndH o.c))
      else
        let s := s.matAdd i m
        let s := if hv then s.futureTake i.who.key (opndH o.c) 2 m.id else s
        s.pending i o { pendOf i .mdrain o (liveLanes i.g i.sp) o.fn.toNat with id := m.id }

/-- MFILL (R331, R334). -/
def execMfill (o : Op) (s : State) : Out :=
  splitScope o s fun i =>
    let ls := o.ty.toNat % 2 == 1
    let t := fmtACCF i.sp.fmt
    let m : MatOp := { id := s.nextId, kind := .mfill, acc := accNum o, slice := i.sp.id, slices := i.sp.slices, fmt := i.sp.fmt,
                       lanes := 0, idle := idleMask i.g, ls := ls, base := scalar32 i.sp o.a, pitch := scalar32 i.sp o.b,
                       tags := if t == 1 then 0xFF else 0 }
    match (if ls then lsChecks ((s.wgOf i.g).par.localkb * 1024) .read i.g.width m else none) with
    | some b => s.raiseAll i b
    | none =>
      ((s.matAdd i m).modGroup i.who.key fun g => (List.range (g.width / 8)).foldl (fun g k => g.modOctet k (·.setTag m.acc t)) g).done i o

/-- MSELF `.stat` (R339). -/
def execMselfStat (o : Op) (s : State) : Out :=
  splitScope o s fun i => (s.modSplit i.who (·.write o.d 1 (s.core i.core).mat.status)).done i o

/-- The test pattern on every healthy sub-array in turn (R337, R339). -/
def State.selfTests (s : State) (core : Nat) : List Nat → State
  | [] => s
  | k :: ks =>
    if (s.core core).mat.fenced.getLsbD k then s.selfTests core ks
    else
      let s1 := { s.modCore core fun c => { c with mat := c.mat.setWork k 0 } with freeCtr := s.freeCtr + 1 }
      (if Config.patternPasses s.freeCtr then s1 else s1.patternFails core k).selfTests core ks

/-- Is a core's matrix engine idle? -/
def State.engineIdle (s : State) (core : Nat) : Bool := s.groups.all fun e => e.1 / 64 != core || e.2.mops.isEmpty

/-- MSELF `.run` (R339). -/
def execMselfRun (o : Op) (s : State) : Out :=
  splitScope o s fun i =>
    if i.sp.priv == 0 then s.raiseAll i (levelBad true 1 0)
    else if !s.engineIdle i.core then s.stall i
    else
      let s := s.selfTests i.core (List.range 8)
      (s.modSplit i.who (·.write o.d 1 (s.core i.core).mat.status)).done i o

/-- MSELF `.inj` (R339). -/
def execMselfInj (o : Op) (s : State) : Out :=
  splitScope o s fun i =>
    let a := scalar32 i.sp o.a
    if i.sp.priv == 0 then s.raiseAll i (levelBad true 1 0)
    else if 8 ≤ a || (s.core i.core).mat.fenced.getLsbD a then s.raiseAll i illop9
    else (s.modCore i.core fun k => { k with mat := { k.mat with inject := k.mat.inject ||| (1#8 <<< a) } }).done i o

end Sys2Proof.Machine
end

