-- ==== Sys2Proof/Machine/Counters.lean ====
section
/-! DEFINITION. Barrier registers' instructions (R422 to R426), device barriers (R427 to R429), the event counters (R434 to R437), and the
time-outs of waits (R378, R425). -/
namespace Sys2Proof.Machine

/-- The number of a barrier operand. -/
def opndB : Opnd → Nat
  | .bar r => r.toNat
  | _ => 0

/-- Barrier register n of the issuing split's workgroup. -/
def State.myBar (s : State) (i : Iss) (n : Nat) : BarReg := (s.wgOf i.g).bar n

/-- Is a wait, a copy or a TIERPF on barrier n of a workgroup outstanding (R423)? -/
def State.barBusy (s : State) (wg n : Nat) : Bool :=
  (s.groups.any fun e => e.2.wg == wg && e.2.splits.any fun x => match x.wait with
    | .barrier b _ _ => b.toNat == n
    | _ => false) ||
  (s.copies.any fun (c : CopyOp) => c.wg == wg && c.bar.toNat == n) ||
  s.tierOps.any fun (t : TierOp) => t.wg == wg && t.bar == some (BitVec.ofNat 4 n)

/-- BINIT on a register: the members are the groups of the mask (R423). -/
def BarReg.members (b : BarReg) (groups m : Nat) : BarReg :=
  let m := m % 2 ^ groups
  { b with left := BitVec.ofNat 16 (65535 - m), expected := BitVec.ofNat 8 (popN 16 m), post := List.replicate 68 0xFFFF#16 }

/-- BINIT (R423); it acts after the cycle's completion test (R419). -/
def execBinit (o : Op) (s : State) : Out :=
  splitScope o s fun i =>
    let n := opndB o.d
    let s := s.barClose i.g.wg n
    let b := s.myBar i n
    if b.arrived != 0 || b.tb != 0 || s.barBusy i.g.wg n then s.raiseAll i (illop9 1)
    else (s.barSet i.g.wg n fun b => b.members (s.wgOf i.g).par.groups (scalar32 i.sp o.a)).done i o

/-- Why a split cannot arrive at barrier n: the ILLOP's sub-code (R423). -/
def State.arriveBad (s : State) (i : Iss) (n : Nat) : Option Nat :=
  if (s.myBar i n).left.getLsbD i.g.gid.toNat then some 8 else if i.sp.mark.getLsbD n then some 2 else none

/-- A split marks itself at barrier n; the group arrives once every split of it is marked (R420). -/
def State.barArrive (s : State) (i : Iss) (n : Nat) : State :=
  let s := (s.modSplit i.who fun y => { y with mark := y.mark ||| (1#16 <<< n) }).barSet i.g.wg n fun b =>
    { b with marked := b.marked ||| (1#16 <<< i.g.gid.toNat) }
  match s.groups.get? i.who.key with
  | none => s
  | some g => if g.splits.all fun y => y.mark.getLsbD n then s.barChange i.g.wg n (·.group s.clock i.g.gid) else s

/-- The wait that timed out at this instruction and that RTE resumes (R425). -/
def Split.resumes (x : Split) : Option Wait := if x.rerun.isSome then (x.timedOut.find? fun e => e.1 == x.pc).map (·.2) else none

/-- The phase of a wait on a barrier register that RTE resumes (R425). -/
def Split.resumed (x : Split) : Option (BitVec 16) := x.resumes.bind fun w => match w with
  | .barrier _ p _ => some p
  | _ => none

/-- The object and phase of a wait on a device barrier that RTE resumes (R425). -/
def Split.resumedDbar (x : Split) : Option (DWord × BitVec 16) := x.resumes.bind fun w => match w with
  | .dbar a p _ => some (a, p)
  | _ => none

/-- Wait until the PHASE of barrier n differs from p, or pass on where it does (R423). -/
def State.barWait (s : State) (i : Iss) (o : Op) (n : Nat) (p : BitVec 16) : State :=
  let s := s.modSplit i.who Split.forget
  if (s.myBar i n).phase != p then s.done i o
  else (s.modSplit i.who fun y => { y with wait := .barrier (BitVec.ofNat 4 n) p s.clock })

/-- BARV (R423). -/
def execBarv (o : Op) (s : State) : Out :=
  splitScope o s fun i =>
    let n := opndB o.d
    match s.arriveBad i n with
    | some c => s.raiseAll i (illop9 c)
    | none => (s.barArrive i n).done i o

/-- BARW (R423): under RTE after a time-out it waits on and does not arrive again (R425). -/
def execBarw (o : Op) (s : State) : Out :=
  splitScope o s fun i =>
    let n := opndB o.d
    match i.sp.resumed with
    | some p => s.barWait i o n p
    | none => match s.arriveBad i n with
      | some c => s.raiseAll i (illop9 c)
      | none => (s.barArrive i n).barWait i o n (s.myBar i n).phase

/-- BWAIT (R423). -/
def execBwait (o : Op) (s : State) : Out :=
  splitScope o s fun i =>
    let n := opndB o.d
    s.barWait i o n (i.sp.resumed.getD (if o.fn == 1 then BitVec.ofNat 16 (scalar32 i.sp o.a) else (s.myBar i n).phase))

/-- BEXP (R423); it acts after the cycle's completion test (R419). -/
def execBexp (o : Op) (s : State) : Out :=
  splitScope o s fun i =>
    let n := opndB o.d
    let s := s.barClose i.g.wg n
    let b := s.myBar i n
    let e := b.expected.toNat + scalar32 i.sp o.a % 256
    let t := b.tb.toNat + scalar32 i.sp o.b
    if 255 < e || 2 ^ 32 ≤ t then s.raiseAll i (illop9 3)
    else (s.barSet i.g.wg n fun b => { b with expected := BitVec.ofNat 8 e, tb := BitVec.ofNat 32 t }).done i o

/-- BREAD (R423); it reads after the cycle's completion test (R424). -/
def execBread (o : Op) (s : State) : Out :=
  splitScope o s fun i =>
    let s := s.barClose i.g.wg (opndB o.a)
    (s.modSplit i.who (·.write o.d 2 (s.myBar i (opndB o.a)).word.toNat)).done i o

/-- PMREAD (R423, R426); it reads after the cycle's completion test. -/
def execPmread (o : Op) (s : State) : Out :=
  splitScope o s fun i =>
    let s := s.barClose i.g.wg (opndB o.a)
    let b := s.myBar i (opndB o.a)
    let v := scalar32 i.sp o.b
    let age := v % 4
    let mem := v / 4 % 32
    if 16 < mem || 128 ≤ v then s.raiseAll i (illop9 4)
    else (s.modSplit i.who (·.write o.d 1 (b.post.getD ((b.phase.toNat + 4 - age) % 4 * 17 + mem) 0xFFFF#16).toNat)).done i o

/-- Key of an LPDDR6 channel's counter: behind the 512 pseudo-channels' (R417). -/
def lpCounter (idx : Nat) : Nat := 4096 + idx

/-- M of a scheduler (R76, R384). -/
def Core.mOf (k : Core) (sched : Nat) : Nat := if k.fix then k.mmax.toNat else (k.m.getD sched 16#5).toNat

/-- The CNTCFG word (R437). -/
def State.cntcfg (s : State) : Nat := (if s.ulock then 4 else 0) + if s.freeze then 1 else 0

/-- Where a core keeps the count of a scheduler's issue cycles that are over: cycles in which an instruction, or its second gang's half,
issued (R11). -/
def busyKey (sched : Nat) : Nat := 8 * sched + 1

/-- A core event counter (R436): the cycles with no issue are the cycles passed that were none of the scheduler's issue cycles. -/
def State.coreCounter (s : State) (core idx : Nat) : Nat :=
  let k := s.core core
  match idx % 8 with
  | 1 => (s.clock.toNat + 2 ^ 48 - (k.ev.get (busyKey (idx / 8))).toNat) % 2 ^ 48
  | 4 => k.mOf (idx / 8)
  | _ => (k.ev.get idx).toNat

/-- The counter that a selector names, or why it is refused (R435). -/
def State.counter (s : State) (i : Iss) (sel : Nat) : Except Bad Nat :=
  let idx := sel % 4096
  let locked : Bool := !s.ulock && i.sp.priv == 0
  let bad : Bad := illop9 5
  if 65536 ≤ sel then .error bad
  else match sel / 4096 with
  | 0 => if idx < 32 && idx % 8 < 6 then .ok (s.coreCounter i.core idx) else .error bad
  | 1 => if idx < 64 then .ok ((s.core i.core).lls.get idx).toNat else .error bad
  | 2 => if 6 ≤ idx % 8 then .error bad else if locked then .error (levelBad false 1 0) else .ok (s.chan.get idx).toNat
  | 3 => if 256 ≤ idx || 6 ≤ idx % 8 then .error bad else if locked then .error (levelBad false 1 0) else .ok (s.chan.get (lpCounter idx)).toNat
  | 15 => if idx == 0 then .ok s.cntcfg else .error bad
  | _ => .error bad

/-- CNTRD (R434, R435). -/
def execCntrd (o : Op) (s : State) : Out :=
  splitScope o s fun i => match s.counter i (scalar32 i.sp o.b) with
    | .error b => s.raiseAll i b
    | .ok v => (s.modSplit i.who (·.write o.d 2 v)).done i o

/-- A write of the CNTCFG word (R437). -/
def State.setCntcfg (s : State) (v : Nat) : State :=
  { s with ulock := tb v 2, freeze := tb v 0, chan := if tb v 1 then [] else s.chan }

/-- CNTCFG needs level G (R434). -/
def cntcfgRun (o : Op) (s : State) : Out :=
  splitScope o s fun i =>
    if i.sp.priv == 0 then s.raiseAll i (levelBad true 1 0) else (s.setCntcfg (scalar32 i.sp o.b)).done i o

/-- CNTCFG (R434, R437). -/
def execCntcfg (o : Op) (s : State) : Out := cntcfgRun o s

/-- CNTCFG with CLEAR (R437). -/
def execCntcfgClear (o : Op) (s : State) : Out := cntcfgRun o s

/-- The place of a device barrier, with the checks of R428: alignment, translation, and for DBARV the claim. -/
def State.dbarAt (s : State) (i : Iss) (acc : Acc) (a : Nat) : State × Except Bad Xl :=
  if a % 64 != 0 then (s, .error (memBad .align 1 acc a))
  else match s.gx i acc (acc == .atomic) a with
  | (s, .error b) => (s, .error b)
  | (s, .ok t) => match s.badGran t.place 64 with
    | some (g, c) => (s.markRead t.place 64, .error (memBad .dataerr c acc (a + (g * 32 - t.place))))
    | none => (s, .ok t)

/-- A sector of an object holds an entry in flight of the group (R276). -/
def State.dbarHeld (s : State) (i : Iss) (t : Xl) : Bool :=
  let sector := s.sectorPA t.leaf t.place
  s.sinkBusy i.core (i.who.key % 64) sector || s.sinkBusy i.core (i.who.key % 64) (sector + 1)

/-- A device barrier's fields (R427). -/
structure DevBar where
  expect : Nat
  arrived : Nat
  phase : Nat
  ctl : Nat
  lagth : Nat
  first : Nat
  post : Nat
  deriving DecidableEq, Repr

/-- Read a device barrier. -/
def State.devBar (s : State) (p : Nat) : DevBar :=
  ⟨s.rd p 4, s.rd (p + 4) 4, s.rd (p + 8) 2, s.rd (p + 10) 1, s.rd (p + 11) 1, s.rd (p + 12) 4, s.rd (p + 16) 48⟩

/-- The bytes of a device barrier. -/
def DevBar.bytes (b : DevBar) : List Byte :=
  toBytes 4 b.expect ++ toBytes 4 b.arrived ++ toBytes 2 b.phase ++ toBytes 1 b.ctl ++ toBytes 1 b.lagth ++ toBytes 4 b.first ++ toBytes 48 b.post

/-- Entry of row r and die k in POST. -/
def postAt (post r k : Nat) : Nat := post / 2 ^ (12 * (4 * r + k)) % 4096
/-- POST with another entry. -/
def postSet (post r k v : Nat) : Nat := post - postAt post r k * 2 ^ (12 * (4 * r + k)) + v * 2 ^ (12 * (4 * r + k))

/-- A device barrier after one arrival from a die at a CLOCK[41:10] (R428); the flag says that the phase completed. -/
def DevBar.arrive (b : DevBar) (now die : Nat) : DevBar × Bool :=
  let r := b.phase % 8
  let b := if b.arrived != 0 then b else { b with first := now, post := (List.range 4).foldl (fun p k => postSet p r k 0) b.post }
  let e : Int := max (postAt b.post r die : Int) (min (1 + (now : Int) - b.first) 0xFFF)
  let b := { b with post := postSet b.post r die e.toNat, arrived := b.arrived + 1 }
  if b.arrived == b.expect then ({ b with arrived := 0, phase := (b.phase + 1) % 65536 }, true) else (b, false)

/-- Did a die arrive last in a row (R429)? -/
def arrivedLast (post lagth r k : Nat) : Bool :=
  let es := (List.range 4).map (postAt post r)
  let nz := sortAsc (es.filter (· != 0))
  let e := es.getD k 0
  2 ≤ nz.length && ((List.range 4).all fun j => j == k || es.getD j 0 < e) && nz.getD ((nz.length - 1) / 2) 0 + lagth < e

/-- Is a die lagging (R429)? -/
def lagging (post lagth k : Nat) : Bool := 6 ≤ ((List.range 8).filter fun r => arrivedLast post lagth r k).length

/-- The Queued tiles of lagging dies become Stealable (R429). -/
def State.lagDetect (s : State) (launch : Nat) (b : DevBar) : State :=
  s.modLaunch launch fun l => { l with shares := l.shares.map fun e => (e.1, if lagging b.post b.lagth e.1 then { e.2 with steal := true } else e.2) }

/-- DBARV (R428). -/
def execDbarv (o : Op) (s : State) : Out :=
  splitScope o s fun i =>
    let a := scalar64 i.sp o.a
    match s.dbarAt i .atomic a with
    | (s, .error b) => s.raiseAll i b
    | (s, .ok t) =>
      let b := s.devBar t.place
      if s.dbarHeld i t then s.stall i
      else if b.expect == 0 || b.expect ≤ b.arrived || 2 ≤ b.ctl then s.raiseAll i (illop9 6)
      else
        let r := b.arrive (s.clock.toNat / 1024 % 2 ^ 32) (dieOf i.core)
        let s := s.wr t.place r.1.bytes
        let s := (s.levelTouch i t.path 1 (t.place / 32) true).levelTouch i t.path 1 (t.place / 32 + 1) true
        let s := if r.2 && b.ctl == 1 then s.lagDetect (s.wgOf i.g).launch r.1 else s
        (s.modSplit i.who (·.write o.d 1 b.phase)).done i o

/-- DBWAIT (R428): it waits while the object's PHASE is the one given; under RTE after a time-out, on the same object and phase (R425). -/
def execDbwait (o : Op) (s : State) : Out :=
  splitScope o s fun i =>
    let w := i.sp.resumedDbar.getD (BitVec.ofNat 64 (scalar64 i.sp o.a), BitVec.ofNat 16 (scalar32 i.sp o.b))
    match s.dbarAt i .read w.1.toNat with
    | (s, .error b) => s.raiseAll i b
    | (s, .ok t) =>
      if s.dbarHeld i t then s.stall i
      else
        let s := s.levelTouch i t.path 1 (t.place / 32) false
        if (s.devBar t.place).phase != w.2.toNat then (s.modSplit i.who Split.forget).done i o
        else s.modSplit i.who fun y => { y.forget with wait := .dbar w.1 w.2 s.clock }

/-- The split, its group and place, of a key and number. -/
def State.issAt (s : State) (w : Who) : Option Iss := ({ s with cur := some w } : State).iss?

/-- DBWAIT_REREAD: a waiting split reads its object again (R428); a read that faults raises the fault at the waiting instruction. -/
def State.dbwaitReread (s : State) (w : Who) : State :=
  match s.issAt w with
  | none => s
  | some i => match i.sp.wait with
    | .dbar a p _ => match s.dbarAt i .read a.toNat with
      | (s, .error b) => s.raiseAll (s.again i) b
      | (s, .ok t) =>
        if s.dbarHeld i t then s
        else
          let s := s.levelTouch i t.path 1 (t.place / 32) false
          if (s.devBar t.place).phase != p.toNat then (s.modSplit w (·.adv waitUnits)) else s
    | _ => s

/-- DBWAIT_REREAD (R428). -/
def execDbwaitReread (key split : Nat) (s : State) : Out := .next (s.dbwaitReread ⟨key, split⟩)

/-- Cycles of BARTO (R35). -/
def Params.bartoCycles (p : Params) : Nat := if p.barto == 0 then 2 ^ 20 else 1024 * p.barto.toNat

/-- Has a wait that began at a cycle lasted BARTO? -/
def State.expired (s : State) (p : Params) (since : DWord) : Bool := p.bartoCycles ≤ (s.clock - since).toNat

/-- The member groups that have not arrived at a barrier register (R425). -/
def BarReg.missing (b : BarReg) (groups : Nat) : List Nat :=
  (List.range groups).filter fun g => !b.left.getLsbD g && !b.who.getLsbD g

/-- The record of a time-out at barrier register n (R425). -/
def State.barRecord (s : State) (i : Iss) (n : Nat) : TrapRec :=
  let w := s.wgOf i.g
  let b := w.bar n
  let miss := b.missing w.par.groups
  let engine := b.tb != 0 || (b.expected - b.arrived).toNat > miss.length
  i.record { cause := .bartimeout,
             addr := BitVec.ofNat 64 (match miss with
               | [] => 0
               | g :: _ => s.groupPc i.g.wg g),
             aux := BitVec.ofNat 32 (1 + 16 * n + (if engine then 2 ^ 15 else 0) + 2 ^ 16 * (maskOf 16 miss).toNat) } (liveLanes i.g i.sp)

/-- The barrier of a split's wait, brought up to date: a phase that this cycle's arrivals complete ends the wait first. -/
def State.waitSettled (s : State) (w : Who) : State :=
  match s.issAt w with
  | none => s
  | some i => match i.sp.wait with
    | .barrier b _ _ => s.barClose i.g.wg b.toNat
    | _ => s

/-- BARTIMEOUT of a barrier wait (R425). -/
def State.bartimeout (s : State) (w : Who) : State :=
  let s := s.waitSettled w
  match s.issAt w with
  | none => s
  | some i => match i.sp.wait with
    | .barrier b _ since =>
      if !s.expired (s.wgOf i.g).par since then s
      else (s.modSplit w fun y => { y with timedOut := (i.sp.pc, i.sp.wait) :: y.timedOut }).deliver w (s.barRecord i b.toNat)
    | .dbar a _ since =>
      if !s.expired (s.wgOf i.g).par since then s
      else (s.modSplit w fun y => { y with timedOut := (i.sp.pc, i.sp.wait) :: y.timedOut }).deliver w (i.record { cause := .bartimeout, addr := a, aux := 4 } (liveLanes i.g i.sp))
    | _ => s

/-- BARTIMEOUT (R425). -/
def execBartimeout (key split : Nat) (s : State) : Out := .next (s.bartimeout ⟨key, split⟩)

/-- The splits that have arrived at a REGANG or REFILL and wait there. -/
def arrivedAt (g : Group) (pc : BitVec 50) : List Split := g.splits.filter fun y => y.pc == pc && match y.wait with
  | .gather _ => true
  | _ => false

/-- Has the gathering at an address timed out, and the time-out not been delivered (R378)? -/
def State.gatherExpired (s : State) (g : Group) (pc : BitVec 50) : Bool :=
  (arrivedAt g pc).any fun y => match y.wait with
    | .gather (some t) => s.expired (s.wgOf g).par t
    | _ => false

/-- GATHER_TIMEOUT (R378): BARTIMEOUT to the lowest split that has arrived; the others wait on. -/
def State.gatherTimeout (s : State) (key : Nat) (pc : BitVec 50) : State :=
  match s.groups.get? key with
  | none => s
  | some g =>
    let late := g.splits.filter fun y => !(arrivedAt g pc).contains y
    match leastBy (fun (y : Split) => [y.id]) (arrivedAt g pc), leastBy (fun (y : Split) => [y.id]) late with
    | some x, some y =>
      if !s.gatherExpired g pc then s
      else
        let i : Iss := ⟨⟨key, x.id⟩, g, x⟩
        let code := match (s.reach i).2 with
          | .ok (.refill _) _ => 3
          | _ => 2
        let r := i.record { cause := .bartimeout, addr := BitVec.ofNat 64 ((s.pastPads ⟨⟨key, y.id⟩, g, y⟩ allBlocks y.pc).toNat * 4),
                            aux := BitVec.ofNat 32 (code + 2 ^ 16 * (late.foldl (fun m (z : Split) => m ||| z.slices) 0).toNat) } (liveLanes g x)
        (s.modGroup key fun g => { g with splits := g.splits.map fun z =>
          if !((arrivedAt g pc).contains z) then z
          else if z.id == x.id then { z with wait := .gather none, timedOut := (pc, .gather none) :: z.timedOut }
          else { z with wait := .gather none } }).deliver i.who r
    | _, _ => s

/-- GATHER_TIMEOUT (R378). -/
def execGatherTimeout (key : Nat) (pc : BitVec 50) (s : State) : Out := .next (s.gatherTimeout key pc)

/-- Completed throttle epochs of a scheduler (R436). -/
def Core.epochs (k : Core) (sched : Nat) : Nat := (k.ev.get (8 * sched + 5)).toNat

/-- Has a scheduler an epoch to complete (R386)? -/
def State.epochDue (s : State) (core sched : Nat) : Bool := (s.core core).epochs sched < s.clock.toNat / 1024 % 2 ^ 48

/-- M after an epoch of a score (R386). -/
def nextM (m lo hi score : Nat) : Nat := if 4 * m < score then max lo (m - 1) else if score < m then min hi (m + 1) else m

/-- The end of a scheduler's epoch (R386). -/
def State.throttleEpoch (s : State) (core sched : Nat) : State :=
  if 4 ≤ sched || !s.epochDue core sched then s
  else s.modCore core fun k =>
    let k := { k with ev := k.ev.set (8 * sched + 5) (k.ev.get (8 * sched + 5) + 1) }
    if k.fix then k
    else
      let slots := (List.range 16).map fun j => 4 * j + sched
      let held := slots.filter fun t => (s.groups.get? (64 * core + t)).isSome
      let score := (held.map fun t => (k.lls.get t).toNat).sum
      { k with m := setAt k.m sched (BitVec.ofNat 5 (nextM (k.m.getD sched 16#5).toNat k.mmin.toNat k.mmax.toNat score)),
               lls := slots.foldl (fun l t => l.set t (l.get t >>> 1)) k.lls }

/-- THROTTLE_EPOCH (R386). -/
def execThrottleEpoch (core sched : Nat) (s : State) : Out := .next (s.throttleEpoch core sched)

end Sys2Proof.Machine
end

