-- ==== Sys2Proof/Machine/System.lean ====
section
/-! DEFINITION. The system instructions (R74 to R92, R400, R401), the context switch apart. -/
namespace Sys2Proof.Machine

/-- FMTSET's new value, or none where B is refused (R82). -/
def fmtNew (fn : Nat) (fmt b : Word) : Option Word :=
  let n := match fn with
    | 0 => b
    | 1 => fmt ||| b
    | 2 => fmt &&& ~~~b
    | _ => (fmt &&& ~~~0x1C00#32) ||| (b <<< 10 &&& 0x1C00#32)
  if (fn == 3 && 8 ≤ b.toNat) || !fmtLegal n then none else some n

/-- FMTSET (R82). -/
def execFmtset (o : Op) (s : State) : Out :=
  splitScope o s fun i => match fmtNew o.fn.toNat i.sp.fmt (BitVec.ofNat 32 (scalar32 i.sp o.b)) with
    | none => s.raiseAll i illop9
    | some n => (s.modSplit i.who fun y => { y with fmt := n }).done i o

/-- FMTGET (R83). -/
def execFmtget (o : Op) (s : State) : Out :=
  splitScope o s fun i => (s.modSplit i.who (·.write o.d 1 i.sp.fmt.toNat)).done i o

/-- The system registers (R75). -/
inductive SysReg where
  | workid | laneage | laneid | groupid | wgid | core | die | splitid | priv | flags | rcpt | clock | trapcause | trappc | trapaddr
  | traplanes | trapshadow | trapaux | tpriv | towner | carve | throttle | carvelim | ctxid | acceptedSeq | completedSeq
  deriving DecidableEq, Repr

/-- The register at an index (R75). -/
def SysReg.ofIdx : Nat → Option SysReg
  | 0x000 => some .workid | 0x002 => some .laneage | 0x003 => some .laneid | 0x004 => some .groupid | 0x005 => some .wgid
  | 0x006 => some .core | 0x007 => some .die | 0x008 => some .splitid | 0x009 => some .priv | 0x010 => some .flags | 0x011 => some .rcpt
  | 0x018 => some .clock | 0x020 => some .trapcause | 0x021 => some .trappc | 0x022 => some .trapaddr | 0x023 => some .traplanes
  | 0x024 => some .trapshadow | 0x025 => some .trapaux | 0x026 => some .tpriv | 0x027 => some .towner | 0x030 => some .carve
  | 0x040 => some .throttle | 0x100 => some .carvelim | 0x101 => some .ctxid | 0x180 => some .acceptedSeq | 0x181 => some .completedSeq
  | _ => none

/-- Is the register wider than 32 bits (R84)? -/
def SysReg.wide : SysReg → Bool
  | .workid | .wgid | .clock | .trappc | .trapaddr | .traplanes | .acceptedSeq | .completedSeq => true
  | _ => false

/-- The level that a read needs: 0 U, 1 G, 2 H (R75). -/
def SysReg.readLevel : SysReg → Nat
  | .throttle => 1
  | .carvelim | .ctxid => 2
  | _ => 0

/-- The level that a write needs; none for a register that is not written (R75). -/
def SysReg.writeLevel : SysReg → Option Nat
  | .flags | .trapcause | .trappc | .trapaddr | .traplanes | .trapshadow | .trapaux | .tpriv => some 0
  | .carve | .throttle => some 1
  | .carvelim | .ctxid => some 2
  | _ => none

/-- Has the register a value for each lane (R75)? -/
def SysReg.perLane : SysReg → Bool
  | .workid | .laneage | .laneid | .wgid | .rcpt => true
  | _ => false

/-- The ILLOP of a system register (R86). -/
def sysIllop (idx : Nat) : Bad := { cause := .illop, aux := BitVec.ofNat 32 (9 + 2 ^ 20 * idx) }

/-- Index and upper bits of the second word (R81). -/
def sysIdx (x : Op) : Nat × Nat := match x.ext with
  | .sys idx hi => (idx.toNat, hi.toNat)
  | _ => (0, 0)

/-- The register that SYSRD or SYSWR names, with the checks of R84 to R86: the register and its type before the level. -/
def sysReg (x : Op) (write : Bool) (priv : BitVec 2) : Except Bad SysReg :=
  let (idx, hi) := sysIdx x
  match SysReg.ofIdx idx with
  | none => .error (sysIllop idx)
  | some r =>
    if hi != 0 || (x.ty == 0x0D#6) != r.wide then .error (sysIllop idx)
    else match if write then r.writeLevel else some r.readLevel with
    | none => .error (sysIllop idx)
    | some need => if priv.toNat < need then .error (levelBad write need idx) else .ok r

/-- A lane's value of a per-lane register (R75). -/
def SysReg.laneVal (r : SysReg) (ln : Lane) (l : Nat) : Nat :=
  match r with
  | .workid => ln.workid.toNat
  | .laneage => ln.age.toNat
  | .laneid => l
  | .wgid => ln.wgid.toNat
  | _ => ln.rcpt.toNat

/-- CARVE as it reads (R76). -/
def Core.carveWord (k : Core) : Nat := (if k.carvePend then 16 else 0) + k.carve.toNat
/-- THROTTLE as it reads (R76). -/
def Core.throttleWord (k : Core) : Nat := (if k.fix then 2 ^ 16 else 0) + 256 * k.mmax.toNat + k.mmin.toNat

/-- The value of a register that is the same for every lane; CLOCK has its own read (R75). -/
def State.sysVal (s : State) (i : Iss) (r : SysReg) : Nat :=
  let k := s.core i.core
  let p := s.part (s.wgOf i.g).part
  match r with
  | .groupid => i.g.gid.toNat
  | .core => i.core
  | .die => dieOf i.core
  | .splitid => i.sp.id
  | .priv => i.sp.priv.toNat
  | .flags => i.sp.flags.toNat
  | .trapcause => i.g.trap.cause.toNat
  | .trappc => i.g.trap.pc.toNat
  | .trapaddr => i.g.trap.addr.toNat
  | .traplanes => i.g.trap.lanes.toNat
  | .trapshadow => i.g.trap.shadow.toNat
  | .trapaux => i.g.trap.aux.toNat
  | .tpriv => i.g.tpriv.toNat
  | .towner => i.g.towner.toNat
  | .carve => k.carveWord
  | .throttle => k.throttleWord
  | .carvelim => 16 * k.lmax.toNat + k.lmin.toNat
  | .ctxid => k.ctxid.toNat
  | .acceptedSeq => p.accepted.toNat
  | .completedSeq => p.completed.toNat
  | _ => 0

/-- A core's copy of the time counter in a cycle: within 4 cycles of the counter, and never less than it was in an earlier cycle (R80). -/
def clockCopy (core now : Nat) : Nat :=
  (List.range 9).foldl (fun v k => max v (now - k + Config.clockSkew core (now - k) % 9 - 4)) 0

/-- CLOCK as a split reads it: its core's copy, and never less than the split has read (R80). -/
def State.clockVal (s : State) (i : Iss) : Nat := max i.sp.lastClock.toNat (clockCopy i.core s.clock.toNat)

/-- A split has read CLOCK. -/
def State.clockRead (s : State) (i : Iss) (v : Nat) : State := s.modSplit i.who fun y => { y with lastClock := BitVec.ofNat 64 v }

/-- Does the split wait for an earlier instruction that can raise flags (R84)? -/
def flagsPending (g : Group) (x : Split) : Bool :=
  (g.results.any fun r => r.slices &&& x.slices != 0) || g.mops.any fun m => (m.kind == .mma || m.kind == .mmaz) && m.slices &&& x.slices != 0

/-- Registers of SYSRD's destination. -/
def sysN (x : Op) : Nat := if x.ty == 0x0D#6 then 2 else 1

/-- SYSRD's write: each active lane, or the split's scalar (R84). -/
def State.sysWriteD (s : State) (i : Iss) (x : Op) (ls : List Nat) (v : Nat → Nat) : State :=
  if x.scalarD then s.modSplit i.who (·.write x.d (sysN x) (v (lowLane i.g i.sp)))
  else s.modGroup i.who.key fun g => g.modLanes ls fun l ln => ln.write x.d (sysN x) (v l) false

/-- SYSRD (R84): lane-scope with a vector destination, split-scope with a scalar one. -/
def execSysrd (o : Op) (s : State) : Out :=
  issue s fun i =>
    let ls := if o.scalarD then (if splitGuard i.g i.sp o then liveLanes i.g i.sp else []) else activeLanes i.g i.sp o
    if ls == [] then s.done i o
    else match sysReg o false i.sp.priv with
    | .error b => s.raise i b ls
    | .ok r =>
      if r == .flags && flagsPending i.g i.sp then s.stall i
      else if r == .clock then
        let v := s.clockVal i
        ((s.clockRead i v).sysWriteD i o ls fun _ => v).done i o
      else (s.sysWriteD i o ls fun l => if r.perLane then r.laneVal (i.g.lane l) l else s.sysVal i r).done i o

/-- Operand A of SYSWR (R85). -/
def sysArg (x : Op) (sp : Split) : Nat := readOpnd sp {} (.int (if x.ty == 0x0D#6 then 64 else 32)) x.a

/-- SYSWR with the checks of R85 and R86, then the register's own write; a write that gives none refuses the value. -/
def sysWrite (o : Op) (s : State) (f : Iss → SysReg → Nat → Option State) : Out :=
  splitScope o s fun i => match sysReg o true i.sp.priv with
    | .error b => s.raiseAll i b
    | .ok r => match f i r (sysArg o i.sp) with
      | none => s.raiseAll i (sysIllop (sysIdx o).1)
      | some s => s.done i o

/-- A write of TRAPCAUSE (R406): a handler that clears it sets its trap aside, and one that writes a cause back takes the trap up again
(log 100). -/
def Group.setCause (g : Group) (v : BitVec 8) : Group :=
  let aside := if g.trap.cause != 0 && v == 0 then g.aside + 1 else if g.trap.cause == 0 && v != 0 then g.aside - 1 else g.aside
  { g with trap := { g.trap with cause := v }, aside := aside }

/-- A write of FLAGS or of a trap register; TPRIV above the split's own level is refused (R72, R75). -/
def State.setGroupReg (s : State) (i : Iss) (r : SysReg) (v : Nat) : Option State :=
  let trap (f : TrapRec → TrapRec) : Option State := some (s.modGroup i.who.key fun g => { g with trap := f g.trap })
  match r with
  | .flags => some (s.modSplit i.who fun y => { y with flags := BitVec.ofNat 5 v })
  | .trapcause => some (s.modGroup i.who.key (·.setCause (BitVec.ofNat 8 v)))
  | .trappc => trap fun t => { t with pc := BitVec.ofNat 64 v }
  | .trapaddr => trap fun t => { t with addr := BitVec.ofNat 64 v }
  | .traplanes => trap fun t => { t with lanes := BitVec.ofNat 64 v }
  | .trapshadow => trap fun t => { t with shadow := BitVec.ofNat 4 v }
  | .trapaux => trap fun t => { t with aux := BitVec.ofNat 32 v }
  | .tpriv => if i.sp.priv.toNat < v % 4 then none else some (s.modGroup i.who.key fun g => { g with tpriv := BitVec.ofNat 2 v })
  | _ => none

/-- CARVE's request (R77). -/
def Core.askCarve (k : Core) (l1 : Nat) : Core := { k with carvePend := true, carveReq := BitVec.ofNat 4 l1 }

/-- CARVE (R77). -/
def State.setCarve (s : State) (i : Iss) (v : Nat) : Option State :=
  let k := s.core i.core
  if v % 16 < k.lmin.toNat || k.lmax.toNat < v % 16 then none else some (s.modCore i.core (·.askCarve (v % 16)))

/-- THROTTLE on a core (R78, R386): M is clamped at once. -/
def Core.setThrottle (k : Core) (v : Nat) : Option Core :=
  let lo := fld v 4 0
  let hi := fld v 12 8
  if lo < 2 || 16 < hi || hi < lo then none
  else some { k with mmin := BitVec.ofNat 5 lo, mmax := BitVec.ofNat 5 hi, fix := tb v 16,
                     m := k.m.map fun x => BitVec.ofNat 5 (min hi (max lo x.toNat)) }

/-- CARVELIM on a core (R77, R78): a carve in force outside the new limits becomes a request for the nearest. -/
def Core.setCarvelim (k : Core) (v : Nat) : Option Core :=
  let lo := fld v 3 0
  let hi := fld v 7 4
  if lo == 0 || 8 < hi || hi < lo then none
  else
    let k := { k with lmin := BitVec.ofNat 4 lo, lmax := BitVec.ofNat 4 hi }
    some (if k.carve.toNat < lo then k.askCarve lo else if hi < k.carve.toNat then k.askCarve hi else k)

/-- Has a core a resident group? -/
def State.resident (s : State) (core : Nat) : Bool := s.groups.any fun e => e.1 / 64 == core

/-- Is the purge of a context identifier in progress: a retire command that takes it from generation 15 to 0 (R201, R202)? -/
def State.purging (s : State) (id : Nat) : Bool := s.gens.get id == 15#4 && s.retire.any fun e => e.2.toNat == id

/-- CTXID on a core (R78, R201). -/
def State.setCtxid (s : State) (core v : Nat) : Option State :=
  let id := v % 4096
  if s.resident core || fld v 15 12 != (s.gens.get id).toNat || s.purging id then none
  else some (s.modCore core fun k => { k with ctxid := BitVec.ofNat 16 v })

/-- SYSWR of a register that is none of the core's own (R85). -/
def execSyswr (o : Op) (s : State) : Out := sysWrite o s fun i r v => match r with
  | .carve => s.setCarve i v
  | .throttle => ((s.core i.core).setThrottle v).map fun k => s.modCore i.core fun _ => k
  | .carvelim => ((s.core i.core).setCarvelim v).map fun k => s.modCore i.core fun _ => k
  | .ctxid => s.setCtxid i.core v
  | r => s.setGroupReg i r v

/-- SYSWR of CARVE (R76, R77). -/
def execCarveWrite (o : Op) (s : State) : Out := sysWrite o s fun i r v => if r == .carve then s.setCarve i v else s.setGroupReg i r v

/-- SYSWR of THROTTLE (R76, R78, R386). -/
def execThrottleWrite (o : Op) (s : State) : Out := sysWrite o s fun i r v =>
  if r == .throttle then ((s.core i.core).setThrottle v).map fun k => s.modCore i.core fun _ => k else s.setGroupReg i r v

/-- SYSWR of CARVELIM (R76 to R78). -/
def execCarvelimWrite (o : Op) (s : State) : Out := sysWrite o s fun i r v =>
  if r == .carvelim then ((s.core i.core).setCarvelim v).map fun k => s.modCore i.core fun _ => k else s.setGroupReg i r v

/-- SYSWR of CTXID (R76, R78, R201): the group that executes it is resident, so that it is refused. -/
def execCtxidWrite (o : Op) (s : State) : Out := sysWrite o s fun i r v => if r == .ctxid then s.setCtxid i.core v else s.setGroupReg i r v

/-- A trap that an instruction takes as its effect: SWTRAP and BREAK (R87, R88). -/
def State.takeTrap (s : State) (i : Iss) (c : Cause) (pc : BitVec 50) (aux : Nat) : State :=
  if i.sp.pend.isSome then s.stall i
  else s.deliver i.who { cause := c.code, pc := pc.setWidth 64, lanes := laneMask (liveLanes i.g i.sp), aux := BitVec.ofNat 32 aux }

/-- TRAP (R87). -/
def execTrap (o : Op) (s : State) : Out :=
  splitScope o s fun i => s.takeTrap i .swtrap (s.nextPc i (opUnits o)) (scalar32 i.sp o.a % 256)

/-- BRK (R88). -/
def execBrk (o : Op) (s : State) : Out := splitScope o s fun i => s.takeTrap i .brk i.sp.pc (scalar32 i.sp o.a % 256)

/-- RTE (R89, R404). -/
def execRte (o : Op) (s : State) : Out :=
  splitScope o s fun i =>
    if i.g.trap.cause == 0 then s.raiseAll i illop9
    else if i.sp.id != i.g.towner.toNat then s.raiseAll i (illop9 1)
    else s.rte i

/-- Has every earlier instruction of the split completed, copies apart (R90)? -/
def drainedFor (g : Group) (x : Split) : Bool :=
  x.pend.isNone && (g.results.all fun r => r.slices &&& x.slices == 0) && g.mops.all fun m => m.slices &&& x.slices == 0

/-- CLK (R90). -/
def execClk (o : Op) (s : State) : Out :=
  splitScope o s fun i =>
    if o.fn == 1 && !drainedFor i.g i.sp then s.stall i
    else
      let v := s.clockVal i
      ((s.clockRead i v).modSplit i.who (·.write o.d 2 v)).done i o

/-- The path mask: is a lane covered by the current path of its slice (R73)? -/
def onPath (g : Group) (l : Nat) : Bool :=
  match (g.stack (l / 4)).head? with
  | none => true
  | some e => (if e.phase then e.tmask else e.fmask).getLsbD (l % 4)

/-- EXMSET (R91). -/
def execExmset (o : Op) (s : State) : Out :=
  splitScope o s fun i =>
    let b := BitVec.ofNat 64 (scalar64 i.sp o.b)
    (s.modGroup i.who.key fun g => g.modLanes (liveLanes i.g i.sp) fun l ln => { ln with exm := b.getLsbD l && onPath i.g l }).done i o

/-- EXMGET (R92). -/
def execExmget (o : Op) (s : State) : Out :=
  splitScope o s fun i => (s.modSplit i.who (·.write o.d 2 (laneMask (exmLanes i.g i.sp)).toNat)).done i o

/-- Does an entry for a page at a level overlap [va, va + len)? -/
def pageMeets (va len page level : Nat) : Bool :=
  page * 2 ^ pageBits level < va + len && va < (page + 1) * 2 ^ pageBits level && 0 < len

/-- Has a core a SINK pending whose anchors and receipts go by translations made at its issue (R269)? -/
def State.sinksPending (s : State) (core : Nat) : Bool :=
  s.groups.any fun e => e.1 / 64 == core && e.2.splits.any fun x => match x.pend with
    | some p => p.opc == .sink && s.inEpoch core p.epoch && p.sink.any fun a => match a.2 with
        | .returned | .failed _ => false
        | _ => true
    | none => false

/-- TLBINV (R401): the level, the operand's check, the wait for copies and sunk groups that hold translations of the context, and what is
dropped; every other access translates when it is performed. -/
def tlbinv (o : Op) (s : State) (level : Nat) (bad : Split → Bool) (ctxs : Iss → BitVec 16 → Bool) (p : Iss → BitVec 16 → Nat → Nat → Bool) : Out :=
  splitScope o s fun i =>
    if i.sp.priv.toNat < level then s.raiseAll i (levelBad true level 0)
    else if bad i.sp then s.raiseAll i illop9
    else if (s.copies.any fun (c : CopyOp) => ctxs i (s.ctxOf c.core) && s.inEpoch c.core c.epoch) || (s.cores.any fun e => ctxs i e.2.ctxid && s.sinksPending e.1) then s.stall i
    else (s.dropTlb (p i)).done i o

/-- TLBINV of a VA (R400, R401). -/
def execTlbinvVa (o : Op) (s : State) : Out :=
  tlbinv o s 1 (fun sp => 2 ^ 52 ≤ scalar64 sp o.a) (fun i c => c == s.ctxOf i.core) fun i c page level =>
    c == s.ctxOf i.core && page == scalar64 i.sp o.a / 2 ^ pageBits level

/-- TLBINV of a range (R400, R401); a length of 0 drops nothing. -/
def execTlbinvRange (o : Op) (s : State) : Out :=
  tlbinv o s 1 (fun sp => 2 ^ 52 ≤ scalar64 sp o.a) (fun i c => c == s.ctxOf i.core && scalar32 i.sp o.b != 0) fun i c page level =>
    c == s.ctxOf i.core && pageMeets (scalar64 i.sp o.a) (scalar32 i.sp o.b) page level

/-- TLBINV of the issuing context (R400, R401). -/
def execTlbinvCtx (o : Op) (s : State) : Out :=
  tlbinv o s 1 (fun _ => false) (fun i c => c == s.ctxOf i.core) fun i c _ _ => c == s.ctxOf i.core

/-- TLBINV of an identifier, of every generation (R400, R401). -/
def execTlbinvId (o : Op) (s : State) : Out :=
  tlbinv o s 2 (fun sp => 4096 ≤ scalar32 sp o.b) (fun i c => c.toNat % 4096 == scalar32 i.sp o.b) fun i c _ _ => c.toNat % 4096 == scalar32 i.sp o.b

end Sys2Proof.Machine
end

