-- ==== Sys2Proof/Machine/Tasks.lean ====
section
/-! DEFINITION. The task instructions (R351 to R359). -/
namespace Sys2Proof.Machine

/-- Reach an envelope, with the checks of R357: alignment, translation with R and W, and readable granules. -/
def State.envAt (s : State) (i : Iss) (a : Nat) : State × Except Bad Env :=
  if a % 64 != 0 then (s, .error (memBad .align 1 .atomic a))
  else match s.gx i .atomic false a with
  | (s, .error b) => (s, .error b)
  | (s, .ok t) => match s.badGran t.place 64 with
    | some (g, c) => (s.markRead t.place 64, .error (memBad .dataerr c .atomic (a + (g * 32 - t.place))))
    | none => (s, .ok { place := t.place, addr := BitVec.ofNat 64 a, ctx := s.ctxOf i.core })

/-- The ILLOP sub-code of an envelope that cannot be armed: its ST, then its reserved bits and its CODE and FRAME (R357). -/
def State.envRefused (s : State) (e : Env) : Option Nat :=
  let v := s.envState e
  if stOf v != 0 && stOf v != 4 then some 2
  else if v / 1024 != 0 || fld v 7 3 != 0 || s.rd (e.place + 0x38) 8 != 0 || s.rd e.place 8 % 4 != 0 || s.rd (e.place + 8) 8 % 64 != 0 then some 3
  else none

/-- DEADLINE as it stands. -/
def State.envDeadline (s : State) (e : Env) : DWord := BitVec.ofNat 64 (s.rd (e.place + 0x10) 8)

/-- OWNER is written, and the open-task count rises (R351, R354). -/
def State.envOwn (s : State) (e : Env) (launch : Nat) : State :=
  (s.homeWr e.ctx (e.place + 0x34) (toBytes 4 (launch % 1024))).modLaunch launch fun l => { l with tasks := l.tasks + 1 }

/-- The envelope becomes READY and is enqueued for a die (R353). -/
def State.envReady (s : State) (e : Env) (part die launch : Nat) (deadline : DWord) : State :=
  (s.envSetState e (withSt (s.envState e) 2)).enqueue part die e.addr launch deadline

/-- Does an effect put a reference onto a queue that cannot hold it, every queue being full (R306, R353)? -/
def State.overfills (s after : State) : Bool := after.taskq.any fun e => taskDepth < e.2.length && s.queueLen e.1 < e.2.length

/-- The effect of an instruction that enqueues, or a wait while every queue is full (R353). -/
def State.orWait (s : State) (i : Iss) (after : State) : State := if s.overfills after then s.stall i else after

/-- TSPAWN and TARM after their common check (R357). -/
def armTask (o : Op) (s : State) (k : State → Iss → Env → State) : Out :=
  splitScope o s fun i => match s.envAt i (scalar64 i.sp o.a) with
    | (s, .error b) => s.raiseAll i b
    | (s, .ok e) => match s.envRefused e with
      | some c => s.raiseAll i { illop9 c with addr := e.addr }
      | none => k s i e

/-- TSPAWN (R357). -/
def execTspawn (o : Op) (s : State) : Out :=
  armTask o s fun s i e =>
    let w := s.wgOf i.g
    let die := if o.fn == 1 then (s.part w.part).dies[scalar32 i.sp o.b]? else some (dieOf i.core)
    match die with
    | none => s.raiseAll i { illop9 4 with addr := e.addr }
    | some d => s.orWait i (((s.envOwn e w.launch).envReady e w.part d w.launch (s.envDeadline e)).done i o)

/-- TARM (R357). -/
def execTarm (o : Op) (s : State) : Out :=
  armTask o s fun s i e =>
    let w := s.wgOf i.g
    let s1 := s.envOwn e w.launch
    if s.envJoin e == 0 then s.orWait i ((s1.envReady e w.part (dieOf i.core) w.launch (s.envDeadline e)).done i o)
    else (s1.envSetState e (withSt (s.envState e) 1)).done i o

/-- TDEC (R357). -/
def execTdec (o : Op) (s : State) : Out :=
  splitScope o s fun i => match s.envAt i (scalar64 i.sp o.a) with
    | (s, .error b) => s.raiseAll i b
    | (s, .ok e) => s.orWait i ((s.tdec e (o.fn == 1) (s.wgOf i.g).part (dieOf i.core)).done i o)

/-- TDONE and TYIELD: the group must run a task, drains, and reaches its envelope (R357). -/
def endTask (o : Op) (s : State) (k : State → Iss → Env → State) : Out :=
  splitScope o s fun i => match i.g.task with
    | none => s.raiseAll i (illop9 1)
    | some t =>
      if i.g.undrained then s.stall i
      else match s.envAt i t.env.toNat with
      | (s, .error b) => s.raiseAll i b
      | (s, .ok e) => s.orWait i ((k s i e).retireGroup i.who.key)

/-- TDONE (R357). -/
def execTdone (o : Op) (s : State) : Out :=
  endTask o s fun s i e =>
    let w := s.wgOf i.g
    s.taskComplete e (o.fn == 1) w.part (dieOf i.core) w.launch (s.ctxtOf i.g)

/-- TYIELD (R357). -/
def execTyield (o : Op) (s : State) : Out :=
  endTask o s fun s i e =>
    let w := s.wgOf i.g
    let s := s.homeWr e.ctx e.place (toBytes 8 (s.linkOf i o))
    let s := if o.fn == 1 then s.homeWr e.ctx (e.place + 0x10) (toBytes 8 (scalar64 i.sp o.b)) else s
    s.envReady e w.part (dieOf i.core) w.launch (s.envDeadline e)

end Sys2Proof.Machine
end

