-- ==== Sys2Proof/Machine/Launch.lean ====
section
/-! DEFINITION. Launches: records and their checks (R340 to R345), the launch table, priorities and dependences (R348, R349), completion
records (R346, R347), LAUNCH (R358), the seeding of a task launch (R354), and launches over several devices (R453). -/
namespace Sys2Proof.Machine

/-- The n bytes at an offset of a record, as a number (R2, R344). -/
def recF (r : List Byte) (off n : Nat) : Nat := ofBytes ((r.drop off).take n)

/-- KIND. -/
def recKind (r : List Byte) : Nat := recF r 2 1
/-- WIDTH0 to WIDTH5. -/
def recWidths (r : List Byte) : List Nat := (List.range 6).map fun k => recF r (0x10 + k) 1
/-- The four DEP entries. -/
def recDeps (r : List Byte) : List Nat := (List.range 4).map fun k => recF r (0x40 + 8 * k) 8
/-- VREGS: 0 means 256. -/
def recVregs (r : List Byte) : Nat := if recF r 5 1 == 0 then 256 else recF r 5 1
/-- GWIDTH in lanes. -/
def recWidth (r : List Byte) : Nat := 16 * 2 ^ recF r 4 1

/-- What a record gives its workgroups (R344); a task launch has the identifiers of R355. -/
def recParams (r : List Byte) : Params :=
  let k := recKind r == 0
  { kind := recKind r, width := recWidth r, vregs := recVregs r, localkb := recF r 6 2, entry := BitVec.ofNat 64 (recF r 8 8),
    widths := if k then recWidths r else [6, 0, 0, 0, 0, 0], wglevel := if k then recF r 0x16 1 else 1,
    tilelevel := if k then recF r 0x17 1 else 1, refill := if k then recF r 0x20 1 else 1, items := BitVec.ofNat 64 (recF r 0x18 8),
    producer := BitVec.ofNat 8 (recF r 0x21 1), groups := recF r 0x22 2, privwords := BitVec.ofNat 32 (recF r 0x24 4),
    args := BitVec.ofNat 64 (recF r 0x28 8), traptab := BitVec.ofNat 64 (recF r 0x30 8), targets := BitVec.ofNat 64 (recF r 0x38 8),
    deadline := BitVec.ofNat 64 (recF r 0x68 8), budget := BitVec.ofNat 32 (recF r 0x70 4), barto := BitVec.ofNat 32 (recF r 0x74 4),
    fmtinit := BitVec.ofNat 32 (recF r 0x78 4), devset := BitVec.ofNat 64 (recF r 0x80 8) }

/-- Fields that a record of a KIND must leave zero, FMTINIT apart: offset and size (R344, R345). -/
def recZeros (kind : Nat) : List (Nat × Nat) :=
  (match kind with
   | 0 => [(0x70, 4)]
   | 1 => [(0x08, 8), (0x10, 8), (0x18, 8), (0x20, 1), (0x80, 8)]
   | _ => [(0x04, 0x3C), (0x68, 8), (0x70, 8), (0x80, 8)]) ++ [(0x88, 0x70)]

/-- Bytes of the slot regions of a launch over a number of cores (R204, R302). -/
def poolNeed (p : Params) (cores : Nat) : Nat := cores * 64 * roundUp (64 * p.privwords.toNat * 4) 65536

/-- The largest local store that a core of the partition may be given, in KiB (R14). -/
def State.largestCarve (s : State) (p : Nat) : Nat := 512 - 64 * minD 1 ((s.part p).cores.map fun c => (s.core c).lmin.toNat)

/-- Do widths, levels and ITEMS keep R9 and R10? -/
def levelsOk (p : Params) : Bool :=
  p.widths.sum ≤ 64 && p.items.toNat ≤ 2 ^ p.widths.sum && p.wglevel ≤ p.tilelevel && p.tilelevel ≤ 6 && p.wglevel ≤ p.refill && p.refill ≤ 6

/-- The checks of R345, each with its REASON, in order. -/
def State.recChecks (s : State) (p : Nat) (r : List Byte) (child : Bool) (seq : Nat) : List (Nat × Bool) :=
  let k := recKind r
  let q := recParams r
  let v := recF r 5 1
  let group := k < 2
  [(1, recF r 0 2 != s.versel.toNat % 65536),
   (2, 2 < k),
   (3, (!child && 7 < recF r 3 1) || (group && (2 < recF r 4 1 || (v != 0 && (v < 16 || 248 < v || v % 8 != 0))))),
   (4, ((recZeros k).any fun z => recF r z.1 z.2 != 0) || (recDeps r).any fun d => 2 ^ 56 ≤ d),
   (5, k == 0 && !levelsOk q),
   (6, group && (q.groups == 0 || 16 < q.groups || (k == 1 && q.groups != 1) || (q.producer != 0xFF#8 && q.groups ≤ q.producer.toNat))),
   (7, group && (262144 < q.groups * q.width * q.vregs || s.largestCarve p < q.localkb ||
      (s.part p).poolsize.toNat < poolNeed q (s.part p).cores.length)),
   (8, (k == 0 && q.entry.toNat % 4 != 0) || (group && q.args.toNat % 64 != 0) || recF r 0x60 8 == 0 || recF r 0x60 8 % 32 != 0),
   (9, recF r 0x7C 4 != 0 || !fmtLegal q.fmtinit || (k == 2 && q.fmtinit != 0)),
   (10, (recDeps r).any fun d => d != 0 && (child || seq ≤ d)),
   (11, q.devset != 0 && (child || q.devset &&& ~~~Config.fabricGroup != 0 || !q.devset.getLsbD s.devnum.toNat))]

/-- REASON of a record, or 0 (R345). -/
def State.recReason (s : State) (p : Nat) (r : List Byte) (child : Bool) (seq : Nat) : Nat :=
  (((s.recChecks p r child seq).find? fun c => c.2).map (·.1)).getD 0

/-- Launches of a partition that are accepted and not completed (R343). -/
def State.launchesOf (s : State) (p : Nat) : List (Nat × Launch) := s.launches.filter fun e => e.1 / 1024 == p

/-- The lowest free index of a partition's launch table; none when it is full (R343). -/
def State.freeLaunch (s : State) (p : Nat) : Option Nat :=
  (List.range 1024).find? fun k => (s.launches.get? (1024 * p + k)).isNone

/-- The devices of a launch, ascending (R453). -/
def Params.devices (p : Params) : List Nat := (List.range 64).filter fun d => p.devset.getLsbD d

/-- A device's tiles of a launch: from the first to the end (R453). -/
def deviceTiles (p : Params) (dev : Nat) : Nat × Nat :=
  let t := tileCount p
  if p.devset == 0 then (0, t)
  else
    let n := p.devices.length
    let i := popN dev p.devset.toNat
    (i * t / n, (i + 1) * t / n)

/-- The dies' shares of a range of tiles (R15). -/
def dieShares (dies : List Nat) (lo hi : Nat) : Table Share :=
  let n := dies.length
  (List.range n).map fun k => (dies.getD k 0, { next := lo + k * (hi - lo) / n, stop := lo + (k + 1) * (hi - lo) / n })

/-- Items of a range of tiles. -/
def tileRangeItems (p : Params) (lo hi : Nat) : Nat := min (hi * tileItems p) p.items.toNat - min (lo * tileItems p) p.items.toNat

/-- A launch as a record gives it (R343, R15). -/
def State.newLaunch (s : State) (p : Nat) (r : List Byte) (seq : Nat) : Launch :=
  let q := recParams r
  let t := deviceTiles q s.devnum.toNat
  { part := p, seq := BitVec.ofNat 56 seq, prio := recF r 3 1, par := q, dep := (recDeps r).map (BitVec.ofNat 64 ·),
    doneaddr := BitVec.ofNat 64 (recF r 0x60 8), shares := if q.kind == 0 then dieShares (s.part p).dies t.1 t.2 else [],
    total := if q.kind == 0 then tileRangeItems q t.1 t.2 else 0, peers := q.devices.length - 1 }

/-- The 32 bytes of a completion record (R346). -/
def recordBytes (version status reason faults seq cseq clock : Nat) : List Byte :=
  toBytes 2 version ++ toBytes 1 status ++ toBytes 1 reason ++ toBytes 4 faults ++ toBytes 8 seq ++ toBytes 8 cseq ++ toBytes 8 clock

/-- Where a completion record goes: its place, or none where it goes to the error log alone (R346). -/
def State.donePlace (s : State) (p a : Nat) : State × Option Nat :=
  if a == 0 || a % 32 != 0 then (s, none)
  else match s.sysXlate (s.part p).pctx (s.part p).ctxtbase.toNat .write a with
  | (s, .error _) => (s, none)
  | (s, .ok x) => (s, some x.place)

/-- A launch ends with its completion record (R346, R347); a child's takes no CSEQ. -/
def State.complete (s : State) (p status reason : Nat) (faults : Word) (seq : Nat) (doneaddr : DWord) (child : Bool) : State :=
  let cseq : BitVec 56 := if child then 0 else (s.part p).completed + 1
  let s := match s.donePlace p doneaddr.toNat with
    | (s, some a) => s.homeWr (s.part p).pctx a (recordBytes (s.versel.toNat / 65536 % 65536) status reason faults.toNat seq cseq.toNat s.clock.toNat)
    | (s, none) => s.logSet [{ type := 6, cls := 5, unit := p, code := status + 256 * reason + 65536 * min faults.toNat 0xFFFF,
                               addr := cseq.toNat, seq := seq }]
  if child then s else s.modPart p fun q => { q with completed := cseq }

/-- The next sequence number of a partition (R342): SEQ 0 is never accepted. -/
def Partition.nextSeq (p : Partition) : BitVec 56 := if p.accepted + 1 == 0 then 1 else p.accepted + 1

/-- Address of a sequence number's letterbox (R340). -/
def Partition.letterbox (p : Partition) (seq : BitVec 56) : Nat := p.lwbase.toNat + 256 * (seq.toNat % 64)

/-- May the device take launches: firmware runs, and GO is set without ERR (R446, R449)? -/
def State.attached (s : State) : Bool := s.powered && s.fwstat == 2 && s.go && !s.err

/-- Does the line monitor of a partition find its next record (R342, R343, R445)? Not while the host is down, nor one that it has still to submit
again (R448). -/
def State.recordWaits (s : State) (p : Nat) : Bool :=
  let q := s.part p
  let a := q.letterbox q.nextSeq
  s.attached && !s.hostFailed && !q.stale.getLsbD (q.nextSeq.toNat % 64) && q.pcores != 0 && (s.freeLaunch p).isSome && s.hostRd (a + 0xFF) 1 == (q.nextSeq.toNat % 256 ^^^ 0xA5) && s.hostRd (a + 0xF8) 7 == q.nextSeq.toNat

/-- LAUNCH_RECORD_ACCEPT (R342). -/
def State.acceptRecord (s : State) (p : Nat) : State :=
  let q := s.part p
  let seq := q.nextSeq
  match s.recordWaits p, s.freeLaunch p with
  | true, some k =>
    let r := Store.getList s.hostMem (q.letterbox seq) 256
    let s := s.modPart p fun q => { q with accepted := seq }
    let reason := s.recReason p r false seq.toNat
    if reason != 0 then s.complete p 1 reason 0 seq.toNat (BitVec.ofNat 64 (recF r 0x60 8)) false
    else { s with launches := s.launches.put (1024 * p + k) (s.newLaunch p r seq.toNat) }
  | _, _ => s

/-- LAUNCH_RECORD_ACCEPT (R342). -/
def execLaunchRecordAccept (part : Nat) (s : State) : Out := .next (s.acceptRecord part)

/-- FABRIC_LAUNCH_FORWARD (R453): a peer's record, checked there, enters this device's table under the peer's SEQ. -/
def State.forwardRecord (s : State) (p : Nat) (seq : BitVec 56) (r : List Byte) : State :=
  match s.freeLaunch p with
  | none => s
  | some k =>
    if !s.attached || (s.part p).pcores == 0 || recKind r != 0 || !(recParams r).devset.getLsbD s.devnum.toNat then s
    else { s with launches := s.launches.put (1024 * p + k) { s.newLaunch p r seq.toNat with forPeer := true, peers := 0 } }

/-- FABRIC_LAUNCH_FORWARD (R453). -/
def execFabricLaunchForward (part : Nat) (seq : BitVec 56) (record : List Byte) (s : State) : Out := .next (s.forwardRecord part seq record)

/-- FABRIC_SHARE_COMPLETION: a peer reports that it has finished its share (R453). -/
def State.shareDone (s : State) (launch : Nat) : State := s.modLaunch launch fun l => { l with peers := l.peers - 1 }

/-- FABRIC_SHARE_COMPLETION (R453). -/
def execFabricShareCompletion (launch : Nat) (s : State) : Out := .next (s.shareDone launch)

/-- Are a launch's dependences satisfied (R348)? A child has none; a peer's launch waits at the peer. -/
def State.runnable (s : State) (l : Launch) : Bool :=
  l.parent.isSome || l.forPeer ||
    l.dep.all fun d => d == 0 || !(s.launches.any fun e => e.2.part == l.part && e.2.parent.isNone && !e.2.forPeer && e.2.seq.toNat == d.toNat)

/-- Insert a launch into a list by descending SEQ. -/
def insSeq (x : Nat × Launch) : List (Nat × Launch) → List (Nat × Launch)
  | [] => [x]
  | y :: ys => if y.2.seq.toNat ≤ x.2.seq.toNat then x :: y :: ys else y :: insSeq x ys

/-- Effective priorities of the launches that are no children, from the highest SEQ down: those that name a launch come before it (R349). -/
def prioFrom : List (Nat × Launch) → List (Nat × Launch × Nat) → List (Nat × Launch × Nat)
  | [], done => done
  | e :: rest, done =>
    let p := done.foldl (fun p d => if d.2.1.dep.any fun x => x.toNat == e.2.seq.toNat then max p d.2.2 else p) e.2.prio
    prioFrom rest ((e.1, e.2, p) :: done)

/-- The launch that is no child at the root of a launch's parents. -/
def State.rootOf (s : State) : Nat → Nat → Nat
  | 0, k => k
  | fuel + 1, k => match s.launches.get? k with
    | some l => match l.parent with
      | some q => s.rootOf fuel q
      | none => k
    | none => k

/-- The root launch of a launch. -/
def State.root (s : State) (key : Nat) : Nat := s.rootOf 1024 key

/-- The effective priority of a launch (R349): a child has its parent's. A launch entered for a peer bears the peer's sequence numbers, so
that DEP of this device's launches does not name it, nor its DEP theirs (log 31). -/
def State.effPrio (s : State) (key : Nat) : Nat :=
  let k := s.root key
  match s.launches.get? k with
  | none => 0
  | some l =>
    if l.forPeer then l.prio
    else
      let ls := (s.launches.filter fun e => e.1 / 1024 == k / 1024 && e.2.parent.isNone && !e.2.forPeer).foldl (fun l e => insSeq e l) []
      match (prioFrom ls []).find? fun e => e.1 == k with
      | some e => e.2.2
      | none => 0

/-- Has a launch ended (R33, R347)? -/
def State.launchEnded (s : State) (key : Nat) (l : Launch) : Bool :=
  (l.aborted || s.runnable l) &&
  (l.par.kind == 2 ||
    ((l.aborted || ((if l.par.kind == 1 then l.seeded else l.given == l.total) && l.tasks == 0)) && l.peers == 0 &&
      (s.wgs.all fun e => e.2.launch != key) && (s.images.all fun e => e.2.launch != key) && s.launches.all fun e => e.2.parent != some key))

/-- STATUS of a launch that ends (R346, R416). -/
def Launch.status (l : Launch) : Nat := if l.aborted then 3 else if l.faults != 0 then 2 else 0

/-- LAUNCH_COMPLETION (R347): a child's record also completes its future; a peer's launch is reported to the peer, which writes the record
(R453). -/
def State.launchDone (s : State) (key : Nat) : State :=
  match s.launches.get? key with
  | none => s
  | some l =>
    if !s.launchEnded key l then s
    else
      let s := { s with launches := s.launches.erase key }
      if l.forPeer then s
      else
        let s := s.complete l.part l.status 0 l.faults l.seq.toNat l.doneaddr l.parent.isSome
        (if l.parent.isSome then s.futureDone 4 l.handle 2 else s)

/-- LAUNCH_COMPLETION (R347). -/
def execLaunchCompletion (launch : Nat) (s : State) : Out := .next (s.launchDone launch)

/-- The places of the lines that hold n bytes from a translated address on, within its page: they need not lie side by side (R207). -/
def State.linePlaces (s : State) (t : Xl) (n : Nat) : List Nat :=
  t.place :: (rangeFrom 1 ((n - 1) / 128)).map fun k => s.place (s.linePA (pteHash t.leaf) (t.place / 128) + 128 * k) (pteHash t.leaf)

/-- The n bytes from a translated address on. -/
def State.lineBytes (s : State) (t : Xl) (n : Nat) : List Byte := ((s.linePlaces t n).map fun p => s.bytes p (min 128 n)).flatten

/-- The first granule of a record at an address that cannot be read, with its code and address. -/
def State.recordBad (s : State) (t : Xl) (a : Nat) : Option (Nat × Nat) :=
  (s.linePlaces t 256).zipIdx.findSome? fun e => (s.badGran e.1 128).map fun b => (b.2, a + 128 * e.2 + (b.1 * 32 - e.1))

/-- LAUNCH (R358). -/
def execLaunch (o : Op) (s : State) : Out :=
  splitScope o s fun i =>
    let a := scalar64 i.sp o.a
    let h := opndH o.d
    let w := s.wgOf i.g
    if a % 256 != 0 then s.raiseAll i (memBad .align 1 .read a)
    else match s.gx i .read false a with
    | (s, .error b) => s.raiseAll i b
    | (s, .ok t) => match s.recordBad t a with
      | some (c, at') => ((s.linePlaces t 256).foldl (fun s p => s.markRead p 128) s).raiseAll i (memBad .dataerr c .read at')
      | none =>
        if (i.g.handle h).st != 0 then s.raiseAll i (handleBad 1 h)
        else match s.freeLaunch w.part with
        | none => s.stall i
        | some k =>
          let r := s.lineBytes t 256
          let reason := s.recReason w.part r true 0
          if reason != 0 then
            let s := s.complete w.part 1 reason 0 0 (BitVec.ofNat 64 (recF r 0x60 8)) true
            (s.modGroup i.who.key fun g => g.setHandle h { st := 2, kind := 4 }).done i o
          else
            let l := { s.newLaunch w.part r 0 with parent := some w.launch, handle := s.nextId, dep := [], peers := 0 }
            (({ s with launches := s.launches.put (1024 * w.part + k) l, nextId := s.nextId + 1 }).futureTake i.who.key h 4 l.handle).done i o

/-- May a task launch seed its envelope now (R354)? -/
def State.seedReady (s : State) (l : Launch) : Bool := l.par.kind == 1 && !l.seeded && !l.aborted && s.runnable l

/-- A seed is not enqueued (R354). -/
def State.seedFails (s : State) (key : Nat) (l : Launch) : State :=
  ((s.logSet [{ type := 7, cls := 5, unit := l.part, code := 2, addr := l.par.args.toNat, seq := l.seq.toNat }]).modLaunch key fun l =>
    { l with seeded := true, faults := l.faults + 1 })

/-- TASK_SEED (R354): it waits while every queue is full. -/
def State.taskSeed (s : State) (key : Nat) : State :=
  match s.launches.get? key with
  | none => s
  | some l =>
    if !s.seedReady l then s
    else match leastBy (fun d => [s.queueLen d, d]) (s.part l.part).dies with
    | none => s
    | some d =>
      if taskDepth ≤ s.queueLen d then s
      else
        let q := s.part l.part
        match s.sysXlate q.pctx q.ctxtbase.toNat .atomic l.par.args.toNat with
        | (s, .error _) => s.seedFails key l
        | (s, .ok x) =>
          let e : Env := { place := x.place, addr := l.par.args, ctx := q.pctx }
          if (s.badGran x.place 64).isSome then (s.markRead x.place 64).seedFails key l
          else if (s.envRefused e).isSome then s.seedFails key l
          else
            let dl := if l.par.deadline != 0 then l.par.deadline else s.envDeadline e
            (((s.envOwn e key).envReady e l.part d key dl).modLaunch key fun l => { l with seeded := true })

/-- TASK_SEED (R354). -/
def execTaskSeed (launch : Nat) (s : State) : Out := .next (s.taskSeed launch)

end Sys2Proof.Machine
end

