-- ==== Sys2Proof/Machine/Admit.lean ====
section
/-! DEFINITION. From launch to running groups: admission (R13, R16, R17), the start of a group (R6, R475), retirement and restart of a
workgroup (R31, R32), tasks and their budget (R355, R356), and the claim of a tile (R430). -/
namespace Sys2Proof.Machine

/-- The workgroups on a core. -/
def State.coreWgs (s : State) (c : Nat) : List Workgroup := (s.wgs.map (·.2)).filter fun w => w.core == c

/-- The free group slots of a core, ascending. -/
def State.freeSlots (s : State) (c : Nat) : List Nat :=
  let used := ((s.coreWgs c).map (·.slots)).flatten
  (List.range 64).filter fun t => !used.contains t

/-- Words of vector registers that a launch's workgroup reserves (R13). -/
def Params.words (p : Params) : Nat := p.groups * p.width * p.vregs

/-- The operand buffer set that a core can still give (R205). -/
def State.freeBufset (s : State) (c : Nat) : Option Nat := [0, 1].find? fun b => (s.coreWgs c).all fun w => w.bufset != some b

/-- Can a core admit a workgroup of a launch (R13, R77, R205, R415)? -/
def State.canAdmit (s : State) (part : Nat) (p : Params) (c : Nat) : Bool :=
  let k := s.core c
  let ws := s.coreWgs c
  s.powered && !k.retired && !k.stopped && !k.carvePend && k.moving.isNone && !s.coreFailed.getLsbD c && k.ctxid == (s.part part).pctx &&
    p.groups ≤ (s.freeSlots c).length && (ws.map fun w => w.par.words).sum + p.words ≤ 262144 &&
    (ws.map fun w => w.par.localkb).sum + p.localkb ≤ 512 - 64 * k.carve.toNat && (!p.buffers || (s.freeBufset c).isSome)

/-- The core of a die that takes the next workgroup: the one with the most free slots, then the lowest number (R16). -/
def State.coreFor (s : State) (part die : Nat) (p : Params) : Option Nat :=
  leastBy (fun c => [64 - (s.freeSlots c).length, c]) ((s.part part).cores.filter fun c => dieOf c == die && s.canAdmit part p c)

/-- The lanes with which group g of a workgroup starts on the items from `first` to `stop` (R17). -/
def startLanes (p : Params) (first stop g : Nat) : List Lane :=
  (List.range p.width).map fun l =>
    let id := first + g * p.width + l
    if id < stop then { ({} : Lane).refilled p (BitVec.ofNat 64 id) with age := 0 } else {}

/-- A group as it starts (R6); its start block is still to be read. -/
def startGroup (wg gid : Nat) (p : Params) (clock : DWord) (lanes : List Lane) : Group :=
  { wg := wg, gid := BitVec.ofNat 4 gid, width := p.width, lanes := lanes,
    splits := [{ slices := BitVec.ofNat 16 (2 ^ (p.width / 4) - 1), pc := pcOf p.entry.toNat, fmt := p.fmtinit, order := clock, jumped := true }],
    rstacks := List.replicate (p.width / 4) [], handles := List.replicate 16 {}, octets := List.replicate (p.width / 8) {},
    first := ((lanes.find? fun l => !l.idle).map (·.workid)).getD 0, admitted := clock }

/-- The groups of a workgroup start on the items from `first` on (R6, R17); one without an item retires at once (R27). -/
def State.startGroups (s : State) (wg : Nat) (w : Workgroup) (first stop : Nat) : State :=
  let p := w.par
  let n := min (p.groups * p.width) (stop - first)
  let gs := (List.range p.groups).map fun g => (64 * w.core + w.slots.getD g 0, startGroup wg g p s.clock (startLanes p first stop g))
  let s := { s with
    wgs := s.wgs.put wg { w with next := first + n, stop := stop }
    groups := gs.foldl (fun t e => t.put e.1 e.2) s.groups
    launches := match s.launches.get? w.launch with
      | some l => s.launches.put w.launch { l with given := l.given + n }
      | none => s.launches }
  gs.foldl (fun s e => if e.2.lanes.all (·.idle) then s.retireGroup e.1 else s) s

/-- A core prepares for a workgroup: LLS of its slots and its buffer set are cleared, and it is awake (R205, R385). -/
def Core.prepare (k : Core) (slots : List Nat) (bufset : Option Nat) : Core :=
  let k := { k with lls := slots.foldl (fun m t => m.set t 0) k.lls, asleep := false }
  match bufset with
  | none => k
  | some b => { k with bufs := Store.clear (w := 8) k.bufs (131072 * b) 131072, bufPoison := k.bufPoison.clear (4096 * b) 4096,
                       bufBad := k.bufBad.clear (131072 * b) 131072 }

/-- A workgroup's reservation on a core (R13, R203, R205, R417). -/
def State.reserve (s : State) (core part launch : Nat) (p : Params) : Workgroup :=
  { core := core, part := part, launch := launch, par := p, slots := (s.freeSlots core).take p.groups,
    bars := List.replicate 16 (BarReg.init p.groups), bufset := if p.buffers then s.freeBufset core else none }

/-- The tile from which a die starts its next workgroup of a launch, and the launch with that tile started: a started tile, else the
lowest claimed tile, else the next of its share (R16, R430). -/
def Launch.nextTile (l : Launch) (die : Nat) : Option (Launch × Started) :=
  let sh := l.share die
  match leastBy (fun (t : Started) => [t.tile]) (l.started.filter fun t => t.die == die && t.cursor < t.stop) with
  | some t => some (l, t)
  | none =>
    let go (l : Launch) (tile : Nat) : Option (Launch × Started) := ((l.start tile die).startedAt tile).map fun t => (l.start tile die, t)
    match leastBy (fun (k : Nat) => [k]) sh.claimed with
    | some k => go { l with shares := l.shares.put die { sh with claimed := sh.claimed.filter (· != k) } } k
    | none => if sh.next < sh.stop then go { l with shares := l.shares.put die { sh with next := sh.next + 1 } } sh.next else none

/-- What waits at the head of a die's order (R350, R414). -/
inductive Head where
  | wg (launch : Nat)
  | image (n : Nat)
  deriving DecidableEq, Repr

/-- The order of R350 for an entry of a launch: priority, DEADLINE with zero last, SEQ, the launch, then the workgroup. -/
def State.orderKey (s : State) (launch : Nat) (l : Launch) (first : Nat) : List Nat :=
  let r := s.root launch
  let seq := match s.launches.get? r with
    | some q => q.seq.toNat
    | none => 0
  [7 - s.effPrio launch, if l.par.deadline == 0 then 2 ^ 64 else l.par.deadline.toNat, seq, launch, first]

/-- The entries that wait at a die, of every partition that it serves, with their order. -/
def State.waitingAt (s : State) (die : Nat) : List (List Nat × Head) :=
  (s.launches.filterMap fun e =>
    if e.2.par.kind != 0 || e.2.aborted || !s.runnable e.2 then none
    else (e.2.nextTile die).map fun t => (s.orderKey e.1 e.2 t.2.cursor, Head.wg e.1)) ++
  s.images.filterMap fun e =>
    if !e.2.queued || e.2.die != die then none
    else (s.launches.get? e.2.launch).map fun l => (s.orderKey e.2.launch l e.2.wgid.toNat ++ [e.1], Head.image e.1)

/-- The head of the order (R350). -/
def State.headAt (s : State) (die : Nat) : Option (List Nat × Head) := leastBy (fun e => e.1) (s.waitingAt die)

/-- The task-queue head: the reference with the earliest stamped DEADLINE (R353, R355). -/
def State.taskHead (s : State) (die : Nat) : Option TaskRef :=
  leastBy (fun (r : TaskRef) => [r.deadline.toNat, r.num]) (s.taskq.getD die [])

/-- Does the dispatcher take the task before the head of the order (R355)? -/
def State.taskFirst (s : State) (die : Nat) : Option TaskRef :=
  match s.taskHead die, s.headAt die with
  | some r, some h => if 7 - s.effPrio r.launch ≤ h.1.headD 0 then some r else none
  | r, none => r
  | none, _ => none

/-- Admit the next workgroup of a launch to a die, where a core takes it (R13, R16, R17, R25). -/
def State.admitWg (s : State) (part die launch : Nat) : State :=
  match s.launches.get? launch with
  | none => s
  | some l => match l.nextTile die, s.coreFor part die l.par with
    | some (l, t), some c =>
      let r := l.take t
      let w := { s.reserve c part launch l.par with wgid := wgidOf l.par (BitVec.ofNat 64 r.2.1), tile := t.tile, tiles := [t.tile] }
      let s := { (s.modCore c (·.prepare w.slots w.bufset)) with launches := s.launches.put launch r.1, nextId := s.nextId + 1 }
      (s.startGroups (s.nextId - 1) w r.2.1 r.2.2)
    | _, _ => s

/-- The dispatcher admits the head workgroup, where the head is one, of that partition, and fits (R350). -/
def State.admitHead (s : State) (part die : Nat) : State :=
  match s.headAt die with
  | some (_, .wg k) => if k / 1024 == part then s.admitWg part die k else s
  | _ => s

/-- WORKGROUP_ADMISSION (R13, R16). -/
def execWorkgroupAdmission (part die : Nat) (s : State) : Out :=
  .next (if (s.taskFirst die).isSome then s else s.admitHead part die)

/-- The parameters of a task of a launch (R355). -/
def Params.forTask (p : Params) (code frame : Nat) : Params :=
  { p with kind := 1, groups := 1, entry := BitVec.ofNat 64 code, args := BitVec.ofNat 64 frame, widths := [6, 0, 0, 0, 0, 0], wglevel := 1,
           tilelevel := 1, refill := 1, items := 0 }

/-- The lanes of a task: every one non-idle, with WORKID = LANEID (R355). -/
def taskLanes (p : Params) : List Lane :=
  (List.range p.width).map fun l => { ({} : Lane).refilled p (BitVec.ofNat 64 l) with age := 0, wgid := 0 }

/-- Take a reference off a die's queue. -/
def State.dequeue (s : State) (die : Nat) (r : TaskRef) : State :=
  { s with taskq := s.taskq.put die ((s.taskq.getD die []).filter fun x => x.num != r.num) }

/-- The budget of a task's run: a KIND 1 record's replaces the seed envelope's (R344). -/
def taskBudget (l : Launch) (env : DWord) (own : Nat) : Word :=
  if l.par.kind == 1 && l.par.budget != 0 && env == l.par.args then l.par.budget else BitVec.ofNat 32 own

/-- Start a task on a core (R355). -/
def State.startTask (s : State) (part core : Nat) (r : TaskRef) (l : Launch) (e : Env) : State :=
  let p := l.par.forTask (s.rd e.place 8) (s.rd (e.place + 8) 8)
  let w := { s.reserve core part r.launch p with task := true }
  let slot := w.slots.getD 0 0
  let g := { startGroup s.nextId 0 p s.clock (taskLanes p) with
    task := some { env := r.env, budget := taskBudget l r.env (s.rd (e.place + 0x2C) 4), start := s.clock } }
  let s := (s.modCore core (·.prepare w.slots w.bufset)).envSetState e (withSt (s.envState e) 3)
  { s with wgs := s.wgs.put s.nextId w, groups := s.groups.put (64 * core + slot) g, nextId := s.nextId + 1 }

/-- The task head is skipped, or starts where a core takes it (R355, R361); an envelope that no longer translates ends failed (log 20). -/
def State.runTask (s : State) (part die : Nat) (r : TaskRef) : State :=
  let q := s.part part
  match s.launches.get? r.launch with
  | none => s.dequeue die r
  | some l => if l.aborted then s.dequeue die r else match s.sysXlate q.pctx q.ctxtbase.toNat .atomic r.env.toNat with
    | (s, .error _) => ((s.dequeue die r).modLaunch r.launch fun l => { l with tasks := l.tasks - 1, faults := l.faults + 1 })
    | (s, .ok x) =>
      let e : Env := { place := x.place, addr := r.env, ctx := q.pctx }
      let v := s.envState e
      if tb v 8 && tb v 9 then ((s.dequeue die r).taskComplete e true part die r.launch q.ctxtbase.toNat)
      else match s.coreFor part die (l.par.forTask 0 0) with
      | none => s
      | some c => ((s.dequeue die r).startTask part c r l e)

/-- TASK_DISPATCH (R355): the task-queue head, or the head workgroup instead. -/
def execTaskDispatch (part die : Nat) (s : State) : Out :=
  .next (match s.taskFirst die with
    | some r => if r.launch / 1024 == part then s.runTask part die r else s
    | none => s.admitHead part die)

/-- The record of a group whose start block cannot be read (R475). -/
def startFault (g : Group) (p : Params) (b : Bad) : TrapRec :=
  { cause := b.cause.code, pc := (pcOf p.entry.toNat).setWidth 64, addr := b.addr,
    lanes := laneMask ((List.range g.width).filter fun l => !(g.lane l).idle), aux := b.aux }

/-- START_BLOCK_READ (R6, R475): s0 to s15 are loaded, or the group ends. No home hears a core that has failed (R455). -/
def State.startBlock (s : State) (key : Nat) : State :=
  match s.groups.get? key with
  | none => s
  | some g =>
    if g.started || g.retired || s.coreFailed.getLsbD (key / 64) then s
    else match g.splits with
    | [] => s
    | sp :: _ =>
      let w := s.wgOf g
      let x : Iss := ⟨⟨key, sp.id⟩, g, sp⟩
      let a := w.par.args.toNat
      let fail (s : State) (b : Bad) : State := s.endGroup key [errSet (key / 64) key g (s.launchSeq w.launch) (startFault g w.par b) 0 0 false]
      match s.gx x .read false a with
      | (s, .error b) => fail s b
      | (s, .ok t) => match s.badGran t.place 64 with
        | some (gr, c) => fail (s.markRead t.place 64) (memBad .dataerr c .read (a + (gr * 32 - t.place)))
        | none =>
          let ws := (List.range 16).map fun k => BitVec.ofNat 32 (s.rd (t.place + 4 * k) 4)
          let s := (s.loadLine x.core x.slot (s.ctxOf x.core) t.path true (t.place / 32)).loadLine x.core x.slot (s.ctxOf x.core) t.path true (t.place / 32 + 1)
          (s.setGroup key { g.modSplit sp.id fun y => { y with s := y.s.setList 0 ws } with started := true })

/-- START_BLOCK_READ (R475). -/
def execStartBlockRead (key : Nat) (s : State) : Out := .next (s.startBlock key)

/-- Have all groups of a workgroup retired and drained (R27, R29)? -/
def State.groupsDone (s : State) (wg : Nat) : Bool :=
  s.groups.all fun e => e.2.wg != wg || (e.2.retired && e.2.splits.isEmpty && e.2.mops.isEmpty)

/-- Have the copies of a workgroup and the TIERPFs bound to its barriers arrived (R31)? -/
def State.arrivalsDone (s : State) (wg : Nat) : Bool :=
  (s.copies.all fun (c : CopyOp) => c.wg != wg) && s.tierOps.all fun (t : TierOp) => t.wg != wg || t.bar.isNone

/-- Does a workgroup's dispenser hold items? -/
def Workgroup.holds (w : Workgroup) : Bool := !w.task && w.next < w.stop

/-- The tiles of a launch of which a workgroup, running or saved, holds items. -/
def State.tilesHeld (s : State) (launch : Nat) : List Nat :=
  (((s.wgs.map (·.2)).filter fun w => w.launch == launch).map (·.tiles)).flatten ++
    (((s.images.map (·.2)).filter fun im => im.launch == launch).map (·.tiles)).flatten

/-- The started tiles of a launch whose last item has been dispensed, and of which no workgroup runs or is saved, are Done (R430). -/
def State.tilesDone (s : State) (launch : Nat) : State :=
  let held := s.tilesHeld launch
  s.modLaunch launch fun l => { l with started := l.started.map fun t =>
    if (!held.contains t.tile && t.stop ≤ t.cursor) then { t with done := true } else t }

/-- A workgroup leaves its core, with its groups. -/
def State.dropWg (s : State) (wg : Nat) : State := { s with wgs := s.wgs.erase wg, groups := s.groups.filter fun e => e.2.wg != wg }

/-- WORKGROUP_RETIREMENT (R31). -/
def State.retireWg (s : State) (wg : Nat) : State :=
  match s.wgs.get? wg with
  | none => s
  | some w =>
    if !s.groupsDone wg || !s.arrivalsDone wg || w.holds then s
    else (((s.barFlush wg).dropWg wg).tilesDone w.launch)

/-- WORKGROUP_RETIREMENT (R31). -/
def execWorkgroupRetirement (wg : Nat) (s : State) : Out := .next (s.retireWg wg)

/-- A barrier register as a restart leaves it: as at admission, but PHASE and the postmarks stay (R32). -/
def BarReg.restarted (b : BarReg) (groups : Nat) : BarReg := { BarReg.init groups with phase := b.phase, post := b.post }

/-- WORKGROUP_RESTART (R32). -/
def State.restartWg (s : State) (wg : Nat) : State :=
  match s.wgs.get? wg with
  | none => s
  | some w =>
    if !s.groupsDone wg || !s.arrivalsDone wg || !w.holds || w.preempt.isSome then s
    else
      let s := s.barFlush wg
      let bars := ((s.wgs.getD wg w).bars).map (·.restarted w.par.groups)
      { s with groups := s.groups.filter fun e => e.2.wg != wg }.startGroups wg { w with bars := bars } w.next w.stop

/-- WORKGROUP_RESTART (R32). -/
def execWorkgroupRestart (wg : Nat) (s : State) : Out := .next (s.restartWg wg)

/-- The split that a group's BUDGET goes to, once its counter has reached BUDGET (R356). -/
def State.budgetOwed (s : State) (g : Group) : Option Split :=
  match g.task, leastBy (fun (y : Split) => [y.id]) g.splits with
  | some t, some x =>
    if g.started && !g.retired && !t.spent && t.budget != 0 && t.budget.toNat ≤ (s.clock - t.start).toNat && x.held.isNone then some x else none
  | _, _ => none

/-- The split that a group's BUDGET goes to, where it stands at an instruction boundary (R56, R356). A split that waits at a barrier or a
gathering stands at the boundary before the instruction that it waits in, as a pre-emption finds it (R409, R410). -/
def State.budgetDue (s : State) (g : Group) : Option Split :=
  (s.budgetOwed g).filter fun x => x.pend.isNone && x.rerun.isNone && x.skip == 0

/-- Does BUDGET come before a save at the boundary where a group's split stands, or at the one after the return from a trap that it has still
to finish (R89, R473)? -/
def State.budgetFirst (s : State) (g : Group) : Bool :=
  (s.budgetDue g).isSome || (s.budgetOwed g).any Split.returning

/-- BUDGET (R356). -/
def State.budget (s : State) (key : Nat) : State :=
  let s := match (s.groups.get? key).bind s.budgetDue with
    | some x => s.waitSettled ⟨key, x.id⟩
    | none => s
  match s.groups.get? key with
  | none => s
  | some g => match s.budgetDue g with
    | none => s
    | some x =>
      let s := s.modGroup key fun g => { g with task := g.task.map fun t => { t with spent := true } }
      let s := match x.wait with
        | .barrier _ _ _ | .dbar _ _ _ => s.modSplit ⟨key, x.id⟩ fun y => { y with timedOut := (y.pc, y.wait) :: y.forget.timedOut }
        | _ => s
      s.deliver ⟨key, x.id⟩ { cause := Cause.budget.code, pc := (s.pastPads ⟨⟨key, x.id⟩, g, x⟩ allBlocks x.pc).setWidth 64, lanes := laneMask (liveLanes g x) }

/-- BUDGET (R356). -/
def execBudget (key : Nat) (s : State) : Out := .next (s.budget key)

/-- The highest-numbered Stealable tile that another die owns, and that die (R430). -/
def Launch.stealable (l : Launch) (die : Nat) : Option (Nat × Share) :=
  leastBy (fun e => [2 ^ 64 - e.2.stop]) (l.shares.filter fun e => e.1 != die && e.2.steal && e.2.next < e.2.stop)

/-- The tile of a peer device that this device could claim next of a launch over several devices: one that the peer's arbiter has made
Stealable (R453). Which that is lies at the peer (log 101); it is a tile of a peer's, and none that this device has had. -/
def State.peerOffer (s : State) (l : Launch) : Option Nat :=
  if l.par.devset == 0 then none
  else (Config.peerTile s.freeCtr).filter fun t =>
    let own := deviceTiles l.par s.devnum.toNat
    t < tileCount l.par && !(own.1 ≤ t && t < own.2) && (l.started.all fun y => y.tile != t) && l.shares.all fun e => !e.2.claimed.contains t

/-- Is a peer's tile the highest-numbered Stealable one for a die (R430, R453)? -/
def State.peerClaim (s : State) (l : Launch) (die : Nat) : Option Nat :=
  (s.peerOffer l).filter fun t => match l.stealable die with
    | some (_, sh) => sh.stop - 1 < t
    | none => true

/-- May a die claim a tile of a launch (R430)? A number above the dies' is a peer device's claim, of a launch over several devices (R453). -/
def State.claimReady (s : State) (l : Launch) (die : Nat) : Bool :=
  let sh := l.share die
  l.par.kind == 0 && !l.aborted && s.runnable l &&
    (if 4 ≤ die then l.par.devset != 0 && (l.stealable die).isSome
     else ((l.stealable die).isSome || (s.peerOffer l).isSome) && (s.part l.part).dies.contains die && sh.claimed.isEmpty &&
       (sh.stop ≤ sh.next || sh.steal) && (s.coreFor l.part die l.par).isSome)

/-- A launch with a tile claimed by a die of this device (R430). -/
def Launch.claim (l : Launch) (die tile : Nat) : Launch :=
  let mine := l.share die
  { l with shares := l.shares.put die { mine with claimed := mine.claimed ++ [tile] } }

/-- TILE_CLAIM (R430, R453): the items of a tile that passes between devices count where it goes. -/
def State.tileClaim (s : State) (key die : Nat) : State :=
  match s.launches.get? key with
  | none => s
  | some l =>
    if !s.claimReady l die then s
    else match if 4 ≤ die then none else s.peerClaim l die, l.stealable die with
    | some tile, _ =>
      let l := { l.claim die tile with total := l.total + tileRangeItems l.par tile (tile + 1) }
      { s with launches := s.launches.put key l, freeCtr := s.freeCtr + 1 }
    | none, none => s
    | none, some (own, sh) =>
      let tile := sh.stop - 1
      let l := { l with shares := l.shares.put own { sh with stop := tile } }
      let l := if 4 ≤ die then { l with total := l.total - tileRangeItems l.par tile (tile + 1) } else l.claim die tile
      { s with launches := s.launches.put key l }

/-- TILE_CLAIM (R430). -/
def execTileClaim (launch die : Nat) (s : State) : Out := .next (s.tileClaim launch die)

end Sys2Proof.Machine
end

