-- ==== Sys2Proof/Machine/Convert.lean ====
section
/-! DEFINITION. The conversion and packing instructions (R165 to R170). -/
namespace Sys2Proof.Machine

/-- CVT (R165). -/
def execCvt (o : Op) (s : State) : Out := runAlu .cvt o s

/-- F2I (R166). -/
def execF2i (o : Op) (s : State) : Out := runAlu .f2i o s

/-- I2F (R167). -/
def execI2f (o : Op) (s : State) : Out := runAlu .i2f o s

/-- PACK (R168). -/
def execPack (o : Op) (s : State) : Out := runAlu .pack o s

/-- UNPACK (R170). -/
def execUnpack (o : Op) (s : State) : Out := runAlu .unpack o s

/-- BSCALE (R169). -/
def execBscale (o : Op) (s : State) : Out := runAlu .bscale o s

end Sys2Proof.Machine
end

