-- ==== Sys2Proof/Machine/Cross.lean ====
section
/-! DEFINITION. The cross-lane instructions (R174 to R190). E is the list of executing lanes, ascending. -/
namespace Sys2Proof.Machine

/-- Bits of a vector operand of type TY in lane l. -/
def vval (g : Group) (ty : Nat) (x : Opnd) (l : Nat) : Nat := readOpnd {  slices := 0, pc := 0 } (g.lane l) (.int (if ty64 ty then 64 else 32)) x

/-- Write per-lane results to a vector or predicate D, or one result to a scalar D, with flags (R174, R188). -/
def State.crossDone (s : State) (o : Opc) (x : Op) (i : Iss) (ls : List Nat) (val : Nat → Nat) (pred : Nat → Bool) (fl : Flags := 0) : State :=
  if i.sp.pend.isSome && fl &&& fmtTE i.sp.fmt != 0 then s.stall i
  else
    let n := dstN o x
    let s := match x.d with
      | .s _ => s.modSplit i.who (·.write x.d n (val (ls.headD 0)))
      | _ => s.modGroup i.who.key fun g => g.modLanes ls fun l ln => ln.write x.d n (val l) (pred l)
    s.doneFlags i x fl ls

/-- A cross-lane instruction acts only when some lane executes (R176). -/
def crossLane (x : Op) (s : State) (k : Iss → List Nat → State) : Out :=
  issue s fun i => let e := activeLanes i.g i.sp x; if e == [] then s.done i x else k i e

/-- The source lane of SHFL (R181). -/
def shflSrc (w fn l n : Nat) : Nat :=
  let sg := match fn / 4 with
    | 0 => w
    | k => 2 ^ (k + 1)
  let base := l / sg * sg
  match fn % 4 with
  | 0 => base + n % sg
  | 1 => base + (l - base + n) % sg
  | 2 => base + (l - base + (sg - n % sg)) % sg
  | _ => base + ((l - base) ^^^ (n % sg))

/-- SHFL (R181). -/
def execShfl (o : Op) (s : State) : Out :=
  crossLane o s fun i e =>
    let src (l : Nat) :=
      let k := shflSrc i.g.width o.fn.toNat l (readOpnd i.sp (i.g.lane l) (.int 32) o.b)
      if e.contains k then k else l
    s.crossDone .shfl o i e (fun l => vval i.g o.ty.toNat o.a (src l)) fun _ => false

/-- The lane that BCAST reads (R182). -/
def bcastLane (w : Nat) (e : List Nat) (first : Bool) (b : Nat) : Nat :=
  let k := b % 64 % w
  if first || !e.contains k then e.headD 0 else k

/-- BCAST (R182). -/
def execBcast (o : Op) (s : State) : Out :=
  crossLane o s fun i e =>
    let k := bcastLane i.g.width e (o.fn == 1) (scalar32 i.sp o.b)
    s.crossDone .bcast o i e (fun _ => vval i.g o.ty.toNat o.a k) fun _ => false

/-- VOTE (R183). -/
def execVote (o : Op) (s : State) : Out :=
  crossLane o s fun i e =>
    let p (l : Nat) := readPred (i.g.lane l) o.a
    let r := match o.fn.toNat with
      | 0 => e.all p
      | 1 => e.any p
      | _ => e.all p || e.all fun l => !p l
    s.crossDone .vote o i e (fun _ => 0) fun _ => r

/-- BALLOT (R184). -/
def execBallot (o : Op) (s : State) : Out :=
  crossLane o s fun i e =>
    s.crossDone .ballot o i e (fun _ => (laneMask (e.filter fun l => readPred (i.g.lane l) o.a)).toNat) fun _ => false

/-- COMPACT (R185). -/
def execCompact (o : Op) (s : State) : Out :=
  crossLane o s fun i e =>
    let sel := e.filter fun l => readPred (i.g.lane l) o.b
    s.crossDone .compact o i e (fun l => match sel[e.idxOf l]? with
      | some k => vval i.g o.ty.toNat o.a k
      | none => 0) fun _ => false

/-- Is TY a float for REDUCE, SCAN and MATCH? -/
def crossFloat (ty : Nat) : Bool := ty == 5 || ty == 0x0F

/-- A value as an operand is read: the default NaN for a NaN, flushed under FTZ (R188). -/
def asRead (f : Fmt) (ftz : Bool) (c : Nat) : Nat × Flags := let r := f.read ftz c; ((f.round {} r.1).code, r.2)

/-- REDUCE and SCAN never round stochastically (R142). -/
def crossMode (fmt : Word) : RMode := if fmtRM fmt == .rs then .rne else fmtRM fmt

/-- The combination of two values (R187, R188): bits and flags. -/
def combine (op ty : Nat) (fmt : Word) (a b : Nat) : Nat × Flags :=
  let f := (tyFmt ty).1
  let n := if ty64 ty then 64 else 32
  match op with
  | 0 =>
    if crossFloat ty then
      let sm := FVal.sum (crossMode fmt) [(f.read (fmtFTZ fmt) a).1, (f.read (fmtFTZ fmt) b).1]
      let r := f.emit fmt (crossMode fmt) 0 sm.1
      (r.1.code, r.1.flags ||| sm.2)
    else ((a + b) % 2 ^ n, 0)
  | 1 => if crossFloat ty then (f.minmax (fmtFTZ fmt) false false a b, 0) else (if valTy ty b < valTy ty a then b else a, 0)
  | 2 => if crossFloat ty then (f.minmax (fmtFTZ fmt) true false a b, 0) else (if valTy ty a < valTy ty b then b else a, 0)
  | 3 => (a &&& b, 0)
  | 4 => (a ||| b, 0)
  | _ => (a ^^^ b, 0)

/-- One level of the tree of R147: neighbours combine, one value passes up. -/
def treeLevel (f : Nat → Nat → Nat × Flags) : List (Option Nat) → List (Option Nat) × Flags
  | a :: b :: rest =>
    let r := treeLevel f rest
    match a, b with
    | some x, some y => let z := f x y; (some z.1 :: r.1, z.2 ||| r.2)
    | some x, none => (some x :: r.1, r.2)
    | none, y => (y :: r.1, r.2)
  | l => (l, 0)

/-- The tree over 2^k leaves (R147). -/
def tree (f : Nat → Nat → Nat × Flags) : Nat → List (Option Nat) → Option Nat × Flags
  | 0, l => (l.headD none, 0)
  | k + 1, l => let r := treeLevel f l; let t := tree f k r.1; (t.1, r.2 ||| t.2)

/-- The inclusive scan of a list (R148, R186). -/
def scanList (f : Nat → Nat → Nat × Flags) : Nat → List Nat → List Nat × Flags
  | _, [] => ([], 0)
  | acc, y :: ys =>
    let z := f acc y
    let r := scanList f z.1 ys
    (z.1 :: r.1, z.2 ||| r.2)

/-- The values that enter the tree or the scan, with the flags of their reading (R188). Plain bits for the integer types. -/
def crossIn (g : Group) (ty : Nat) (fmt : Word) (a : Opnd) (l : Nat) : Nat × Flags :=
  let x := vval g ty a l
  if crossFloat ty then asRead (tyFmt ty).1 (fmtFTZ fmt) x else (x, 0)

/-- REDUCE (R186 to R188). -/
def execReduce (o : Op) (s : State) : Out :=
  crossLane o s fun i e =>
    let ty := o.ty.toNat
    let inp (l : Nat) := crossIn i.g ty i.sp.fmt o.a l
    let leaves := (List.range i.g.width).map fun l => if e.contains l then some (inp l).1 else none
    let r := tree (combine (o.fn.toNat % 8) ty i.sp.fmt) (Nat.log2 i.g.width) leaves
    let fl := e.foldl (fun f l => f ||| (inp l).2) r.2
    s.crossDone .reduce o i e (fun _ => r.1.getD 0) (fun _ => false) fl

/-- The identity that the lowest lane of an exclusive SCAN receives (R186). -/
def scanIdent (op ty : Nat) : Nat :=
  let f := (tyFmt ty).1
  let n := if ty64 ty then 64 else 32
  match op with
  | 1 => if crossFloat ty then f.infCode else if ty == 1 || ty == 3 then 2 ^ (n - 1) - 1 else 2 ^ n - 1
  | 2 => if crossFloat ty then f.infCode + f.signBit else if ty == 1 || ty == 3 then 2 ^ (n - 1) else 0
  | 3 => 2 ^ n - 1
  | _ => 0

/-- SCAN (R186 to R188). DESIGN CHOICE: under `.excl` the spec does not say whether the last combination, whose result no lane receives, is
performed; it is, and its flags are raised with the others (log 94). -/
def execScan (o : Op) (s : State) : Out :=
  crossLane o s fun i e =>
    let ty := o.ty.toNat
    let op := o.fn.toNat % 8
    let ins := e.map fun l => crossIn i.g ty i.sp.fmt o.a l
    let r : List Nat × Flags := match ins with
      | [] => ([], 0)
      | a :: rest => let z := scanList (combine op ty i.sp.fmt) a.1 (rest.map fun (y : Nat × Flags) => y.1); (a.1 :: z.1, z.2)
    let fl := ins.foldl (fun f a => f ||| a.2) r.2
    let outs := if 8 ≤ o.fn.toNat then scanIdent op ty :: r.1 else r.1
    s.crossDone .scan o i e (fun l => outs.getD (e.idxOf l) 0) (fun _ => false) fl

/-- Are two keys of MATCH equal (R189)? -/
def keyEq (ty a b : Nat) : Bool :=
  if crossFloat ty then let f := (tyFmt ty).1; (f.read false a).1.eq (f.read false b).1 else a == b

/-- MATCH (R189): the mask form also zeroes D in the split's other non-idle lanes. -/
def execMatchKeys (o : Op) (s : State) : Out :=
  crossLane o s fun i e =>
    let ty := o.ty.toNat
    let key (l : Nat) := vval i.g ty o.a l
    if o.fn == 1 then s.crossDone .matchKeys o i e (fun _ => 0) fun l => e.all fun m => l ≤ m || !keyEq ty (key l) (key m)
    else
      s.crossDone .matchKeys o i (liveLanes i.g i.sp)
        (fun l => if e.contains l then (laneMask (e.filter fun m => keyEq ty (key l) (key m))).toNat else 0) fun _ => false

/-- Do two identifiers agree from a level up (R8)? -/
def agreeFrom (p : Params) (lev : Nat) (a b : DWord) : Bool :=
  let n := (p.widths.take lev).sum
  64 ≤ n || a >>> n == b >>> n

/-- AGEMASK (R190). -/
def execAgemask (o : Op) (s : State) : Out :=
  crossLane o s fun i e =>
    let b := scalar32 i.sp o.b
    let low := i.g.lane (e.headD 0)
    let age (l : Nat) := (i.g.lane l).age
    let out (p : Nat → Bool) := s.crossDone .agemask o i e (fun _ => 0) p
    match o.fn.toNat with
    | 0 => out fun l => (age l).toNat == b % 65536
    | 1 => out fun l => age l == low.age
    | _ => if 6 < b then s.raise i illop9 e
        else out fun l => agreeFrom (s.wgOf i.g).par b (i.g.lane l).workid low.workid

end Sys2Proof.Machine
end

