-- ==== Sys2Proof/Machine/Area.lean ====
section
/-! DEFINITION. The layout of a save area (R412): the bytes of a workgroup's header, local store, operand buffers, group sections and private
words, and what a load reads back from them. Where R412 gives a region's size and contents but not each field's place, the places are the
model's (log 22). What a workgroup holds and R412 does not list is not in the area: the device keeps it with the image (log 103). -/
namespace Sys2Proof.Machine

/-- Bytes followed by zeros up to a length. -/
def padTo (n : Nat) (bs : List Byte) : List Byte := bs ++ List.replicate (n - bs.length) 0

/-- The saved word of a q3 entry: the gathered word, or for a fault the low part of its address. -/
def GEntry.word (e : GEntry) : Nat := if e.fault.isSome then e.addr.toNat % 2 ^ 32 else e.val.toNat

/-- A q3 entry from its word; a faulted one as the image keeps it. -/
def GEntry.ofSaved (w : Nat) (old : Option GEntry) : GEntry :=
  match old with
  | some e => if e.fault.isSome && e.word == w then e else { val := BitVec.ofNat 32 w }
  | none => { val := BitVec.ofNat 32 w }

/-- The 64 bytes of a lane (R412). -/
def Lane.savedBytes (l : Lane) : List Byte :=
  padTo 64 (toBytes 8 l.workid.toNat ++ toBytes 2 l.age.toNat ++
    toBytes 1 (l.rcpt.toNat + (if l.idle then 4 else 0) + if l.exm then 8 else 0) ++ toBytes 1 l.p.toNat ++ toBytes 4 l.vlfsr.toNat ++
    toBytes 4 l.mlfsr.toNat ++ toBytes 3 (l.q0.length + 2 ^ 7 * l.q1.length + 2 ^ 13 * l.q2.length + 2 ^ 18 * l.q3.length))

/-- The 480 bytes of a lane's queues (R412). -/
def Lane.queueBytes (l : Lane) : List Byte :=
  let q (n : Nat) (ws : List Nat) : List Byte := padTo (4 * n) (ws.map (toBytes 4)).flatten
  q 64 (l.q0.map (·.toNat)) ++ q 32 (l.q1.map (·.toNat)) ++ q 16 (l.q2.map (·.toNat)) ++ q 8 (l.q3.map (·.word))

/-- The wait of a split as a code with a barrier's number and phase: 0 ready, 1 barrier, 2 gathering, 3 gathering with its time-out
delivered. An instruction that had not proceeded, and DBWAIT, are tried again (R410). -/
def Wait.saved : Wait → Nat × Nat
  | .barrier b p _ => (1 + 16 * b.toNat, p.toNat)
  | .gather (some _) => (2, 0)
  | .gather none => (3, 0)
  | _ => (0, 0)

/-- The 64 bytes of a split-table entry (R412). -/
def Split.savedBytes (x : Split) : List Byte :=
  let h : TrapRec := x.held.getD {}
  padTo 64 (toBytes 1 (1 + 2 * x.priv.toNat + (if x.held.isSome then 8 else 0)) ++
    toBytes 1 x.flags.toNat ++ toBytes 2 x.slices.toNat ++ toBytes 8 x.pc.toNat ++ toBytes 8 x.order.toNat ++ toBytes 4 x.fmt.toNat ++
    toBytes 1 x.wait.saved.1 ++ toBytes 1 0 ++ toBytes 2 x.mark.toNat ++ toBytes 2 x.wait.saved.2 ++
    toBytes 1 h.cause.toNat ++ toBytes 1 h.shadow.toNat ++ toBytes 4 h.aux.toNat ++ toBytes 8 h.pc.toNat ++ toBytes 8 h.addr.toNat ++
    toBytes 8 h.lanes.toNat)

/-- FMT or SFMT as a load takes it: [31:21] read as zero (R3, R71). -/
def fmtOfSaved (w : Nat) : Word := BitVec.ofNat 32 (w % 2 ^ 21)

/-- Does CTXLOAD accept a word for FMT (R71)? -/
def fmtLoads (w : Nat) : Bool := fld w 31 21 == 0 && fld w 12 10 ≤ 4

/-- The 16 bytes of a stack entry (R367, R412). -/
def StackEntry.savedBytes (e : StackEntry) : List Byte :=
  padTo 16 (toBytes 8 (e.tpc.toNat + (if e.phase then 2 ^ 50 else 0) + 2 ^ 51 * e.tmask.toNat + 2 ^ 55 * e.fmask.toNat + 2 ^ 59 * e.sexm.toNat) ++
    toBytes 4 e.sfmt.toNat)

/-- A stack entry from its bytes as one number. -/
def StackEntry.ofSaved (w : Nat) : StackEntry :=
  { phase := tb w 50, tpc := BitVec.ofNat 50 w, tmask := BitVec.ofNat 4 (w / 2 ^ 51), fmask := BitVec.ofNat 4 (w / 2 ^ 55),
    sexm := BitVec.ofNat 4 (w / 2 ^ 59), sfmt := fmtOfSaved (w / 2 ^ 64) }

/-- The 144 bytes of a slice's stack: depth, then the entries from the outermost. -/
def stackBytes (st : List StackEntry) : List Byte := padTo 144 (padTo 16 (toBytes 1 st.length) ++ (st.reverse.map (·.savedBytes)).flatten)

/-- The 32 bytes of a transfer in flight: its accumulator, its form and the rows already moved (R409, R412). -/
def MatOp.savedBytes (m : MatOp) : List Byte :=
  padTo 32 (toBytes 1 (128 + m.acc + (if m.kind == .mfill then 16 else 0) + (if m.z then 32 else 0) + if m.ls then 64 else 0) ++
    toBytes 1 m.slice ++ toBytes 1 m.round ++ toBytes 1 m.tags.toNat ++ toBytes 2 m.slices.toNat ++ toBytes 8 m.idle.toNat ++
    toBytes 4 m.base ++ toBytes 4 m.pitch ++ toBytes 8 m.id)

/-- A transfer from its bytes. -/
def MatOp.ofSaved (r : Nat → Nat → Nat) (off : Nat) : Option MatOp :=
  let b := r off 1
  if b < 128 then none
  else some { id := r (off + 22) 8, kind := if tb b 4 then .mfill else .mdrain, acc := b % 4, slice := r (off + 1) 1, slices := BitVec.ofNat 16 (r (off + 4) 2),
              fmt := 0, lanes := 0, idle := BitVec.ofNat 64 (r (off + 6) 8), ls := tb b 6, z := tb b 5, base := r (off + 14) 4,
              pitch := r (off + 18) 4, round := r (off + 2) 1, tags := BitVec.ofNat 8 (r (off + 3) 1) }

/-- Is an operation a transfer between an accumulator and queues or the local store, which a save does not wait for (R409)? -/
def MatOp.transfer (m : MatOp) : Bool := m.kind == .mdrain || m.kind == .mfill

/-- The transfers that an area records: four at most (R412). -/
def Group.recorded (g : Group) : List MatOp := (g.mops.filter (·.transfer)).take 4

/-- Matrix operations in the order of their issue. -/
def byIssue : List MatOp → List MatOp
  | [] => []
  | m :: ms => let r := byIssue ms; r.takeWhile (fun y => y.id < m.id) ++ m :: r.dropWhile fun y => y.id < m.id

/-- The 16 bytes of a handle with the barrier that its operation is bound to (R412). -/
def Handle.savedBytes (h : Handle) (bar : Option (BitVec 4)) : List Byte :=
  toBytes 1 h.st.toNat ++ toBytes 1 h.kind ++ padTo 6 (toBytes 1 (match bar with | some b => b.toNat | none => 0xFF)) ++ toBytes 8 h.op

/-- What a task's budget counter has counted: it stops once BUDGET is delivered (R356, R410). -/
def TaskRun.count (t : TaskRun) (clock : DWord) : Nat := if t.spent then t.budget.toNat else (clock - t.start).toNat

/-- The 64 bytes at the start of a group section (R412): GROUPID, retired flag, trap registers, TPRIV, TOWNER and the budget counter, with SEALSEQ
beside it (R433). -/
def Group.headBytes (g : Group) (clock : DWord) : List Byte :=
  padTo 64 (toBytes 1 (g.gid.toNat + if g.retired then 16 else 0) ++
    toBytes 1 g.trap.cause.toNat ++ toBytes 1 (g.trap.shadow.toNat + 16 * g.towner.toNat) ++ toBytes 1 g.tpriv.toNat ++ toBytes 4 g.trap.aux.toNat ++
    toBytes 8 g.trap.pc.toNat ++ toBytes 8 g.trap.addr.toNat ++ toBytes 8 g.trap.lanes.toNat ++ toBytes 8 ((g.task.map (·.count clock)).getD 0) ++
    toBytes 4 g.sealSeq.toNat)

/-- Entries by number, or zero bytes where there is none. -/
def slotsBytes (n size : Nat) (f : Nat → Option (List Byte)) : List Byte := ((List.range n).map fun k => padTo size ((f k).getD [])).flatten

/-- A group section (R412); `bar` gives the barrier of an operation, `frame` the trap frame. -/
def Group.savedBytes (g : Group) (p : Params) (clock : DWord) (bar : Handle → Option (BitVec 4)) (frame : List Byte) : List Byte :=
  let q4 := (g.q4.map fun r => toBytes 4 r.w0.toNat ++ toBytes 4 r.w1.toNat ++ toBytes 4 r.w2.toNat ++ toBytes 4 r.w3.toNat).flatten
  padTo p.section
    (padTo 0x100 (g.headBytes clock) ++
     (g.handles.map fun h => h.savedBytes (bar h)).flatten ++
     slotsBytes 16 64 (fun k => (g.split? k).map (·.savedBytes)) ++
     slotsBytes 16 256 (fun k => (g.split? k).map fun x => (((List.range 64).map fun r => toBytes 4 (x.s.get r).toNat)).flatten) ++
     padTo 0xA00 ((g.rstacks.map stackBytes).flatten) ++
     padTo 256 q4 ++ toBytes 8 g.q4.length ++ toBytes 8 g.q4pos ++
     padTo 128 ((g.recorded.map (·.savedBytes)).flatten) ++
     padTo 112 ((g.octets.map fun o => toBytes 1 (o.tag.toNat + 16 * o.poison.toNat)).flatten) ++
     padTo 512 frame ++
     ((g.lanes.map (·.savedBytes)).flatten) ++
     (((List.range p.vregs).map fun r => (g.lanes.map fun l => toBytes 4 (l.v.get r).toNat).flatten)).flatten ++
     ((g.lanes.map (·.queueBytes)).flatten) ++
     ((g.octets.map fun o => ((List.range 1024).map fun k => toBytes 8 (o.elems.get k).toNat).flatten)).flatten)

/-- The barrier registers' parts of a header: words, retired-member masks, FIRST and postmark records (R412). FIRST is zero while the open
phase has no arrival. -/
def barBytes (bars : List BarReg) : List Byte :=
  (bars.map fun b => toBytes 8 b.word.toNat).flatten ++ (bars.map fun b => toBytes 4 b.left.toNat).flatten ++
    padTo 0xC0 ((bars.map fun b => toBytes 8 (if b.seen then b.first.toNat else 0)).flatten) ++
    (bars.map fun b => (b.post.map fun e => toBytes 2 e.toNat).flatten).flatten

/-- The parts of a barrier register read back from a header; who has arrived is read off the MARKs when the groups are restored. -/
def BarReg.ofSaved (r : Nat → Nat → Nat) (n : Nat) : BarReg :=
  let w := r (0x80 + 8 * n) 8
  { tb := BitVec.ofNat 32 (w / 2 ^ 32), phase := BitVec.ofNat 16 (w / 2 ^ 16), arrived := BitVec.ofNat 8 (w / 2 ^ 8), expected := BitVec.ofNat 8 w,
    left := BitVec.ofNat 16 (r (0x100 + 4 * n) 4), first := BitVec.ofNat 64 (r (0x140 + 8 * n) 8), seen := w / 2 ^ 8 % 256 != 0 || r (0x140 + 8 * n) 8 != 0,
    post := (List.range 68).map fun k => BitVec.ofNat 16 (r (0x200 + 136 * n + 2 * k) 2) }

/-- The header of an area (R412). -/
def headerBytes (s : State) (w : Workgroup) (reason : BitVec 8) (loaded : Bool) (pending : Nat) (producerGone : Bool) : List Byte :=
  let p := w.par
  padTo 4096
    (padTo 0x80 (toBytes 2 (s.versel.toNat / 2 ^ 32) ++ toBytes 1 reason.toNat ++ toBytes 1 ((if loaded then 1 else 0) + if w.bufset.isSome then 2 else 0) ++
      toBytes 2 p.groups ++ toBytes 1 (if p.width == 16 then 0 else if p.width == 32 then 1 else 2) ++ toBytes 1 p.vregs ++ toBytes 2 p.localkb ++
      toBytes 1 (if producerGone then 0xFF else p.producer.toNat) ++ toBytes 1 (dieOf w.core) ++ toBytes 2 (s.ctxOf w.core).toNat ++ toBytes 2 pending ++
      toBytes 8 (s.launchSeq w.launch) ++ toBytes 8 w.wgid.toNat ++ toBytes 8 w.next ++ toBytes 8 w.stop ++ padTo 16 (toBytes 4 p.section) ++
      toBytes 8 p.privwords.toNat) ++ barBytes w.bars)

/-- A split of an image (R410, R412): its waits begin anew, and a barrier wait whose phase has completed is over. `old` is what the image keeps
of it beside the area. -/
def Split.ofSaved (r : Nat → Nat → Nat) (clock : DWord) (bars : List BarReg) (k : Nat) (old : Option Split) : Option Split :=
  let o := 0x200 + 64 * k
  let b := r o 1
  if b % 2 == 0 then none
  else
    let ph := BitVec.ofNat 16 (r (o + 28) 2)
    let h : TrapRec := { cause := BitVec.ofNat 8 (r (o + 30) 1), shadow := BitVec.ofNat 4 (r (o + 31) 1), aux := BitVec.ofNat 32 (r (o + 32) 4),
                         pc := BitVec.ofNat 64 (r (o + 36) 8), addr := BitVec.ofNat 64 (r (o + 44) 8), lanes := BitVec.ofNat 64 (r (o + 52) 8) }
    let wc := r (o + 24) 1
    let pc := BitVec.ofNat 50 (r (o + 4) 8)
    let y : Split := old.getD { slices := 0, pc := 0 }
    let x : Split :=
      { slices := BitVec.ofNat 16 (r (o + 2) 2), pc := pc,
        s := Store.setList [] 0 ((List.range 64).map fun i => BitVec.ofNat 32 (r (0x600 + 256 * k + 4 * i) 4)),
        fmt := fmtOfSaved (r (o + 20) 4), flags := BitVec.ofNat 5 (r (o + 1) 1), priv := BitVec.ofNat 2 (b / 2), order := BitVec.ofNat 64 (r (o + 12) 8),
        mark := BitVec.ofNat 16 (r (o + 26) 2), held := if tb b 3 then some h else none, jumped := y.jumped || y.pc != pc,
        rerun := y.rerun, skip := y.skip, owed := y.owed, owedBy := y.owedBy, fences := y.fences, pend := y.pend, timedOut := y.timedOut, lastClock := y.lastClock,
        wait := match wc % 16 with
          | 2 => .gather (some clock)
          | 3 => .gather none
          | _ => .ready }
    if wc % 16 != 1 then some x
    else if (bars.getD (wc / 16) {}).phase == ph then some { x with wait := .barrier (BitVec.ofNat 4 (wc / 16)) ph clock }
    else some (x.adv waitUnits)

/-- A lane of an image, of number l (R412); `old` is what the image keeps of it beside the area. -/
def Lane.ofSaved (r : Nat → Nat → Nat) (p : Params) (l : Nat) (old : Lane) : Lane :=
  let o := 0x2400 + 64 * l
  let f := r (o + 10) 1
  let c := r (o + 20) 3
  let vo := 0x2400 + 64 * p.width
  let qo := vo + 4 * p.vregs * p.width + 480 * l
  let q (base n : Nat) : List Word := (List.range n).map fun k => BitVec.ofNat 32 (r (qo + base + 4 * k) 4)
  let id := BitVec.ofNat 64 (r o 8)
  { v := Store.setList [] 0 ((List.range p.vregs).map fun i => BitVec.ofNat 32 (r (vo + 4 * (i * p.width + l)) 4)),
    p := BitVec.ofNat 8 (r (o + 11) 1), idle := tb f 2, exm := tb f 3, workid := id, wgid := if p.kind == 0 then wgidOf p id else 0,
    age := BitVec.ofNat 16 (r (o + 8) 2), rcpt := BitVec.ofNat 2 f, vlfsr := BitVec.ofNat 32 (r (o + 12) 4), mlfsr := BitVec.ofNat 32 (r (o + 16) 4),
    q0 := q 0 (c % 128), q1 := q 256 (c / 2 ^ 7 % 64), q2 := q 384 (c / 2 ^ 13 % 32), gbuf := if q 384 (c / 2 ^ 13 % 32) == old.q2 then old.gbuf else [],
    q3 := (List.range (c / 2 ^ 18)).map fun k => GEntry.ofSaved (r (qo + 448 + 4 * k) 4) old.q3[k]? }

/-- A group of an image (R410, R412); `old` is what the image keeps of it beside the area. -/
def Group.ofSaved (r : Nat → Nat → Nat) (p : Params) (wg : Nat) (clock : DWord) (bars : List BarReg) (old : Option Group) : Group :=
  let b := r 0 1
  let y : Group := old.getD { wg := 0, gid := 0, width := p.width, lanes := [], splits := [], rstacks := [], handles := [] }
  let acc := 0x2400 + p.width * (64 + 4 * p.vregs + 480)
  { wg := wg, gid := BitVec.ofNat 4 b, width := p.width, lanes := (List.range p.width).map fun l => Lane.ofSaved r p l (y.lanes.getD l {}),
    splits := (List.range 16).filterMap fun k => Split.ofSaved r clock bars k (y.split? k),
    rstacks := (List.range (p.width / 4)).map fun k =>
      ((List.range (r (0x1600 + 144 * k) 1)).map fun e => StackEntry.ofSaved (r (0x1610 + 144 * k + 16 * e) 16)).reverse,
    handles := (List.range 16).map fun h => { st := BitVec.ofNat 2 (r (0x100 + 16 * h) 1), kind := r (0x101 + 16 * h) 1, op := r (0x108 + 16 * h) 8 },
    q4 := (List.range (r 0x2100 8)).map fun k => ⟨BitVec.ofNat 32 (r (0x2000 + 16 * k) 4), BitVec.ofNat 32 (r (0x2004 + 16 * k) 4),
      BitVec.ofNat 32 (r (0x2008 + 16 * k) 4), BitVec.ofNat 32 (r (0x200C + 16 * k) 4)⟩,
    q4pos := r 0x2108 8,
    trap := { cause := BitVec.ofNat 8 (r 1 1), shadow := BitVec.ofNat 4 (r 2 1), aux := BitVec.ofNat 32 (r 4 4), pc := BitVec.ofNat 64 (r 8 8),
              addr := BitVec.ofNat 64 (r 16 8), lanes := BitVec.ofNat 64 (r 24 8) },
    tpriv := BitVec.ofNat 2 (r 3 1), towner := BitVec.ofNat 4 (r 2 1 / 16),
    octets := (List.range (p.width / 8)).map fun o =>
      { elems := Store.setList [] 0 ((List.range 1024).map fun k => BitVec.ofNat 64 (r (acc + 8 * (1024 * o + k)) 8)),
        tag := BitVec.ofNat 4 (r (0x2190 + o) 1), poison := BitVec.ofNat 4 (r (0x2190 + o) 1 / 16) },
    mops := byIssue (((List.range 4).filterMap fun k => MatOp.ofSaved r (0x2110 + 32 * k)) ++ y.mops.filter fun m => !y.recorded.contains m),
    aside := y.aside, sealSeq := BitVec.ofNat 32 (r 40 4), first := y.first, admitted := clock, started := true, retired := tb b 4, ending := y.ending,
    task := y.task.map fun t => { t with start := clock - BitVec.ofNat 64 (r 32 8) } }

/-- The groups of an image that have arrived at barrier n, and those of which some split has, as their MARKs show (R412, R420). -/
def BarReg.marks (b : BarReg) (gs : List Group) (n : Nat) : BarReg :=
  let f (p : Group → Bool) : BitVec 16 := maskOf 16 ((gs.filter fun g => !g.retired && p g).map fun g => g.gid.toNat)
  { b with who := f fun g => g.splits != [] && g.splits.all fun x => x.mark.getLsbD n, marked := f fun g => g.splits.any fun x => x.mark.getLsbD n }

/-- The 64 KiB pages of an area as base and hash of physical memory, where every one can be accessed (R414). -/
def State.areaPages (s : State) (ctx : BitVec 16) (ctxt : Nat) (acc : Acc) (area size : Nat) : Option (List (Nat × Nat)) :=
  (List.range ((size + 65535) / 65536)).foldr (fun k l => match l with
    | none => none
    | some l =>
      let va := area + 65536 * k
      if 2 ^ 52 ≤ va then none
      else match (s.walk none ctx ctxt acc va).2 with
      | .error _ => none
      | .ok w => if (leafCheck acc va w.leaf w.level).isSome then none
          else some ((pteAddr w.leaf (pageBits w.level) + va % 2 ^ pageBits w.level, pteHash w.leaf) :: l)) (some [])

/-- The place of an offset in an area. -/
def State.areaPlace (s : State) (pages : List (Nat × Nat)) (off : Nat) : Nat :=
  let p := pages.getD (off / 65536) (0, 0)
  s.place (p.1 + off % 65536) p.2

/-- The n bytes at an offset of an area, as a number. -/
def State.areaRead (s : State) (pages : List (Nat × Nat)) (off n : Nat) : Nat :=
  ofBytes ((List.range n).map fun i => Store.get s.mem (s.areaPlace pages (off + i)))

/-- Write granules to an area from an offset on; a marked one is left poisoned. -/
def State.areaWrite (s : State) (ctx : BitVec 16) (pages : List (Nat × Nat)) : Nat → List (List Byte × Bool) → State
  | _, [] => s
  | off, (bs, bad) :: rest =>
    let p := s.areaPlace pages off
    let s := s.homeWr ctx p bs
    (if bad then s.poisonGran (p / 32) else s).areaWrite ctx pages (off + 32) rest

/-- Bytes cut into granules; `bad k` marks the k-th. -/
def granList (bad : Nat → Bool) : Nat → Nat → List Byte → List (List Byte × Bool)
  | 0, _, _ => []
  | n + 1, k, bs => (bs.take 32, bad k) :: granList bad n (k + 1) (bs.drop 32)

end Sys2Proof.Machine
end

