-- ==== Sys2Proof/Machine/Save.lean ====
section
/-! DEFINITION. Pre-emption, saving and loading of workgroups (R409 to R411, R413, R414), completions that reach a saved image or a live
register (R261, R410), and the abort of a launch (R416). -/
namespace Sys2Proof.Machine

/-- The first page of an area that an instruction cannot access: its fault, with TRAPADDR holding the area's address (R414). -/
def State.areaFault (s : State) (i : Iss) (acc : Acc) (area : Nat) : List Nat → State × Option Bad
  | [] => (s, none)
  | k :: ks => match s.gx i acc false (area + 65536 * k) with
    | (s, .error b) => (s, some { b with addr := BitVec.ofNat 64 area })
    | (s, .ok _) => s.areaFault i acc area ks

/-- The numbers of the pages of an area after the first. -/
def morePages (size : Nat) : List Nat := rangeFrom 1 ((size + 65535) / 65536 - 1)

/-- CTXSAVE (R414): the workgroup is pre-empted with REASON 0; the split's program counter is that of the next instruction. -/
def execCtxsave (o : Op) (s : State) : Out :=
  splitScope o s fun i =>
    let a := scalar64 i.sp o.a
    if i.sp.priv == 0 then s.raiseAll i { levelBad true 1 0 with addr := BitVec.ofNat 64 a }
    else if a % 65536 != 0 then s.raiseAll i { cause := .align, aux := 1, addr := BitVec.ofNat 64 a }
    else match s.areaFault i .write a (0 :: morePages (s.wgOf i.g).par.areaSize) with
    | (s, some b) => s.raiseAll i b
    | (s, none) => (s.done i o).askPreempt i.g.wg { area := BitVec.ofNat 64 a, reason := 0 }

/-- PREEMPTION (R409). -/
def execPreemption (wg : Nat) (area : DWord) (s : State) : Out := .next (s.askPreempt wg { area := area, reason := 0x3F })

/-- The groups of a workgroup with their keys. -/
def State.groupsOf (s : State) (wg : Nat) : List (Nat × Group) := s.groups.filter fun e => e.2.wg == wg

/-- Has a split's pending instruction passed its fault point, as far as it can? On a core without a healthy sub-array an MDRAIN behind an
operation that cannot be performed is saved with it (R338). -/
def Group.pendQuiet (g : Group) (fenced : Bool) (x : Split) : Bool :=
  match x.pend with
  | none => true
  | some p => fenced && p.opc == .mdrain && g.mops.any fun m => m.id == p.id && !g.pointReady m

/-- Has every instruction that a group issued completed, MDRAIN and MFILL in flight apart (R409)? On a core without a healthy sub-array, matrix
operations are saved as not performed (R338). -/
def Group.quiet (g : Group) (fenced : Bool) : Bool :=
  (g.started || g.retired) && g.splits.all (g.pendQuiet fenced) && g.results.isEmpty &&
    (g.mops.all fun m => fenced || m.transfer) && g.lanes.all fun l => g.retired || (l.unread == 0 && l.movable == 0)

/-- May a pre-empted workgroup be saved (R409, step 2)? One that has nothing left to do retires instead, and a BUDGET that is due at the same
boundary is delivered first (R473). -/
def State.saveReady (s : State) (wg : Nat) (w : Workgroup) : Bool :=
  w.preempt.isSome && (w.holds || !s.groupsDone wg) && ((s.groupsOf wg).all fun e => e.2.quiet ((s.core w.core).mat.healthy == 0) && !s.budgetFirst e.2) &&
    s.copies.all fun (c : CopyOp) => c.wg != wg

/-- The barrier that a handle's operation is bound to. -/
def State.handleBar (s : State) (h : Handle) : Option (BitVec 4) :=
  if h.kind != 3 then none
  else match s.tierOps.find? fun (t : TierOp) => t.id == h.op with
    | some t => t.bar
    | none => none

/-- The completions that a workgroup still waits for: its futures of TIERPF, LAUNCH and CTXLOAD, and prefetches bound to its barriers that
no handle names (R410). -/
def State.pendingOps (s : State) (wg : Nat) : List SavedOp :=
  let hs := ((s.groupsOf wg).map fun e => (e.2.handles.zipIdx.filter fun h => h.1.st == 1 && 3 ≤ h.1.kind).map fun h =>
    ({ id := h.1.op, gid := e.2.gid.toNat, handle := some h.2, bar := s.handleBar h.1 } : SavedOp)).flatten
  hs ++ ((s.tierOps.filter fun (t : TierOp) => t.wg == wg && t.bar.isSome && !(hs.any fun h => h.id == t.id)).map fun t =>
    { id := t.id, gid := 0, handle := none, bar := t.bar })

/-- The granules of a workgroup's private words, written back from its core's L1 first (R409). -/
def State.privGrans (s : State) (w : Workgroup) (key : Nat) : State × List (List Byte × Bool) :=
  (List.range w.par.privwords.toNat).foldl (fun (a : State × List (List Byte × Bool)) k =>
    let n := 4 * w.par.width
    match a.1.sysXlate (a.1.ctxOf w.core) (a.1.part w.part).ctxtbase.toNat .read (a.1.poolWord w key w.par.width 0 k) with
    | (s, .error _) => (s, a.2 ++ granList (fun _ => false) (n / 32) 0 (List.replicate n 0))
    | (s, .ok t) =>
      let s := (s.linePlaces t n).foldl (fun s p => s.cleanLine (p / 128) false) s
      let grans := ((s.linePlaces t n).map fun p => granules p (min 128 n)).flatten
      (s, a.2 ++ granList (fun g => s.gran (grans.getD g 0) != .ok) (n / 32) 0 (s.lineBytes t n))) (s, [])

/-- The private words of every group, by GROUPID. -/
def State.allPriv (s : State) (w : Workgroup) : State × List (List Byte × Bool) :=
  w.slots.foldl (fun (a : State × List (List Byte × Bool)) slot => let r := a.1.privGrans w (64 * w.core + slot); (r.1, a.2 ++ r.2)) (s, [])

/-- The 256 bytes of a slot's trap frame; zeros where it cannot be read. -/
def State.frameBytes (s : State) (w : Workgroup) (key : Nat) : List Byte :=
  let a := ((s.part w.part).tfbase.toNat + 256 * (64 * s.coreIndex w.part w.core + key % 64)) % 2 ^ 64
  match (s.sysXlate (s.ctxOf w.core) (s.part w.part).ctxtbase.toNat .read a).2 with
  | .error _ => List.replicate 256 0
  | .ok t => s.lineBytes t 256

/-- A group with each split that waits for nothing at an instruction, past the pads before it: there its program counter is saved (R41, R439). -/
def State.atBoundary (s : State) (key : Nat) (g : Group) : Group :=
  { g with splits := g.splits.map fun x => if x.wait == .ready then { x with pc := s.pastPads ⟨⟨key, x.id⟩, g, x⟩ allBlocks x.pc } else x }

/-- The granules of an area up to its private words (R412). -/
def State.areaGrans (s : State) (wg : Nat) (w : Workgroup) (reason : BitVec 8) (loaded : Bool) (pending : Nat) : List (List Byte × Bool) :=
  let p := w.par
  let gone := !p.buffers || (s.groupsOf wg).any fun e => e.2.gid.toNat == p.producer.toNat && e.2.retired
  let base := 131072 * w.bufset.getD 0
  let plain (bs : List Byte) := granList (fun _ => false) (bs.length / 32) 0 bs
  plain (headerBytes s w reason loaded pending gone) ++
    granList (fun k => w.lsGran k != .ok) (32 * p.localkb) 0 (Store.getList w.ls 0 (1024 * p.localkb)) ++
    (if p.buffers then granList (fun k => (s.core w.core).bufGran (base / 32 + k) != .ok) 4096 0 (Store.getList (s.core w.core).bufs base 131072) else []) ++
    ((List.range p.groups).map fun g => plain (match (s.groupsOf wg).find? fun e => e.2.gid.toNat == g with
      | some (key, y) => (s.atBoundary key y).savedBytes p s.clock s.handleBar (s.frameBytes w key)
      | none => padTo p.section (toBytes 1 (g + 16)))).flatten

/-- SAVE_AREA_WRITE (R409, steps 3 and 4): the area is written and the workgroup leaves its core. It waits while a page of the area cannot
be written. -/
def State.saveArea (s : State) (wg : Nat) : State :=
  let s := if ((s.wgs.get? wg).any fun w => s.saveReady wg w) then s.barFlush wg else s
  match s.wgs.get? wg with
  | none => s
  | some w => match w.preempt with
    | none => s
    | some r =>
      if !s.saveReady wg w then s
      else
        let ctx := s.ctxOf w.core
        match s.areaPages ctx (s.part w.part).ctxtbase.toNat .write r.area.toNat w.par.areaSize with
        | none => s
        | some pages =>
          let ops := s.pendingOps wg
          let gs := s.groupsOf wg
          let q := s.allPriv w
          let s := q.1.areaWrite ctx pages 0 (s.areaGrans wg w r.reason r.reload ops.length ++ q.2)
          let im : Image := { area := r.area, ctx := ctx, part := w.part, launch := w.launch, die := dieOf w.core, wgid := w.wgid,
                              task := w.task, tile := w.tile, tiles := w.tiles, groups := gs.map fun e => s.atBoundary e.1 e.2, ops := ops, queued := r.reload }
          { s.dropWg wg with images := s.images.put s.nextId im, nextId := s.nextId + 1 }

/-- SAVE_AREA_WRITE (R409, R412). -/
def execSaveAreaWrite (wg : Nat) (s : State) : Out := .next (s.saveArea wg)

/-- The image in an area of a context. -/
def State.imageAt (s : State) (ctx : BitVec 16) (area : Nat) : Option (Nat × Image) :=
  s.images.find? fun e => e.2.ctx == ctx && e.2.area.toNat == area

/-- The launch that an image in memory belongs to, where it runs: one with its SEQ (R414). Child launches, and launches entered for a peer, have
SEQs that others may have: there the record of the area, or of another image with its WGID and DIE, tells which (log 22). -/
def State.imageLaunch (s : State) (part : Nat) (ctx : BitVec 16) (area seq wgid die : Nat) : Option (Nat × Launch) :=
  let ls := s.launches.filter fun e => e.2.part == part && e.2.seq.toNat == seq && !e.2.aborted
  let mine (im : Image) : Option (Nat × Launch) := if im.queued then none else ls.find? fun e => e.1 == im.launch
  match (s.imageAt ctx area).bind fun e => mine e.2 with
  | some e => some e
  | none => match s.images.findSome? fun e => if e.2.wgid.toNat == wgid && e.2.die == die then mine e.2 else none with
    | some e => some e
    | none => ls.find? fun e => e.2.parent.isNone && !e.2.forPeer

/-- The parameters of a saved workgroup of a launch. -/
def Params.saved (p : Params) (task : Bool) : Params := if task then p.forTask 0 0 else p

/-- Does the area hold the splits that an image was saved with, by their slices, program counters, ORDER and FMT, which no completion changes
(R410, R412)? -/
def State.areaMatches (s : State) (pages : List (Nat × Nat)) (p : Params) (im : Image) : Bool :=
  im.groups.all fun g => (List.range 16).all fun k =>
    s.areaRead pages (p.areaGroup g.gid.toNat + 0x200 + 64 * k) 24 == ofBytes ((((g.split? k).map (·.savedBytes)).getD []).take 24)

/-- What the device keeps of the image in an area: of the records with its launch, WGID and DIE the area's own, if its splits are in the area;
else one whose splits are, which has been moved here; else the area's own, or a new one (R410, R414; log 103). -/
def State.imageRecord (s : State) (im : Image) (pages : List (Nat × Nat)) (p : Params) : Nat × Image :=
  let rs := s.images.filter fun e => !e.2.queued && e.2.launch == im.launch && e.2.die == im.die && e.2.wgid == im.wgid
  let own (e : Nat × Image) : Bool := e.2.ctx == im.ctx && e.2.area == im.area
  let same := rs.filter fun e => s.areaMatches pages p e.2
  match (same.find? own).or (same.head?.or (rs.find? own)) with
  | some e => (e.1, { e.2 with area := im.area, ctx := im.ctx })
  | none => (s.nextId, im)

/-- Are the FMT and SFMT words of an image's splits and stack entries ones that CTXLOAD accepts (R71, R367)? -/
def State.areaFmts (s : State) (pages : List (Nat × Nat)) (p : Params) : Bool :=
  (List.range p.groups).all fun g =>
    let r (off n : Nat) : Nat := s.areaRead pages (p.areaGroup g + off) n
    ((List.range 16).all fun k => r (0x200 + 64 * k) 1 % 2 == 0 || fmtLoads (r (0x200 + 64 * k + 20) 4)) &&
      (List.range (p.width / 4)).all fun k => (List.range (min 8 (r (0x1600 + 144 * k) 1))).all fun e => fmtLoads (r (0x1610 + 144 * k + 16 * e + 8) 4)

/-- CTXLOAD's checks of an image, as the ILLOP's sub-code (R414). -/
def loadBad (version versel ctx issuing : Nat) (loaded running : Bool) : Option Nat :=
  if version != versel then some 1 else if ctx != issuing then some 2 else if loaded then some 3 else if !running then some 4 else none

/-- CTXLOAD (R414). -/
def execCtxload (o : Op) (s : State) : Out :=
  splitScope o s fun i =>
    let a := scalar64 i.sp o.a
    let h := opndH o.d
    let w := s.wgOf i.g
    let ctx := s.ctxOf i.core
    let ad : DWord := BitVec.ofNat 64 a
    if i.sp.priv == 0 then s.raiseAll i { levelBad true 1 0 with addr := ad }
    else if a % 65536 != 0 then s.raiseAll i { cause := .align, aux := 1, addr := ad }
    else match s.gx i .read false a with
    | (s, .error b) => s.raiseAll i { b with addr := ad }
    | (s, .ok t) => match s.badGran t.place 64 with
      | some (_, c) => (s.markRead t.place 64).raiseAll i (memBad .dataerr c .read a)
      | none =>
        let hd (off n : Nat) : Nat := s.rd (t.place + off) n
        let run := s.imageLaunch w.part ctx a (hd 0x10 8) (hd 0x18 8) (hd 0x0B 1)
        let par : Params := match run with
          | some e => { e.2.par with groups := hd 4 2 }
          | none => {}
        let size := if run.isSome then par.areaSize else 0
        match s.areaFault i .read a (morePages size) with
        | (s, some b) => s.raiseAll i b
        | (s, none) =>
          if (i.g.handle h).st != 0 then s.raiseAll i { handleBad 1 h with addr := ad }
          else match loadBad (hd 0 2) (s.versel.toNat / 2 ^ 32) (hd 0x0C 2) ctx.toNat (tb (hd 3 1) 0) run.isSome with
          | some c => s.raiseAll i { illop9 c with addr := ad }
          | none =>
            let pages := (s.areaPages ctx (s.part w.part).ctxtbase.toNat .read a size).getD []
            if !s.areaFmts pages par then s.raiseAll i { illop9 with addr := ad }
            else
            let key := (run.map (·.1)).getD 0
            let im : Image := { area := ad, ctx := ctx, part := w.part, launch := key, die := hd 0x0B 1, wgid := BitVec.ofNat 64 (hd 0x18 8),
                                task := par.kind == 1, ops := [] }
            let r := s.imageRecord im pages par
            let id := max s.nextId r.1 + 1
            let s := s.homeWr ctx (t.place + 3) [BitVec.ofNat 8 (hd 3 1 ||| 1)]
            let s := { s with images := s.images.put r.1 { r.2 with queued := true, handle := id }, nextId := id + 1 }
            (s.futureTake i.who.key h 5 id).done i o

/-- The parameters of an image's workgroup. -/
def State.imageParams (s : State) (im : Image) : Params :=
  match s.launches.get? im.launch with
  | some l => l.par.saved im.task
  | none => {}

/-- The pages of an image's area. -/
def State.imagePages (s : State) (im : Image) (acc : Acc) : Option (List (Nat × Nat)) :=
  s.areaPages im.ctx (s.part im.part).ctxtbase.toNat acc im.area.toNat (s.imageParams im).areaSize

/-- Granules of an area that are not good. -/
def State.areaBad (s : State) (pages : List (Nat × Nat)) (off n : Nat) : List Nat :=
  (List.range n).filter fun k => s.gran (s.areaPlace pages (off + 32 * k) / 32) != .ok

/-- The n bytes at an offset of an area. -/
def State.areaBytes (s : State) (pages : List (Nat × Nat)) (off n : Nat) : List Byte :=
  (List.range n).map fun k => Store.get s.mem (s.areaPlace pages (off + k))

/-- Restore a group's private words and trap frame into its new slot (R412); what cannot be written is left. -/
def State.restoreWords (s : State) (w : Workgroup) (pages : List (Nat × Nat)) (g : Nat) : State :=
  let p := w.par
  let key := 64 * w.core + w.slots.getD g 0
  let put (s : State) (va : Nat) (bs : List Byte) (bad : List Nat) : State :=
    match s.sysXlate (s.ctxOf w.core) (s.part w.part).ctxtbase.toNat .write va with
    | (s, .error _) => s
    | (s, .ok t) =>
      let grans := ((s.linePlaces t bs.length).map fun p => granules p (min 128 bs.length)).flatten
      let s := (granList (fun _ => false) (bs.length / 32) 0 bs).zipIdx.foldl (fun (s : State) (e : (List Byte × Bool) × Nat) =>
        s.homeWr (s.ctxOf w.core) (32 * grans.getD e.2 0) e.1.1) s
      bad.foldl (fun s k => s.poisonGran (grans.getD k 0)) s
  let fa := ((s.part w.part).tfbase.toNat + 256 * (64 * s.coreIndex w.part w.core + key % 64)) % 2 ^ 64
  let s1 := put s fa (s.areaBytes pages (p.areaGroup g + 0x2200) 256) []
  (List.range p.privwords.toNat).foldl (fun s1 k =>
    let off := p.areaPriv g + 4 * p.width * k
    put s1 (s.poolWord w key p.width 0 k) (s.areaBytes pages off (4 * p.width)) (s.areaBad pages off (p.width / 8))) s1

/-- Restore the operand buffers of a set. -/
def Core.loadBufs (k : Core) (set : Nat) (bs : List Byte) (bad : List Nat) : Core :=
  bad.foldl (fun k g => k.bufPoisonGran (4096 * set + g)) { k with bufs := Store.setList k.bufs (131072 * set) bs }

/-- An image is loaded onto a core (R410, R411, R414): every item of R412 is restored, and completions go to the live registers again. -/
def State.loadImage (s : State) (n : Nat) (im : Image) (core : Nat) (pages : List (Nat × Nat)) : State :=
  let p := s.imageParams im
  let wg := s.nextId
  let rd := s.areaRead pages
  let bars0 := (List.range 16).map (BarReg.ofSaved rd)
  let gs := (List.range p.groups).map fun g =>
    Group.ofSaved (fun off m => rd (p.areaGroup g + off) m) p wg s.clock bars0 (im.groups.find? fun y => y.gid.toNat == g)
  let w0 := s.reserve core im.part im.launch p
  let w := { w0 with
    bars := bars0.zipIdx.map (fun b => b.1.marks gs b.2)
    wgid := BitVec.ofNat 64 (rd 0x18 8), next := rd 0x20 8, stop := rd 0x28 8, tile := im.tile, tiles := im.tiles, task := im.task
    ls := Store.setList [] 0 (s.areaBytes pages areaLs (1024 * p.localkb)) }
  let w := (s.areaBad pages areaLs (32 * p.localkb)).foldl (fun (w : Workgroup) g => w.lsPoisonGran g) w
  let s1 := s.modCore core fun k =>
    let k := k.prepare w.slots w.bufset
    match w.bufset with
    | none => k
    | some b => k.loadBufs b (s.areaBytes pages p.areaBufs 131072) (s.areaBad pages p.areaBufs 4096)
  let s2 := (List.range p.groups).foldl (fun s g => s.restoreWords w pages g) s1
  let s3 := { s2 with
    wgs := s2.wgs.put wg w
    groups := gs.zipIdx.foldl (fun (t : Table Group) (e : Group × Nat) => t.put (64 * core + w.slots.getD e.2 0) e.1) s2.groups
    tierOps := s2.tierOps.map fun (t : TierOp) => if (im.ops.any fun o => o.id == t.id) then { t with wg := wg } else t
    images := s2.images.erase n, nextId := wg + 1 }
  (s3.futureDone 5 im.handle 2)

/-- The dispatcher admits the image at the head of its die's order, where a core takes it (R350, R414). -/
def State.admitImage (s : State) (n : Nat) : State :=
  match s.images.get? n with
  | none => s
  | some im =>
    match s.headAt im.die, s.taskFirst im.die, s.coreFor im.part im.die (s.imageParams im), s.imagePages im .read with
    | some (_, .image k), none, some c, some pages => if k == n then s.loadImage n im c pages else s
    | _, _, _, _ => s

/-- IMAGE_ADMISSION (R414). -/
def execImageAdmission (area : Nat) (s : State) : Out := .next (s.admitImage area)

/-- Does a saved image wait for an operation (R410)? -/
def State.imageWaits (s : State) (id : Nat) : Option (Nat × Image) := s.images.find? fun e => e.2.ops.any fun o => o.id == id

/-- TIERPF_COMPLETION (R261): the handle is DONE and a bound barrier counts the arrival; a saved image takes its own (R410). -/
def State.tierDone (s : State) (id : Nat) : State :=
  match s.tierOps.find? fun (t : TierOp) => t.id == id with
  | none => s
  | some t =>
    if (s.imageWaits id).isSome then s
    else
      let r := s.tierArrive t
      let s := { (r.1.futureDone 3 id r.2) with tierOps := r.1.tierOps.filter fun (y : TierOp) => y.id != id }
      (s.tierBarrier t)

/-- TIERPF_COMPLETION (R261). -/
def execTierpfCompletion (id : Nat) (s : State) : Out := .next (s.tierDone id)

/-- Write bytes into an area. -/
def State.areaPut (s : State) (im : Image) (pages : List (Nat × Nat)) (off : Nat) (bs : List Byte) : State :=
  s.homeWr im.ctx (s.areaPlace pages off) bs

/-- An engine arrival at barrier n of an image, which may complete its phase there (R410). -/
def State.imageArrive (s : State) (im : Image) (pages : List (Nat × Nat)) (n : Nat) : State :=
  let p := s.imageParams im
  let b := (BarReg.ofSaved (s.areaRead pages) n).engine s.clock 0
  let y := if b.full then b.next p.groups else b
  let s := (s.areaPut im pages (0x80 + 8 * n) (toBytes 8 y.word.toNat)).areaPut im pages (0x140 + 8 * n) (toBytes 8 (if y.seen then y.first.toNat else 0))
  let s := y.post.zipIdx.foldl (fun s e => s.areaPut im pages (0x200 + 136 * n + 2 * e.2) (toBytes 2 e.1.toNat)) s
  if !b.full then s
  else ((List.range p.groups).map fun g => (List.range 16).map fun k => p.areaGroup g + 0x200 + 64 * k + 26).flatten.foldl (fun s off =>
    s.areaPut im pages off (toBytes 2 ((BitVec.ofNat 16 (s.areaRead pages off 2) &&& ~~~(1#16 <<< n)).toNat))) s

/-- A completion is entered in an image: the handle becomes DONE, a bound barrier counts the arrival, and PENDING falls (R410). -/
def State.imageComplete (s : State) (n : Nat) (im : Image) (pages : List (Nat × Nat)) (o : SavedOp) (st : BitVec 2) : State :=
  let p := s.imageParams im
  let s := match o.handle with
    | some h => s.areaPut im pages (p.areaGroup o.gid + 0x100 + 16 * h) (toBytes 1 st.toNat)
    | none => s
  let s := match o.bar with
    | some b => s.imageArrive im pages b.toNat
    | none => s
  let s := s.areaPut im pages 0x0E (toBytes 2 (s.areaRead pages 0x0E 2 - 1))
  { s with images := s.images.put n { im with ops := im.ops.filter fun x => x.id != o.id } }

/-- Has the operation of a saved future completed: a child launch or a load; and is it a prefetch, which completes in this step? -/
def State.savedDue (s : State) (id : Nat) : Bool :=
  (s.tierOps.any fun (t : TierOp) => t.id == id) ||
    ((s.launches.all fun e => e.2.parent.isNone || e.2.handle != id) && s.images.all fun e => e.2.handle != id || !e.2.queued)

/-- SAVED_COMPLETION (R410). It waits while a page of the area cannot be written. -/
def State.savedComplete (s : State) (id : Nat) : State :=
  match s.imageWaits id with
  | none => s
  | some (n, im) => match im.ops.find? fun o => o.id == id, s.imagePages im .write with
    | some o, some pages =>
      if !s.savedDue id then s
      else match s.tierOps.find? fun (t : TierOp) => t.id == id with
      | none => s.imageComplete n im pages o 2
      | some t =>
        let r := s.tierArrive t
        { r.1 with tierOps := r.1.tierOps.filter fun (y : TierOp) => y.id != id }.imageComplete n im pages o r.2
    | _, _ => s

/-- SAVED_COMPLETION (R410). -/
def execSavedCompletion (id : Nat) (s : State) : Out := .next (s.savedComplete id)

/-- A group of an aborted launch ends at its next boundary (R416): as R360 ends one, its task completed after the drain, but nothing is
logged. -/
def State.abortGroup (s : State) (key : Nat) : State :=
  match s.groups.get? key with
  | none => s
  | some g => if g.abortable then ((s.setGroup key { g with ending := g.task.isSome }).retireGroup key).drained key else s

/-- The groups of a launch that stand at a boundary end (R416). -/
def State.abortGroups (s : State) (launch : Nat) : State :=
  (s.groups.filter fun e => (s.wgOf e.2).launch == launch).foldl (fun (s : State) e => s.abortGroup e.1) s

/-- ABORT of the launch with a SEQ (R416), which goes on with the groups that have reached their boundaries since; the future of a load
whose image is discarded is CANCELLED (log 22); a child is reached through its parent's children alone, which the launch waits for. -/
def State.abort (s : State) (part : Nat) (seq : BitVec 56) : State :=
  match s.launches.find? fun e => e.2.part == part && e.2.parent.isNone && !e.2.forPeer && e.2.seq == seq with
  | none => s
  | some (key, l) =>
    if l.aborted then s.abortGroups key
    else
      let gone := s.images.filter fun e => e.2.launch == key
      let s1 := { s with
        launches := s.launches.put key { l with aborted := true }
        images := s.images.filter fun e => e.2.launch != key
        wgs := s.wgs.map fun (e : Nat × Workgroup) => (e.1, if e.2.launch == key then { e.2 with next := e.2.stop, preempt := none } else e.2) }
      let s2 := gone.foldl (fun s e => s.futureDone 5 e.2.handle 3) s1
      let s3 : State := s2.abortGroups key
      { s3 with taskq := s3.taskq.map fun (e : Nat × List TaskRef) => (e.1, e.2.filter fun r => r.launch != key) }

/-- ABORT (R416). -/
def execAbort (part : Nat) (seq : BitVec 56) (s : State) : Out := .next (s.abort part seq)

end Sys2Proof.Machine
end

