-- ==== Sys2Proof/Machine/Memctl.lean ====
section
/-! DEFINITION. What the memories do by themselves and for the host: walks and reclassification (R387 to R393, R305), recalls (R197, R303),
carves (R77), the DRAM controllers and refresh (R208, R210 to R213), the host's accesses (R234) and the retire command (R202, R444). -/
namespace Sys2Proof.Machine

/-- The partition that a core belongs to (R445). -/
def State.corePart (s : State) (core : Nat) : Option Nat := (s.parts.find? fun e => e.2.pcores.getLsbD core).map (·.1)

/-- The context table under which a core translates. -/
def State.coreCtxt (s : State) (core : Nat) : Nat :=
  match s.corePart core with
  | some p => (s.part p).ctxtbase.toNat
  | none => 0

/-- Must a flush that a claim of core c would start wait for accesses that the page's owner has issued (R220, R393)? -/
def State.claimWaits (s : State) (c : Nat) (w : Walked) : Bool :=
  pteClass w.leaf == 1 && claimActs c w.leaf && s.ownerPending c false (pteOwner w.leaf) w.leaf w.level

/-- TRANSLATION_WALK (R387, R388, R392, R397): the leaf enters the core's translation cache, with the claim's action on its CLASS; a walk that
faults, or a leaf that no access could use, leaves the cache as it was. No home hears a core that has failed (R455). -/
def State.walkStep (s : State) (core : Nat) (va : Nat) (claim : Bool) : State :=
  let ctx := s.ctxOf core
  if 2 ^ 52 ≤ va || s.coreFailed.getLsbD core then s
  else match s.walk (some core) ctx (s.coreCtxt core) .read va with
  | (s, .error _) => s
  | (s, .ok w) =>
    if (pteW w.leaf && pteX w.leaf) || tierOf (pteAddr w.leaf (pageBits w.level)) != some (pteTier w.leaf) || (claim && s.claimWaits core w) then s
    else
      let r := if claim then s.claim core ctx va w else (s, w)
      let e : TlbEntry := ⟨ctx, va / 2 ^ pageBits w.level, w.level, r.2.leaf, w.entryAt⟩
      let old := (r.1.core core).tlb.filter fun x => !(x.ctx == ctx && x.level == e.level && x.page == e.page)
      let s := r.1.modCore core fun k => { k with tlb := putCache 2048 (Config.victim r.1.freeCtr) old e }
      (if old.length < 2048 then s else { s with freeCtr := s.freeCtr + 1 })

/-- TRANSLATION_WALK (R388). -/
def execTranslationWalk (core : Nat) (va : DWord) (claim : Bool) (s : State) : Out := .next (s.walkStep core va.toNat claim)

/-- FLUSH_AND_RECLASSIFY (R305, R393): a private page that another core's access, or a code or copy page's, claims is flushed from its owner
and becomes shared. -/
def State.reclassify (s : State) (core : Nat) (va : Nat) : State :=
  let ctx := s.ctxOf core
  if 2 ^ 52 ≤ va || s.coreFailed.getLsbD core then s
  else match s.walk (some core) ctx (s.coreCtxt core) .read va with
  | (s, .error _) => s
  | (s, .ok w) => if pteClass w.leaf == 1 && claimActs core w.leaf && !s.claimWaits core w then (s.claim core ctx va w).1 else s

/-- FLUSH_AND_RECLASSIFY (R393). -/
def execFlushAndReclassify (core : Nat) (va : DWord) (s : State) : Out := .next (s.reclassify core va.toNat)

/-- The contexts under which some cache of a core holds a line. -/
def State.lineCtxs (s : State) (line : Nat) : List (BitVec 16) :=
  (((s.cores.map fun e => (e.2.l1.filter fun l => l.line == line).map (·.ctx))).flatten).eraseDups

/-- The home takes sectors of a line back from the core that holds the line Owned or, on a private page, out of its owner's L1 (R197, R303). -/
def State.recallSectors (s : State) (line : Nat) (mask : BitVec 4) : State :=
  (s.lineCtxs line).foldl (fun s ctx => (s.recallOthers 1000 line ctx mask).syncDir line ctx) s

/-- RECALL (R197, R303). -/
def State.recallLine (s : State) (line : Nat) : State := s.recallSectors line 0xF#4

/-- RECALL (R197). -/
def execRecall (line : Nat) (s : State) : Out := .next (s.recallLine line)

/-- Does the resident local store fit the carve that a core waits for (R77)? -/
def State.carveFits (s : State) (core : Nat) : Bool :=
  let k := s.core core
  k.carvePend && ((s.coreWgs core).map fun w => w.par.localkb).sum ≤ 512 - 64 * k.carveReq.toNat

/-- CARVE_APPLY (R77): the lines in the part that L1 gives up are written back and dropped. -/
def State.applyCarve (s : State) (core : Nat) : State :=
  if !s.carveFits core then s
  else
    let k := s.core core
    let old := 64 * k.carve.toNat
    let s := (k.l1.filter fun l => 64 * k.carveReq.toNat ≤ Config.l1Set l.line % old).foldl (fun s l => (s.dropL1 core l.line l.ctx).syncDir l.line l.ctx) s
    (s.modCore core fun k => { k with carve := k.carveReq, carvePend := false })

/-- CARVE_APPLY (R77). -/
def execCarveApply (core : Nat) (s : State) : Out := .next (s.applyCarve core)

/-- Where a line lies in DRAM: its pseudo-channel or channel, whether that is one of LPDDR6, its bank, its row, and which line of the row it
is (R206, R208). -/
structure DramAt where
  lp : Bool
  chan : Nat
  bank : Nat
  row : Nat
  col : Nat
  deriving DecidableEq, Repr

/-- The DRAM place of a line number. -/
def dramAt (line : Nat) : DramAt :=
  if lineLp line then
    let x := line - 2 ^ 33
    let h := x % 512
    let a := x / 512 * 16 + h % 16
    { lp := true, chan := h / 16, bank := fld a 3 0 ^^^ fld a 11 8, row := fld a 27 8, col := fld a 7 4 }
  else
    let m := line / 512
    { lp := false, chan := line % 512, bank := fld m 3 0 ^^^ fld m 10 7, row := fld m 22 7, col := fld m 6 4 }

/-- Do two lines lie in one row? -/
def DramAt.sameRow (a b : DramAt) : Bool := a.lp == b.lp && a.chan == b.chan && a.bank == b.bank && a.row == b.row

/-- The number of a row group: 8 rows of one bank. -/
def DramAt.group (d : DramAt) : Nat :=
  if d.lp then 2 ^ 26 + (d.chan * 16 + d.bank) * 2 ^ 17 + d.row / 8 else (d.chan * 16 + d.bank) * 2 ^ 13 + d.row / 8
/-- The channel of a row group, and whether it is one of LPDDR6. -/
def groupChan (g : Nat) : Bool × Nat := if 2 ^ 26 ≤ g then (true, (g - 2 ^ 26) / 2 ^ 21) else (false, g / 2 ^ 17)
/-- The stack of a channel: 0 to 7 of HBM4E (R206). DESIGN CHOICE (log 97): an LPDDR6 channel stands for a stack of its own, from 8 on. -/
def stackOf (c : Bool × Nat) : Nat := if c.1 then 8 + c.2 else c.2 / 64
/-- The key of counter k of a channel (R435). -/
def chanKey (c : Bool × Nat) (k : Nat) : Nat := if c.1 then lpCounter (8 * c.2 + k) else 8 * c.2 + k

/-- Advance a channel counter, unless the counters are frozen (R437). -/
def State.countChan (s : State) (key n : Nat) : State := if s.freeze then s else { s with chan := s.chan.set key (s.chan.get key + BitVec.ofNat 48 n) }

/-- Cycles of tREFW / 1,024 (R212, R213). -/
def refUnit (high : Bool) : Nat := if high then 46875 else 93750
/-- Does a stack report the high-temperature range? -/
def State.hot (s : State) (stack : Nat) : Bool := s.trefwHigh.getLsbD stack
/-- Now, in the unit that a row group counts in. -/
def State.refNow (s : State) (g : RowGroup) : Nat := s.clock.toNat / refUnit g.high % 65536
/-- The age of TS, modulo 2^16 (R213). -/
def State.tsAge (s : State) (g : RowGroup) : Nat := (s.refNow g + 65536 - g.ts.toNat) % 65536
/-- Is TS stale (R213)? -/
def State.tsStale (s : State) (g : RowGroup) : Bool := g.stale || 2 ^ 15 ≤ s.tsAge g

/-- An activation of row k of a group (R212). -/
def State.activated (s : State) (g : RowGroup) (k : Nat) : RowGroup :=
  let g := if g.mask == 0 || s.tsStale g || 128 < s.tsAge g then { g with mask := 0, ts := BitVec.ofNat 16 (s.refNow g), stale := false } else g
  { g with mask := g.mask ||| (1#8 <<< k) }

/-- The requests that one activation serves: the first four that are queued for its row (R210). -/
def State.rowRequests (s : State) (line : Nat) : List (Nat × Bool) := (s.dram.filter fun q => (dramAt (q.1 / 4)).sameRow (dramAt line)).take 4

/-- Take requests off the queue, each once. -/
def takeOff : List (Nat × Bool) → List (Nat × Bool) → List (Nat × Bool)
  | [], l => l
  | q :: qs, l => takeOff qs (l.erase q)

/-- DRAM_REQUEST (R210, R212): an activation and up to four column commands. The request must be the first of its row, in a stack that is not
in self-refresh. -/
def State.dramServe (s : State) (sector : Nat) (write conflict : Bool) (stall : Nat) : State :=
  let d := dramAt (sector / 4)
  let c := (d.lp, d.chan)
  let rs := s.rowRequests (sector / 4)
  if rs.head? != some (sector, write) || s.selfRefresh.getLsbD (stackOf c) then s
  else
    let g := s.rows.getD d.group {}
    let s := { s with dram := takeOff rs s.dram, rows := s.rows.put d.group (s.activated g (d.row % 8)) }
    let s := (s.countChan (chanKey c 0) 1).countChan (chanKey c 1) (if conflict then 1 else 0)
    ((s.countChan (chanKey c 2) stall).countChan (chanKey c 4) (rs.filter fun q => !q.2).length).countChan (chanKey c 5) (rs.filter fun q => q.2).length

/-- DRAM_REQUEST (R210). -/
def execDramRequest (sector : Nat) (write : Bool) (conflict : Bool) (stall : Nat) (s : State) : Out := .next (s.dramServe sector write conflict stall)

/-- REFRESH_SLOT (R212): the slot is skipped where every row of the group was restored within W; a change of tREFW is taken over here. -/
def State.refresh (s : State) (group : Nat) : State :=
  let c := groupChan group
  let g := s.rows.getD group {}
  let hot := s.hot (stackOf c)
  if s.selfRefresh.getLsbD (stackOf c) then s
  else
    let skip := g.mask == 0xFF#8 && !s.tsStale g && s.tsAge g * refUnit g.high ≤ 128 * refUnit hot
    let s := if skip then s.countChan (chanKey c 3) 1 else s
    { s with rows := s.rows.put group { g with mask := 0, high := hot } }

/-- REFRESH_SLOT (R212). -/
def execRefreshSlot (group : Nat) (s : State) : Out := .next (s.refresh group)

/-- Stacks and LPDDR6 channels that refresh by themselves. -/
def numStacks : Nat := 40

/-- SELF_REFRESH_ENTRY (R213): a stack without queued requests. -/
def State.enterSelfRefresh (s : State) (stack : Nat) : State :=
  if numStacks ≤ stack || (s.dram.any fun q => let d := dramAt (q.1 / 4); stackOf (d.lp, d.chan) == stack) then s
  else { s with selfRefresh := s.selfRefresh ||| (1#40 <<< stack) }

/-- SELF_REFRESH_ENTRY (R213). -/
def execSelfRefreshEntry (stack : Nat) (s : State) : Out := .next (s.enterSelfRefresh stack)

/-- SELF_REFRESH_EXIT (R213): every MASK of the stack is cleared and every TS is stale. -/
def State.leaveSelfRefresh (s : State) (stack : Nat) : State :=
  if !s.selfRefresh.getLsbD stack then s
  else { s with
    selfRefresh := s.selfRefresh &&& ~~~(1#40 <<< stack)
    rows := s.rows.map fun e => (e.1, if stackOf (groupChan e.1) == stack then { e.2 with mask := 0, stale := true } else e.2) }

/-- SELF_REFRESH_EXIT (R213). -/
def execSelfRefreshExit (stack : Nat) (s : State) : Out := .next (s.leaveSelfRefresh stack)

/-- TREFW_CHANGE (R212): a stack enters or leaves the high-temperature range; each row group takes it over at its next slot. -/
def State.setHot (s : State) (stack : Nat) (high : Bool) : State :=
  { s with trefwHigh := if high then s.trefwHigh ||| (1#40 <<< stack) else s.trefwHigh &&& ~~~(1#40 <<< stack) }

/-- TREFW_CHANGE (R212). -/
def execTrefwChange (stack : Nat) (high : Bool) (s : State) : Out := .next (s.setHot stack high)

/-- Bytes at a physical address cut at granule boundaries. -/
def cutGrans : Nat → Nat → List Byte → List (Nat × List Byte)
  | 0, _, _ => []
  | fuel + 1, a, bs => if bs.isEmpty then [] else
      let n := 32 - a % 32
      (a, bs.take n) :: cutGrans fuel (a + n) (bs.drop n)

/-- Can the host reach a physical address, in the LPDDR6 tier or in a device memory window of its own (R442; log 92), or a peer, through a
fabric window of its device (R452)? -/
def State.reachedBy (s : State) (by' : Outside) (a : Nat) : Bool :=
  match tierOf a with
  | none => false
  | some true => true
  | some false => by' != .host || s.hdm.any fun w => w.1 * 2 ^ 30 ≤ a && a < (w.1 + w.2) * 2 ^ 30

/-- Does some home hold the sector of a place valid? -/
def State.sectorInL2 (s : State) (p : Nat) : Bool := s.l2.any fun l => l.line == p / 128 && l.sv.getLsbD (p / 32 % 4)

/-- The home takes sectors of a line back and drops the copies of the line, of a private one those sectors alone (R197, R303). -/
def State.takeSectors (s : State) (line : Nat) (mask : BitVec 4) : State :=
  (s.lineCtxs line).foldl (fun s ctx => s.dropCopies line ctx mask fun _ => true) (s.recallSectors line mask)

/-- A write by the host or a peer to device memory, at the home under H0 (R234, R193, R194; log 19): copies in caches are taken back. Part of
a granule is merged with what L2 holds of it, or has read of it, before it goes to DRAM (R211). -/
def State.hostDevWrite (s : State) (by' : Outside) (addr : Nat) (bs : List Byte) : State :=
  (cutGrans (bs.length + 1) addr bs).foldl (fun s e =>
    if !s.reachedBy by' e.1 then s
    else
      let p := s.place e.1 0
      let bit : BitVec 4 := 1#4 <<< (p / 32 % 4)
      let s := if e.2.length == 32 || s.sectorInL2 p then s else s.dramAsk (p / 128) bit false
      ((s.takeSectors (p / 128) bit).dramAsk (p / 128) bit true).wr p e.2 true) s

/-- Does the device take an access to its memory: has it power, and has the host or the peer not failed (R455)? -/
def State.hears (s : State) (by' : Outside) : Bool :=
  s.powered && match by' with
    | .own => false
    | .host => !s.hostFailed
    | .peer p => !s.peerFailed.getLsbD p

/-- The letterboxes whose stamp byte the host writes again: their records are no longer from before a crash (R340, R448). -/
def Partition.restamped (p : Partition) (addr len : Nat) : Partition :=
  let hit (k : Nat) : Bool := let a := p.lwbase.toNat + 256 * k + 0xFF; addr ≤ a && a < addr + len
  if p.stale == 0 then p else { p with stale := p.stale &&& ~~~(maskOf 64 ((List.range 64).filter hit)) }

/-- HOST_MEM_WRITE (R234): to device memory at a physical address, or by the host to its own memory. Writes to the device of a host or peer
that has failed are dropped until it joins again (R455). -/
def State.hostWrite (s : State) (by' : Outside) (addr : Nat) (bs : List Byte) : State :=
  if by' == .own then { s.hostWr addr bs with parts := s.parts.map fun e => (e.1, e.2.restamped addr bs.length) }
  else if s.hears by' then s.hostDevWrite by' addr bs else s

/-- HOST_MEM_WRITE (R234). -/
def execHostMemWrite (by' : Outside) (addr : Nat) (bytes : List Byte) (s : State) : Out := .next (s.hostWrite by' addr bytes)

/-- HOST_MEM_READ (R234), of device memory by the host or a peer: the home recalls what an owner holds (R394), reads what it lacks from DRAM, and poisons a granule found
uncorrectable (R193). -/
def State.hostRead (s : State) (by' : Outside) (addr len : Nat) : State :=
  if !s.hears by' then s
  else (cutGrans (len + 1) addr (List.replicate len 0)).foldl (fun s e =>
    if !s.reachedBy by' e.1 then s
    else
      let p := s.place e.1 0
      let bit : BitVec 4 := 1#4 <<< (p / 32 % 4)
      let s := s.recallSectors (p / 128) bit
      (if s.sectorInL2 p then s else s.dramAsk (p / 128) bit false).markRead p e.2.length) s

/-- HOST_MEM_READ (R234). -/
def execHostMemRead (src : OutsideAt) (len : Nat) (s : State) : Out := .next (s.hostRead src.who src.addr len)

/-- Write back every dirty line of a context, device-wide; the lines stay (R202, step 1). -/
def State.cleanCtx (s : State) (ctx : BitVec 16) : State :=
  let s1 := s.cores.foldl (fun s e => (e.2.l1.filter fun l => l.ctx == ctx).foldl (fun s l =>
    (s.takeBack l.line l.ctx l.dirty).modCore e.1 (Core.l1Put · { l with dirty := 0 })) s) s
  (s1.l2.filter fun l => l.ctx == ctx).foldl (fun s l => (s.dramAsk l.line l.sd true).l2Put { l with sd := 0 }) s1

/-- The purge of an identifier: every line of every generation is written back and dropped from every cache (R202, step 3). -/
def State.purge (s : State) (id : Nat) : State :=
  let mine (c : BitVec 16) : Bool := c.toNat % 4096 == id
  let s1 := s.cores.foldl (fun s e => (e.2.l1.filter fun l => mine l.ctx).foldl (fun s l => s.dropL1 e.1 l.line l.ctx) s) s
  let s2 := { s1 with cores := s1.cores.map fun (e : Nat × Core) => (e.1, { e.2 with icache := e.2.icache.filter fun l => !mine l.ctx }) }
  let s3 := (s2.l2.filter fun l => mine l.ctx).foldl (fun s l => s.evictL2 l) s2
  s3.dropTlb fun c _ _ => mine c

/-- CTXRET's write (R444): it starts the retire command, unless one of the partition is in progress. -/
def State.setCtxret (s : State) (part : Nat) (v : Word) : State :=
  if s.retire.any fun e => e.1 == part then s
  else
    let id := v.extractLsb' 0 12
    { s.modPart part fun p => { p with ctxret := (p.ctxret &&& 0xF000#32) ||| id.setWidth 32 } with retire := s.retire ++ [(part, id)] }

/-- CTXRET_WRITE (R415, R444). -/
def execCtxretWrite (part : Nat) (val : Word) (s : State) : Out := .next (if s.powered then s.setCtxret part val else s)

/-- RETIRE_COMMAND_COMPLETION (R202, R444): the oldest command in progress completes. -/
def State.retireDone (s : State) : State :=
  match s.retire with
  | [] => s
  | (part, id) :: rest =>
    let gen := s.gens.get id.toNat
    let s := { s.cleanCtx (gen ++ id) with gens := s.gens.set id.toNat (gen + 1), retire := rest }
    let s := if gen == 15#4 then s.purge id.toNat else s
    (s.modPart part fun p => { p with ctxret := 0x80000000#32 ||| ((gen + 1) ++ id).setWidth 32 })

/-- RETIRE_COMMAND_COMPLETION (R202). -/
def execRetireCommandCompletion (s : State) : Out := .next s.retireDone

end Sys2Proof.Machine
end

