-- ==== Sys2Proof/Machine/Device.lean ====
section
/-! DEFINITION. The device's edges: the management window and partitions (R443 to R446, R415), firmware (R447 to R450), failures and
retirement (R454 to R456), heat, links and power (R447, R458, R202), and attestation (R451). -/
namespace Sys2Proof.Machine

/-- Is a partition idle: no launch of it is accepted and not completed, and no workgroup of it is resident or saved (R445)? -/
def State.idlePart (s : State) (part : Nat) : Bool :=
  (s.launches.all fun e => e.2.part != part) && (s.wgs.all fun e => e.2.part != part) && s.images.all fun e => e.2.part != part

/-- Do PDIES and PCORES keep the rules of R445 between themselves? They are judged once both are set, since each is written alone. -/
def diesOk (dies : BitVec 4) (cores : BitVec 192) : Bool :=
  dies == 0 || cores == 0 ||
    (((List.range 192).all fun c => !cores.getLsbD c || dies.getLsbD (dieOf c)) &&
     (List.range 4).all fun d => !dies.getLsbD d || ((rangeFrom (48 * d) 48).any fun c => cores.getLsbD c))

/-- Does no core belong to another partition? -/
def State.coresFree (s : State) (part : Nat) (cores : BitVec 192) : Bool := s.parts.all fun e => e.1 == part || e.2.pcores &&& cores == 0

/-- A partition with PDIES, PCTX or PCORES changed, where R445 allows the value. -/
def State.partSetting (s : State) (part : Nat) (off : BitVec 12) (v : BitVec 192) : Option Partition :=
  let p := s.part part
  if 16 ≤ part || !s.idlePart part then none
  else if off == 0x040 then
    let d := v.setWidth 4
    if diesOk d p.pcores then some { p with pdies := d } else none
  else if off == 0x048 then
    let c := v.setWidth 16
    if s.gens.get (c.toNat % 4096) == c.extractLsb' 12 4 then some { p with pctx := c } else none
  else if off == 0x050 then
    if diesOk p.pdies v && s.coresFree part v then some { p with pcores := v } else none
  else none

/-- The control processor writes PCTX into the CTXID of each core of a partition (R445). -/
def State.givePctx (s : State) (p : Partition) : State := p.cores.foldl (fun s c => (s.setCtxid c p.pctx.toNat).getD s) s

/-- A write of PDIES, PCTX or PCORES; one that is ignored makes a record of TYPE 9 (R445, R476). -/
def State.writeSetting (s : State) (part : Nat) (off : BitVec 12) (v : BitVec 192) (written : BitVec 12) (val : Nat) : State :=
  match s.partSetting part off v with
  | some p =>
    let s := { s with parts := s.parts.put part p }
    if off == 0x040 then s else s.givePctx p
  | none => s.logSet [{ type := 9, cls := 5, unit := part, code := written.toNat, addr := val % 2 ^ 64 }]

/-- PARTITION_SETTING_WRITE (R445). -/
def execPartitionSettingWrite (part : Nat) (off : BitVec 12) (val : BitVec 192) (s : State) : Out :=
  .next (if s.powered then s.writeSetting part off val off val.toNat else s)

/-- Has a core no workgroup and no group left? -/
def State.drainedCore (s : State) (core : Nat) : Bool := !s.resident core && s.coreWgs core == []

/-- PARTITION_CORE_MOVE (R415): admission to the core stops, and once it is drained (log 107) it takes its new partition's CARVELIM, CTXID and
THROTTLE; a value that a SYSWR would refuse is not taken (R78, R201), nor a CTXID other than the PCTX of the core's partition (R445). -/
def State.moveCore (s : State) (core : Nat) (carvelim : BitVec 8) (ctxid : BitVec 16) (throttle : BitVec 17) : State :=
  if !s.drainedCore core then s.modCore core fun k => { k with moving := some (carvelim, ctxid, throttle) }
  else
    let s := s.modCore core fun k => { k with moving := none }
    let s := match (s.core core).setCarvelim carvelim.toNat with
      | some k => s.modCore core fun _ => k
      | none => s
    let s := if ((s.corePart core).all fun p => (s.part p).pctx == ctxid) then (s.setCtxid core ctxid.toNat).getD s else s
    match (s.core core).setThrottle throttle.toNat with
    | some k => s.modCore core fun _ => k
    | none => s

/-- PARTITION_CORE_MOVE (R415). -/
def execPartitionCoreMove (core : Nat) (carvelim : BitVec 8) (ctxid : BitVec 16) (throttle : BitVec 17) (s : State) : Out :=
  .next (s.moveCore core carvelim ctxid throttle)

/-- The lines that some cache holds. -/
def State.cachedLines (s : State) : List Nat :=
  dedup (s.l2.map (·.line) ++ (s.cores.map fun e => e.2.l1.map (·.line) ++ e.2.icache.map (·.line)).flatten)

/-- A new row of the hash matrix (R207): it applies to lines filled from now on, and lines that caches hold keep their places while they are
held. -/
def State.setXm (s : State) (i : Nat) (v : BitVec 24) : State :=
  let xm := setAt s.xm i v
  { s with xm := xm, xmHeld := s.cachedLines.filterMap fun line =>
      let pa := s.linePA 3 line
      if placeIn xm pa 3 / 128 == line then none else some (pa / 128, line) }

/-- XM_WRITE (R207). -/
def execXmWrite (i : Nat) (val : BitVec 24) (s : State) : Out := .next (if s.powered then s.setXm i val else s)

/-- Does every version in VERSEL lie in the device's range (R446)? -/
def State.versionsOk (s : State) : Bool :=
  [0, 16, 32].all fun k => fld s.verMin.toNat (k + 15) k ≤ fld s.versel.toNat (k + 15) k && fld s.versel.toNat (k + 15) k ≤ fld s.verMax.toNat (k + 15) k

/-- ERR, while GO is set: some version in VERSEL lies outside the device's range (R446). -/
def State.judge (s : State) : State := { s with err := s.go && !s.versionsOk }

/-- A write of GO; while it is set, the versions are checked (R446). -/
def State.setGo (s : State) (go : Bool) : State := { s with go := go }.judge

/-- ATTACH_GO (R446). -/
def execAttachGo (s : State) : Out := .next (if s.powered then s.setGo true else s)

/-- A write to page 0 of the management window; read-only and reserved offsets ignore it (R443). -/
def State.writePage0 (s : State) (off : Nat) (v : DWord) : State :=
  if off == 0x010 then { s with versel := v.setWidth 48 }.judge
  else if off == 0x018 then s.setGo (v.getLsbD 0)
  else if 0x040 ≤ off && off < 0x088 && off % 8 == 0 then s.setXm ((off - 0x040) / 8) (v.setWidth 24)
  else if off == 0x100 then { s with errHead := v.setWidth 12 }
  else if off == 0x110 then { s with errBase := v }
  else if 0x800 ≤ off && off < 0xC00 && off % 8 == 0 then { s with fabric := s.fabric.set ((off - 0x800) / 8) v }
  else s

/-- A write to a partition's page (R443 to R445). -/
def State.writePartPage (s : State) (part off : Nat) (v : DWord) : State :=
  let set (f : Partition → Partition) : State := s.modPart part f
  if off == 0x000 then set fun p => { p with lwbase := v }
  else if off == 0x008 then set fun p => { p with ctxtbase := v }
  else if off == 0x010 then set fun p => { p with poolbase := v }
  else if off == 0x018 then set fun p => { p with poolsize := v }
  else if off == 0x020 then set fun p => { p with tfbase := v }
  else if off == 0x028 then set fun p => { p with svec := v }
  else if off == 0x030 then set fun p => { p with hvec := v }
  else if off == 0x038 then s.setCtxret part (v.setWidth 32)
  else if off == 0x040 || off == 0x048 then s.writeSetting part (BitVec.ofNat 12 off) (v.setWidth 192) (BitVec.ofNat 12 off) v.toNat
  else if off == 0x050 || off == 0x058 || off == 0x060 then
    let k := 64 * ((off - 0x050) / 8)
    let old := (s.part part).pcores
    let new := (old &&& ~~~(BitVec.ofNat 192 (2 ^ 64 - 1) <<< k)) ||| (v.setWidth 192 <<< k)
    s.writeSetting part 0x050 new (BitVec.ofNat 12 off) v.toNat
  else s

/-- A write to the management window: page 0 is the device's, page p + 1 partition p's (R443). -/
def State.windowWrite (s : State) (page : Nat) (off : BitVec 12) (v : DWord) : State :=
  if !s.powered then s
  else if page == 0 then s.writePage0 off.toNat v
  else if page ≤ 16 then s.writePartPage (page - 1) off.toNat v
  else s

/-- What a read of page 0 of the management window gives: 0 at a reserved offset (R443). -/
def State.readPage0 (s : State) (off : Nat) : Nat :=
  if off == 0x000 then s.verMin.toNat
  else if off == 0x008 then s.verMax.toNat
  else if off == 0x010 then s.versel.toNat
  else if off == 0x018 then (if s.go then 1 else 0) + if s.err then 2 else 0
  else if off == 0x020 then s.fwstat.toNat
  else if off == 0x028 then s.devnum.toNat
  else if 0x040 ≤ off && off < 0x088 && off % 8 == 0 then (s.xm.getD ((off - 0x040) / 8) 0).toNat
  else if off == 0x100 then s.errHead.toNat
  else if off == 0x108 then s.errTail.toNat
  else if off == 0x110 then s.errBase.toNat
  else if 0x800 ≤ off && off < 0xC00 && off % 8 == 0 then (s.fabric.get ((off - 0x800) / 8)).toNat
  else 0

/-- What a read of a partition's page gives (R443). -/
def Partition.readPage (p : Partition) (off : Nat) : Nat :=
  if off == 0x000 then p.lwbase.toNat
  else if off == 0x008 then p.ctxtbase.toNat
  else if off == 0x010 then p.poolbase.toNat
  else if off == 0x018 then p.poolsize.toNat
  else if off == 0x020 then p.tfbase.toNat
  else if off == 0x028 then p.svec.toNat
  else if off == 0x030 then p.hvec.toNat
  else if off == 0x038 then p.ctxret.toNat
  else if off == 0x040 then p.pdies.toNat
  else if off == 0x048 then p.pctx.toNat
  else if off == 0x050 || off == 0x058 || off == 0x060 then p.pcores.toNat / 2 ^ (64 * ((off - 0x050) / 8)) % 2 ^ 64
  else 0

/-- What a 64-bit read of the management window gives (R443). -/
def State.windowRead (s : State) (page : Nat) (off : BitVec 12) : DWord :=
  if !s.powered then 0
  else BitVec.ofNat 64 (if page == 0 then s.readPage0 off.toNat else if page ≤ 16 then (s.part (page - 1)).readPage off.toNat else 0)

/-- MANAGEMENT_WINDOW_WRITE (R443). -/
def execManagementWindowWrite (page : Nat) (off : BitVec 12) (val : DWord) (s : State) : Out := .next (s.windowWrite page off val)

/-- Change every core's record. -/
def State.allCores (s : State) (f : Core → Core) : State := (List.range 192).foldl (fun s c => s.modCore c f) s

/-- The boot ROM has verified an image: it accepts it when its signature holds and its body matches the hash; the first image since power-up
writes every granule zero (R192, R450). -/
def State.verified (s : State) (header body sig : List Byte) : State :=
  if !(Config.sigHolds header sig && Config.sha3 body == Config.headerHash header) then { s with fwstat := 3 }
  else
    let s := if s.fwHash == 0 then { s with mem := [], poison := [], staged := [], bad := [] } else s
    { s.allCores fun k => { k with stopped := false } with
      fwstat := 2, fwHash := Config.sha3 body, fwVersion := Config.headerVersion header, verMin := Config.verMin, verMax := Config.verMax }.judge

/-- FIRMWARE_IMAGE (R443, R450): the image comes through the mailbox, FWSTAT is 1 while it is verified, and then 2 or 3. -/
def State.loadFirmware (s : State) (header body sig : List Byte) : State :=
  if !s.powered then s
  else if s.fwstat == 0 || s.fwstat == 3 then { s with fwstat := 1, fwImage := some (header, body, sig) }
  else if s.fwstat == 1 && s.fwImage == some (header, body, sig) then { s with fwImage := none }.verified header body sig
  else s

/-- FIRMWARE_IMAGE (R450). -/
def execFirmwareImage (header body sig : List Byte) (s : State) : Out := .next (s.loadFirmware header body sig)

/-- FIRMWARE_FAILURE (R449): every core stops, and every accepted launch that has not completed is lost. -/
def State.firmwareFails (s : State) : State :=
  if !s.powered then s
  else
    let s1 := s.logSet [{ type := 5, cls := 4, unit := 0 }]
    { s1.allCores fun k => { k with stopped := true, sink := [], misses := [], xmiss := [] } with
      fwstat := 0, fwImage := none, launches := [], wgs := [], groups := [], copies := [], tierOps := [], images := [], taskq := [] }

/-- FIRMWARE_FAILURE (R449). -/
def execFirmwareFailure (s : State) : Out := .next s.firmwareFails

/-- CLASS of a unit (R456). -/
def unitClass : UnitKind → Nat
  | .granule => 0 | .subarray | .accumulator => 1 | .link => 2 | .core => 3

/-- UNIT_FAILURE (R454): a failure that the retry mends is logged; a lasting one retires the unit. A granule is named by its place / 32; a
core's workgroups, and those of a core whose last sub-array is fenced, are saved from the address on. Links from 16 on are die links. An
uncorrectable error of an accumulator, named by 32 × its group's key + 4 × octet + number, sets its POISON (R335; log 98). -/
def State.unitFails (s : State) (kind : UnitKind) (unit addr : Nat) (lasting : Bool) : State :=
  let rec' (t : Nat) : ErrRec := { type := t, cls := unitClass kind, unit := unit, addr := if kind == .core then 0 else addr }
  if kind == .accumulator then s.modGroup (unit / 32) fun g => g.modOctet (unit / 4 % 8) (·.setPoison (unit % 4) true)
  else if !lasting then
    match kind with
    | .subarray => s.subTransient (unit / 8) (unit % 8)
    | _ => s.logSet [rec' 2]
  else match kind with
  | .granule =>
    let row := (dramAt (unit / 4)).group * 8 + (dramAt (unit / 4)).row % 8
    { (s.poisonGran unit).logSet [rec' 3] with spare := dedup (s.spare ++ [row]), retiredUnits := s.retiredUnits + 1 }
  | .subarray => if (s.core (unit / 8)).mat.fenced.getLsbD (unit % 8) then s else s.subFence (unit / 8) (unit % 8) addr
  | .link => { s.logSet [rec' 3] with links := s.links ||| (1#32 <<< unit), retiredUnits := s.retiredUnits + 1 }
  | .core => s.retireCore unit addr
  | .accumulator => s

/-- UNIT_FAILURE (R454). -/
def execUnitFailure (kind : UnitKind) (unit : Nat) (addr : Nat) (lasting : Bool) (s : State) : Out := .next (s.unitFails kind unit addr lasting)

/-- The granules that a core alone holds dirty. -/
def Core.dirtyGrans (k : Core) : List Nat :=
  (k.l1.map fun l => ((List.range 4).filter fun i => l.dirty.getLsbD i).map fun i => 4 * l.line + i).flatten

/-- A core's copies are gone: its caches are empty and the directories drop it (R455). What it held dirty is lost, and the home's older copy
with it (R395). -/
def State.forgetCore (s : State) (core : Nat) : State :=
  let lost := (s.core core).dirtyGrans
  let s := { s with older := s.older.filter fun e => !lost.contains e.1 }
  let lines := (s.core core).l1.map fun l => (l.line, l.ctx)
  let code := (s.core core).icache.map fun l => (l.line, l.ctx)
  let s := s.modCore core fun k => { k with l1 := [], icache := [], vta := [] }
  let s := { s with l2 := s.l2.map fun l => if l.p && l.shr == BitVec.ofNat 192 core then { l with p := false, shr := 0, o := false } else l }
  (lines ++ code).foldl (fun s e => s.syncDir e.1 e.2) s

/-- AGENT_FAILURE (R455): every granule that the failed core alone held dirty is poisoned, and the homes drop it. What a failed host or peer
held dirty lies outside the device's caches. Records that a failed host has written and the device has not accepted are to be submitted
again (R448). -/
def State.agentFails (s : State) (a : Agent) : State :=
  match a with
  | .core c =>
    let s := (s.core c).dirtyGrans.foldl State.poisonGran s
    { s.forgetCore c with coreFailed := s.coreFailed ||| (1#192 <<< c) }
  | .host => { s with hostFailed := true, parts := s.parts.map fun e => (e.1, { e.2 with stale := BitVec.allOnes 64 }) }
  | .peer p => { s with peerFailed := s.peerFailed ||| (1#64 <<< p) }

/-- AGENT_FAILURE (R455). -/
def execAgentFailure (agent : Agent) (s : State) : Out := .next (s.agentFails agent)

/-- AGENT_REJOIN (R455): the agent takes its epoch plus one, and its caches are empty. -/
def State.agentJoins (s : State) (a : Agent) : State :=
  match a with
  | .core c =>
    if !s.coreFailed.getLsbD c then s
    else { (s.forgetCore c).modCore c fun k => { k with epoch := k.epoch + 1, tlb := [], walk := [] } with
           coreFailed := s.coreFailed &&& ~~~(1#192 <<< c) }
  | .host => if s.hostFailed then { s with hostFailed := false, hostEpoch := s.hostEpoch + 1 } else s
  | .peer p =>
    if !s.peerFailed.getLsbD p then s
    else { s with peerFailed := s.peerFailed &&& ~~~(1#64 <<< p), peerEpoch := s.peerEpoch.set p (s.peerEpoch.get p + 1) }

/-- AGENT_REJOIN (R455). -/
def execAgentRejoin (agent : Agent) (s : State) : Out := .next (s.agentJoins agent)

/-- THERMAL_THROTTLE (R458): idle issue cycles are inserted, or no longer are. -/
def execThermalThrottle (on : Bool) (s : State) : Out := .next { s with throttled := on }

/-- THERMAL_SHUTDOWN (R458): every core stops, and a lasting fault is logged. -/
def State.overheats (s : State) : State := (s.allCores fun k => { k with stopped := true }).logSet [{ type := 3, cls := 3, unit := 0 }]

/-- THERMAL_SHUTDOWN (R458). -/
def execThermalShutdown (s : State) : Out := .next s.overheats

/-- LINK_RESET (R447): ACCEPTED_SEQ, COMPLETED_SEQ, VERSEL and all else that the device holds survive it; the link's training is the host
side's. -/
def execLinkReset (s : State) : Out := .next s

/-- POWER_OFF (R447): everything is lost; the host's own memory is not the device's, and rows to be spared are kept for the next reset. -/
def State.powerLost (s : State) : State :=
  { State.reset with
    powered := false, hostMem := s.hostMem, spare := s.spare, cur := s.cur, agenda := s.agenda, nextId := s.nextId, freeCtr := s.freeCtr }

/-- POWER_OFF (R447). -/
def execPowerOff (s : State) : Out := .next s.powerLost

/-- POWER_UP (R213, R454, R458): the device is as after reset, every MASK clear and every TS stale, with the waiting rows spared. -/
def State.powerOn (s : State) : State := if s.powered then s else { s with powered := true, rows := [], spare := [] }

/-- POWER_UP (R458). -/
def execPowerUp (s : State) : Out := .next s.powerOn

/-- RETENTION_SLEEP_ENTRY (R202): a core without a resident group, or an L2 slice, sleeps. -/
def State.sleeps (s : State) (core : Bool) (unit : Nat) : State :=
  if core then (if s.resident unit || 192 ≤ unit then s else s.modCore unit fun k => { k with asleep := true })
  else { s with sliceAsleep := s.sliceAsleep ||| (1#256 <<< unit) }

/-- RETENTION_SLEEP_ENTRY (R202). -/
def execRetentionSleepEntry (core : Bool) (unit : Nat) (s : State) : Out := .next (s.sleeps core unit)

/-- The identity epochs as bytes: the cores', the host's and the peers' (R455). -/
def State.epochBytes (s : State) : List Byte :=
  ((List.range 192).map fun c => toBytes 2 (s.core c).epoch.toNat).flatten ++ toBytes 2 s.hostEpoch.toNat ++
    ((List.range 64).map fun p => toBytes 2 (s.peerEpoch.get p).toNat).flatten

/-- A measurement of R451. -/
def State.measurement (s : State) (index : Nat) : Option (BitVec 512) :=
  match index with
  | 1 => some s.fwHash
  | 2 => some Config.fuses
  | 3 => some (BitVec.ofNat 512 s.retiredUnits)
  | 4 => some (Config.sha3 s.epochBytes)
  | _ => none

/-- SPDM_REQUEST (R451): the device reports a measurement. -/
def State.attest (s : State) (index : Nat) : State :=
  match s.measurement index with
  | some m => { s with spdm := s.spdm ++ [(index, m)] }
  | none => s

/-- SPDM_REQUEST (R451). -/
def execSpdmRequest (index : Nat) (s : State) : Out := .next (s.attest index)

end Sys2Proof.Machine
end

