-- ==== Sys2Proof/Machine/FloatOps.lean ====
section
/-! DEFINITION. The float instructions (R150 to R160). A result is `floatVal` of the lane's operands. -/
namespace Sys2Proof.Machine

/-- FADD (R154). -/
def execFadd (o : Op) (s : State) : Out := runAlu .fadd o s

/-- FSUB (R154). -/
def execFsub (o : Op) (s : State) : Out := runAlu .fsub o s

/-- FMUL (R154). -/
def execFmul (o : Op) (s : State) : Out := runAlu .fmul o s

/-- FFMA (R154). -/
def execFfma (o : Op) (s : State) : Out := runAlu .ffma o s

/-- FMIN (R155). -/
def execFmin (o : Op) (s : State) : Out := runAlu .fmin o s

/-- FMAX (R155). -/
def execFmax (o : Op) (s : State) : Out := runAlu .fmax o s

/-- FCMP (R156). -/
def execFcmp (o : Op) (s : State) : Out := runAlu .fcmp o s

/-- FSET (R156). -/
def execFset (o : Op) (s : State) : Out := runAlu .fset o s

/-- FCLASS (R157). -/
def execFclass (o : Op) (s : State) : Out := runAlu .fclass o s

/-- FSCALE (R159). -/
def execFscale (o : Op) (s : State) : Out := runAlu .fscale o s

/-- FRND (R159). -/
def execFrnd (o : Op) (s : State) : Out := runAlu .frnd o s

/-- FDOT2 (R160). -/
def execFdot2 (o : Op) (s : State) : Out := runAlu .fdot2 o s

/-- FDOT4 (R160). -/
def execFdot4 (o : Op) (s : State) : Out := runAlu .fdot4 o s

/-- FSIGN (R158). -/
def execFsign (o : Op) (s : State) : Out := runAlu .fsign o s

/-- FMED3 (R155). -/
def execFmed3 (o : Op) (s : State) : Out := runAlu .fmed3 o s

end Sys2Proof.Machine
end

