-- ==== Sys2Proof/Machine/Integer.lean ====
section
/-! DEFINITION. The integer and address instructions (R94 to R125). A result is `intVal` of the lane's operands. -/
namespace Sys2Proof.Machine

/-- IADD (R101). -/
def execIadd (o : Op) (s : State) : Out := runAlu .iadd o s

/-- ISUB (R101). -/
def execIsub (o : Op) (s : State) : Out := runAlu .isub o s

/-- IMUL (R101). -/
def execImul (o : Op) (s : State) : Out := runAlu .imul o s

/-- IMULH (R101). -/
def execImulh (o : Op) (s : State) : Out := runAlu .imulh o s

/-- IMAD (R101). -/
def execImad (o : Op) (s : State) : Out := runAlu .imad o s

/-- IMADW (R102). -/
def execImadw (o : Op) (s : State) : Out := runAlu .imadw o s

/-- IABS (R106). -/
def execIabs (o : Op) (s : State) : Out := runAlu .iabs o s

/-- INEG (R106). -/
def execIneg (o : Op) (s : State) : Out := runAlu .ineg o s

/-- IMIN (R103). -/
def execImin (o : Op) (s : State) : Out := runAlu .imin o s

/-- IMAX (R103). -/
def execImax (o : Op) (s : State) : Out := runAlu .imax o s

/-- ISAD (R103). -/
def execIsad (o : Op) (s : State) : Out := runAlu .isad o s

/-- IADDC (R107). -/
def execIaddc (o : Op) (s : State) : Out := runAlu .iaddc o s

/-- ISUBB (R107). -/
def execIsubb (o : Op) (s : State) : Out := runAlu .isubb o s

/-- IADDS (R103). -/
def execIadds (o : Op) (s : State) : Out := runAlu .iadds o s

/-- ISUBS (R103). -/
def execIsubs (o : Op) (s : State) : Out := runAlu .isubs o s

/-- AND (R108). -/
def execAnd (o : Op) (s : State) : Out := runAlu .and o s

/-- OR (R108). -/
def execOr (o : Op) (s : State) : Out := runAlu .or o s

/-- XOR (R108). -/
def execXor (o : Op) (s : State) : Out := runAlu .xor o s

/-- LOP3 (R109). -/
def execLop3 (o : Op) (s : State) : Out := runAlu .lop3 o s

/-- SHL (R110). -/
def execShl (o : Op) (s : State) : Out := runAlu .shl o s

/-- SHR (R110). -/
def execShr (o : Op) (s : State) : Out := runAlu .shr o s

/-- ROT (R111). -/
def execRot (o : Op) (s : State) : Out := runAlu .rot o s

/-- FUNL (R111). -/
def execFunl (o : Op) (s : State) : Out := runAlu .funl o s

/-- BFX (R112). -/
def execBfx (o : Op) (s : State) : Out := runAlu .bfx o s

/-- BFI (R113). -/
def execBfi (o : Op) (s : State) : Out := runAlu .bfi o s

/-- POPC (R114). -/
def execPopc (o : Op) (s : State) : Out := runAlu .popc o s

/-- CLZ (R114). -/
def execClz (o : Op) (s : State) : Out := runAlu .clz o s

/-- BREV (R114). -/
def execBrev (o : Op) (s : State) : Out := runAlu .brev o s

/-- SEL (R115). -/
def execSel (o : Op) (s : State) : Out := runAlu .sel o s

/-- MOV (R116). -/
def execMov (o : Op) (s : State) : Out := runAlu .mov o s

/-- MOVI (R117). -/
def execMovi (o : Op) (s : State) : Out := runAlu .movi o s

/-- ICMP (R118). -/
def execIcmp (o : Op) (s : State) : Out := runAlu .icmp o s

/-- ISET (R118). -/
def execIset (o : Op) (s : State) : Out := runAlu .iset o s

/-- PLOP (R119). -/
def execPlop (o : Op) (s : State) : Out := runAlu .plop o s

/-- P2S (R120). -/
def execP2s (o : Op) (s : State) : Out := runAlu .p2s o s

/-- S2P (R121). -/
def execS2p (o : Op) (s : State) : Out := runAlu .s2p o s

/-- LEA (R122). -/
def execLea (o : Op) (s : State) : Out := runAlu .lea o s

/-- IADD64 (R123). -/
def execIadd64 (o : Op) (s : State) : Out := runAlu .iadd64 o s

/-- IMUL64 (R124). -/
def execImul64 (o : Op) (s : State) : Out := runAlu .imul64 o s

/-- I2I (R125). -/
def execI2i (o : Op) (s : State) : Out := runAlu .i2i o s

/-- PAIR: two operations that read before either writes (R57 to R60). -/
def execPair (xo : Opc) (x : Op) (yo : Opc) (y : Op) (s : State) : Out := runPair xo x yo y s

end Sys2Proof.Machine
end

