-- ==== Sys2Proof/Machine/Sink.lean ====
section
/-! DEFINITION. Sink groups (R263 to R283): the body decoded and checked at SINK, the lanes' groups sent, each run at its level and
returned. -/
namespace Sys2Proof.Machine

/-- ILLSINK of a code at a body index, with the byte address of the instruction (R267). -/
def illsink (code idx addr : Nat) : Bad := { cause := .illsink, aux := BitVec.ofNat 32 (code + 16 * idx), addr := BitVec.ofNat 64 addr }

/-- The opcode, type and sub-function that stand at a unit. -/
def rawAt (us : List Word) (k : Nat) : Raw := Raw.ofWord (us.getD (k + 1) 0 ++ us.getD k 0)

/-- Does a float operation round or clamp as no body may (R264)? -/
def bodyRounds (o : Opc) (fn : Nat) : Bool := (o == .fadd || o == .fmul || o == .ffma) && (8 ≤ fn || fn % 8 == 5)

/-- The ILLSINK code of an operation whose queue number or direction the decoder refused: step 10 of R64 stands behind these checks. -/
def queueSinkCode (r : Raw) (idx last : Nat) : Nat :=
  match Opc.ofCode r.opc.toNat with
  | some o => if idx == 0 then 2 else if !o.sinkable r.ty.toNat || bodyRounds o r.fn.toNat then 3 else if (o == .sret) != (idx == last) then 5 else 6
  | none => if idx == 0 then 2 else 3

/-- The conditions of R264 and R267 on a body instruction at an index: 0, or the ILLSINK code. `mem` counts the SLDs and SSTs so far, this
one included. -/
def bodyCode (o : Opc) (x : Op) (idx last sld sst : Nat) : Nat :=
  let anchor := o == .ld && x.fn == 0 && (memW x).ord == 0 && (memW x).hint == 0 && x.ty != 0x0E#6
  let isQ : Opnd → Bool := fun y => match y with
    | .q _ => true
    | _ => false
  if idx == 0 && !anchor then 2
  else if idx != 0 && (!o.sinkable x.ty.toNat || bodyRounds o x.fn.toNat) then 3
  else if 1 < sld || 1 < sst then 4
  else if (o == .sret) != (idx == last) then 5
  else if x.pg != 0 || x.pn != 0 || x.scalarD || isQ x.d || isQ x.a || isQ x.b || isQ x.c then 6
  else 0

/-- The registers and predicates that a body instruction reads; those of the anchor's address do not count (R265). -/
def bodyReads (o : Opc) (x : Op) : List Nat :=
  let sl := slotsOf o x
  if o == .ld then []
  else if o == .sret then (opndRes sl.a x.a ++ opndRes sl.b x.b)
  else opndRes sl.a x.a ++ opndRes sl.b x.b ++ opndRes sl.c x.c

/-- The registers that a body instruction writes. -/
def bodyWrites (o : Opc) (x : Op) : List Nat := opndRes (slotsOf o x).d x.d

/-- A body being read: its instructions, the program counter after them, and what the checks count. -/
structure BodyScan where
  ops : List (Opc × Op) := []
  pc : BitVec 50
  sld : Nat := 0
  sst : Nat := 0
  written : List Nat := []
  live : List Nat := []
  deriving DecidableEq, Repr

/-- Read and check a body of n instructions (R263, R267): the body, the fault, or no answer while a block's sector holds an entry in flight of
the group (R276). `fuel` bounds the instructions and pads to pass: the address space holds no more. DESIGN CHOICE (log 96): a fetch fault of
a later block of the body is raised at SINK, as the body's other faults are; TRAPADDR is the block. -/
def State.readBody (s : State) (i : Iss) (n : Nat) : Nat → BodyScan → State × Except (Option Bad) BodyScan
  | 0, b => (s, .ok b)
  | fuel + 1, b =>
    if n ≤ b.ops.length then (s, .ok b)
    else if s.sinkBusyAt i.who.key i.g .fetch (blockOf b.pc) then (s, .error none)
    else match s.fetch i (blockOf b.pc) with
    | (s, .error e) => (s, .error (some e))
    | (s, .ok us) =>
      let k := b.pc.toNat % 8
      let at' := b.pc.toNat * 4
      let idx := b.ops.length
      match decodeBlock (s.decCx i.g) false us k with
      | .pad => s.readBody i n fuel { b with pc := BitVec.ofNat 50 (b.pc.toNat / 8 * 8 + 8) }
      | .bad e => (s, .error (some (if e.cause == .qfault then illsink (queueSinkCode (rawAt us k) idx (n - 1)) idx at' else { e with addr := BitVec.ofNat 64 at' })))
      | .ok ins units => match Instr.ops ins with
        | [(o, x)] =>
          let sld := b.sld + if o == .sld then 1 else 0
          let sst := b.sst + if o == .sst then 1 else 0
          let code := bodyCode o x idx (n - 1) sld sst
          if code != 0 then (s, .error (some (illsink code idx at')))
          else
            let live := dedup (b.live ++ (bodyReads o x).filter fun r => !b.written.contains r)
            if 8 < live.length then (s, .error (some (illsink 7 idx at')))
            else s.readBody i n fuel { ops := b.ops ++ [(o, x)], pc := b.pc + BitVec.ofNat 50 units, sld := sld, sst := sst,
                                       written := b.written ++ bodyWrites o x, live := live }
        | _ => (s, .error (some (illsink (if idx == 0 then 2 else 3) idx at')))

/-- Does a body hold an SST? -/
def bodyStores (b : List (Opc × Op)) : Bool := b.any fun p => p.1 == .sst

/-- The access of a body's anchor (R269). -/
def anchorAcc (b : List (Opc × Op)) : Acc := if bodyStores b then .atomic else .read

/-- Check a lane's anchor at the core (R269 steps 2 and 3): its translation. -/
def State.anchorAt (s : State) (i : Iss) (b : List (Opc × Op)) (l : Nat) : State × Except Bad Aim :=
  match b.head? with
  | none => (s, .error illop9)
  | some (_, x) =>
    let ea := globAddr x i.sp (i.g.lane l)
    let acc := anchorAcc b
    if ea % memBytes x.ty.toNat != 0 then (s, .error (memBad .align 1 acc ea))
    else match s.gx i acc true ea with
    | (s, .error e) => (s, .error e)
    | (s, .ok t) => (s, .ok { lane := l, ea := ea, place := t.place, leaf := t.leaf })

/-- Does a SINK write receipts? -/
def hasReceipt (x : Op) : Bool := 32 ≤ x.ty.toNat

/-- The checks of R269 for a lane: its anchor and the place of its receipt, or the fault found at the core. -/
def State.sinkLane (s : State) (i : Iss) (x : Op) (b : List (Opc × Op)) (l : Nat) : State × Except Bad Aim :=
  match s.anchorAt i b l with
  | (s, .error e) => (s, .error e)
  | (s, .ok a) =>
    if !hasReceipt x then (s, .ok a)
    else
      let ra := receiptAddr x i.sp l
      if ra % 4 != 0 then (s, .error (memBad .align 1 .write ra))
      else match s.gx i .write true ra with
      | (s, .error e) => (s, .error e)
      | (s, .ok t) => (s, .ok { a with rplace := t.place })

/-- The checks of every lane, ascending. -/
def State.sinkLanes (s : State) (i : Iss) (x : Op) (b : List (Opc × Op)) : List Nat → State × List (Nat × Except Bad Aim)
  | [] => (s, [])
  | l :: ls => let r := s.sinkLane i x b l; let t := r.1.sinkLanes i x b ls; (t.1, (l, r.2) :: t.2)

/-- The lanes that performed nothing, with their faults. -/
def sinkBad (p : Pend) : List (Nat × Bad) := p.sink.filterMap fun e => match e.2 with
  | .failed b => some (e.1, b)
  | _ => none

/-- Lanes whose groups completed. -/
def sinkDone (p : Pend) : Nat := (p.sink.filter fun e => e.2 == .returned).length

/-- SINK's fault point passes once every lane's group has returned or been returned unexecuted (R280, R282). -/
def State.sinkPoint (s : State) (w : Who) : State :=
  match ({ s with cur := some w } : State).iss? with
  | none => s
  | some i => match i.sp.pend with
    | none => s
    | some p =>
      if p.opc != .sink || !(p.sink.all fun e => match e.2 with | .returned | .failed _ => true | _ => false) then s
      else (s.freeEntries w.key (p.sink.map (·.1))).faultPoint w p (sinkBad p) (BitVec.ofNat 32 (2 ^ 16 * sinkDone p))

/-- The number n of SINK's body instructions (R266). -/
def sinkCount (x : Op) : Int := match x.a with
  | .imm k => sgn 8 k.toNat
  | _ => 0

/-- The registers that a body reads or returns: its anchor's address, its live-ins, and those of SRET. What it writes besides is its own copy,
discarded (R265). -/
def BodyScan.names (b : BodyScan) : List Nat :=
  b.live ++ (b.ops.head?.map fun p => opReads p.1 p.2).getD [] ++ (b.ops.getLast?.map fun p => bodyReads p.1 p.2).getD []

/-- What a split holds for a SINK: it reads what its body reads of the lane, and writes what SRET returns (R54, R265); under `.acq` it issues
as though L = 0 (R280). -/
def sinkPend (i : Iss) (x : Op) (b : BodyScan) (lanes : List (Nat × Except Bad Aim)) : Pend :=
  let base := pendOf i .sink x (lanes.map (·.1)) (if x.ty.toNat / 8 % 4 == 1 then 0 else x.fn.toNat)
  { base with
    regs := base.regs ++ b.names
    dst := (b.ops.getLast?.map fun p => bodyReads p.1 p.2).getD []
    sink := lanes.map fun e => (e.1, match e.2 with
      | .ok _ => .sent
      | .error x => .failed x)
    aims := lanes.filterMap fun e => match e.2 with
      | .ok a => some a
      | .error _ => none
    body := b.ops, after := b.pc }

/-- Does a result on its way hold a SINK whose body reads or returns its register (R97, R265)? -/
def bodyWaits (g : Group) (x : Split) (b : BodyScan) : Bool := g.results.any fun r => r.slices &&& x.slices != 0 && meets b.names (resDst r)

/-- The addresses that a SINK translates at the core for some lanes: their anchors, and under `.rcpt` their receipts (R269). -/
def sinkAddrs (i : Iss) (o anchor : Op) (ls : List Nat) : List Nat :=
  (ls.map fun l => globAddr anchor i.sp (i.g.lane l)) ++ if hasReceipt o then ls.map (receiptAddr o i.sp) else []

/-- Must a SINK wait at issue: for entries of the sink pending table or of the translation-miss table, which each of its gang halves needs, for
groups in flight on its sectors, or for a flush that it starts (R269, R276, R393, R398)? -/
def State.sinkWaits (s : State) (i : Iss) (o anchor : Op) (ls : List Nat) : Bool :=
  s.sinkHolds i true (s.sectorsOf i .ld anchor ls) || s.xmissHolds i ((halvesOf i.sp ls).map (sinkAddrs i o anchor)) ||
    s.flushWaits i (sinkAddrs i o anchor ls)

/-- A SINK whose body is checked, in its active lanes (R269, R276). -/
def State.sinkIssue (s : State) (i : Iss) (o : Op) (b : BodyScan) (anchor : Op) (ls : List Nat) (past : State → State) : State :=
  if s.sinkWaits i o anchor ls then s.stall i
  else
    let r := s.sinkLanes i o b.ops ls
    let p := { sinkPend i o b r.2 with epoch := s.epochOf i.core }
    let sent := p.aims.map fun a => (r.1.sectorPA a.leaf a.place, a.lane)
    ((past (r.1.takeEntries i sent)).modSplit i.who fun y => { y with pend := some p }).sinkPoint i.who

/-- SINK (R263, R267 to R269, R276). -/
def execSink (o : Op) (s : State) : Out :=
  issue s fun i =>
    let n := sinkCount o
    if n < 2 || 8 < n then s.raiseAll i (illsink 1 0 (i.sp.pc.toNat * 4))
    else
      match s.readBody i n.toNat (8 * allBlocks) { pc := i.sp.pc + BitVec.ofNat 50 (opUnits o) } with
      | (s, .error none) => s.stall i
      | (s, .error (some e)) => s.raiseAll (s.again i) e
      | (s, .ok b) =>
        let i := s.again i
        let ls := activeLanes i.g i.sp o
        let past (s : State) : State := (s.done i o).modSplit i.who fun y => { y with pc := b.pc }
        if ls == [] then past s
        else if bodyWaits i.g i.sp b then s.stall i
        else
          match b.ops.head? with
          | none => past s
          | some (_, anchor) => s.sinkIssue i o b anchor ls past

/-- FMT as carried with a group: RS rounds as RNE (R172). -/
def sinkFmt (fmt : Word) : Word := if fmtRM fmt == .rs then fmt &&& ~~~0x1C00#32 else fmt

/-- The unit that runs a level for a line: core, slice, stack or LPDDR6 channel (R274). -/
def levelUnit (level core line : Nat) : Nat :=
  match level with
  | 0 => core
  | 1 => sliceOf line
  | 2 => line % 512 / 64
  | _ => line % 512 / 16

/-- The translation cache of a level (R272, R396). -/
def levelTc (level core line : Nat) : Tc :=
  match level with
  | 0 => .core core
  | 1 => .slice (sliceOf line)
  | 2 => .exec (line % 512 / 64)
  | _ => .exec (8 + line % 512 / 16)

/-- A body as it runs: the lane's copy of its registers, the flags, and the write of its SST. -/
structure BodyRun where
  ln : Lane
  flags : Flags := 0
  wr : Option LaneWr := none

/-- The bytes at a place with the body's own write laid over them. -/
def overlay (wr : Option LaneWr) (place : Nat) (bs : List Byte) : List Byte :=
  match wr with
  | none => bs
  | some w => (List.range bs.length).map fun k =>
      if w.place ≤ place + k && place + k < w.place + w.bytes.length then w.bytes.getD (place + k - w.place) 0 else bs.getD k 0

/-- A body's access at its level (R272). -/
def State.bodyXlate (s : State) (i : Iss) (level line : Nat) (acc : Acc) (va : Nat) : State × Except Bad Xl :=
  s.translate (levelTc level i.core line) (s.ctxOf i.core) (s.ctxtOf i.g) acc (level == 0) va

/-- The core whose L1 holds a sector of a private page, which a body below L1 must first recall from it (R198, R272). -/
def State.privOwner (s : State) (ctx : BitVec 16) (sector : Nat) : Option Nat :=
  (s.cores.find? fun e => match e.2.l1At (sector / 4) ctx with
    | some l => l.cls == .priv && l.valid.getLsbD (sector % 4)
    | none => false).map (·.1)

/-- A body's target outside the anchor sector at level 1 and below, on a sector that an owner's L1 holds: the home recalls it, and the lane's
group is returned and sent again (R272, R281). -/
def State.bodyRecall (s : State) (i : Iss) (level anchor place : Nat) : Option State :=
  if level == 0 || place / 32 == anchor then none
  else (s.privOwner (s.ctxOf i.core) (place / 32)).map fun c => s.dropSectors c (place / 128) (s.ctxOf i.core) (1#4 <<< (place / 32 % 4))

/-- The core of a body's accesses: none below level 0. -/
def bodyCore (i : Iss) (level : Nat) : Nat := if level == 0 then i.core else 1000
/-- The path of a body's accesses. -/
def bodyPath (level : Nat) (p : Path) : Path := if level == 0 then p else .home

/-- Must a body's access at level 0 wait for a flush that its claim starts (R272, R393)? -/
def State.bodyFlush (s : State) (i : Iss) (level va : Nat) : Bool := level == 0 && s.flushWaits i [va] true

/-- One body instruction after the anchor, SRET apart: the run after it, the fault, or none where the group is returned for a recall or, at
level 0, waits for a flush (R272, R281). An SLD within the anchor sector is performed at the level itself and fills nothing. -/
def State.bodyStep (s : State) (i : Iss) (level anchor : Nat) (o : Opc) (x : Op) (b : BodyRun) : State × Except (Option Bad) BodyRun :=
  match o with
  | .sld =>
    let va := globAddr x i.sp b.ln
    let n := memBytes x.ty.toNat
    if va % n != 0 then (s, .error (some (memBad .align 1 .read va)))
    else if s.bodyFlush i level va then (s, .error none)
    else match s.bodyXlate i level (anchor / 4) .read va with
    | (s, .error e) => (s, .error (some e))
    | (s, .ok t) =>
      match s.bodyRecall i level anchor t.place with
      | some s => (s, .error none)
      | none =>
      let g := s.gran (t.place / 32)
      if g != .ok then (s.markRead t.place 1, .error (some (memBad .dataerr g.code .read va)))
      else
        let v := loadVal x.ty.toNat (ofBytes (overlay b.wr t.place (s.bytes t.place n)))
        (if t.place / 32 == anchor then s
         else s.loadLine (bodyCore i level) i.slot (s.ctxOf i.core) (bodyPath level t.path) false (t.place / 32),
         .ok { b with ln := b.ln.write x.d (memN x.ty.toNat) v false })
  | .sst =>
    let va := globAddr x i.sp b.ln
    let n := memBytes x.ty.toNat
    if va % n != 0 then (s, .error (some (memBad .align 1 .write va)))
    else if s.bodyFlush i level va then (s, .error none)
    else match s.bodyXlate i level (anchor / 4) .write va with
    | (s, .error e) => (s, .error (some e))
    | (s, .ok t) =>
      match s.bodyRecall i level anchor t.place with
      | some s => (s, .error none)
      | none => (s, .ok { b with wr := some ⟨0, va, t.place, bodyPath level t.path, toBytes n (storeVal x i.sp b.ln)⟩ })
  | .sret => (s, .ok b)
  | o =>
    let out := aluVal o x.fn.toNat x.ty.toNat (sinkFmt i.sp.fmt) 1 (laneIn o x i.sp b.ln [])
    (s, .ok { b with ln := b.ln.write x.d (dstN o x) out.val out.pred, flags := b.flags ||| out.flags })

/-- The instructions of a body after its anchor, in order; a fault carries its index (R282). -/
def State.bodyRun (s : State) (i : Iss) (level anchor : Nat) : Nat → List (Opc × Op) → BodyRun → State × Except (Option Bad) BodyRun
  | _, [], b => (s, .ok b)
  | k, (o, x) :: rest, b =>
    match s.bodyStep i level anchor o x b with
    | (s, .error e) => (s, .error (e.map fun e => { e with aux := e.aux ||| BitVec.ofNat 32 (2 ^ 13 * k + 2 ^ 12 + 2 ^ 10 * level) }))
    | (s, .ok b) => s.bodyRun i level anchor (k + 1) rest b

/-- The write of a body takes effect (R271, R281): a partial write to a bad granule makes a DATAERR event. -/
def State.bodyWrite (s : State) (i : Iss) (l level sector : Nat) (path : Path) : Option LaneWr → State
  | none => s.levelTouch i path level sector false
  | some w =>
    let gr := w.place / 32
    let g := s.gran gr
    let s := if g == .ok then s else s.dataEvent i.who.key l (g.code + 16 * Acc.code .write) w.addr
    let s := if level == 0 then s.aside i.core (s.ctxOf i.core) (if gr == sector then path else w.path) gr else s
    let s := if gr == sector then s.levelTouch i path level sector true
      else (s.storeLine (bodyCore i level) i.slot (s.ctxOf i.core) w.path false gr).levelTouch i path level sector false
    (s.granWritten gr false false).setBytes w.place w.bytes

/-- The path by which a group at level 0 reaches its anchor: its L1 holds the line as that of a private or a shared page (R279). -/
def State.anchorPath (s : State) (i : Iss) (sector : Nat) : Path :=
  match s.l1Hit i.core (sector / 4) (s.ctxOf i.core) with
  | some l => if l.cls == .priv then .priv else .shared
  | none => .home

/-- What running a lane's group at a level gives (R271, R272, R281); one that waits for a flush has done nothing. -/
def State.sinkRun (s : State) (i : Iss) (p : Pend) (a : Aim) (level : Nat) : State × SinkSt :=
  let sector := a.place / 32
  let g := s.gran sector
  let path := s.anchorPath i sector
  if g != .ok then
    let e := memBad .dataerr g.code (anchorAcc p.body) a.ea
    (s.markRead a.place 1, .failed { e with aux := e.aux ||| BitVec.ofNat 32 (2 ^ 12 + 2 ^ 10 * level) })
  else match p.body with
  | [] => (s, .returned)
  | (_, x) :: rest =>
    let v := loadVal x.ty.toNat (s.rd a.place (memBytes x.ty.toNat))
    let b : BodyRun := { ln := (i.g.lane a.lane).write x.d (memN x.ty.toNat) v false }
    match s.bodyRun i level sector 1 rest b with
    | (t, .error none) => (if level == 0 then s else t, .sent)
    | (s, .error (some e)) => (s.levelTouch i path level sector false, .failed e)
    | (s, .ok b) =>
      let reg (y : Opnd) : Word := BitVec.ofNat 32 (readOpnd i.sp b.ln (.int 32) y)
      let sret := (rest.getLast?.map (·.2)).getD { len := 1 }
      (s.bodyWrite i a.lane level sector path b.wr,
       .done (reg sret.a) (reg sret.b) b.flags (BitVec.ofNat 2 level) (levelUnit level i.core (sector / 4)))

/-- Set what became of a lane's group. -/
def Pend.setSink (p : Pend) (l : Nat) (v : SinkSt) : Pend := { p with sink := p.sink.map fun e => if e.1 == l then (l, v) else e }

/-- The state of a lane's group. -/
def Pend.sinkAt (p : Pend) (l : Nat) : Option SinkSt := (p.sink.find? fun e => e.1 == l).map (·.2)

/-- The pending SINK of a split. -/
def State.sinkOf (s : State) (w : Who) : Option (Iss × Pend) :=
  match ({ s with cur := some w } : State).iss? with
  | none => none
  | some i => match i.sp.pend with
    | some p => if p.opc == .sink then some (i, p) else none
    | none => none

/-- The groups that one request of a SINK carries: those still sent of the lanes of one gang half whose anchors share a sector, ascending
(R269, R441). -/
def sinkRequest (i : Iss) (p : Pend) (l : Nat) : List Aim :=
  match p.aims.find? fun a => a.lane == l with
  | none => []
  | some m => p.aims.filter fun a => a.place / 32 == m.place / 32 && i.sp.later a.lane == i.sp.later l && p.sinkAt a.lane == some .sent

/-- Must a lane's group of the second gang half wait for an entry of the first half on its sector to be freed (R276, R278)? -/
def State.sinkBehind (s : State) (i : Iss) (p : Pend) (l : Nat) : Bool :=
  let pa (a : Aim) : Nat := s.sectorPA a.leaf a.place
  match p.aims.find? fun a => a.lane == l with
  | none => false
  | some m => i.sp.later l && p.aims.any fun a => pa a == pa m && !i.sp.later a.lane && (match p.sinkAt a.lane with
    | some .sent => true
    | some (.done _ _ _ _ _) => true
    | _ => false)

/-- The state of a lane's entry. -/
def State.setEntry (s : State) (w : Who) (l : Nat) (st : EntrySt) : State :=
  s.modCore (w.key / 64) fun k => { k with sink := k.sink.map fun e => if e.slot == w.key % 64 && e.lane == l then { e with st := st } else e }

/-- The groups of a request run one after another at its level (R271, R441). One that is returned for a recall is sent again with those
behind it; one that waits for a flush keeps them waiting. -/
def State.sinkRuns (s : State) (w : Who) (i : Iss) (p : Pend) (level : Nat) : List Aim → State
  | [] => s
  | a :: rest =>
    let r := s.sinkRun i p a level
    let s := r.1.modSplit w fun y => { y with pend := y.pend.map (·.setSink a.lane r.2) }
    match r.2 with
    | .sent => if level == 0 then s else s.setEntry w a.lane .resending
    | .failed _ => (s.setEntry w a.lane .unexecuted).sinkRuns w i p level rest
    | _ => s.sinkRuns w i p level rest

/-- The home slice records a line as forwarded while groups run below it (R271, R440): it stays unallocated. -/
def State.forward (s : State) (line : Nat) (ctx : BitVec 16) : State :=
  { s with l2 := s.l2 ++ [{ line := line, ctx := ctx, shr := 0, p := false, o := false, sv := 0, sd := 0, fwd := true }] }
/-- The results have passed back through the slice. -/
def State.passedBack (s : State) (line : Nat) (ctx : BitVec 16) : State :=
  match s.l2.find? fun l => l.line == line && l.ctx == ctx && l.fwd with
  | none => s
  | some x => ({ s with l2 := s.l2.filter fun l => !(l.line == line && l.ctx == ctx && l.fwd) }).dramAsk line x.sd true

/-- The request of a lane's group runs at its level (R270, R271): from the forward to the passing back it is one step, so that every other
request for the line waits behind it. -/
def State.sinkExecute (s : State) (w : Who) (l : Nat) : State :=
  match s.sinkOf w with
  | none => s
  | some (i, p) => match sinkRequest i p l with
    | [] => s
    | a :: rest =>
      if s.sinkBehind i p l || !s.inEpoch i.core p.epoch then s
      else
        let ctx := s.ctxOf i.core
        let level := s.levelOf i.core ctx a.leaf (a.place / 32) (bodyStores p.body)
        let s1 := s.anchorMiss i (a.place / 32)
        let s1 := if 2 ≤ level then s1.forward (a.place / 128) ctx else s1
        ((s1.sinkRuns w i p level (a :: rest)).passedBack (a.place / 128) ctx).sinkPoint w

/-- SINK_GROUP_EXECUTION (R270 to R272). -/
def execSinkGroupExecution (key split : Nat) (lane : Nat) (s : State) : Out := .next (s.sinkExecute ⟨key, split⟩ lane)

/-- The receipt word of a lane (R274). -/
def receiptWord (ln : Lane) (level unit : Nat) : Nat := 65536 * ln.age.toNat + 4 * (unit % 256) + level

/-- The receipt is written as an ordinary store of the lane (R273). Its address was checked at issue (R269): where it no longer maps, the
translation made then serves, at the home. -/
def State.writeReceipt (s : State) (i : Iss) (p : Pend) (l level unit : Nat) : State :=
  let ra := receiptAddr p.op i.sp l
  let r := s.gx i .write true ra
  let at' : Nat × Path := match r.2 with
    | .ok t => (t.place, t.path)
    | .error _ => (((p.aims.find? fun a => a.lane == l).map (·.rplace)).getD 0, .home)
  r.1.storeAll i false false [⟨l, ra, at'.1, at'.2, toBytes 4 (receiptWord (i.g.lane l) level unit)⟩]

/-- A returned lane's receipt: it waits while its sector holds an entry in flight of the group, and for a flush that it starts (R273, R276,
R393). -/
def State.receipt (s : State) (w : Who) (i : Iss) (p : Pend) (l : Nat) (level : BitVec 2) (unit : Nat) : State :=
  let set (st : SinkSt) (s : State) : State := s.modSplit w fun y => { y with pend := y.pend.map (·.setSink l st) }
  let ra := receiptAddr p.op i.sp l
  if !hasReceipt p.op then set .returned s
  else if s.sinkBusyAt w.key i.g .write ra || s.flushWaits i [ra] then set (.receipt level unit) s
  else set .returned (s.writeReceipt i p l level.toNat unit)

/-- A lane's group returns (R273): its registers, RCPT and FLAGS, its entry, and its receipt. -/
def State.sinkReturn (s : State) (w : Who) (l : Nat) : State :=
  match s.sinkOf w with
  | none => s
  | some (i, p) => match p.sinkAt l with
    | some (.done r0 r1 fl level unit) =>
      let sret := (p.body.getLast?.map (·.2)).getD { len := 1 }
      let s := s.modGroup w.key fun g => g.modLane l fun ln =>
        { (ln.write sret.a 1 r0.toNat false).write sret.b 1 r1.toNat false with rcpt := level }
      let s := (s.modSplit w fun y => { y with flags := y.flags ||| fl }).freeEntries w.key [l]
      (s.receipt w i p l level unit).sinkPoint w
    | some (.receipt level unit) => (s.receipt w i p l level unit).sinkPoint w
    | _ => s

/-- SINK_GROUP_RETURN (R273). -/
def execSinkGroupReturn (key split : Nat) (lane : Nat) (s : State) : Out := .next (s.sinkReturn ⟨key, split⟩ lane)

/-- SRET outside a body: ILLSINK with code 8 (R267). -/
def execSret (_o : Op) (s : State) : Out := issue s fun i => s.raiseAll i (illsink 8 0 (i.sp.pc.toNat * 4))
/-- SLD outside a body: ILLSINK with code 8 (R267); in a body its meaning is `State.bodyStep`. -/
def execSld (_o : Op) (s : State) : Out := issue s fun i => s.raiseAll i (illsink 8 0 (i.sp.pc.toNat * 4))
/-- SST outside a body: ILLSINK with code 8 (R267); in a body its meaning is `State.bodyStep`. -/
def execSst (_o : Op) (s : State) : Out := issue s fun i => s.raiseAll i (illsink 8 0 (i.sp.pc.toNat * 4))

end Sys2Proof.Machine
end

