-- ==== Sys2Proof/Machine/SpecialOps.lean ====
section
/-! DEFINITION. The long-latency arithmetic: division, square root and the special functions (R104, R161 to R164), and where their results return. -/
namespace Sys2Proof.Machine

/-- IDIV (R104, R105). -/
def execIdiv (o : Op) (s : State) : Out := runSfu .idiv o s

/-- FDIV (R161). -/
def execFdiv (o : Op) (s : State) : Out := runSfu .fdiv o s

/-- FSQRT (R161). -/
def execFsqrt (o : Op) (s : State) : Out := runSfu .fsqrt o s

/-- RCP (R162). -/
def execRcp (o : Op) (s : State) : Out := runSfu .rcp o s

/-- RSQ (R162). -/
def execRsq (o : Op) (s : State) : Out := runSfu .rsq o s

/-- EXP2 (R162). -/
def execExp2 (o : Op) (s : State) : Out := runSfu .exp2 o s

/-- LOG2 (R162). -/
def execLog2 (o : Op) (s : State) : Out := runSfu .log2 o s

/-- SIN (R162). -/
def execSin (o : Op) (s : State) : Out := runSfu .sin o s

/-- COS (R162). -/
def execCos (o : Op) (s : State) : Out := runSfu .cos o s

/-- TANH (R162). -/
def execTanh (o : Op) (s : State) : Out := runSfu .tanh o s

/-- SPECIAL_FUNCTION_RESULT: a result is written, and the fault point of its instruction passes (R164). -/
def execSpecialFunctionResult (key id : Nat) (s : State) : Out := .next (s.sfuReturn key id)

end Sys2Proof.Machine
end

