-- ==== Sys2Proof/Machine/Dispatch.lean ====
section
/-! DEFINITION. The meaning of every row of the opcode table: one arm each. -/
namespace Sys2Proof.Machine

def exec (i : Instr) (s : State) : Host.Outcome State Fault Refusal :=
  match i with
  | .nop o => Sys2Proof.Machine.execNop o s
  | .br o => Sys2Proof.Machine.execBr o s
  | .brc o => Sys2Proof.Machine.execBrc o s
  | .bru o => Sys2Proof.Machine.execBru o s
  | .brx o => Sys2Proof.Machine.execBrx o s
  | .call o => Sys2Proof.Machine.execCall o s
  | .callx o => Sys2Proof.Machine.execCallx o s
  | .ret o => Sys2Proof.Machine.execRet o s
  | .regang o => Sys2Proof.Machine.execRegang o s
  | .exit o => Sys2Proof.Machine.execExit o s
  | .refill o => Sys2Proof.Machine.execRefill o s
  | .yield o => Sys2Proof.Machine.execYield o s
  | .rcv o => Sys2Proof.Machine.execRcv o s
  | .iadd o => Sys2Proof.Machine.execIadd o s
  | .isub o => Sys2Proof.Machine.execIsub o s
  | .imul o => Sys2Proof.Machine.execImul o s
  | .imulh o => Sys2Proof.Machine.execImulh o s
  | .imad o => Sys2Proof.Machine.execImad o s
  | .imadw o => Sys2Proof.Machine.execImadw o s
  | .idiv o => Sys2Proof.Machine.execIdiv o s
  | .iabs o => Sys2Proof.Machine.execIabs o s
  | .ineg o => Sys2Proof.Machine.execIneg o s
  | .imin o => Sys2Proof.Machine.execImin o s
  | .imax o => Sys2Proof.Machine.execImax o s
  | .isad o => Sys2Proof.Machine.execIsad o s
  | .iaddc o => Sys2Proof.Machine.execIaddc o s
  | .isubb o => Sys2Proof.Machine.execIsubb o s
  | .iadds o => Sys2Proof.Machine.execIadds o s
  | .isubs o => Sys2Proof.Machine.execIsubs o s
  | .and o => Sys2Proof.Machine.execAnd o s
  | .or o => Sys2Proof.Machine.execOr o s
  | .xor o => Sys2Proof.Machine.execXor o s
  | .lop3 o => Sys2Proof.Machine.execLop3 o s
  | .shl o => Sys2Proof.Machine.execShl o s
  | .shr o => Sys2Proof.Machine.execShr o s
  | .rot o => Sys2Proof.Machine.execRot o s
  | .funl o => Sys2Proof.Machine.execFunl o s
  | .bfx o => Sys2Proof.Machine.execBfx o s
  | .bfi o => Sys2Proof.Machine.execBfi o s
  | .popc o => Sys2Proof.Machine.execPopc o s
  | .clz o => Sys2Proof.Machine.execClz o s
  | .brev o => Sys2Proof.Machine.execBrev o s
  | .sel o => Sys2Proof.Machine.execSel o s
  | .mov o => Sys2Proof.Machine.execMov o s
  | .movi o => Sys2Proof.Machine.execMovi o s
  | .icmp o => Sys2Proof.Machine.execIcmp o s
  | .iset o => Sys2Proof.Machine.execIset o s
  | .plop o => Sys2Proof.Machine.execPlop o s
  | .p2s o => Sys2Proof.Machine.execP2s o s
  | .s2p o => Sys2Proof.Machine.execS2p o s
  | .lea o => Sys2Proof.Machine.execLea o s
  | .iadd64 o => Sys2Proof.Machine.execIadd64 o s
  | .imul64 o => Sys2Proof.Machine.execImul64 o s
  | .i2i o => Sys2Proof.Machine.execI2i o s
  | .fadd o => Sys2Proof.Machine.execFadd o s
  | .fsub o => Sys2Proof.Machine.execFsub o s
  | .fmul o => Sys2Proof.Machine.execFmul o s
  | .ffma o => Sys2Proof.Machine.execFfma o s
  | .fmin o => Sys2Proof.Machine.execFmin o s
  | .fmax o => Sys2Proof.Machine.execFmax o s
  | .fcmp o => Sys2Proof.Machine.execFcmp o s
  | .fset o => Sys2Proof.Machine.execFset o s
  | .fclass o => Sys2Proof.Machine.execFclass o s
  | .fscale o => Sys2Proof.Machine.execFscale o s
  | .frnd o => Sys2Proof.Machine.execFrnd o s
  | .fdot2 o => Sys2Proof.Machine.execFdot2 o s
  | .fdot4 o => Sys2Proof.Machine.execFdot4 o s
  | .fsign o => Sys2Proof.Machine.execFsign o s
  | .fmed3 o => Sys2Proof.Machine.execFmed3 o s
  | .fdiv o => Sys2Proof.Machine.execFdiv o s
  | .fsqrt o => Sys2Proof.Machine.execFsqrt o s
  | .cvt o => Sys2Proof.Machine.execCvt o s
  | .f2i o => Sys2Proof.Machine.execF2i o s
  | .i2f o => Sys2Proof.Machine.execI2f o s
  | .pack o => Sys2Proof.Machine.execPack o s
  | .unpack o => Sys2Proof.Machine.execUnpack o s
  | .bscale o => Sys2Proof.Machine.execBscale o s
  | .rcp o => Sys2Proof.Machine.execRcp o s
  | .rsq o => Sys2Proof.Machine.execRsq o s
  | .exp2 o => Sys2Proof.Machine.execExp2 o s
  | .log2 o => Sys2Proof.Machine.execLog2 o s
  | .sin o => Sys2Proof.Machine.execSin o s
  | .cos o => Sys2Proof.Machine.execCos o s
  | .tanh o => Sys2Proof.Machine.execTanh o s
  | .shfl o => Sys2Proof.Machine.execShfl o s
  | .bcast o => Sys2Proof.Machine.execBcast o s
  | .vote o => Sys2Proof.Machine.execVote o s
  | .ballot o => Sys2Proof.Machine.execBallot o s
  | .reduce o => Sys2Proof.Machine.execReduce o s
  | .scan o => Sys2Proof.Machine.execScan o s
  | .matchKeys o => Sys2Proof.Machine.execMatchKeys o s
  | .compact o => Sys2Proof.Machine.execCompact o s
  | .agemask o => Sys2Proof.Machine.execAgemask o s
  | .ld o => Sys2Proof.Machine.execLd o s
  | .st o => Sys2Proof.Machine.execSt o s
  | .ldl o => Sys2Proof.Machine.execLdl o s
  | .stl o => Sys2Proof.Machine.execStl o s
  | .ldp o => Sys2Proof.Machine.execLdp o s
  | .stp o => Sys2Proof.Machine.execStp o s
  | .ldc o => Sys2Proof.Machine.execLdc o s
  | .atom o => Sys2Proof.Machine.execAtom o s
  | .atomnr o => Sys2Proof.Machine.execAtomnr o s
  | .cas o => Sys2Proof.Machine.execCas o s
  | .fatom o => Sys2Proof.Machine.execFatom o s
  | .fatomnr o => Sys2Proof.Machine.execFatomnr o s
  | .atoml o => Sys2Proof.Machine.execAtoml o s
  | .fence o => Sys2Proof.Machine.execFence o s
  | .publish o => Sys2Proof.Machine.execPublish o s
  | .pref o => Sys2Proof.Machine.execPref o s
  | .tierpf o => Sys2Proof.Machine.execTierpf o s
  | .flush o => Sys2Proof.Machine.execFlush o s
  | .sink o => Sys2Proof.Machine.execSink o s
  | .sret o => Sys2Proof.Machine.execSret o s
  | .sld o => Sys2Proof.Machine.execSld o s
  | .sst o => Sys2Proof.Machine.execSst o s
  | .cpy o => Sys2Proof.Machine.execCpy o s
  | .cpyb o => Sys2Proof.Machine.execCpyb o s
  | .cpyo o => Sys2Proof.Machine.execCpyo o s
  | .cpyg o => Sys2Proof.Machine.execCpyg o s
  | .seal o => Sys2Proof.Machine.execSeal o s
  | .waitb o => Sys2Proof.Machine.execWaitb o s
  | .mma o => Sys2Proof.Machine.execMma o s
  | .mmaz o => Sys2Proof.Machine.execMmaz o s
  | .mdrain o => Sys2Proof.Machine.execMdrain o s
  | .mfill o => Sys2Proof.Machine.execMfill o s
  | .qtest o => Sys2Proof.Machine.execQtest o s
  | .mselfStat o => Sys2Proof.Machine.execMselfStat o s
  | .mselfRun o => Sys2Proof.Machine.execMselfRun o s
  | .mselfInj o => Sys2Proof.Machine.execMselfInj o s
  | .fwait o => Sys2Proof.Machine.execFwait o s
  | .ftest o => Sys2Proof.Machine.execFtest o s
  | .fcancel o => Sys2Proof.Machine.execFcancel o s
  | .fmov o => Sys2Proof.Machine.execFmov o s
  | .frel o => Sys2Proof.Machine.execFrel o s
  | .binit o => Sys2Proof.Machine.execBinit o s
  | .barv o => Sys2Proof.Machine.execBarv o s
  | .bwait o => Sys2Proof.Machine.execBwait o s
  | .bexp o => Sys2Proof.Machine.execBexp o s
  | .barw o => Sys2Proof.Machine.execBarw o s
  | .bread o => Sys2Proof.Machine.execBread o s
  | .pmread o => Sys2Proof.Machine.execPmread o s
  | .cntrd o => Sys2Proof.Machine.execCntrd o s
  | .cntcfg o => Sys2Proof.Machine.execCntcfg o s
  | .cntcfgClear o => Sys2Proof.Machine.execCntcfgClear o s
  | .dbarv o => Sys2Proof.Machine.execDbarv o s
  | .dbwait o => Sys2Proof.Machine.execDbwait o s
  | .tspawn o => Sys2Proof.Machine.execTspawn o s
  | .tarm o => Sys2Proof.Machine.execTarm o s
  | .tdec o => Sys2Proof.Machine.execTdec o s
  | .tdone o => Sys2Proof.Machine.execTdone o s
  | .tyield o => Sys2Proof.Machine.execTyield o s
  | .launch o => Sys2Proof.Machine.execLaunch o s
  | .fmtset o => Sys2Proof.Machine.execFmtset o s
  | .fmtget o => Sys2Proof.Machine.execFmtget o s
  | .sysrd o => Sys2Proof.Machine.execSysrd o s
  | .syswr o => Sys2Proof.Machine.execSyswr o s
  | .carveWrite o => Sys2Proof.Machine.execCarveWrite o s
  | .throttleWrite o => Sys2Proof.Machine.execThrottleWrite o s
  | .carvelimWrite o => Sys2Proof.Machine.execCarvelimWrite o s
  | .ctxidWrite o => Sys2Proof.Machine.execCtxidWrite o s
  | .trap o => Sys2Proof.Machine.execTrap o s
  | .rte o => Sys2Proof.Machine.execRte o s
  | .ctxsave o => Sys2Proof.Machine.execCtxsave o s
  | .ctxload o => Sys2Proof.Machine.execCtxload o s
  | .clk o => Sys2Proof.Machine.execClk o s
  | .exmset o => Sys2Proof.Machine.execExmset o s
  | .exmget o => Sys2Proof.Machine.execExmget o s
  | .brk o => Sys2Proof.Machine.execBrk o s
  | .tlbinvVa o => Sys2Proof.Machine.execTlbinvVa o s
  | .tlbinvRange o => Sys2Proof.Machine.execTlbinvRange o s
  | .tlbinvCtx o => Sys2Proof.Machine.execTlbinvCtx o s
  | .tlbinvId o => Sys2Proof.Machine.execTlbinvId o s
  | .pair xo x yo y => Sys2Proof.Machine.execPair xo x yo y s
  | .unassignedOpcode opc => Sys2Proof.Machine.execUnassignedOpcode opc s
  | .pad => Sys2Proof.Machine.execPad s
  | .instructionFetch => Sys2Proof.Machine.execInstructionFetch s
  | .launchRecordAccept part => Sys2Proof.Machine.execLaunchRecordAccept part s
  | .fabricLaunchForward part seq record => Sys2Proof.Machine.execFabricLaunchForward part seq record s
  | .workgroupAdmission part die => Sys2Proof.Machine.execWorkgroupAdmission part die s
  | .startBlockRead key => Sys2Proof.Machine.execStartBlockRead key s
  | .workgroupRetirement wg => Sys2Proof.Machine.execWorkgroupRetirement wg s
  | .workgroupRestart wg => Sys2Proof.Machine.execWorkgroupRestart wg s
  | .launchCompletion launch => Sys2Proof.Machine.execLaunchCompletion launch s
  | .taskSeed launch => Sys2Proof.Machine.execTaskSeed launch s
  | .taskDispatch part die => Sys2Proof.Machine.execTaskDispatch part die s
  | .budget key => Sys2Proof.Machine.execBudget key s
  | .bartimeout key split => Sys2Proof.Machine.execBartimeout key split s
  | .gatherTimeout key pc => Sys2Proof.Machine.execGatherTimeout key pc s
  | .tileClaim launch die => Sys2Proof.Machine.execTileClaim launch die s
  | .sinkGroupExecution key split lane => Sys2Proof.Machine.execSinkGroupExecution key split lane s
  | .sinkGroupReturn key split lane => Sys2Proof.Machine.execSinkGroupReturn key split lane s
  | .flushAndReclassify core va => Sys2Proof.Machine.execFlushAndReclassify core va s
  | .recallLine line => Sys2Proof.Machine.execRecall line s
  | .translationWalk core va claim => Sys2Proof.Machine.execTranslationWalk core va claim s
  | .copyArrival id => Sys2Proof.Machine.execCopyArrival id s
  | .tierpfCompletion id => Sys2Proof.Machine.execTierpfCompletion id s
  | .gather key lane => Sys2Proof.Machine.execGather key lane s
  | .matrixOperationCompletion key id sub res => Sys2Proof.Machine.execMatrixOperationCompletion key id sub res s
  | .subarraySelfTest core sub passes => Sys2Proof.Machine.execSubarraySelfTest core sub passes s
  | .throttleEpoch core sched => Sys2Proof.Machine.execThrottleEpoch core sched s
  | .carveApply core => Sys2Proof.Machine.execCarveApply core s
  | .dramRequest sector write conflict stall => Sys2Proof.Machine.execDramRequest sector write conflict stall s
  | .refreshSlot group => Sys2Proof.Machine.execRefreshSlot group s
  | .selfRefreshExit stack => Sys2Proof.Machine.execSelfRefreshExit stack s
  | .trefwChange stack high => Sys2Proof.Machine.execTrefwChange stack high s
  | .hostMemWrite by' addr bytes => Sys2Proof.Machine.execHostMemWrite by' addr bytes s
  | .hostMemRead src len => Sys2Proof.Machine.execHostMemRead src len s
  | .preemption wg area => Sys2Proof.Machine.execPreemption wg area s
  | .saveAreaWrite wg => Sys2Proof.Machine.execSaveAreaWrite wg s
  | .savedCompletion id => Sys2Proof.Machine.execSavedCompletion id s
  | .imageAdmission area => Sys2Proof.Machine.execImageAdmission area s
  | .abort part seq => Sys2Proof.Machine.execAbort part seq s
  | .partitionCoreMove core carvelim ctxid throttle => Sys2Proof.Machine.execPartitionCoreMove core carvelim ctxid throttle s
  | .ctxretWrite part val => Sys2Proof.Machine.execCtxretWrite part val s
  | .retireCommandCompletion => Sys2Proof.Machine.execRetireCommandCompletion s
  | .partitionSettingWrite part off val => Sys2Proof.Machine.execPartitionSettingWrite part off val s
  | .xmWrite n val => Sys2Proof.Machine.execXmWrite n val s
  | .attachGo => Sys2Proof.Machine.execAttachGo s
  | .managementWindowWrite page off val => Sys2Proof.Machine.execManagementWindowWrite page off val s
  | .firmwareImage header body sig => Sys2Proof.Machine.execFirmwareImage header body sig s
  | .firmwareFailure => Sys2Proof.Machine.execFirmwareFailure s
  | .unitFailure kind unit addr lasting => Sys2Proof.Machine.execUnitFailure kind unit addr lasting s
  | .agentFailure agent => Sys2Proof.Machine.execAgentFailure agent s
  | .agentRejoin agent => Sys2Proof.Machine.execAgentRejoin agent s
  | .thermalThrottle on => Sys2Proof.Machine.execThermalThrottle on s
  | .thermalShutdown => Sys2Proof.Machine.execThermalShutdown s
  | .linkReset => Sys2Proof.Machine.execLinkReset s
  | .powerUp => Sys2Proof.Machine.execPowerUp s
  | .memoryAccessCompletion key split => Sys2Proof.Machine.execMemoryAccessCompletion key split s
  | .specialFunctionResult key id => Sys2Proof.Machine.execSpecialFunctionResult key id s
  | .accumulatorTransferCompletion key id => Sys2Proof.Machine.execAccumulatorTransferCompletion key id s
  | .dbwaitReread key split => Sys2Proof.Machine.execDbwaitReread key split s
  | .fabricShareCompletion launch => Sys2Proof.Machine.execFabricShareCompletion launch s
  | .powerOff => Sys2Proof.Machine.execPowerOff s
  | .selfRefreshEntry stack => Sys2Proof.Machine.execSelfRefreshEntry stack s
  | .retentionSleepEntry core unit => Sys2Proof.Machine.execRetentionSleepEntry core unit s
  | .spdmRequest index => Sys2Proof.Machine.execSpdmRequest index s

end Sys2Proof.Machine
end

