-- ==== Sys2Proof/Machine/Sched.lean ====
section
/-! DEFINITION. What happens next when the agenda is empty: time, the schedulers' choice (R383), and the machine steps that can be taken. -/
namespace Sys2Proof.Machine

/-- Does a split wait for its instruction to be tried again: a queue, a unit or a future holds it up? -/
def State.heldUp (s : State) (w : Who) : Bool :=
  match ({ s with cur := some w } : State).iss? with
  | some i => (match i.sp.wait with
    | .stall | .future _ => true
    | _ => false)
  | none => false

/-- Is an instruction one that something could hold up? The arithmetic, conversion, cross-lane and control families need no unit, handle or
table: they wait for queues alone (R35, R308), and behind a pending instruction for its fault point (R55). -/
def holdable (x : Split) (i : Instr) : Bool :=
  x.pend.isSome || (Instr.ops i).any fun p => opPops p.2 != [] || (opPush p.2).isSome ||
    !([Family.control, .integer, .float, .conv, .cross].contains p.1.family)

/-- Could a split issue the instruction now: does nothing that the instruction itself needs hold it up? -/
def State.issues (s : State) (w : Who) (x : Split) (ins : Instr) : Bool :=
  !holdable x ins || (match exec ins { s with cur := some w } with
    | .next t => !t.heldUp w
    | _ => false)

/-- What stands at a split's program counter or, where that is a pad run, after it (R41). -/
def State.ahead (s : State) (i : Iss) : State × Iss × Dec :=
  match s.reach i with
  | (s, .pad) =>
    let j : Iss := ⟨i.who, i.g, { i.sp with pc := s.pastPads i allBlocks i.sp.pc }⟩
    let r := s.reach j
    (r.1, j, r.2)
  | (s, d) => (s, i, d)

/-- Does a split wait for one of the reasons of R35: a queue register, a future, a barrier or a gathering? -/
def State.waitsOn (s : State) (key : Nat) (g : Group) (x : Split) : Bool :=
  let i : Iss := ⟨⟨key, x.id⟩, g, x⟩
  match x.wait with
  | .barrier _ _ _ | .dbar _ _ _ => true
  | .gather _ => !(gathered g x)
  | _ => match (s.ahead i).2.2 with
    | .ok ins _ => (Instr.ops ins).any fun p =>
        queueGate g (activeLanes g x p.2) p.2 == .wait || (p.1 == .fwait && splitGuard g x p.2 && (g.handle (opndH p.2.a)).st == 1)
    | _ => false

/-- A scheduler's live groups. -/
def State.schedGroups (s : State) (core sched : Nat) : List (Nat × Group) :=
  s.groups.filter fun e => e.1 / 64 == core && schedOf e.1 == sched && !e.2.retired

/-- The memory-active set of a scheduler (R384): its first M groups by admission cycle and slot, passing over those whose every split waits. -/
def State.activeSet (s : State) (core sched : Nat) : List Nat :=
  let gs := (s.schedGroups core sched).filter fun e => !(e.2.splits.all fun x => s.waitsOn e.1 e.2 x)
  let byAge := gs.foldr (fun e l => l.takeWhile (fun y => lexLt [y.2.admitted.toNat, y.1] [e.2.admitted.toNat, e.1]) ++
    e :: l.dropWhile fun y => lexLt [y.2.admitted.toNat, y.1] [e.2.admitted.toNat, e.1]) []
  (byAge.take ((s.core core).mOf sched)).map (·.1)

/-- Does the memory-active set let the issuing split issue the instruction (R384)? A group that issues does not wait, so it is in the set of a
scheduler that has no more than M groups. -/
def setAllows (s : State) (i : Iss) (ins : Instr) : Bool :=
  let k := schedOf i.who.key
  !memoryIns ins || (s.schedGroups i.core k).length ≤ (s.core i.core).mOf k || (s.activeSet i.core k).contains i.who.key

/-- The place of a completed gathering in its cycle: REFILLs reach their dispensers by core and GROUPID (R23, R25). -/
def gatherKey (i : Iss) : List Nat := [2, i.core, i.g.wg, i.g.gid.toNat]

/-- The place of an issue among those of its cycle (R472): by core and scheduler (R79, R353); BEXP, BINIT and reads of barrier registers after
the cycle's arrivals (R419, R424); and last the REFILLs whose gatherings are complete (R23). -/
def issueKey (i : Iss) (ins : Instr) : List Nat :=
  match ins with
  | .refill _ => if gathered i.g i.sp then gatherKey i else [0, i.core, schedOf i.who.key]
  | .bexp _ | .binit _ | .bread _ | .pmread _ => [1, i.core, schedOf i.who.key]
  | _ => [0, i.core, schedOf i.who.key]

/-- A split that its scheduler could choose in this cycle (R383): whether the memory-active set lets it issue, and its place among the issues
of the cycle; pads and instructions passed over take no issue cycle, and have no place (R41). -/
structure Cand where
  who : Who
  split : Split
  allowed : Bool := true
  key : List Nat
  deriving DecidableEq, Repr

/-- Does it need no issue cycle? -/
def Cand.free (c : Cand) : Bool := c.key == []

/-- The number of a group's scheduler among those of all cores. -/
def schedNo (key : Nat) : Nat := key / 64 * 4 + schedOf key
/-- The scheduler of a split. -/
def Iss.sched (i : Iss) : Nat := schedNo i.who.key

/-- Does a split pass over its next instruction, which RTE has it do with those of the shadow (R89)? -/
def Split.passes (x : Split) : Bool := x.rerun.isNone && x.skip != 0

/-- Has a split arrived at REGANG or REFILL? It goes on when the gathering is complete, and needs no second issue (R23, R376). -/
def Split.arrived (x : Split) : Bool := match x.wait with
  | .gather _ => true
  | _ => false

/-- May the issuing split issue the instruction now, the gathers that it makes again included (R309)? -/
def State.lets (s : State) (i : Iss) (ins : Instr) : Bool := mayIssue s i ins && !s.regatherWaits i ins

/-- Is a split ready with what stands at its program counter (R383), which is to say that it could issue now? -/
def State.judged (s : State) (i : Iss) (d : Dec) : Option Cand :=
  match d with
  | .pad => some { who := i.who, split := i.sp, key := [] }
  | .bad _ => if i.sp.pend.isNone then some { who := i.who, split := i.sp, key := [0, i.core, schedOf i.who.key] } else none
  | .ok ins _ =>
    if i.sp.passes then some { who := i.who, split := i.sp, key := [] }
    else if i.sp.arrived then some { who := i.who, split := i.sp, key := gatherKey i }
    else if s.lets i ins && s.issues i.who i.sp ins then
      some { who := i.who, split := i.sp, allowed := setAllows s i ins, key := issueKey i ins }
    else none

/-- A split that can look at its next instruction, if it is ready; a pad run before the instruction does not count (R41). -/
def State.candidate (s : State) (i : Iss) : Option Cand :=
  let r := s.ahead i
  (r.1.judged r.2.1 r.2.2).map fun c => if r.2.1.sp.pc == i.sp.pc then c else { c with key := [] }

/-- The splits that can look at their next instruction. -/
def State.lookers (s : State) : List Iss :=
  ((s.groups.map fun e => e.2.splits.map fun x => (⟨⟨e.1, x.id⟩, e.2, x⟩ : Iss)).flatten).filter fun i => s.splitReady i.g i.sp && !s.fetchHeld i

/-- The ready splits (R383). -/
def State.ready (s : State) : List Cand := s.lookers.filterMap s.candidate

/-- Is the scheduler of a group slot held by an issue? Each issues for one split in one cycle (R11). -/
def State.served (s : State) (key : Nat) : Bool :=
  s.issued.any fun (e : Who × List Bool) => e.1.key / 64 == key / 64 && schedOf e.1.key == schedOf key

/-- A scheduler's order among its splits (R383): a starved one first, else the smallest ORDER, then the lowest slot and SPLITID. -/
def Iss.rank (i : Iss) : List Nat :=
  if 512 ≤ i.sp.starve.toNat then [0, 1023 - i.sp.starve.toNat, i.who.key % 64, i.who.split]
  else [1, i.sp.order.toNat, i.who.key % 64, i.who.split]

/-- What a scheduler chooses among its splits: the first in its order that is ready and that the memory-active set lets issue (R383). -/
def State.choose (s : State) : Nat → List Iss → Option Cand
  | 0, _ => none
  | n + 1, is => match leastBy Iss.rank is with
    | none => none
    | some i => match (s.candidate i).filter fun c => c.free || c.allowed || 512 ≤ i.sp.starve.toNat with
      | some c => some c
      | none => s.choose n (is.filter fun j => j.who != i.who)

/-- What each free scheduler chooses (R383). -/
def State.choices (s : State) (is : List Iss) : List Cand :=
  let free := is.filter fun i => !s.served i.who.key
  (dedup (free.map Iss.sched)).filterMap fun k => let mine := free.filter fun i => i.sched == k; s.choose mine.length mine

/-- The split that issues next: one that passes over an instruction or a pad and takes no issue cycle, else the first in the cycle's order of
those the schedulers choose and those whose gatherings are complete; one whose place in that order is past waits for the next cycle (R472). -/
def State.pick (s : State) : Option Who :=
  let is := s.lookers
  match (is.filter fun i => i.sp.passes).filterMap s.candidate |>.find? Cand.free with
  | some c => some c.who
  | none =>
    let cs := s.choices (is.filter fun i => !i.sp.arrived) ++ (is.filter fun i => i.sp.arrived).filterMap s.candidate
    match cs.find? Cand.free with
    | some c => some c.who
    | none => (leastBy (fun c => c.key) (cs.filter fun c => !lexLt c.key s.cyc.last)).map (·.who)

/-- A ready split of a scheduler was held by the memory-active set for some cycles (R436). -/
def State.countHeld (s : State) (dt : Nat) (c k : Nat) : State :=
  s.modCore c fun x => { x with ev := x.ev.set (8 * k + 2) (x.ev.get (8 * k + 2) + BitVec.ofNat 48 dt) }

/-- A scheduler's issue cycles that are over (R436). -/
def State.countBusy (s : State) (key n : Nat) : State :=
  s.modCore (key / 64) fun x => { x with ev := x.ev.set (busyKey (schedOf key)) (x.ev.get (busyKey (schedOf key)) + BitVec.ofNat 48 n) }

/-- STARVE after some cycles: it counts while the split is ready but not chosen, and returns to 0 when it stops being ready (R383). -/
def starveAfter (rs : List Cand) (issued : List Who) (dt key : Nat) (x : Split) : Split :=
  if issued.contains ⟨key, x.id⟩ then x
  else if rs.any fun r => r.who == ⟨key, x.id⟩ then { x with starve := BitVec.ofNat 10 (min 1023 (x.starve.toNat + dt)) }
  else { x with starve := 0 }

/-- Cycles end: the barrier registers that changed in the cycle are tested (R419); CLOCK, STARVE and the counters of issues and stalls count
the cycles, and the schedulers become free again (R11, R80, R383, R436). -/
def State.tick (s : State) (dt : Nat) : State :=
  if dt == 0 then s
  else
    let s := s.barCycles dt
    let rs := s.ready
    let now := s.issued.map (·.1)
    let held := dedup ((rs.filter fun r => !r.allowed && r.split.starve.toNat < 512 && !now.contains r.who).map fun r => schedNo r.who.key)
    let s := held.foldl (fun s e => s.countHeld dt (e / 4) (e % 4)) s
    let s := s.issued.foldl (fun (s : State) (e : Who × List Bool) => s.countBusy e.1.key ((e.2.take dt).filter id).length) s
    { s with clock := s.clock + BitVec.ofNat 64 dt,
             issued := s.issued.filterMap fun (e : Who × List Bool) => if dt < e.2.length then some (e.1, e.2.drop dt) else none,
             groups := s.groups.map fun e => (e.1, { e.2 with splits := e.2.splits.map (starveAfter rs now dt e.1) }) }

/-- The sub-array on which a core's next matrix operation runs, or the self-test that it needs first (R337). -/
def State.matStep (s : State) (key : Nat) (g : Group) (m : MatOp) : Option Instr :=
  let u := (s.core (key / 64)).mat
  match (List.range 8).find? fun k => g.runsOn u m k, (List.range 8).find? fun k => !u.fenced.getLsbD k && !u.avoids m k with
  | some k, _ => some (.matrixOperationCompletion key m.id k .ok)
  | none, some k => if g.firstOn m then some (.subarraySelfTest (key / 64) k true) else none
  | none, none => none

/-- What a matrix operation of a group can do now. -/
def State.mopStep (s : State) (key : Nat) (g : Group) (m : MatOp) : Option Instr :=
  if m.kind == .mma || m.kind == .mmaz then s.matStep key g m
  else if (s.matTransfer key m.id).groups != s.groups then some (.accumulatorTransferCompletion key m.id) else none

/-- Does a step of the sink executors change anything? -/
def State.sinkMoves (s t : State) : Bool := t.groups != s.groups || t.cores != s.cores || t.l2 != s.l2

/-- What the pending instruction of a split can do now. -/
def State.pendStep (s : State) (key : Nat) (g : Group) (x : Split) : Option Instr :=
  match x.pend with
  | none => none
  | some p =>
    if memPending p.opc then (if s.freeLanes ⟨⟨key, x.id⟩, g, x⟩ p != [] then some (.memoryAccessCompletion key x.id) else none)
    else if p.opc == .sink then
      match p.sink.find? fun e => e.2 == .sent && s.sinkMoves (s.sinkExecute ⟨key, x.id⟩ e.1) with
      | some e => some (.sinkGroupExecution key x.id e.1)
      | none => (p.sink.find? fun e => match e.2 with
        | .done _ _ _ _ _ => true
        | .receipt _ _ => s.sinkMoves (s.sinkReturn ⟨key, x.id⟩ e.1)
        | _ => false).map fun e => .sinkGroupReturn key x.id e.1
    else none

/-- The step of the split whose lowest live lane is lowest, among those that have one: so that of traps that several splits raise in one cycle
the one with the lowest raising lane comes first (R405). -/
def stepOf (g : Group) (f : Split → Option Instr) : Option Instr :=
  (leastBy (fun e => [e.1]) (g.splits.filterMap fun x => (f x).map fun i => (lowLane g x, i))).map (·.2)

/-- The engines' next step for a group: start block, accesses, results, matrix operations, gathers. -/
def State.groupStep (s : State) (key : Nat) (g : Group) : Option Instr :=
  if s.aborting g && g.abortable then (s.launches.get? (s.wgOf g).launch).map fun l => .abort l.part l.seq
  else if !g.started && !g.retired && !s.coreFailed.getLsbD (key / 64) then some (.startBlockRead key)
  else match stepOf g (s.pendStep key g) with
  | some i => some i
  | none => match g.results with
    | r :: _ => some (.specialFunctionResult key r.id)
    | [] => match g.mops.findSome? (s.mopStep key g) with
      | some i => some i
      | none => if g.retired then none else ((List.range g.width).find? fun l => s.gatherReady key g l).map fun l => .gather key l

/-- The time-out, budget or device-barrier step that is due for a group (R356, R378, R425, R428). -/
def State.groupDue (s : State) (key : Nat) (g : Group) : Option Instr :=
  if (s.budgetDue g).isSome then some (.budget key)
  else stepOf g fun x => match x.wait with
    | .barrier _ _ t => if s.expired (s.wgOf g).par t then some (.bartimeout key x.id) else none
    | .dbar _ _ t =>
      if (s.dbwaitReread ⟨key, x.id⟩).groups != s.groups then some (.dbwaitReread key x.id)
      else if s.expired (s.wgOf g).par t then some (.bartimeout key x.id) else none
    | .gather _ =>
      if s.gatherExpired g x.pc && (g.splits.any fun y => !(arrivedAt g x.pc).contains y) then some (.gatherTimeout key x.pc) else none
    | _ => none

/-- A completion that the copy or prefetch engine, or a saved image, has to take (R261, R296, R410). -/
def State.completionStep (s : State) : Option Instr :=
  match s.copies.find? s.mayArrive with
  | some c => some (.copyArrival c.id)
  | none =>
    match s.tierOps.find? fun (t : TierOp) => (s.imageWaits t.id).isNone with
    | some t => some (.tierpfCompletion t.id)
    | none => s.images.findSome? fun e =>
        (e.2.ops.find? fun o => s.savedDue o.id && (s.imagePages e.2 .write).isSome).map fun o => .savedCompletion o.id

/-- What a workgroup can do as a whole: be saved, retire, or restart. -/
def State.wgStep (s : State) (n : Nat) (w : Workgroup) : Option Instr :=
  let save := match w.preempt with
    | some p => s.saveReady n w && (s.areaPages (s.ctxOf w.core) (s.part w.part).ctxtbase.toNat .write p.area.toNat w.par.areaSize).isSome
    | none => false
  if save then some (.saveAreaWrite n)
  else if s.groupsDone n && s.arrivalsDone n then
    (if !w.holds then some (.workgroupRetirement n) else if w.preempt.isNone then some (.workgroupRestart n) else none)
  else none

/-- What a launch can do as a whole. -/
def State.launchStep (s : State) (key : Nat) (l : Launch) : Option Instr := if s.launchEnded key l then some (.launchCompletion key) else none

/-- The line monitor's seed of a launch; seeds come after the enqueues of their cycle (R353, R354). -/
def State.seedStep (s : State) (key : Nat) (l : Launch) : Option Instr :=
  if s.seedReady l && (s.part l.part).dies.any fun d => s.queueLen d < taskDepth then some (.taskSeed key) else none

/-- What a die's dispatcher can do for a partition (R350, R355, R414). -/
def State.dieStep (s : State) (part die : Nat) : Option Instr :=
  match s.taskFirst die with
  | some r => if r.launch / 1024 == part && (s.runTask part die r).taskq != s.taskq then some (.taskDispatch part die) else none
  | none => match s.headAt die with
    | some (_, .wg k) => match s.launches.get? k with
      | some l => if k / 1024 == part && (s.coreFor part die l.par).isSome then some (.workgroupAdmission part die) else none
      | none => none
    | some (_, .image n) => match s.images.get? n with
      | some im => if im.part == part && (s.coreFor part die (s.imageParams im)).isSome && (s.imagePages im .read).isSome then some (.imageAdmission n) else none
      | none => none
    | none => none

/-- What a partition can do: accept a record, or admit. -/
def State.partStep (s : State) (p : Nat) (q : Partition) : Option Instr :=
  if s.recordWaits p then some (.launchRecordAccept p) else q.dies.findSome? (s.dieStep p)

/-- A die that can claim a tile of a launch (R430). -/
def State.claimStep (s : State) (key : Nat) (l : Launch) : Option Instr :=
  ((s.part l.part).dies.find? fun d => s.claimReady l d).map fun d => .tileClaim key d

/-- What a core can do: apply a carve, take its new partition's settings, or end a throttle epoch. -/
def State.coreStep (s : State) (c : Nat) : Option Instr :=
  match if s.drainedCore c then (s.core c).moving else none with
  | some m => some (.partitionCoreMove c m.1 m.2.1 m.2.2)
  | none =>
  if s.carveFits c then some (.carveApply c) else ((List.range 4).find? fun k => s.epochDue c k).map fun k => .throttleEpoch c k

/-- What the controllers can do: serve a request, wake a stack for one, or complete a retire command. -/
def State.memStep (s : State) : Option Instr :=
  let asleep (q : Nat × Bool) : Bool := let d := dramAt (q.1 / 4); s.selfRefresh.getLsbD (stackOf (d.lp, d.chan))
  match s.dram.find? fun q => !asleep q with
  | some q => some (.dramRequest q.1 q.2 false 0)
  | none => match s.dram with
    | q :: _ => let d := dramAt (q.1 / 4); some (.selfRefreshExit (stackOf (d.lp, d.chan)))
    | [] => if s.retire.isEmpty then none else some .retireCommandCompletion

/-- Does a machine step come after a cycle's issues: an admission after the adoptions (R25), a claim after the starts (R430), a seed after the
enqueues (R353)? -/
def lateStep : Instr → Bool
  | .workgroupAdmission _ _ | .tileClaim _ _ | .taskSeed _ => true
  | _ => false

/-- The first machine step that can be taken, those that come late in a cycle apart (R38, R474: which comes first is timing). -/
def State.nextEvent (s : State) : Option Instr :=
  if !s.powered then none
  else
    (s.groups.findSome? fun e => s.groupStep e.1 e.2) <|> s.completionStep <|> (s.groups.findSome? fun e => s.groupDue e.1 e.2) <|>
    (s.wgs.findSome? fun e => s.wgStep e.1 e.2) <|> (s.launches.findSome? fun e => s.launchStep e.1 e.2) <|>
    (s.parts.findSome? fun e => (s.partStep e.1 e.2).filter fun i => !lateStep i) <|>
    (s.cores.findSome? fun e => s.coreStep e.1) <|> s.memStep <|> s.fwImage.map fun m => .firmwareImage m.1 m.2.1 m.2.2

/-- The first of the late steps: an admission, a claim, or a seed of the line monitor. -/
def State.nextLate (s : State) : Option Instr :=
  if !s.powered then none
  else
    (s.parts.findSome? fun e => (s.partStep e.1 e.2).filter lateStep) <|> (s.launches.findSome? fun e => s.claimStep e.1 e.2) <|>
    s.launches.findSome? fun e => s.seedStep e.1 e.2

end Sys2Proof.Machine
end

