-- ==== Sys2Proof/Machine/Turn.lean ====
section
/-! DEFINITION. One turn of the machine: time passes, then a split issues or a machine step is taken (R11, R38, R383); and how a program is
placed for the next turn. -/
namespace Sys2Proof.Machine

/-- An issue is counted (R436), and its place in the cycle is noted; an instruction that is held up has not issued, and nothing of it
happens. -/
def issuedAs (before : State) (w : Who) (key : List Nat) (forced : Bool) (o : Out) : Out :=
  match o with
  | .next s => .next (if s.heldUp w then before
      else let s := s.countIssue w.key forced; { s with cyc := { s.cyc with last := key } })
  | o => o

/-- What a turn gives, with its place in the cycle noted. -/
def atPlace (key : List Nat) (o : Out) : Out :=
  match o with
  | .next s => .next { s with cyc := { s.cyc with last := key } }
  | o => o

/-- A split issues one instruction: fetch, decode, the checks of issue, then the instruction's meaning (R42, R63, R64). A split that
cannot issue does nothing, nor does one whose scheduler has issued in this cycle (R11) or whose place in the cycle's order is past (R472); it
has fetched nothing then. A pad, and an instruction that RTE passes over, take no issue cycle (R41, R89), and REGANG and REFILL have issued when
they arrive (R23, R376). -/
def issueTurn (s : State) (w : Who) : Out :=
  let s := { s with cur := some w }
  match s.iss? with
  | none => .next s
  | some i =>
    if !s.splitReady i.g i.sp || s.fetchHeld i then .next s
    else match s.reach i with
    | (s, .pad) => exec .pad s
    | (t, .bad b) =>
      let key := [0, i.core, schedOf w.key]
      if t.served w.key || lexLt key t.cyc.last || i.sp.pend.isSome then .next s
      else let s := t;  .next ({ s with issued := s.issued ++ [(w, [false])], cyc := { s.cyc with last := key } }.raiseAll (s.again i) b)
    | (t, .ok ins units) =>
      let i := t.again i
      let key := if i.sp.arrived then gatherKey i else issueKey i ins
      if i.sp.passes then .next (t.passOver i units)
      else if lexLt key t.cyc.last then .next s
      else if i.sp.arrived then atPlace key (exec ins t)
      else if t.served w.key || !t.lets i ins || (!setAllows t i ins && i.sp.starve.toNat < 512) then .next s
      else let s := t; issuedAs s w key (512 ≤ i.sp.starve.toNat) (exec ins
        ({ s with issued := s.issued ++ [(w, issueCycles i.sp ins)] }.modSplit w fun x => { x with starve := 0 }))

/-- Is the row a machine step, not an instruction of a split? -/
def isEvent (i : Instr) : Bool :=
  match i with
  | .pair _ _ _ _ | .unassignedOpcode _ | .pad | .instructionFetch => false
  | i => i.op?.isNone

/-- After a turn, does a split stand held behind a trap that was delivered in this cycle to another split of its group with a higher lowest
raising lane? Of traps raised in one cycle, the one with the lowest raising lane is delivered first (R405). -/
def State.trapsCross (t s : State) : Bool :=
  s.cyc.traps.any fun d => match t.groups.get? d.key with
    | none => false
    | some g => g.splits.any fun x => x.id != d.split && (match x.held with
      | some r => lowestOf r.raised < d.lane && (match (s.groups.get? d.key).bind fun h => h.split? x.id with
        | some y => y.held != some r
        | none => true)
      | none => false)

/-- What a turn gives; one whose trap would cross another's of the cycle is left to the next cycle. -/
def uncrossed (s : State) (o : Out) : Out :=
  match o with
  | .next t => .next (if t.trapsCross s then s.tick 1 else t)
  | o => o

/-- The place in its cycle of a machine step that enqueues a task or comes late (R25, R353, R430): a trap that ends a task has the place of its
group's issues; what a dispatcher or the control processor does comes after them (log 20), then claims, then seeds. -/
def eventKey : Instr → List Nat
  | .memoryAccessCompletion key _ | .sinkGroupExecution key _ _ | .sinkGroupReturn key _ _ | .specialFunctionResult key _
  | .matrixOperationCompletion key _ _ _ | .accumulatorTransferCompletion key _ | .startBlockRead key | .budget key | .bartimeout key _
  | .gatherTimeout key _ | .dbwaitReread key _ | .gather key _ => [0, key / 64, schedOf key]
  | .tileClaim _ _ => [4]
  | .taskSeed _ => [5]
  | _ => [3]

/-- Has a machine step a place in its cycle: does it come late, or enqueue a task? -/
def State.placed (s : State) (i : Instr) (o : Out) : Bool :=
  lateStep i || (match o with
    | .next t => t.taskNum != s.taskNum
    | _ => false)

/-- A machine step is taken: in the next cycle, where an instruction of this one has seen the barrier registers as the cycle leaves them
(R419, R424), or where the step's place in this one is past (R472). -/
def eventTurn (s : State) (i : Instr) : Out :=
  let s := if s.cyc.closed == [] then s else s.tick 1
  let o := exec i s
  if !s.placed i o then o
  else atPlace (eventKey i) (if lexLt (eventKey i) s.cyc.last then exec i (s.tick 1) else o)

/-- One turn. -/
def runTurn (s : State) (t : Turn) : Out :=
  match t with
  | .issue dt w => uncrossed (s.tick dt) (issueTurn (s.tick dt) w)
  | .event dt i => if isEvent i then uncrossed (s.tick dt) (eventTurn (s.tick dt) i) else .next (s.tick dt)
  | .cycle dt => .next (s.tick dt)

/-- The turn that comes next: the first of the agenda; else the first machine step that can be taken, a split that a scheduler chooses, a
late step, or the end of the cycle; under a thermal throttle a cycle of issues is followed by one without (R458). -/
def State.turn (s : State) : Turn × State :=
  match s.agenda with
  | t :: rest => (t, { s with agenda := rest })
  | [] =>
    let now (i : Option Instr) : Option Turn := if s.cyc.closed == [] then i.map (.event 0) else none
    let t := now s.nextEvent <|> s.pick.map (.issue 0) <|> now s.nextLate
    (t.getD (.cycle (if s.throttled && !s.issued.isEmpty then 2 else 1)), s)

/-- The group that a program placed from outside runs in: 16 lanes, of which lane 0 holds item 0, 256 vector registers. -/
def placedGroup : Group :=
  { wg := 0, gid := 0, width := 16, lanes := { exm := true, idle := false } :: List.replicate 15 {},
    splits := [{ slices := 0xF#16, pc := 0 }], rstacks := List.replicate 4 [], handles := List.replicate 16 {},
    octets := List.replicate 2 {}, started := true }

/-- The launch that it belongs to. -/
def placedParams : Params := { vregs := 256, localkb := 64, widths := [64, 0, 0, 0, 0, 0], items := 1, privwords := 64 }

/-- A machine that holds one workgroup of one group on core 0, ready to issue at program counter 0, which its translation cache maps to
physical address 0 for fetches. -/
def State.loaded (s : State) : State :=
  { s with
    parts := s.parts.put 0 { s.part 0 with pdies := 1, pcores := 1 }
    cores := s.cores.put 0 { s.core 0 with tlb := [⟨0, 0, 3, 0x53#64, 0⟩] }
    launches := s.launches.put 0 { part := 0, seq := 1, prio := 0, par := placedParams, dep := [], doneaddr := 0, given := 1, total := 1 }
    wgs := s.wgs.put 0 { core := 0, part := 0, launch := 0, par := placedParams, slots := [0], bars := List.replicate 16 (BarReg.init 1) }
    groups := s.groups.put 0 placedGroup }

/-- Write the units of an instruction where a split fetches next: into memory at the place of its program counter, published. -/
def State.placeUnits (s : State) (w : Who) (us : List Word) : State :=
  match ({ s with cur := some w } : State).iss? with
  | none => s
  | some i => match (s.gx i .fetch false (i.sp.pc.toNat * 4)).2 with
    | .error _ => s
    | .ok l => s.wr l.place ((us.map wordBytes).flatten) true

/-- Place an instruction so that the next turn runs it: at the split that issues next, or at the one of a machine loaded for it. -/
def State.placeNext (s : State) (us : List Word) : State :=
  match s.agenda, s.pick with
  | .issue _ w :: _, _ => s.placeUnits w us
  | _, some w => { s.placeUnits w us with agenda := .issue (if s.cyc.last == [] then 0 else 1) w :: s.agenda }
  | _, none => { s.loaded.placeUnits ⟨0, 0⟩ us with agenda := .issue 0 ⟨0, 0⟩ :: s.agenda }

end Sys2Proof.Machine
end

