-- ==== Sys2Proof/Machine/Step.lean ====
section
/-! DEFINITION. One step of the machine, and where its next instruction is fetched. -/
namespace Sys2Proof.Machine

/-- One step: the turn that comes next. -/
def step (s : State) : Host.Outcome State Fault Refusal := runTurn s.turn.2 s.turn.1

/-- The state with an instruction of nbits bits, numbered as the opcode table numbers them, where step fetches next: a program is loaded
from outside the machine (log 21). -/
def State.withFetchWord (s : State) (nbits w : Nat) : State := s.placeNext (tableUnits (w % 2 ^ nbits))

end Sys2Proof.Machine
end

