-- ==== Sys2Proof/Safety.lean ====
section
/-! DEFINITION. The terms in which the statements speak of states: the canonical form of every memory, and what two states have in common. -/
namespace Sys2Proof

/-- Every record of a table satisfies a predicate. -/
def Table.All {α : Type} (P : α → Prop) (t : Table α) : Prop := ∀ e ∈ t, P e.2

end Sys2Proof

namespace Sys2Proof.Machine

/-- A workgroup's local store and its metadata are in canonical form (R192, R249). -/
structure Workgroup.Canon (w : Workgroup) : Prop where
  ls : Memory.wf w.ls = true
  lsPoison : w.lsPoison.wf = true
  lsBad : w.lsBad.wf = true

/-- A core's operand buffers and their metadata are in canonical form (R192, R329). -/
structure Core.Canon (k : Core) : Prop where
  bufs : Memory.wf k.bufs = true
  bufPoison : k.bufPoison.wf = true
  bufBad : k.bufBad.wf = true

/-- Every memory of the device and the host's memory are in canonical form: addresses strictly rising, nothing listed that reads as an
unlisted address does. -/
structure State.Canon (s : State) : Prop where
  mem : Memory.wf s.mem = true
  hostMem : Memory.wf s.hostMem = true
  poison : s.poison.wf = true
  staged : s.staged.wf = true
  bad : s.bad.wf = true
  wgs : Table.All Workgroup.Canon s.wgs
  cores : Table.All Core.Canon s.cores

/-- Two states differ in nothing but one group's record. So every byte of every memory reads as before, and every register of every other
group, of the cores, of the partitions and of the device. -/
structure OnlyGroup (s t : State) (key : Nat) : Prop where
  rest : t = { s with groups := t.groups }
  others : ∀ k, k ≠ key → t.groups.get? k = s.groups.get? k

/-- Every memory reads as before: device memory, the host's memory, every local store and every core's operand buffers. -/
structure SameMemory (s t : State) : Prop where
  mem : ∀ p, Store.get t.mem p = Store.get s.mem p
  host : ∀ a, Store.get t.hostMem a = Store.get s.hostMem a
  ls : ∀ n a, ((t.wgs.get? n).map fun w => Store.get w.ls a) = (s.wgs.get? n).map fun w => Store.get w.ls a
  bufs : ∀ c a, Store.get (t.core c).bufs a = Store.get (s.core c).bufs a

/-- A split keeps all that an ordinary instruction leaves alone: its slices, FMT, level, ORDER, MARK, fences and held trap. What may differ
is its place, its scalar registers, FLAGS, and where it stands in waiting, in a re-execution and in a shadow. -/
def Split.Kept (x y : Split) : Prop :=
  y = { x with pc := y.pc, s := y.s, flags := y.flags, pend := y.pend, rerun := y.rerun, skip := y.skip, jumped := y.jumped, wait := y.wait }

/-- In a group only lanes and splits differ, and of the splits only one. -/
structure Group.OnlySplit (g g' : Group) (n : Nat) : Prop where
  rest : g' = { g with lanes := g'.lanes, splits := g'.splits }
  others : ∀ m, m ≠ n → g'.split? m = g.split? m

/-- The issuing split becomes y, the lanes of its group become those given, and nothing else changes. -/
structure Becomes (s t : State) (i : Iss) (y : Split) (lanes : List Lane) : Prop where
  only : OnlyGroup s t i.who.key
  memory : SameMemory s t
  group : ∃ g', t.groups.get? i.who.key = some g' ∧ i.g.OnlySplit g' i.who.split ∧ g'.split? i.who.split = some y ∧ g'.lanes = lanes

/-- A split after an instruction of some units: it stands at the next one, with the scalar registers and FLAGS given, and keeps the rest. -/
structure Split.Past (x y : Split) (units : Nat) (regs : Store 32) (flags : BitVec 5) : Prop where
  kept : x.Kept y
  pc : y.pc = x.pc + BitVec.ofNat 50 units
  s : y.s = regs
  flags : y.flags = flags
  wait : y.wait = .ready

/-- A split after a transfer of control. -/
structure Split.At (x y : Split) (pc : BitVec 50) (regs : Store 32) : Prop where
  kept : x.Kept y
  pc : y.pc = pc
  s : y.s = regs
  flags : y.flags = x.flags
  wait : y.wait = .ready

/-- In a group only lanes, splits and the event queue differ, and of the splits only one. -/
structure Group.OnlyLanes (g g' : Group) (n : Nat) : Prop where
  rest : g' = { g with lanes := g'.lanes, splits := g'.splits, q4 := g'.q4, q4pos := g'.q4pos }
  length : g'.lanes.length = g.lanes.length
  others : ∀ m, m ≠ n → g'.split? m = g.split? m

/-- The opcodes of the integer, float and conversion instructions that write their result as they complete (R105: all but IDIV, FDIV, FSQRT
and the functions of R162). -/
def shortAlu : List Opc :=
  [.iadd, .isub, .imul, .imulh, .imad, .imadw, .iabs, .ineg, .imin, .imax, .isad, .iaddc, .isubb, .iadds, .isubs, .and, .or, .xor, .lop3,
   .shl, .shr, .rot, .funl, .bfx, .bfi, .popc, .clz, .brev, .sel, .mov, .movi, .icmp, .iset, .plop, .p2s, .s2p, .lea, .iadd64, .imul64, .i2i] ++
  [.fadd, .fsub, .fmul, .ffma, .fmin, .fmax, .fcmp, .fset, .fclass, .fscale, .frnd, .fdot2, .fdot4, .fsign, .fmed3, .cvt, .f2i, .i2f, .pack,
   .unpack, .bscale]

/-- The opcodes of the long-latency arithmetic instructions (R105, R164). -/
def longAlu : List Opc := [.idiv, .fdiv, .fsqrt, .rcp, .rsq, .exp2, .log2, .sin, .cos, .tanh]

/-- What an arithmetic instruction computes in lane l of the issuing split, from the registers and queues as they are before it. -/
def Iss.out (i : Iss) (o : Opc) (x : Op) (l : Nat) : LaneOut :=
  aluVal o x.fn.toNat x.ty.toNat i.sp.fmt (i.g.lane l).vlfsr (laneIn o x i.sp (i.g.lane l) (takeEvts i x (activeLanes i.g i.sp x)).1)

/-- A lane in which an arithmetic instruction takes effect: the registers of D hold the result's words, the predicate that D names (C, for
IADDC and ISUBB; all of them, for S2P) its predicate, the queues it pops have lost the entries popped, the queue it pushes has gained the
result; every other register, predicate and queue is as before. -/
structure Lane.Takes (o : Opc) (x : Op) (out : LaneOut) (ln ln' : Lane) : Prop where
  rest : ln' = { ln with
    v := ln'.v, p := ln'.p, vlfsr := out.lfsr,
    q0 := ln.q0.drop (timesIn 0 (opPops x)), q3 := ln.q3.drop (timesIn 3 (opPops x)),
    q1 := ln.q1 ++ (if x.d = .q 1 then [BitVec.ofNat 32 out.val] else []),
    q2 := ln.q2 ++ (if x.d = .q 2 then [BitVec.ofNat 32 out.val] else []) }
  vec : ∀ r, ln'.v.get r = match x.d with
    | .v d => if d.toNat ≤ r ∧ r < d.toNat + dstN o x then BitVec.ofNat 32 (out.val / 2 ^ (32 * (r - d.toNat))) else ln.v.get r
    | _ => ln.v.get r
  pred : ∀ n, n < 8 → ln'.p.getLsbD n =
    if o = .s2p then out.preds.getLsbD n
    else if n ≠ 0 ∧ (x.d = .p (BitVec.ofNat 8 n) ∨ ((o = .iaddc ∨ o = .isubb) ∧ x.c = .p (BitVec.ofNat 8 n))) then out.pred
    else ln.p.getLsbD n

/-- The instructions of split scope, of one operation each (R67); SYSRD is one where its D is scalar (R81). -/
def splitRows (o : Op) : List Instr :=
  [.nop o, .br o, .bru o, .brx o, .call o, .callx o, .ret o, .rcv o, .yield o, .regang o, .ldc o, .publish o, .fence o, .flush o, .tierpf o,
   .cpy o, .cpyb o, .cpyo o, .seal o, .waitb o, .mdrain o, .mfill o, .qtest o, .mselfStat o, .mselfRun o, .mselfInj o] ++
  [.fwait o, .ftest o, .fcancel o, .fmov o, .frel o, .binit o, .barv o, .bwait o, .bexp o, .barw o, .bread o, .pmread o, .cntrd o, .cntcfg o,
   .cntcfgClear o, .dbarv o, .dbwait o, .tspawn o, .tarm o, .tdec o, .tdone o, .tyield o, .launch o] ++
  [.fmtset o, .fmtget o, .syswr o, .carveWrite o, .throttleWrite o, .carvelimWrite o, .ctxidWrite o, .trap o, .rte o, .brk o, .ctxsave o,
   .ctxload o, .clk o, .exmset o, .exmget o, .tlbinvVa o, .tlbinvRange o, .tlbinvCtx o, .tlbinvId o] ++
  (if o.scalarD then [.sysrd o] else [])

/-- What the X slot of a pair computes in a lane. -/
def Iss.outX (i : Iss) (o : Opc) (x : Op) (l : Nat) : LaneOut :=
  aluVal o x.fn.toNat x.ty.toNat i.sp.fmt (i.g.lane l).vlfsr (laneIn o x i.sp (i.g.lane l) [])

/-- The LFSR of a lane after the X slot of a pair (R60, R142). -/
def Iss.lfsrX (i : Iss) (o : Opc) (x : Op) (l : Nat) : Word :=
  if l ∈ activeLanes i.g i.sp x then (i.outX o x l).lfsr else (i.g.lane l).vlfsr

/-- What the Y slot of a pair computes in a lane: on the registers as they are before the pair, with the LFSR that the X slot leaves. -/
def Iss.outY (i : Iss) (xo : Opc) (x : Op) (yo : Opc) (y : Op) (l : Nat) : LaneOut :=
  aluVal yo y.fn.toNat y.ty.toNat i.sp.fmt (i.lfsrX xo x l) (laneIn yo y i.sp (i.g.lane l) [])

/-- Reaching memory without writing it: caches, translation caches and requests to the DRAM controllers may change, and granules found
uncorrectable are poisoned (R193), and a walk's fault is noted for the accesses that share it (R399); every byte, every register and everything else of the device is as before. -/
structure Quiet (s t : State) : Prop where
  rest : t = { s with cores := t.cores, poison := t.poison, bad := t.bad, l2 := t.l2, sliceTlb := t.sliceTlb, execTlb := t.execTlb,
                      dram := t.dram, freeCtr := t.freeCtr, older := t.older, xmHeld := t.xmHeld }
  core : ∀ c, t.core c = { s.core c with
    tlb := (t.core c).tlb, walk := (t.core c).walk, l1 := (t.core c).l1, icache := (t.core c).icache, vta := (t.core c).vta, lls := (t.core c).lls,
    xmiss := (t.core c).xmiss }

/-- The issuing group becomes g but for its issuing split, which becomes y, and nothing else changes. -/
structure Turns (s t : State) (i : Iss) (g : Group) (y : Split) : Prop where
  only : OnlyGroup s t i.who.key
  memory : SameMemory s t
  group : ∃ g', t.groups.get? i.who.key = some g' ∧ g.OnlySplit g' i.who.split ∧ g'.split? i.who.split = some y ∧ g'.lanes = g.lanes

/-- One core becomes k, and every other core is as before. -/
structure CoreBecomes (s t : State) (c : Nat) (k : Core) : Prop where
  core : t.core c = k
  others : ∀ d, d ≠ c → t.core d = s.core d

/-- A core whose miss-tracker and translation-miss entries of one split's access are free again (R241, R398). -/
def Core.freed (k : Core) (w : Who) : Core :=
  { k with misses := k.misses.filter fun e => !(e.slot == w.key % 64 && e.split == w.split)
           xmiss := k.xmiss.filter fun e => !(e.slot == w.key % 64 && e.split == w.split) }

/-- Writing device memory from a place on: the bytes given stand there and every other byte is as before. Metadata, caches, translation
caches, requests to the controllers and the faults that waiting accesses share may change, and nothing else does. -/
structure Stored (s t : State) (p : Nat) (bs : List Byte) : Prop where
  rest : t = { s with mem := t.mem, staged := t.staged, cores := t.cores, poison := t.poison, bad := t.bad, l2 := t.l2, sliceTlb := t.sliceTlb,
                      execTlb := t.execTlb, dram := t.dram, freeCtr := t.freeCtr, older := t.older, xmHeld := t.xmHeld }
  core : ∀ c, t.core c = { s.core c with
    tlb := (t.core c).tlb, walk := (t.core c).walk, l1 := (t.core c).l1, icache := (t.core c).icache, vta := (t.core c).vta, lls := (t.core c).lls,
    xmiss := (t.core c).xmiss }
  inside : ∀ k, k < bs.length → Store.get t.mem (p + k) = bs.getD k 0
  outside : ∀ a, a < p ∨ p + bs.length ≤ a → Store.get t.mem a = Store.get s.mem a

/-- A split after its trap has been delivered (R404): the handler's place and level, and the frame's address in s62 and s63. -/
def Split.trapped (x : Split) (pc : BitVec 50) (priv : BitVec 2) (frame : Nat) : Split :=
  { x with pend := none, wait := .ready, rerun := none, skip := 0, jumped := true, pc := pc, priv := priv,
           s := (x.s.set 62 (BitVec.ofNat 32 frame)).set 63 (BitVec.ofNat 32 (frame / 2 ^ 32)) }

/-- The group after a trap of its split x, of which the record is r (R404). -/
structure Group.TookTrap (g g' : Group) (n : Nat) (x y : Split) (r : TrapRec) : Prop where
  rest : g' = { g with splits := g'.splits, trap := r, tpriv := x.priv, towner := BitVec.ofNat 4 n }
  others : ∀ m, m ≠ n → g'.split? m = g.split? m
  split : g'.split? n = some y

/-- What the issuing core's translation cache holds for an access, where it serves the access as it stands (R392, R396): the entry gives the
rights and the tier that R390 and R391 ask, and a claim finds nothing to change. -/
def State.held (s : State) (i : Iss) (acc : Acc) (claim : Bool) (va : Nat) : Option Xl :=
  if 2 ^ 52 ≤ va then none
  else match s.tlbHit (.core i.core) (s.ctxOf i.core) va with
  | none => none
  | some e =>
    if (leafCheck acc va e.leaf e.level).isSome || (claim && claimActs i.core e.leaf) then none
    else some { place := s.leafPlace e.leaf e.level va, leaf := e.leaf, path := pathOf (some i.core) e.leaf }

/-- The pieces of the parts of an access, every one of them held by the translation cache, and none sharing an earlier walk's fault (R399). -/
def State.heldParts (s : State) (i : Iss) (o : Opc) (x : Op) : Nat → List (Nat × Nat) → Option (List Piece)
  | _, [] => some []
  | off, (va, n) :: rest => match s.sharedFault i (accOf o) va, s.held i (accOf o) (spaceOf o == .glob) va, s.heldParts i o x (off + n) rest with
    | none, some t, some ps => some (⟨t.place, n, off, pathFor o x t.path⟩ :: ps)
    | _, _, _ => none

/-- A lane's access where its address is good and its translation is held (R239): TRAPADDR's value and its pieces. -/
def State.heldTarget (s : State) (i : Iss) (o : Opc) (x : Op) (l : Nat) : Option Target :=
  match s.accessOf i o x l with
  | .error _ => none
  | .ok (t, parts) =>
    if spaceOf o == .loc then some ⟨t, parts.map fun p => ⟨p.1, p.2, 0, .home⟩⟩ else (s.heldParts i o x 0 parts).map fun ps => ⟨t, ps⟩

/-- Every granule that the pieces lie in can be read (R243). -/
def State.clean (s : State) (i : Iss) (loc : Bool) (ps : List Piece) : Prop := ∀ p ∈ ps, s.partGran i loc p.place = .ok

/-- No cache holds a line of the pieces from before a change of the hash matrix (R207): their places stay as they are. -/
def State.unkept (s : State) (ps : List Piece) : Prop := ∀ p ∈ ps, ∀ e ∈ s.xmHeld, e.2 ≠ p.place / 128

/-- The lanes of a pending access that wait for a flush (R393). -/
def State.waitLanes (s : State) (i : Iss) (p : Pend) : List Nat := (List.range 64).filter fun l => p.lanes.getLsbD l && !(s.freeLanes i p).contains l

/-- What is left of a pending access once its other lanes are performed without a fault. -/
def State.left (s : State) (i : Iss) (p : Pend) : Option Pend :=
  if s.waitLanes i p = [] then none else some { p with lanes := laneMask (s.waitLanes i p) }

/-- The issuing core then: its miss entries are free again when no lane is left (R241, R398). -/
def State.coreLeft (s : State) (i : Iss) (p : Pend) (k : Core) : Core := if s.waitLanes i p = [] then k.freed i.who else k

/-- One workgroup's record becomes w, and every other is as before. -/
structure WgBecomes (s t : State) (n : Nat) (w : Workgroup) : Prop where
  wg : t.wgs.get? n = some w
  others : ∀ k, k ≠ n → t.wgs.get? k = s.wgs.get? k

end Sys2Proof.Machine
end

