-- ==== Sys2Proof/Certificates/Slice0/Obligations.lean ====
section
/-! DEFINITION. The statements for the provers. -/
open Sys2Proof Sys2Proof.Machine

/-- NOP, BR, BRU, CALL, RET and YIELD complete (R368, R372, R381): where the split stands afterwards, what it has written, and that nothing
else changes. -/
def Obligations.ControlTransfers : Prop :=
  ∀ (s : State) (i : Iss) (o : Op), s.iss? = some i → splitGuard i.g i.sp o = true →
    (∃ t y, exec (.nop o) s = .next t ∧ Becomes s t i y i.g.lanes ∧ i.sp.Past y (opUnits o) i.sp.s i.sp.flags) ∧
    (∀ off, o.ext = .rel off →
      (∃ t y, exec (.br o) s = .next t ∧ Becomes s t i y i.g.lanes ∧ i.sp.At y (i.sp.pc + off.signExtend 50) i.sp.s) ∧
      (((scalar32 i.sp o.a ≠ 0 ∧ o.fn = 0) ∨ (scalar32 i.sp o.a = 0 ∧ o.fn ≠ 0)) →
        ∃ t y, exec (.bru o) s = .next t ∧ Becomes s t i y i.g.lanes ∧ i.sp.At y (i.sp.pc + off.signExtend 50) i.sp.s) ∧
      (((scalar32 i.sp o.a = 0 ∧ o.fn = 0) ∨ (scalar32 i.sp o.a ≠ 0 ∧ o.fn ≠ 0)) →
        ∃ t y, exec (.bru o) s = .next t ∧ Becomes s t i y i.g.lanes ∧ i.sp.Past y (opUnits o) i.sp.s i.sp.flags) ∧
      (∀ r, o.d = .s r →
        ∃ t y, exec (.call o) s = .next t ∧ Becomes s t i y i.g.lanes ∧ 
          i.sp.At y (i.sp.pc + off.signExtend 50) (writeRegs i.sp.s r.toNat (4 * (s.nextPc i (opUnits o)).toNat) 2))) ∧
    (scalar64 i.sp o.a % 4 = 0 → scalar64 i.sp o.a < 2 ^ 52 →
      ∃ t y, exec (.ret o) s = .next t ∧ Becomes s t i y i.g.lanes ∧ i.sp.At y (BitVec.ofNat 50 (scalar64 i.sp o.a / 4)) i.sp.s) ∧
    (∃ t y, exec (.yield o) s = .next t ∧ Becomes s t i y i.g.lanes ∧ y.order = s.clock ∧
      ({ i.sp with order := s.clock } : Split).Past y (opUnits o) i.sp.s i.sp.flags)

/-- BRC decides by lane (R369), and RCV (R370). The lanes of T are those that branch. -/
def Obligations.BranchAndReconvergence : Prop :=
   (∀ (s : State) (i : Iss) (o : Op) (off : Word), s.iss? = some i → o.ext = .rel off →
      let e := exmLanes i.g i.sp
      let t := e.filter fun l => (i.g.lane l).guard o.pg o.pn && (readPred (i.g.lane l) o.a != (o.fn == 1))
      let f := e.filter fun l => !t.contains l
      let target := i.sp.pc + off.signExtend 50
      (t = [] → ∃ u y, exec (.brc o) s = .next u ∧ Becomes s u i y i.g.lanes ∧ i.sp.Past y (opUnits o) i.sp.s i.sp.flags) ∧
      (t ≠ [] → f = [] → ∃ u y, exec (.brc o) s = .next u ∧ Becomes s u i y i.g.lanes ∧ i.sp.At y target i.sp.s) ∧
      (t ≠ [] → f ≠ [] → slicesOf t &&& slicesOf f = 0 →
        ∃ u g', exec (.brc o) s = .next u ∧ OnlyGroup s u i.who.key ∧ SameMemory s u ∧ u.groups.get? i.who.key = some g' ∧
          g'.lanes = i.g.lanes ∧ g'.rstacks = i.g.rstacks ∧
          (∃ x ∈ g'.splits, x.slices = slicesOf t ∧ x.pc = target ∧ x.s = i.sp.s ∧ x.fmt = i.sp.fmt ∧ x.flags = i.sp.flags ∧ x.priv = i.sp.priv) ∧
          (∃ x ∈ g'.splits, x.slices = i.sp.slices &&& ~~~ slicesOf t ∧ x.pc = i.sp.pc + BitVec.ofNat 50 (opUnits o) ∧ x.s = i.sp.s ∧
            x.fmt = i.sp.fmt ∧ x.flags = i.sp.flags ∧ x.priv = i.sp.priv) ∧
          ∀ x ∈ i.g.splits, x.id ≠ i.who.split → x ∈ g'.splits) ∧
      (t ≠ [] → f ≠ [] → slicesOf t &&& slicesOf f ≠ 0 → (i.g.stack i.sp.id).length < 8 →
        ∃ u g' y, exec (.brc o) s = .next u ∧ OnlyGroup s u i.who.key ∧ SameMemory s u ∧ u.groups.get? i.who.key = some g' ∧
          g'.split? i.who.split = some y ∧ i.sp.Past y (opUnits o) i.sp.s i.sp.flags ∧
          (∀ k ∈ i.sp.sliceList, k < i.g.rstacks.length →
            g'.stack k = { phase := false, tpc := target, tmask := slicePart t k, fmask := slicePart f k, sexm := slicePart e k, sfmt := i.sp.fmt } ::
              i.g.stack k) ∧
          (∀ k, k ∉ i.sp.sliceList → g'.stack k = i.g.stack k) ∧
          (∀ l ∈ lanesOf i.g i.sp, l < i.g.lanes.length → g'.lane l = { i.g.lane l with exm := f.contains l }) ∧
          ∀ l, l ∉ lanesOf i.g i.sp → g'.lane l = i.g.lane l)) ∧
   (∀ (s : State) (i : Iss) (o : Op), s.iss? = some i → splitGuard i.g i.sp o = true →
      ((i.g.stack i.sp.id) = [] →
        ∃ t y, exec (.rcv o) s = .next t ∧ Becomes s t i y i.g.lanes ∧ i.sp.Past y (opUnits o) i.sp.s i.sp.flags) ∧
      (∀ e rest, i.g.stack i.sp.id = e :: rest →
        ∃ t g' y, exec (.rcv o) s = .next t ∧ OnlyGroup s t i.who.key ∧ SameMemory s t ∧ t.groups.get? i.who.key = some g' ∧
          g'.split? i.who.split = some y ∧ y.s = i.sp.s ∧ y.flags = i.sp.flags ∧ y.fmt = e.sfmt ∧ y.slices = i.sp.slices ∧ y.priv = i.sp.priv ∧
          y.pc = (if e.phase then i.sp.pc + BitVec.ofNat 50 (opUnits o) else e.tpc) ∧
          (∀ k ∈ i.sp.sliceList, k < i.g.rstacks.length → ∀ e' rest', i.g.stack k = e' :: rest' →
            g'.stack k = (if e.phase then rest' else { e' with phase := true } :: rest')) ∧
          (∀ l ∈ lanesOf i.g i.sp, l < i.g.lanes.length → ∀ e' rest', i.g.stack (l / 4) = e' :: rest' →
            g'.lane l = { i.g.lane l with exm := (if e.phase then e'.sexm else e'.tmask).getLsbD (l % 4) && !(i.g.lane l).idle }) ∧
          ∀ l, l ∉ lanesOf i.g i.sp → g'.lane l = i.g.lane l))

/-- EXIT, REGANG and REFILL (R376, R377, R379, R380), and an item given to an idle lane (R21, R22, R140). -/
def Obligations.ExitAndRefill : Prop :=
   (∀ (s : State) (i : Iss) (o : Op), s.iss? = some i →
      ((∃ l ∈ liveLanes i.g i.sp, l ∉ activeLanes i.g i.sp o) →
        ∃ t g' y, exec (.exit o) s = .next t ∧ OnlyGroup s t i.who.key ∧ SameMemory s t ∧ t.groups.get? i.who.key = some g' ∧
          i.g.OnlySplit g' i.who.split ∧ g'.split? i.who.split = some y ∧ i.sp.Past y (opUnits o) i.sp.s i.sp.flags ∧
          ∀ l, g'.lane l = if l ∈ activeLanes i.g i.sp o then { i.g.lane l with idle := true, exm := false } else i.g.lane l) ∧
      (splitGuard i.g i.sp o = true → i.g.stack i.sp.id = [] →
        let done (t : State) : Prop := ∃ g' m low, OnlyGroup s t i.who.key ∧ SameMemory s t ∧ t.groups.get? i.who.key = some g' ∧
          g'.splits = [m] ∧ g'.lanes = i.g.lanes ∧ low ∈ i.g.splits ∧ (∀ y ∈ i.g.splits, low.id ≤ y.id) ∧
          m.slices = allSlices i.g.width ∧ m.flags = i.g.splits.foldl (fun a y => a ||| y.flags) 0 ∧
          m.mark = i.g.splits.foldl (fun a y => a &&& y.mark) 0xFFFF#16 ∧ m.s = low.s ∧ m.fmt = low.fmt ∧ m.priv = low.priv ∧
          m.order = low.order ∧ m.pc = low.pc + BitVec.ofNat 50 (opUnits o)
        let waits (t : State) : Prop := ∃ g' y c, OnlyGroup s t i.who.key ∧ SameMemory s t ∧ t.groups.get? i.who.key = some g' ∧
          g'.lanes = i.g.lanes ∧ g'.split? i.who.split = some y ∧ y = { i.sp with wait := .gather c, timedOut := i.sp.timedOut.filter fun e => e.1 != i.sp.pc }
        ((∀ y ∈ i.g.splits, y.id = i.sp.id ∨ (y.pc = i.sp.pc ∧ ∃ c, y.wait = .gather c)) →
          (∃ t, exec (.regang o) s = .next t ∧ done t) ∧
          ((∀ a b, o.a = .v a → o.b = .v b → o.fn = 1 → a ≤ b) → (∀ l < i.g.width, (i.g.lane l).idle = false) →
            ∃ t, exec (.refill o) s = .next t ∧ done t)) ∧
        ((∃ y ∈ i.g.splits, y.id ≠ i.sp.id ∧ (y.pc ≠ i.sp.pc ∨ ∀ c, y.wait ≠ .gather c)) →
          (∃ t, exec (.regang o) s = .next t ∧ waits t) ∧
          ((∀ a b, o.a = .v a → o.b = .v b → o.fn = 1 → a ≤ b) → ∃ t, exec (.refill o) s = .next t ∧ waits t)))) ∧
   (∀ (s : State) (i : Iss) (o : Op) (l : Nat) (id : DWord) (u : State), s.iss? = some i → splitGuard i.g i.sp o = true →
      i.g.stack i.sp.id = [] → i.g.splits = [i.sp] → (∀ a b, o.a = .v a → o.b = .v b → o.fn = 1 → a ≤ b) →
      (List.range i.g.width).filter (fun k => (i.g.lane k).idle) = [l] → l < i.g.lanes.length →
      (s.setGroup i.who.key (i.g.merge i.sp (opUnits o))).dispense i.g.wg i.g.first = some (id, u) →
        ∃ t g' ln, exec (.refill o) s = .next t ∧ SameMemory s t ∧ t.groups.get? i.who.key = some g' ∧ g'.lane l = ln ∧
          ln.idle = false ∧ ln.exm = true ∧ ln.workid = id ∧ ln.wgid = wgidOf (s.wgOf i.g).par id ∧ ln.age = (i.g.lane l).age + 1 ∧
          ln.rcpt = 0 ∧ ln.vlfsr = vseed id ∧ ln.mlfsr = mseed id ∧ ln.p = (i.g.lane l).p ∧
          (∀ r, (∀ a b, o.a = .v a → o.b = .v b → o.fn = 1 → r < a.toNat ∨ b.toNat < r) → ln.v.get r = (i.g.lane l).v.get r) ∧
          (∀ a b r, o.a = .v a → o.b = .v b → o.fn = 1 → a.toNat ≤ r → r ≤ b.toNat → ln.v.get r = 0) ∧
          ∀ k, k ≠ l → g'.lane k = i.g.lane k)

/-- Every lane-scope form of a short arithmetic instruction completes (R66, R67, R94): what it writes, and that nothing else changes. -/
def Obligations.ArithmeticCompletes : Prop :=
  ∀ (s : State) (i : Iss) (o : Opc) (x : Op), s.iss? = some i → o ∈ shortAlu → x.scalarD = false →
    queueGate i.g (activeLanes i.g i.sp x) x = .go → (i.sp.rerun = none ∨ 3 ∉ opPops x) → i.sp.owedAt i.sp.pc = none →
    (∀ l ∈ activeLanes i.g i.sp x, gatherBad (i.g.lane l) (opPops x) = none ∧ (i.out o x l).flags &&& fmtTE i.sp.fmt = 0 ∧
      aluRefuses o x.ty.toNat i.sp.fmt (laneIn o x i.sp (i.g.lane l) (takeEvts i x (activeLanes i.g i.sp x)).1) = false) →
    ∃ t g' y flags, exec (Instr.ofOpc o x) s = .next t ∧ OnlyGroup s t i.who.key ∧ SameMemory s t ∧ t.groups.get? i.who.key = some g' ∧
      i.g.OnlyLanes g' i.who.split ∧ g'.split? i.who.split = some y ∧ i.sp.Past y (opUnits x) i.sp.s flags ∧
      (∀ f, flags.getLsbD f = (i.sp.flags.getLsbD f || (activeLanes i.g i.sp x).any fun l => (i.out o x l).flags.getLsbD f)) ∧
      (∀ l, l < i.g.lanes.length → l ∈ activeLanes i.g i.sp x → Lane.Takes o x (i.out o x l) (i.g.lane l) (g'.lane l)) ∧
      (∀ l, l < i.g.lanes.length → l ∉ activeLanes i.g i.sp x → g'.lane l = i.g.lane l) ∧
      g'.q4pos = (takeEvts i x (activeLanes i.g i.sp x)).2.q4pos ∧
      g'.q4 = (takeEvts i x (activeLanes i.g i.sp x)).2.q4 ++
        (if x.d = .q 4 then (activeLanes i.g i.sp x).map fun l => userEvt s.clock l (i.out o x l).val else [])

/-- A short arithmetic instruction with a scalar D completes under a true guard (R67, R94, R142): what it writes, and that nothing else changes. -/
def Obligations.ScalarArithmeticCompletes : Prop :=
  ∀ (s : State) (i : Iss) (o : Opc) (x : Op) (d : BitVec 8), s.iss? = some i → o ∈ shortAlu → x.scalarD = true → x.d = .s d →
    splitGuard i.g i.sp x = true → aluRefuses o x.ty.toNat i.sp.fmt (laneIn o x i.sp (i.g.lane (lowLane i.g i.sp)) []) = false →
    (evalScalar o x i).flags &&& fmtTE i.sp.fmt = 0 → i.sp.owedAt i.sp.pc = none →
    ∃ t g' y, exec (Instr.ofOpc o x) s = .next t ∧ OnlyGroup s t i.who.key ∧ SameMemory s t ∧ t.groups.get? i.who.key = some g' ∧
      i.g.OnlySplit g' i.who.split ∧ g'.split? i.who.split = some y ∧
      i.sp.Past y (opUnits x) y.s (i.sp.flags ||| (evalScalar o x i).flags) ∧
      (∀ r, y.s.get r = if d.toNat ≤ r ∧ r < d.toNat + dstN o x then
        BitVec.ofNat 32 ((evalScalar o x i).val / 2 ^ (32 * (r - d.toNat))) else i.sp.s.get r) ∧
      g'.lanes.length = i.g.lanes.length ∧
      (∀ l, l < i.g.lanes.length → g'.lane l =
        if l = lowLane i.g i.sp then { i.g.lane l with vlfsr := (evalScalar o x i).lfsr } else i.g.lane l)

/-- Every split-scope instruction whose guard holds in no non-idle lane only completes (R67). -/
def Obligations.GuardFalse : Prop :=
  ∀ (s : State) (i : Iss) (o : Op), s.iss? = some i → splitGuard i.g i.sp o = false →
    (∀ ins ∈ splitRows o, ∃ t y, exec ins s = .next t ∧ Becomes s t i y i.g.lanes ∧ i.sp.Past y (opUnits o) i.sp.s i.sp.flags) ∧
    (o.scalarD = true → ∀ c ∈ shortAlu ++ longAlu, ∃ t y, exec (Instr.ofOpc c o) s = .next t ∧ Becomes s t i y i.g.lanes ∧
      i.sp.Past y (opUnits o) i.sp.s i.sp.flags) ∧
    ((refillRange o).any (fun r => r.2 < r.1) = false → ∃ t y, exec (.refill o) s = .next t ∧ Becomes s t i y i.g.lanes ∧
      i.sp.Past y (opUnits o) i.sp.s i.sp.flags)

/-- A pair completes (R57, R60): what both slots write, and that nothing else changes. -/
def Obligations.PairCompletes : Prop :=
  ∀ (s : State) (i : Iss) (xo yo : Opc) (x y : Op), s.iss? = some i → x.len = 3 → x.d.pairable = true → y.d.pairable = true →
    i.sp.owedAt i.sp.pc = none →
    (∀ l ∈ activeLanes i.g i.sp x, (i.outX xo x l).flags &&& fmtTE i.sp.fmt = 0 ∧
      aluRefuses xo x.ty.toNat i.sp.fmt (laneIn xo x i.sp (i.g.lane l) []) = false) →
    (y.scalarD = false → (∀ l ∈ activeLanes i.g i.sp y, (i.outY xo x yo y l).flags &&& fmtTE i.sp.fmt = 0) →
      ∃ t g' z flags, exec (.pair xo x yo y) s = .next t ∧ OnlyGroup s t i.who.key ∧ SameMemory s t ∧ t.groups.get? i.who.key = some g' ∧
        i.g.OnlySplit g' i.who.split ∧ g'.lanes.length = i.g.lanes.length ∧ g'.split? i.who.split = some z ∧ i.sp.Past z 4 i.sp.s flags ∧
        (∀ f, flags.getLsbD f = (i.sp.flags.getLsbD f || ((activeLanes i.g i.sp x).any fun l => (i.outX xo x l).flags.getLsbD f) ||
          (activeLanes i.g i.sp y).any fun l => (i.outY xo x yo y l).flags.getLsbD f)) ∧
        (∀ l, l < i.g.lanes.length → ∃ ln,
          (if l ∈ activeLanes i.g i.sp x then Lane.Takes xo x (i.outX xo x l) (i.g.lane l) ln else ln = i.g.lane l) ∧
          (if l ∈ activeLanes i.g i.sp y then Lane.Takes yo y (i.outY xo x yo y l) ln (g'.lane l) else g'.lane l = ln))) ∧
    (∀ d, y.scalarD = true → y.d = .s d → splitGuard i.g i.sp y = true →
      (i.outY xo x yo y (lowLane i.g i.sp)).flags &&& fmtTE i.sp.fmt = 0 →
      ∃ t g' z flags, exec (.pair xo x yo y) s = .next t ∧ OnlyGroup s t i.who.key ∧ SameMemory s t ∧ t.groups.get? i.who.key = some g' ∧
        i.g.OnlySplit g' i.who.split ∧ g'.lanes.length = i.g.lanes.length ∧ g'.split? i.who.split = some z ∧ i.sp.Past z 4 z.s flags ∧
        (∀ f, flags.getLsbD f = (i.sp.flags.getLsbD f || ((activeLanes i.g i.sp x).any fun l => (i.outX xo x l).flags.getLsbD f) ||
          (i.outY xo x yo y (lowLane i.g i.sp)).flags.getLsbD f)) ∧
        (∀ r, z.s.get r = if d.toNat ≤ r ∧ r < d.toNat + dstN yo y then
          BitVec.ofNat 32 ((i.outY xo x yo y (lowLane i.g i.sp)).val / 2 ^ (32 * (r - d.toNat))) else i.sp.s.get r) ∧
        (∀ l, l < i.g.lanes.length → ∃ ln,
          (if l ∈ activeLanes i.g i.sp x then Lane.Takes xo x (i.outX xo x l) (i.g.lane l) ln else ln = i.g.lane l) ∧
          g'.lane l = if l = lowLane i.g i.sp then { ln with vlfsr := (i.outY xo x yo y l).lfsr } else ln))

/-- What the integer arithmetic instructions (R101 to R103, R106, R107, R123, R124) and IDIV (R104) compute; no corner of a division sets a flag. -/
def Obligations.IntegerValues : Prop :=
   (∀ (fn ty : Nat) (fmt lf : Word) (p : Bool) (a b c : Word) (A B C : DWord),
      let x : LaneIn := { a := a.toNat, b := b.toNat, c := c.toNat, pc := p }
      let ci : Word := if p then 1 else 0
      let val (o : Opc) (fn ty : Nat) : Nat := (aluVal o fn ty fmt lf x).val
      let val64 (o : Opc) (fn ty : Nat) : Nat := (aluVal o fn ty fmt lf { a := A.toNat, b := B.toNat, c := C.toNat }).val
      val .iadd fn ty = (a + b).toNat ∧ val .isub fn ty = (a - b).toNat ∧ val .imul fn ty = (a * b).toNat ∧
      val .imad fn ty = (a * b + c).toNat ∧
      val .imulh fn 1 = ((a.signExtend 64 * b.signExtend 64).extractLsb' 32 32).toNat ∧
      val .imulh fn 2 = ((a.setWidth 64 * b.setWidth 64).extractLsb' 32 32).toNat ∧
      (aluVal .imadw fn 1 fmt lf { x with c := C.toNat }).val = (a.signExtend 64 * b.signExtend 64 + C).toNat ∧
      (aluVal .imadw fn 2 fmt lf { x with c := C.toNat }).val = (a.setWidth 64 * b.setWidth 64 + C).toNat ∧
      val .imin fn 1 = (if b.slt a then b else a).toNat ∧ val .imin fn 2 = (if b.ult a then b else a).toNat ∧
      val .imax fn 1 = (if a.slt b then b else a).toNat ∧ val .imax fn 2 = (if a.ult b then b else a).toNat ∧
      val .isad fn 1 = (BitVec.ofNat 32 (a.toInt - b.toInt).natAbs + c).toNat ∧
      val .isad fn 2 = (BitVec.ofNat 32 ((a.toNat : Int) - b.toNat).natAbs + c).toNat ∧
      val .iadds fn 1 = (BitVec.ofInt 32 (max (-2147483648) (min 2147483647 (a.toInt + b.toInt)))).toNat ∧
      val .iadds fn 2 = min 4294967295 (a.toNat + b.toNat) ∧
      val .isubs fn 1 = (BitVec.ofInt 32 (max (-2147483648) (min 2147483647 (a.toInt - b.toInt)))).toNat ∧
      val .isubs fn 2 = a.toNat - b.toNat ∧
      val .iabs 0 1 = (if a.msb then -a else a).toNat ∧
      val .iabs 1 1 = (if a = 0x80000000#32 then 0x7FFFFFFF#32 else if a.msb then -a else a).toNat ∧
      val .ineg 0 1 = (-a).toNat ∧ val .ineg 1 1 = (if a = 0x80000000#32 then 0x7FFFFFFF#32 else -a).toNat ∧
      val .iaddc fn ty = (a + b + ci).toNat ∧
      (aluVal .iaddc fn ty fmt lf x).pred = (a.setWidth 33 + b.setWidth 33 + ci.setWidth 33).msb ∧
      val .isubb fn ty = (a - b - ci).toNat ∧
      (aluVal .isubb fn ty fmt lf x).pred = (a.setWidth 33 - b.setWidth 33 - ci.setWidth 33).msb ∧
      val64 .iadd64 0 ty = (A + B).toNat ∧ val64 .iadd64 1 ty = (A - B).toNat ∧
      val64 .imul64 0 3 = (A * B).toNat ∧ val64 .imul64 0 4 = (A * B).toNat ∧
      val64 .imul64 1 3 = ((A.signExtend 128 * B.signExtend 128).extractLsb' 64 64).toNat ∧
      val64 .imul64 1 4 = ((A.setWidth 128 * B.setWidth 128).extractLsb' 64 64).toNat) ∧
   (∀ (fn : Nat) (fmt lf : Word) (a b : Word) (A B : DWord),
      let x : LaneIn := { a := a.toNat, b := b.toNat }
      let y : LaneIn := { a := A.toNat, b := B.toNat }
      let val (ty : Nat) (x : LaneIn) : Nat := (aluVal .idiv fn ty fmt lf x).val
      val 0x01 x = (if b = 0 then BitVec.allOnes 32 else a.sdiv b).toNat ∧ val 0x21 x = (if b = 0 then a else a.srem b).toNat ∧
      val 0x02 x = (if b = 0 then BitVec.allOnes 32 else a.udiv b).toNat ∧ val 0x22 x = (if b = 0 then a else a.umod b).toNat ∧
      val 0x03 y = (if B = 0 then BitVec.allOnes 64 else A.sdiv B).toNat ∧ val 0x23 y = (if B = 0 then A else A.srem B).toNat ∧
      val 0x04 y = (if B = 0 then BitVec.allOnes 64 else A.udiv B).toNat ∧ val 0x24 y = (if B = 0 then A else A.umod B).toNat ∧
      (BitVec.intMin 32).sdiv (-1#32) = BitVec.intMin 32 ∧ (BitVec.intMin 32).srem (-1#32) = 0 ∧
      (BitVec.intMin 64).sdiv (-1#64) = BitVec.intMin 64 ∧ (BitVec.intMin 64).srem (-1#64) = 0 ∧
      ∀ ty z, (aluVal .idiv fn ty fmt lf z).flags = 0)

/-- What the logic, shift and bit-field instructions (R108 to R114) and the selection, comparison, predicate, address and width-conversion instructions (R115 to R122, R125) compute. -/
def Obligations.BitAndSelectValues : Prop :=
   (∀ (fn ty : Nat) (fmt lf : Word) (a b c : Word) (A B : DWord),
      let x : LaneIn := { a := a.toNat, b := b.toNat, c := c.toNat }
      let val (o : Opc) (fn ty : Nat) : Nat := (aluVal o fn ty fmt lf x).val
      let val64 (o : Opc) : Nat := (aluVal o fn ty fmt lf { a := A.toNat, b := B.toNat }).val
      let pos := b.toNat % 256
      let stop := min (pos + b.toNat / 256 % 256) 32
      val .and fn ty = (a &&& b).toNat ∧ val .or fn ty = (a ||| b).toNat ∧ val .xor fn ty = (a ^^^ b).toNat ∧
      val64 .and = (A &&& B).toNat ∧ val64 .or = (A ||| B).toNat ∧ val64 .xor = (A ^^^ B).toNat ∧
      val .lop3 fn ty < 2 ^ 32 ∧ (∀ n, n < 32 → (val .lop3 fn ty).testBit n =
        (let g := (a.getLsbD n).toNat + 2 * (b.getLsbD n).toNat + 4 * (c.getLsbD n).toNat
         (fn % 4 * 64 + ty).testBit (g ^^^ (g / 2) ^^^ (g / 4)))) ∧
      val .shl 0 ty = (a <<< b).toNat ∧ val .shl 1 ty = (a <<< (b % 32#32)).toNat ∧
      val .shr 0 1 = (a.sshiftRight' b).toNat ∧ val .shr 1 1 = (a.sshiftRight' (b % 32#32)).toNat ∧
      val .shr 0 2 = (a >>> b).toNat ∧ val .shr 1 2 = (a >>> (b % 32#32)).toNat ∧ val .shr 0 0 = (a >>> b).toNat ∧
      val .shr 1 0 = (a >>> (b % 32#32)).toNat ∧ val .rot fn ty = (a.rotateLeft (b.toNat % 32)).toNat ∧
      val .funl 0 ty = (((b ++ a) >>> (c % 32#32)).extractLsb' 0 32).toNat ∧
      val .funl 1 ty = (((b ++ a) <<< (c % 32#32)).extractLsb' 32 32).toNat ∧
      val .bfx fn 1 < 2 ^ 32 ∧ val .bfx fn 2 < 2 ^ 32 ∧ val .bfx fn 0 = val .bfx fn 2 ∧
      (∀ n, n < 32 → (val .bfx fn 2).testBit n = (decide (pos + n < stop) && a.getLsbD (pos + n))) ∧
      (∀ n, n < 32 → (val .bfx fn 1).testBit n = (decide (pos < stop) && a.getLsbD (if pos + n < stop then pos + n else stop - 1))) ∧
      val .bfi fn ty < 2 ^ 32 ∧
      (∀ n, n < 32 → (val .bfi fn ty).testBit n = if pos ≤ n ∧ n < stop then a.getLsbD (n - pos) else c.getLsbD n) ∧
      val .popc fn ty = ((List.range 32).filter fun n => a.getLsbD n).length ∧
      val .clz fn ty ≤ 32 ∧ (∀ n, n < 32 → 32 - val .clz fn ty ≤ n → a.getLsbD n = false) ∧
      (val .clz fn ty < 32 → a.getLsbD (31 - val .clz fn ty) = true) ∧
      val .brev fn ty < 2 ^ 32 ∧ (∀ n, n < 32 → (val .brev fn ty).testBit n = a.getLsbD (31 - n))) ∧
   (∀ (fn ty : Nat) (fmt lf : Word) (pa pb pc : Bool) (p : BitVec 8) (a b : Word) (A B : DWord),
      let x : LaneIn := { a := a.toNat, b := b.toNat, pa := pa, pb := pb, pc := pc, p := p }
      let y : LaneIn := { a := A.toNat, b := B.toNat, pc := pc }
      let out (o : Opc) (fn ty : Nat) (x : LaneIn) : LaneOut := aluVal o fn ty fmt lf x
      let cmp (fn ty : Nat) (x : LaneIn) (r : Bool) : Prop := (out .icmp fn ty x).pred = r ∧ (out .iset fn ty x).val = r.toNat
      let clamp (lo hi s : Int) : Int := max lo (min hi s)
      (out .sel fn ty x).val = (if pc then a else b).toNat ∧ (out .sel fn ty y).val = (if pc then A else B).toNat ∧
      (out .mov fn ty x).val = a.toNat ∧ (out .mov fn ty y).val = A.toNat ∧ (out .movi fn ty x).val = b.toNat ∧
      (out .movi fn ty y).val = B.toNat ∧
      cmp 0 ty x (if ty = 1 then a.toInt == b.toInt else a == b) ∧ cmp 1 2 x (a != b) ∧ cmp 2 1 x (a.slt b) ∧ cmp 2 2 x (a.ult b) ∧
      cmp 2 0 x (a.ult b) ∧ cmp 3 1 x (a.sle b) ∧ cmp 3 2 x (a.ule b) ∧ cmp 4 1 x (b.slt a) ∧ cmp 4 2 x (b.ult a) ∧ cmp 5 1 x (b.sle a) ∧
      cmp 5 2 x (b.ule a) ∧ cmp 0 3 y (A == B) ∧ cmp 1 4 y (A != B) ∧ cmp 2 3 y (A.slt B) ∧ cmp 2 4 y (A.ult B) ∧ cmp 3 3 y (A.sle B) ∧
      cmp 3 4 y (A.ule B) ∧ cmp 4 3 y (B.slt A) ∧ cmp 4 4 y (B.ult A) ∧ cmp 5 3 y (B.sle A) ∧ cmp 5 4 y (B.ule A) ∧
      (out .plop fn ty x).pred = (let g := pa.toNat + 2 * pb.toNat + 4 * pc.toNat
        (fn % 4 * 64 + ty).testBit (g ^^^ (g / 2) ^^^ (g / 4))) ∧
      (out .p2s fn ty x).val = p.toNat ∧
      (out .s2p fn ty x).preds.getLsbD 0 = true ∧
      (∀ k, 1 ≤ k → k < 8 → (out .s2p fn ty x).preds.getLsbD k = if b.getLsbD k then a.getLsbD k else p.getLsbD k) ∧
      (∀ sh, sh < 16 → (out .lea sh 1 { y with b := b.toNat }).val = (A + b.signExtend 64 <<< sh).toNat ∧
        (out .lea sh 2 { y with b := b.toNat }).val = (A + b.setWidth 64 <<< sh).toNat) ∧
      (∀ src dst, src < 8 → dst ∈ [0x01, 0x02, 0x03, 0x04, 0x10, 0x11, 0x12, 0x13] →
        let s : Int := match src with
          | 0 => (A.setWidth 32).toInt | 1 => (A.setWidth 32).toNat | 2 => A.toInt | 3 => A.toNat
          | 4 => (A.setWidth 8).toInt | 5 => (A.setWidth 8).toNat | 6 => (A.setWidth 16).toInt | _ => (A.setWidth 16).toNat
        let lo : Int := match dst with
          | 0x01 => -2 ^ 31 | 0x03 => -2 ^ 63 | 0x10 => -2 ^ 7 | 0x12 => -2 ^ 15 | _ => 0
        let hi : Int := match dst with
          | 0x01 => 2 ^ 31 - 1 | 0x02 => 2 ^ 32 - 1 | 0x03 => 2 ^ 63 - 1 | 0x04 => 2 ^ 64 - 1
          | 0x10 => 2 ^ 7 - 1 | 0x11 => 2 ^ 8 - 1 | 0x12 => 2 ^ 15 - 1 | _ => 2 ^ 16 - 1
        let reg (v : Int) : Nat := match dst with
          | 0x01 | 0x02 => (BitVec.ofInt 32 v).toNat
          | 0x03 | 0x04 => (BitVec.ofInt 64 v).toNat
          | 0x10 => ((BitVec.ofInt 8 v).signExtend 32).toNat
          | 0x11 => (BitVec.ofInt 8 v).toNat
          | 0x12 => ((BitVec.ofInt 16 v).signExtend 32).toNat
          | _ => (BitVec.ofInt 16 v).toNat
        (out .i2i src dst y).val = reg s ∧ (out .i2i (src + 8) dst y).val = reg (clamp lo hi s)))

/-- IADD64 (R123): the pair D is A + B, or A − B under `.sub`, keeping 64 bits, whatever TY is. -/
def Obligations.Iadd64Completes : Prop :=
  ∀ (s : State) (i : Iss) (x : Op) (d : BitVec 8), s.iss? = some i → (x.ty = 0x03 ∨ x.ty = 0x04 ∨ x.ty = 0x0D) → opPops x = [] →
    i.sp.owedAt i.sp.pc = none →
    (x.d = .v d →
      ∃ t g', exec (.iadd64 x) s = .next t ∧ t.groups.get? i.who.key = some g' ∧ ∀ l ∈ activeLanes i.g i.sp x,
        let A := BitVec.ofNat 64 (readOpnd i.sp (i.g.lane l) (.int 64) x.a)
        let B := BitVec.ofNat 64 (readOpnd i.sp (i.g.lane l) (.int 64) x.b)
        (g'.lane l).v.get (d.toNat + 1) ++ (g'.lane l).v.get d.toNat = if x.fn = 1 then A - B else A + B) ∧
    (x.d = .s d → (∀ r, x.a ≠ .v r ∧ x.b ≠ .v r) → splitGuard i.g i.sp x = true →
      ∃ t g' y, exec (.iadd64 x) s = .next t ∧ t.groups.get? i.who.key = some g' ∧ g'.split? i.who.split = some y ∧
        (let A := BitVec.ofNat 64 (scalar64 i.sp x.a)
         let B := BitVec.ofNat 64 (scalar64 i.sp x.b)
         y.s.get (d.toNat + 1) ++ y.s.get d.toNat = if x.fn = 1 then A - B else A + B))

/-- P2S and S2P (R120, R121): a lane's predicates in the bits of D; the predicates that B masks from the bits of A. -/
def Obligations.PredicatesSavedAndRestored : Prop :=
  ∀ (s : State) (i : Iss) (x : Op), s.iss? = some i → i.sp.owedAt i.sp.pc = none →
    (∀ d, x.d = .v d → x.a = .none → x.b = .none → x.c = .none → x.scalarD = false →
      ∃ t g', exec (.p2s x) s = .next t ∧ t.groups.get? i.who.key = some g' ∧ ∀ l ∈ activeLanes i.g i.sp x,
        (∀ k, 1 ≤ k → k < 8 → ((g'.lane l).v.get d.toNat).getLsbD k = (i.g.lane l).p.getLsbD k) ∧
        ((g'.lane l).v.get d.toNat).getLsbD 0 = true ∧ ∀ k, 8 ≤ k → ((g'.lane l).v.get d.toNat).getLsbD k = false) ∧
    (x.d = .none → x.c = .none → x.scalarD = false → queueGate i.g (activeLanes i.g i.sp x) x = .go → (i.sp.rerun = none ∨ 3 ∉ opPops x) →
      (∀ l ∈ activeLanes i.g i.sp x, gatherBad (i.g.lane l) (opPops x) = none) →
      ∃ t g', exec (.s2p x) s = .next t ∧ t.groups.get? i.who.key = some g' ∧ ∀ l ∈ activeLanes i.g i.sp x,
        let r := laneIn .s2p x i.sp (i.g.lane l) (takeEvts i x (activeLanes i.g i.sp x)).1
        ∀ k, 1 ≤ k → k < 8 → (g'.lane l).p.getLsbD k = if r.b.testBit k then r.a.testBit k else (i.g.lane l).p.getLsbD k)

/-- A long-latency instruction issues, and its result is written (R105, R164). -/
def Obligations.LongArithmetic : Prop :=
   (∀ (s : State) (i : Iss) (o : Opc) (x : Op), s.iss? = some i → o ∈ longAlu → x.scalarD = false → activeLanes i.g i.sp x ≠ [] →
      queueGate i.g (activeLanes i.g i.sp x) x = .go → (i.sp.rerun = none ∨ 3 ∉ opPops x) → i.sp.owedAt i.sp.pc = none →
      (∀ l ∈ activeLanes i.g i.sp x, gatherBad (i.g.lane l) (opPops x) = none) →
      ∃ t g' y r, exec (Instr.ofOpc o x) s = .next t ∧
        t = { s with groups := t.groups, nextId := s.nextId + 1 } ∧ SameMemory s t ∧
        (∀ k, k ≠ i.who.key → t.groups.get? k = s.groups.get? k) ∧ t.groups.get? i.who.key = some g' ∧
        g' = { i.g with lanes := g'.lanes, splits := g'.splits, q4 := g'.q4, q4pos := g'.q4pos, results := i.g.results ++ [r] } ∧
        (∀ m, m ≠ i.who.split → g'.split? m = i.g.split? m) ∧ g'.split? i.who.split = some y ∧
        i.sp.Past y (opUnits x) i.sp.s i.sp.flags ∧
        (o ≠ .idiv → fmtTE i.sp.fmt ≠ 0 → ∃ p, y.pend = some p ∧ p.id = r.id ∧ p.pc = i.sp.pc ∧ p.opc = o ∧ p.op = x) ∧
        (o = .idiv ∨ fmtTE i.sp.fmt = 0 → y.pend = (i.sp.adv (opUnits x)).pend) ∧
        g'.q4 = (takeEvts i x (activeLanes i.g i.sp x)).2.q4 ∧ g'.q4pos = (takeEvts i x (activeLanes i.g i.sp x)).2.q4pos ∧
        (∀ l, l < i.g.lanes.length → g'.lane l = if l ∈ activeLanes i.g i.sp x then
          { i.g.lane l with q0 := (i.g.lane l).q0.drop (timesIn 0 (opPops x)), q3 := (i.g.lane l).q3.drop (timesIn 3 (opPops x)),
                            vlfsr := (i.out o x l).lfsr } else i.g.lane l) ∧
        r.id = s.nextId ∧ r.slices = i.sp.slices ∧ r.dst = x.d ∧ r.n = dstN o x ∧
        (∀ l, l < 64 → r.lanes.getLsbD l = decide (l ∈ activeLanes i.g i.sp x)) ∧
        (∀ l ∈ activeLanes i.g i.sp x, r.vals.get l = BitVec.ofNat 64 (i.out o x l).val) ∧
        (∀ f, r.flags.getLsbD f = (activeLanes i.g i.sp x).any fun l => (i.out o x l).flags.getLsbD f) ∧
        (r.traps = true ↔ r.flags &&& fmtTE i.sp.fmt ≠ 0)) ∧
   (∀ (s : State) (key : Nat) (g : Group) (r : SfuRes), s.groups.get? key = some g → (g.results.find? fun z => z.id == r.id) = some r →
      r.traps = false → g.retired = false → (∀ y ∈ g.splits, ∀ p, y.pend = some p → p.id = r.id → y.owedAt p.pc = none) →
      ∃ t g', exec (.specialFunctionResult key r.id) s = .next t ∧ OnlyGroup s t key ∧ SameMemory s t ∧ t.groups.get? key = some g' ∧
        (∀ z ∈ g'.results, z.id ≠ r.id ∧ z ∈ g.results) ∧ (∀ z ∈ g.results, z.id ≠ r.id → z ∈ g'.results) ∧
        (∀ d, r.dst = .v d → g' = { g with lanes := g'.lanes, splits := g'.splits, results := g'.results } ∧
          ∀ l, l < g.lanes.length → g'.lane l = { g.lane l with v := (g'.lane l).v } ∧
            ∀ k, (g'.lane l).v.get k = if l < g.width ∧ r.lanes.getLsbD l = true ∧ d.toNat ≤ k ∧ k < d.toNat + r.n then
              BitVec.ofNat 32 ((r.vals.get l).toNat / 2 ^ (32 * (k - d.toNat))) else (g.lane l).v.get k) ∧
        (∀ d, r.dst = .s d → g' = { g with splits := g'.splits, results := g'.results }) ∧
        ∀ n y, g.split? n = some y → ∃ y', g'.split? n = some y' ∧
          y' = { y with s := y'.s, flags := if y.slices &&& r.slices ≠ 0 then y.flags ||| r.flags else y.flags, pend := y'.pend } ∧
          (∀ k, y'.s.get k = match r.dst with
            | .s d => if y.slices &&& r.slices ≠ 0 ∧ d.toNat ≤ k ∧ k < d.toNat + r.n then
                BitVec.ofNat 32 ((r.vals.get 0).toNat / 2 ^ (32 * (k - d.toNat))) else y.s.get k
            | _ => y.s.get k) ∧
          y'.pend = if ((g.splits.find? fun z => z.pend.any fun p => p.id == r.id).map Split.id) = some n then none else y.pend)

/-- Queue operands before an instruction (R49, R306, R308): QFAULT, or a wait in which nothing changes. -/
def Obligations.QueueOperandsGate : Prop :=
  ∀ (s : State) (i : Iss) (o : Opc) (x : Op), s.iss? = some i → o ∈ shortAlu ++ longAlu → x.scalarD = false →
    let ls := activeLanes i.g i.sp x
    let k (n : Nat) : Nat := timesIn n (opPops x)
    let short0 := 0 ∈ opPops x ∧ ∃ l ∈ ls, (i.g.lane l).q0.length < k 0
    let short3 := 3 ∈ opPops x ∧ ∃ l ∈ ls, (i.g.lane l).q3.length < k 3
    let dead3 := 3 ∈ opPops x ∧ ∃ l ∈ ls, (i.g.lane l).q3.length < k 3 ∧ (i.g.lane l).q2.length + i.g.q2Due l < 2
    let full1 := x.d = .q 1 ∧ ∃ l ∈ ls, 32 ≤ (i.g.lane l).q1.length
    let full2 := x.d = .q 2 ∧ ∃ l ∈ ls, 16 ≤ (i.g.lane l).q2.length
    let full4 := x.d = .q 4 ∧ 16 < i.g.q4.length + i.g.q4Due + ls.length
    let fault := (short0 ∧ i.g.moving .mdrain = false) ∨ dead3 ∨ (full1 ∧ i.g.moving .mfill = false)
    (fault → ∃ b lanes, exec (Instr.ofOpc o x) s = .next (s.raise i b lanes) ∧ b.cause = .qfault ∧ lanes ≠ [] ∧ (∀ l ∈ lanes, l ∈ ls) ∧
      ((b.aux = 2 ∧ short0) ∨ (b.aux = 0x304 ∧ dead3) ∨ (b.aux = 0x103 ∧ full1))) ∧
    (¬ fault → short0 ∨ short3 ∨ full1 ∨ full2 ∨ full4 →
      ∃ t y, exec (Instr.ofOpc o x) s = .next t ∧ Becomes s t i y i.g.lanes ∧ y = { i.sp with wait := .stall })

/-- FPE is delivered after a complete effect (R171); that a scalar D gives TRAPADDR the lowest non-idle lane is the model's reading (log 69). -/
def Obligations.FloatingPointTrap : Prop :=
  ∀ (s : State) (i : Iss) (o : Opc) (x : Op), s.iss? = some i → o ∈ shortAlu → i.sp.pend = none → i.sp.owedAt i.sp.pc = none →
    let ls := activeLanes i.g i.sp x
    let low := lowLane i.g i.sp
    let next := i.sp.pc + BitVec.ofNat 50 (opUnits x)
    let fpe (flags : Flags) (raised : List Nat) (r : TrapRec) : Prop :=
      r.cause = Cause.fpe.code ∧ r.shadow = 0 ∧ (∀ l, l < 64 → r.addr.getLsbD l = decide (l ∈ raised)) ∧
      (∀ l, l < 64 → r.lanes.getLsbD l = decide (l ∈ liveLanes i.g i.sp)) ∧ (s.padAt i next = false → r.pc = next.setWidth 64) ∧
      r.aux = flags.setWidth 32 <<< 5 ||| (flags &&& fmtTE i.sp.fmt).setWidth 32
    (x.scalarD = false → queueGate i.g ls x = .go → (i.sp.rerun = none ∨ 3 ∉ opPops x) →
      (∀ l ∈ ls, gatherBad (i.g.lane l) (opPops x) = none ∧
        aluRefuses o x.ty.toNat i.sp.fmt (laneIn o x i.sp (i.g.lane l) (takeEvts i x ls).1) = false) →
      let raised := ls.filter fun l => (i.out o x l).flags &&& fmtTE i.sp.fmt != 0
      raised ≠ [] →
      ∃ u g' y flags r, exec (Instr.ofOpc o x) s = .next (u.deliver i.who r) ∧ OnlyGroup s u i.who.key ∧ u.groups.get? i.who.key = some g' ∧
        i.g.OnlyLanes g' i.who.split ∧ g'.split? i.who.split = some y ∧ i.sp.Past y (opUnits x) i.sp.s (i.sp.flags ||| flags) ∧
        (∀ f, flags.getLsbD f = ls.any fun l => (i.out o x l).flags.getLsbD f) ∧
        (∀ l ∈ ls, Lane.Takes o x (i.out o x l) (i.g.lane l) (g'.lane l)) ∧ (∀ l, l < i.g.lanes.length → l ∉ ls → g'.lane l = i.g.lane l) ∧
        g'.q4pos = (takeEvts i x ls).2.q4pos ∧
        g'.q4 = (takeEvts i x ls).2.q4 ++ (if x.d = .q 4 then ls.map fun l => userEvt s.clock l (i.out o x l).val else []) ∧ fpe flags raised r) ∧
    (∀ d, x.scalarD = true → x.d = .s d → splitGuard i.g i.sp x = true → aluRefuses o x.ty.toNat i.sp.fmt (laneIn o x i.sp (i.g.lane low) []) = false →
      let v := evalScalar o x i
      v.flags &&& fmtTE i.sp.fmt ≠ 0 →
      ∃ u g' y r, exec (Instr.ofOpc o x) s = .next (u.deliver i.who r) ∧ OnlyGroup s u i.who.key ∧ u.groups.get? i.who.key = some g' ∧
        i.g.OnlySplit g' i.who.split ∧ g'.split? i.who.split = some y ∧ i.sp.Past y (opUnits x) y.s (i.sp.flags ||| v.flags) ∧
        (∀ k, y.s.get k = if d.toNat ≤ k ∧ k < d.toNat + dstN o x then BitVec.ofNat 32 (v.val / 2 ^ (32 * (k - d.toNat))) else i.sp.s.get k) ∧
        (∀ l, l < i.g.lanes.length → g'.lane l = if l = low then { i.g.lane l with vlfsr := v.lfsr } else i.g.lane l) ∧ fpe v.flags [low] r)

/-- FSIGN and FCLASS work on stored bits (R157, R158); FADD, FSUB, FMUL and FFMA on f32 NaNs, infinities and zeros (R128, R135, R139, R143, R153, R154). -/
def Obligations.FloatBitsAndSpecials : Prop :=
   (∀ (fmt lf : Word) (a b : Word) (A B : DWord),
      let x : LaneIn := { a := a.toNat, b := b.toNat }
      let y : LaneIn := { a := A.toNat, b := B.toNat }
      let val (o : Opc) (fn ty : Nat) (x : LaneIn) : Nat := (aluVal o fn ty fmt lf x).val
      val .fsign 0 0x05 x = (a &&& 0x7FFFFFFF#32 ||| b &&& 0x80000000#32).toNat ∧ val .fsign 1 0x05 x = (a ^^^ 0x80000000#32).toNat ∧
      val .fsign 2 0x05 x = (a &&& 0x7FFFFFFF#32).toNat ∧ val .fsign 3 0x05 x = (a ^^^ (b &&& 0x80000000#32)).toNat ∧
      (∀ ty ∈ [0x06, 0x07], val .fsign 0 ty x = (a &&& 0x7FFF7FFF#32 ||| b &&& 0x80008000#32).toNat ∧
        val .fsign 1 ty x = (a ^^^ 0x80008000#32).toNat ∧ val .fsign 2 ty x = (a &&& 0x7FFF7FFF#32).toNat ∧
        val .fsign 3 ty x = (a ^^^ (b &&& 0x80008000#32)).toNat) ∧
      val .fsign 0 0x0F y = (A &&& 0x7FFFFFFFFFFFFFFF#64 ||| B &&& 0x8000000000000000#64).toNat ∧
      val .fsign 1 0x0F y = (A ^^^ 0x8000000000000000#64).toNat ∧ val .fsign 2 0x0F y = (A &&& 0x7FFFFFFFFFFFFFFF#64).toNat ∧
      val .fsign 3 0x0F y = (A ^^^ (B &&& 0x8000000000000000#64)).toNat ∧
      (let m := a &&& 0x7FFFFFFF#32
       val .fclass 0 0x05 x =
        if 0x7F800000#32 < m then (if a.getLsbD 22 then 2 else 1)
        else if m = 0x7F800000#32 then (if a.msb then 4 else 512)
        else if m = 0 then (if a.msb then 32 else 64)
        else if m < 0x00800000#32 then (if a.msb then 16 else 128)
        else (if a.msb then 8 else 256)) ∧
      (let m := A &&& 0x7FFFFFFFFFFFFFFF#64
       val .fclass 0 0x0F y =
        if 0x7FF0000000000000#64 < m then (if A.getLsbD 51 then 2 else 1)
        else if m = 0x7FF0000000000000#64 then (if A.msb then 4 else 512)
        else if m = 0 then (if A.msb then 32 else 64)
        else if m < 0x0010000000000000#64 then (if A.msb then 16 else 128)
        else (if A.msb then 8 else 256)) ∧
      ∀ fn ty, (aluVal .fsign fn ty fmt lf x).flags = 0 ∧ (aluVal .fclass fn ty fmt lf x).flags = 0) ∧
   (∀ (fn : Nat) (fmt lf : Word) (a b c : Word), fn < 6 →
      let x : LaneIn := { a := a.toNat, b := b.toNat, c := c.toNat }
      let out (o : Opc) : LaneOut := aluVal o fn 0x05 fmt lf x
      let is (o : Opc) (v : Word) (fl : Flags) : Prop := (out o).val = v.toNat ∧ (out o).flags = fl
      let mag (w : Word) : Word := w &&& 0x7FFFFFFF#32
      let nan (w : Word) : Bool := 0x7F800000#32 < mag w
      let snan (w : Word) : Bool := nan w && !w.getLsbD 22
      let inf (w : Word) : Bool := mag w == 0x7F800000#32
      let zero (w : Word) : Bool := mag w == 0
      let normal (w : Word) : Bool := 0x00800000#32 ≤ mag w && mag w < 0x7F800000#32
      let iv (q : Bool) : Flags := if q then fIV else 0
      let sign : Word := (a ^^^ b) &&& 0x80000000#32
      (nan a ∨ nan b → is .fadd 0x7FC00000#32 (iv (snan a || snan b)) ∧ is .fsub 0x7FC00000#32 (iv (snan a || snan b)) ∧
        is .fmul 0x7FC00000#32 (iv (snan a || snan b)) ∧ is .ffma 0x7FC00000#32 (iv (snan a || snan b || snan c)) ∧
        (aluVal .fadd (fn + 8) 0x05 fmt lf x).val = 0 ∧ (aluVal .fmul (fn + 8) 0x05 fmt lf x).val = 0) ∧
      (nan c → zero a ∨ normal a ∨ inf a → zero b ∨ normal b ∨ inf b →
        is .ffma 0x7FC00000#32 (iv (snan c || (inf a && zero b) || (zero a && inf b)))) ∧
      (inf a → inf b → (a = b → is .fsub 0x7FC00000#32 fIV) ∧ (a ≠ b → is .fadd 0x7FC00000#32 fIV)) ∧
      (inf a → nan b = false → (inf b = false ∨ a = b) → is .fadd a 0) ∧ (inf b → nan a = false → (inf a = false ∨ a = b) → is .fadd b 0) ∧
      ((inf a ∧ zero b) ∨ (zero a ∧ inf b) → is .fmul 0x7FC00000#32 fIV) ∧
      ((inf a ∧ (normal b ∨ inf b)) ∨ (normal a ∧ inf b) → is .fmul (sign ||| 0x7F800000#32) 0) ∧
      ((zero a ∧ (normal b ∨ zero b)) ∨ (normal a ∧ zero b) → is .fmul sign 0) ∧
      (zero a → zero b → is .fadd (if (a.msb ∧ b.msb) ∨ fnMode fmt fn = .rd then 0x80000000#32 else 0) 0))

/-- f32 arithmetic on integers is exact wherever the result is an integer of at most 24 bits (R137, R146, R154, R166, R167). -/
def Obligations.FloatExactIntegers : Prop :=
  ∀ (fmt lf : Word) (fn : Nat) (m n p : Int), fn < 6 → m.natAbs ≤ 2 ^ 24 → n.natAbs ≤ 2 ^ 24 → p.natAbs ≤ 2 ^ 24 →
    let conv (k : Int) : LaneOut := aluVal .i2f 0 0x05 fmt lf { a := (BitVec.ofInt 32 k).toNat }
    let x : LaneIn := { a := (conv m).val, b := (conv n).val, c := (conv p).val }
    let exact (o : Opc) (k : Int) : Prop := k ≠ 0 → k.natAbs ≤ 2 ^ 24 →
      (aluVal o fn 0x05 fmt lf x).val = (conv k).val ∧ (aluVal o fn 0x05 fmt lf x).flags = 0
    (conv m).flags = 0 ∧
    (∀ mode, mode < 4 → (aluVal .f2i (4 * mode) 0x01 fmt lf x).val = (BitVec.ofInt 32 m).toNat ∧
      (aluVal .f2i (4 * mode) 0x01 fmt lf x).flags = 0) ∧
    exact .fadd (m + n) ∧ exact .fsub (m - n) ∧ exact .fmul (m * n) ∧ exact .ffma (m * n + p)

/-- Conversions, then the order of f32 codes. -/
def Obligations.FloatConversionsAndOrder : Prop :=
   (∀ (fmt lf : Word) (h : BitVec 16) (a : Word),
      let cvt (fn ty v : Nat) : LaneOut := aluVal .cvt fn ty fmt lf { a := v }
      let there (fn ty : Nat) (fn' ty' v : Nat) : Prop :=
        (cvt fn ty v).flags = 0 ∧ (cvt fn' ty' (cvt fn ty v).val).val = v ∧ (cvt fn' ty' (cvt fn ty v).val).flags = 0
      let nan16 := 0x7C00#16 < (h &&& 0x7FFF#16)
      let nanB := 0x7F80#16 < (h &&& 0x7FFF#16)
      let nan32 := 0x7F800000#32 < (a &&& 0x7FFFFFFF#32)
      let f2i (ty v : Nat) (r : Nat) : Prop := ∀ mode, mode < 4 →
        (aluVal .f2i (4 * mode) ty fmt lf { a := v }).val = r ∧ (aluVal .f2i (4 * mode) ty fmt lf { a := v }).flags = fIV
      (fmtFTZ fmt = false → (¬ nan16 → there 2 0x05 0 0x10 h.toNat) ∧ (¬ nanB → there 3 0x05 0 0x11 h.toNat) ∧
        (¬ nan32 → there 0 0x0F 1 0x05 a.toNat)) ∧
      (nan16 → (cvt 2 0x05 h.toNat).val = 0x7FC00000 ∧ (cvt 2 0x05 h.toNat).flags = if h.getLsbD 9 then 0 else fIV) ∧
      (nanB → (cvt 3 0x05 h.toNat).val = 0x7FC00000 ∧ (cvt 3 0x05 h.toNat).flags = if h.getLsbD 6 then 0 else fIV) ∧
      (nan32 → (cvt 0 0x0F a.toNat).val = 0x7FF8000000000000 ∧ (cvt 0 0x0F a.toNat).flags = (if a.getLsbD 22 then 0 else fIV) ∧
        f2i 0x01 a.toNat 0 ∧ f2i 0x02 a.toNat 0 ∧ f2i 0x03 a.toNat 0 ∧ f2i 0x04 a.toNat 0) ∧
      f2i 0x01 0x7F800000 0x7FFFFFFF ∧ f2i 0x01 0xFF800000 0x80000000 ∧ f2i 0x02 0x7F800000 0xFFFFFFFF ∧ f2i 0x02 0xFF800000 0 ∧
      f2i 0x03 0x7F800000 0x7FFFFFFFFFFFFFFF ∧ f2i 0x03 0xFF800000 0x8000000000000000 ∧ f2i 0x04 0x7F800000 0xFFFFFFFFFFFFFFFF ∧
      f2i 0x04 0xFF800000 0) ∧
   (∀ (fmt lf : Word) (a b : Word), fmtFTZ fmt = false →
      let x : LaneIn := { a := a.toNat, b := b.toNat }
      let out (o : Opc) (fn : Nat) : LaneOut := aluVal o fn 0x05 fmt lf x
      let swap (o : Opc) (fn : Nat) : LaneOut := aluVal o fn 0x05 fmt lf { a := b.toNat, b := a.toNat }
      let nan (w : Word) : Bool := 0x7F800000#32 < (w &&& 0x7FFFFFFF#32)
      let snan (w : Word) : Bool := nan w && !w.getLsbD 22
      let fl : Flags := if snan a || snan b then fIV else 0
      (∀ fn, (out .fset fn).val = (if (out .fcmp fn).pred then 0xFFFFFFFF else 0) ∧ (out .fcmp fn).flags = fl ∧ (out .fset fn).flags = fl) ∧
      (nan a = false → nan b = false → a.msb = false → b.msb = false → (out .fcmp 2).pred = a.ult b ∧ (out .fcmp 0).pred = (a == b)) ∧
      (nan a = false → nan b = false → a.msb = true → b.msb = true → (out .fcmp 2).pred = b.ult a ∧ (out .fcmp 0).pred = (a == b)) ∧
      (nan a = false → nan b = false → a.msb = true → b.msb = false →
        (out .fcmp 0).pred = (a == 0x80000000#32 && b == 0#32) ∧ (out .fcmp 2).pred = !(a == 0x80000000#32 && b == 0#32)) ∧
      (nan a = false → nan b = false → (out .fcmp 1).pred = !(out .fcmp 0).pred ∧ (out .fcmp 3).pred = ((out .fcmp 2).pred || (out .fcmp 0).pred) ∧
        (out .fcmp 4).pred = (swap .fcmp 2).pred ∧ (out .fcmp 5).pred = !(out .fcmp 2).pred ∧ (out .fcmp 6).pred = true ∧
        (out .fcmp 7).pred = false ∧ ∀ fn, fn < 8 → (out .fcmp (fn + 8)).pred = (out .fcmp fn).pred) ∧
      (nan a ∨ nan b → (∀ fn, fn < 7 → (out .fcmp fn).pred = false) ∧ (out .fcmp 7).pred = true ∧ ∀ fn, fn < 8 → (out .fcmp (fn + 8)).pred = true) ∧
      (∀ o ∈ [Opc.fmin, Opc.fmax], (out o 0).flags = fl ∧ (out o 1).flags = fl ∧ (out o 0).val = (swap o 0).val ∧ (out o 1).val = (swap o 1).val ∧
        (nan a → nan b → (out o 0).val = 0x7FC00000) ∧ (nan a ∨ nan b → (out o 1).val = 0x7FC00000) ∧
        (nan a → nan b = false → (out o 0).val = b.toNat) ∧ (nan a = false → nan b = false → (out o 1).val = (out o 0).val)) ∧
      (nan a = false → nan b = false → (out .fcmp 2).pred = true ∨ (a = 0x80000000#32 ∧ b = 0#32) →
        (out .fmin 0).val = a.toNat ∧ (out .fmax 0).val = b.toNat))

/-- The steps of a lane's vector LFSR (R140 to R142, R153, R155). -/
def Obligations.StochasticSteps : Prop :=
  ∀ (fmt lf : Word) (x : LaneIn) (id : DWord),
    let lfsr (o : Opc) (fn ty : Nat) : Word := (aluVal o fn ty fmt lf x).lfsr
    let after (n : Nat) : Word := (List.range n).foldl (fun w _ => if w.getLsbD 0 then (w >>> 1) ^^^ 0x80200003#32 else w >>> 1) lf
    let elems (ty : Nat) : Nat := if ty = 0x06 ∨ ty = 0x07 then 2 else 1
    (∀ o ∈ [Opc.fadd, Opc.fsub, Opc.fmul, Opc.ffma], ∀ ty ∈ [0x05, 0x06, 0x07, 0x0F],
      lfsr o 5 ty = after (elems ty) ∧ lfsr o 1 ty = lf ∧ lfsr o 2 ty = lf ∧ lfsr o 3 ty = lf ∧ lfsr o 4 ty = lf ∧
      lfsr o 0 ty = if fmtRM fmt = .rs then after (elems ty) else lf) ∧
    (∀ o ∈ [Opc.fmin, Opc.fmax, Opc.fmed3, Opc.fcmp, Opc.fset, Opc.fclass, Opc.fsign], ∀ fn ty, lfsr o fn ty = lf) ∧
    (∀ o, o.family = .integer → ∀ fn ty, lfsr o fn ty = lf ∧ (aluVal o fn ty fmt lf x).flags = 0) ∧
    vseed id ≠ 0 ∧ mseed id ≠ 0 ∧ ((0 : Word) < lf → after 1 ≠ 0)

/-- SYSRD of every system register but CLOCK (R75, R76, R84), then CLK and SYSRD of CLOCK (R80, R90): each core has one copy of it, whose value is a free value within the bounds of R80 (log 12). A row is index, whether the register is wider than 32 bits, the level that reads it, and its value in each lane. -/
def Obligations.SystemRegisterReads : Prop :=
   (∀ (s : State) (i : Iss) (o : Op), s.iss? = some i →
      let k := s.core (i.who.key / 64)
      let q := s.part (s.wgOf i.g).part
      let rows : List (Nat × Bool × Nat × (Nat → Nat)) :=
        [(0x000, true, 0, fun l => (i.g.lane l).workid.toNat), (0x002, false, 0, fun l => (i.g.lane l).age.toNat), (0x003, false, 0, fun l => l),
         (0x004, false, 0, fun _ => i.g.gid.toNat), (0x005, true, 0, fun l => (i.g.lane l).wgid.toNat), (0x006, false, 0, fun _ => i.who.key / 64),
         (0x007, false, 0, fun _ => i.who.key / 64 / 48), (0x008, false, 0, fun _ => i.who.split), (0x009, false, 0, fun _ => i.sp.priv.toNat),
         (0x010, false, 0, fun _ => i.sp.flags.toNat), (0x011, false, 0, fun l => (i.g.lane l).rcpt.toNat),
         (0x020, false, 0, fun _ => i.g.trap.cause.toNat), (0x021, true, 0, fun _ => i.g.trap.pc.toNat), (0x022, true, 0, fun _ => i.g.trap.addr.toNat),
         (0x023, true, 0, fun _ => i.g.trap.lanes.toNat), (0x024, false, 0, fun _ => i.g.trap.shadow.toNat), (0x025, false, 0, fun _ => i.g.trap.aux.toNat),
         (0x026, false, 0, fun _ => i.g.tpriv.toNat), (0x027, false, 0, fun _ => i.g.towner.toNat)] ++
        [(0x030, false, 0, fun _ => (if k.carvePend then 16 else 0) + k.carve.toNat),
         (0x040, false, 1, fun _ => (if k.fix then 65536 else 0) + 256 * k.mmax.toNat + k.mmin.toNat),
         (0x100, false, 2, fun _ => k.lmin.toNat + 16 * k.lmax.toNat), (0x101, false, 2, fun _ => k.ctxid.toNat),
         (0x180, true, 0, fun _ => q.accepted.toNat), (0x181, true, 0, fun _ => q.completed.toNat)]
      ∀ e ∈ rows, o.ext = .sys (BitVec.ofNat 12 e.1) 0 → o.ty = (if e.2.1 then 0x0D#6 else 0) → e.2.2.1 ≤ i.sp.priv.toNat →
        (e.1 = 0x010 → flagsPending i.g i.sp = false) →
        (∀ d, o.d = .v d → activeLanes i.g i.sp o ≠ [] →
          ∃ t y lanes, exec (.sysrd o) s = .next t ∧ Becomes s t i y lanes ∧ i.sp.Past y (opUnits o) i.sp.s i.sp.flags ∧
            lanes.length = i.g.lanes.length ∧ ∀ l < i.g.lanes.length, lanes.getD l {} = if l ∈ activeLanes i.g i.sp o then
              { i.g.lane l with v := writeRegs (i.g.lane l).v d.toNat (e.2.2.2 l) (if e.2.1 then 2 else 1) } else i.g.lane l) ∧
        (∀ d, o.d = .s d → splitGuard i.g i.sp o = true →
          ∃ t y, exec (.sysrd o) s = .next t ∧ Becomes s t i y i.g.lanes ∧
            i.sp.Past y (opUnits o) (writeRegs i.sp.s d.toNat (e.2.2.2 (lowLane i.g i.sp)) (if e.2.1 then 2 else 1)) i.sp.flags)) ∧
   (∀ c n, clockCopy c n ≤ clockCopy c (n + 1) ∧ n ≤ clockCopy c n + 4 ∧ clockCopy c n ≤ n + 4) ∧
   (∀ (s : State) (i : Iss) (o : Op) (v : DWord), s.iss? = some i → s.clock.toNat + 4 < 2 ^ 64 →
      v = BitVec.ofNat 64 (max i.sp.lastClock.toNat (clockCopy (i.who.key / 64) s.clock.toNat)) →
        (∀ d, o.d = .s d → splitGuard i.g i.sp o = true →
          let reads (ins : Instr) : Prop := ∃ t y, exec ins s = .next t ∧ Becomes s t i y i.g.lanes ∧
            ({ i.sp with lastClock := v } : Split).Past y (opUnits o) (writeRegs i.sp.s d.toNat v.toNat 2) i.sp.flags
          ((o.fn = 1 → drainedFor i.g i.sp = true) → reads (.clk o)) ∧ (o.ext = .sys 0x018 0 → o.ty = 0x0D → reads (.sysrd o))) ∧
        (∀ d, o.d = .v d → activeLanes i.g i.sp o ≠ [] → o.ext = .sys 0x018 0 → o.ty = 0x0D →
          ∃ t y lanes, exec (.sysrd o) s = .next t ∧ Becomes s t i y lanes ∧
            ({ i.sp with lastClock := v } : Split).Past y (opUnits o) i.sp.s i.sp.flags ∧ lanes.length = i.g.lanes.length ∧
            ∀ l < i.g.lanes.length, lanes.getD l {} = if l ∈ activeLanes i.g i.sp o then
              { i.g.lane l with v := writeRegs (i.g.lane l).v d.toNat v.toNat 2 } else i.g.lane l))

/-- FMTSET, FMTGET and SYSWR complete (R77, R78, R82, R83, R85, R386). -/
def Obligations.SystemRegisterWrites : Prop :=
  ∀ (s : State) (i : Iss) (o : Op), s.iss? = some i → splitGuard i.g i.sp o = true →
    let b := BitVec.ofNat 32 (scalar32 i.sp o.b)
    let fmt (n : Word) : Prop := 
      (fmtLegal n = true → ∃ t y, exec (.fmtset o) s = .next t ∧ Becomes s t i y i.g.lanes ∧
        ({ i.sp with fmt := n } : Split).Past y (opUnits o) i.sp.s i.sp.flags) ∧
      (fmtLegal n = false → exec (.fmtset o) s = .next (s.raiseAll i illop9))
    (o.fn = 0 → fmt b) ∧ (o.fn = 1 → fmt (i.sp.fmt ||| b)) ∧ (o.fn = 2 → fmt (i.sp.fmt &&& ~~~b)) ∧
    (o.fn = 3 → b.toNat < 8 → fmt ((i.sp.fmt &&& 0xFFFFE3FF#32) ||| (b <<< 10))) ∧
    (o.fn = 3 → 8 ≤ b.toNat → exec (.fmtset o) s = .next (s.raiseAll i illop9)) ∧
    (∀ d, o.d = .s d → ∃ t y, exec (.fmtget o) s = .next t ∧ Becomes s t i y i.g.lanes ∧
      i.sp.Past y (opUnits o) (writeRegs i.sp.s d.toNat i.sp.fmt.toNat 1) i.sp.flags) ∧
    (let v32 := readOpnd i.sp {} (.int 32) o.a
     let v64 := readOpnd i.sp {} (.int 64) o.a
     let k := s.core i.core
     let t0 := i.g.trap
     let own (idx : Nat) (ty : BitVec 6) (g : Group) : Prop := o.ext = .sys (BitVec.ofNat 12 idx) 0 → o.ty = ty →
       ∃ t y, exec (.syswr o) s = .next t ∧ Turns s t i g y ∧ i.sp.Past y (opUnits o) i.sp.s i.sp.flags
     let core (ins : Instr) (idx level : Nat) (k' : Core) : Prop := o.ext = .sys (BitVec.ofNat 12 idx) 0 → o.ty = 0 → level ≤ i.sp.priv.toNat →
       ∃ t y, exec ins s = .next t ∧ CoreBecomes s t i.core k' ∧ Turns { s with cores := t.cores } t i i.g y ∧
         i.sp.Past y (opUnits o) i.sp.s i.sp.flags
     (o.ext = .sys 0x010 0 → o.ty = 0 → ∃ t y, exec (.syswr o) s = .next t ∧ Becomes s t i y i.g.lanes ∧
       i.sp.Past y (opUnits o) i.sp.s (BitVec.ofNat 5 v32)) ∧
     own 0x020 0 { i.g with trap := { t0 with cause := BitVec.ofNat 8 v32 }, aside := (i.g.setCause (BitVec.ofNat 8 v32)).aside } ∧ own 0x021 0x0D { i.g with trap := { t0 with pc := BitVec.ofNat 64 v64 } } ∧
     own 0x022 0x0D { i.g with trap := { t0 with addr := BitVec.ofNat 64 v64 } } ∧
     own 0x023 0x0D { i.g with trap := { t0 with lanes := BitVec.ofNat 64 v64 } } ∧
     own 0x024 0 { i.g with trap := { t0 with shadow := BitVec.ofNat 4 v32 } } ∧ own 0x025 0 { i.g with trap := { t0 with aux := BitVec.ofNat 32 v32 } } ∧
     (v32 % 4 ≤ i.sp.priv.toNat → own 0x026 0 { i.g with tpriv := BitVec.ofNat 2 v32 }) ∧
     (k.lmin.toNat ≤ v32 % 16 → v32 % 16 ≤ k.lmax.toNat →
       core (.carveWrite o) 0x030 1 { k with carvePend := true, carveReq := BitVec.ofNat 4 v32 }) ∧
     (∀ lo hi, lo = v32 % 32 → hi = v32 / 256 % 32 → 2 ≤ lo → lo ≤ hi → hi ≤ 16 →
       core (.throttleWrite o) 0x040 1 { k with mmin := BitVec.ofNat 5 lo, mmax := BitVec.ofNat 5 hi, fix := v32.testBit 16,
                                                m := k.m.map fun x => BitVec.ofNat 5 (min hi (max lo x.toNat)) }) ∧
     (∀ lo hi, lo = v32 % 16 → hi = v32 / 16 % 16 → 1 ≤ lo → lo ≤ hi → hi ≤ 8 →
       let k1 := { k with lmin := BitVec.ofNat 4 lo, lmax := BitVec.ofNat 4 hi }
       core (.carvelimWrite o) 0x100 2 (
         if k.carve.toNat < lo then { k1 with carvePend := true, carveReq := BitVec.ofNat 4 lo }
         else if hi < k.carve.toNat then { k1 with carvePend := true, carveReq := BitVec.ofNat 4 hi } else k1)))

/-- The faults of SYSRD and SYSWR (R86); that an ILLOP comes before a PROT where both conditions hold is the model's choice (log 37). A row is index, whether the register is wider than 32 bits, and the levels that read and write it. -/
def Obligations.SystemRegisterFaults : Prop :=
  ∀ (s : State) (i : Iss) (o : Op) (idx : Nat) (hi : BitVec 20), s.iss? = some i → idx < 4096 → o.ext = .sys (BitVec.ofNat 12 idx) hi →
    let rows : List (Nat × Bool × Nat × Option Nat) :=
      [(0x000, true, 0, none), (0x002, false, 0, none), (0x003, false, 0, none), (0x004, false, 0, none), (0x005, true, 0, none),
       (0x006, false, 0, none), (0x007, false, 0, none), (0x008, false, 0, none), (0x009, false, 0, none), (0x010, false, 0, some 0),
       (0x011, false, 0, none), (0x018, true, 0, none), (0x020, false, 0, some 0), (0x021, true, 0, some 0), (0x022, true, 0, some 0),
       (0x023, true, 0, some 0), (0x024, false, 0, some 0), (0x025, false, 0, some 0), (0x026, false, 0, some 0), (0x027, false, 0, none)] ++
      [(0x030, false, 0, some 1), (0x040, false, 1, some 1), (0x100, false, 2, some 2), (0x101, false, 2, some 2), (0x180, true, 0, none),
       (0x181, true, 0, none)]
    let ill : Bad := { cause := .illop, aux := BitVec.ofNat 32 (9 + 2 ^ 20 * idx) }
    let prot (w level : Nat) : Bad := { cause := .prot, aux := BitVec.ofNat 32 (2 ^ 31 + 2 ^ 30 * w + 2 ^ 28 * level + idx) }
    let wrong (e : Nat × Bool × Nat × Option Nat) : Prop := hi ≠ 0 ∨ ¬(o.ty = 0x0D ↔ e.2.1 = true)
    let ls := activeLanes i.g i.sp o
    let writer : Instr := if idx = 0x030 then .carveWrite o else if idx = 0x040 then .throttleWrite o
      else if idx = 0x100 then .carvelimWrite o else if idx = 0x101 then .ctxidWrite o else .syswr o
    let v := readOpnd i.sp {} (.int 32) o.a
    let k := s.core i.core
    (o.scalarD = false → ls ≠ [] →
      ((∀ e ∈ rows, e.1 = idx → wrong e) → exec (.sysrd o) s = .next (s.raise i ill ls)) ∧
      (∀ e ∈ rows, e.1 = idx → ¬ wrong e → i.sp.priv.toNat < e.2.2.1 → exec (.sysrd o) s = .next (s.raise i (prot 0 e.2.2.1) ls))) ∧
    (splitGuard i.g i.sp o = true →
      (o.scalarD = true →
        ((∀ e ∈ rows, e.1 = idx → wrong e) → exec (.sysrd o) s = .next (s.raiseAll i ill)) ∧
        (∀ e ∈ rows, e.1 = idx → ¬ wrong e → i.sp.priv.toNat < e.2.2.1 → exec (.sysrd o) s = .next (s.raiseAll i (prot 0 e.2.2.1)))) ∧
      ((∀ e ∈ rows, e.1 = idx → wrong e ∨ e.2.2.2 = none) → exec writer s = .next (s.raiseAll i ill)) ∧
      (∀ e ∈ rows, e.1 = idx → ¬ wrong e → ∀ n, e.2.2.2 = some n →
        (i.sp.priv.toNat < n → exec writer s = .next (s.raiseAll i (prot 1 n))) ∧
        (n ≤ i.sp.priv.toNat →
          ((idx = 0x026 ∧ i.sp.priv.toNat < v % 4) ∨ (idx = 0x030 ∧ (v % 16 < k.lmin.toNat ∨ k.lmax.toNat < v % 16)) ∨
           (idx = 0x040 ∧ (v % 32 < 2 ∨ 16 < v / 256 % 32 ∨ v / 256 % 32 < v % 32)) ∨
           (idx = 0x100 ∧ (v % 16 = 0 ∨ 8 < v / 16 % 16 ∨ v / 16 % 16 < v % 16)) ∨ idx = 0x101) →
          exec writer s = .next (s.raiseAll i ill))))

/-- The route of a cause (R403). -/
def Obligations.TrapRoute : Prop :=
  ∀ (s : State) (x : Iss) (cause : Nat),
    let w := s.wgOf x.g
    let q := s.part w.part
    let a := (w.par.traptab.toNat + 8 * cause) % 2 ^ 64
    let logged (r : Route) : Prop := ∃ e, r = .none (some e) ∧ e.type = 8 ∧ e.addr = a
    (w.par.traptab = 0 → (s.route x cause).2 = .none none) ∧
    (w.par.traptab ≠ 0 →
      (∀ s1 b, s.gx x .read false a = (s1, .error b) → logged (s.route x cause).2) ∧
      (∀ s1 l, s.gx x .read false a = (s1, .ok l) →
        let e := s1.rd l.place 8
        let go (pc : Nat) (level : BitVec 2) : Prop := (s.route x cause).2 = .handler (BitVec.ofNat 50 (pc / 4)) level
        (s1.gran (l.place / 32) ≠ .ok → logged (s.route x cause).2) ∧
        (s1.gran (l.place / 32) = .ok →
          (2 ^ 52 ≤ e → logged (s.route x cause).2) ∧
          (e < 2 ^ 52 →
            (e % 4 = 0 → (s.route x cause).2 = .none none) ∧ (e % 4 = 1 → go e 0) ∧ (e % 4 = 3 → logged (s.route x cause).2) ∧
            (e % 4 = 2 → (q.svec ≠ 0 → go q.svec.toNat 1) ∧ (q.svec = 0 → q.hvec ≠ 0 → go q.hvec.toNat 2) ∧
              (q.svec = 0 → q.hvec = 0 → (s.route x cause).2 = .none none))))))

/-- Taking a trap (R404), and TRAP, BRK and a raised fault that take one (R87, R88, R407). -/
def Obligations.TrapTaken : Prop :=
  ∀ (s : State) (i : Iss) (o : Op) (r : TrapRec) (b : Bad) (ls : List Nat), s.iss? = some i → i.g.trap.cause = 0 → i.g.retired = false →
    let p := (s.wgOf i.g).part
    let fa := ((s.part p).tfbase.toNat + 256 * (64 * s.coreIndex p (i.who.key / 64) + i.who.key % 64)) % 2 ^ 64
    let x0 : Split := { i.sp with pend := none, wait := .ready, rerun := none, skip := 0 }
    let g0 := i.g.setSplit i.who.split x0
    let i0 : Iss := ⟨i.who, g0, x0⟩
    let s0 := s.setGroup i.who.key g0
    let takes (r : TrapRec) (t : State) : Prop :=
      ∀ s1 s2 pc priv l, s0.route i0 r.cause.toNat = (s1, .handler pc priv) → s1.gx i0 .write false fa = (s2, .ok l) →
        s2.gran (l.place / 32) ≠ .uncorrectable →
        ∃ u g', Quiet s0 s1 ∧ Quiet s1 s2 ∧ Stored s2 u l.place (scalarBytes i.sp 56 8) ∧ OnlyGroup { u with cyc := t.cyc } t i.who.key ∧
          t.groups.get? i.who.key = some g' ∧ i.g.TookTrap g' i.who.split i.sp (i.sp.trapped pc priv fa) r
    (r.cause ≠ 0x0D → (r.cause ≠ 0x20 ∨ r.aux.extractLsb' 0 4 ≠ 1) → takes r (s.deliver i.who r)) ∧
    (i.sp.pend = none → splitGuard i.g i.sp o = true →
      (∃ t, exec (.trap o) s = .next t ∧ takes { cause := 0x30, pc := (s.nextPc i (opUnits o)).setWidth 64, lanes := laneMask (liveLanes i.g i.sp),
                                                 aux := BitVec.ofNat 32 (scalar32 i.sp o.a % 256) } t) ∧
      (∃ t, exec (.brk o) s = .next t ∧ takes { cause := 0x31, pc := i.sp.pc.setWidth 64, lanes := laneMask (liveLanes i.g i.sp),
                                                aux := BitVec.ofNat 32 (scalar32 i.sp o.a % 256) } t)) ∧
    (i.sp.pend = none → b.cause ≠ .dataerr → b.cause ≠ .bartimeout →
      takes { cause := b.cause.code, pc := i.sp.pc.setWidth 64, addr := b.addr, lanes := laneMask ls, aux := b.aux } (s.raise i b ls))

/-- RTE (R89, R404, R405). Two clauses rest on choices of the model: held splits stay held through an RTE that closes a trap taken inside a handler
(R406, log 100), and a floating-point trap that the split still owes falls due at an RTE that does not go back to its instruction (R171, log 90). -/
def Obligations.ReturnFromTrap : Prop :=
  ∀ (s : State) (i : Iss) (o : Op), s.iss? = some i → splitGuard i.g i.sp o = true →
    let p := (s.wgOf i.g).part
    let fa := ((s.part p).tfbase.toNat + 256 * (64 * s.coreIndex p (i.who.key / 64) + i.who.key % 64)) % 2 ^ 64
    let raised (r : TrapRec) : DWord := if r.cause = Cause.fpe.code then r.addr else r.lanes
    (i.g.trap.cause = 0 → exec (.rte o) s = .next (s.raiseAll i { cause := .illop, aux := 9 })) ∧
    (i.g.trap.cause ≠ 0 → i.who.split ≠ i.g.towner.toNat → exec (.rte o) s = .next (s.raiseAll i { cause := .illop, aux := 9 + 256 })) ∧
    (i.g.trap.cause ≠ 0 → i.who.split = i.g.towner.toNat → ∀ s1 l, s.gx i .read false fa = (s1, .ok l) → s1.gran (l.place / 32) = .ok →
      let words := (List.range 8).map fun k => BitVec.ofNat 32 (s1.rd (l.place + 4 * k) 4)
      let y0 : Split := { i.sp with pc := i.g.trap.pc.setWidth 50, s := i.sp.s.setList 56 words, priv := i.g.tpriv, wait := .ready,
                                    rerun := some (i.g.trap.lanes, i.g.trap.shadow.toNat), skip := 0, jumped := true }
      let y : Split := if i.g.aside = 0 then y0.dueFpe i.g.trap.pc else y0
      let g' : Group := { i.g.setSplit i.who.split y with trap := { i.g.trap with cause := 0 } }
      ∃ t, exec (.rte o) s = .next t ∧ Quiet s s1 ∧
        (i.g.aside ≠ 0 ∨ (∀ z ∈ g'.splits, z.held = none) → OnlyGroup s1 t i.who.key ∧ t.groups.get? i.who.key = some g') ∧
        (i.g.aside = 0 → ∀ z ∈ g'.splits, ∀ r, z.held = some r →
          (∀ z' ∈ g'.splits, ∀ r', z'.held = some r' → z' ≠ z → ∃ n < 64, (raised r).getLsbD n = true ∧ ∀ m ≤ n, (raised r').getLsbD m = false) →
          t = (s1.setGroup i.who.key (g'.modSplit z.id fun w => { w with held := none })).deliver ⟨i.who.key, z.id⟩ r))

/-- A trap while another is open (R405, R406), and a trap without a handler (R360). -/
def Obligations.HeldAndDoubleTraps : Prop :=
  ∀ (s : State) (i : Iss) (r : TrapRec), s.iss? = some i → i.g.retired = false →
    let t := s.deliver i.who r
    let x0 : Split := { i.sp with pend := none, wait := .ready, rerun := none, skip := 0 }
    let g0 := i.g.setSplit i.who.split x0
    let ended : Prop := ∃ g', t.groups.get? i.who.key = some g' ∧ g'.retired = true ∧ ∀ ln ∈ g'.lanes, ln.idle = true ∧ ln.exm = false
    (i.g.trap.cause ≠ 0 → i.who.split ≠ i.g.towner.toNat → r.cause ≠ 0x0D →
      Turns s t i i.g { x0 with held := some r }) ∧
    (i.g.task = none → i.g.trap.cause ≠ 0 → i.who.split = i.g.towner.toNat → ended) ∧
    (i.g.task = none → i.g.trap.cause = 0 → r.cause ≠ 0x0D → (∃ e, ((s.setGroup i.who.key g0).route ⟨i.who, g0, x0⟩ r.cause.toNat).2 = .none e) → ended)

/-- BRX and CALLX (R372, R374, R375). -/
def Obligations.IndirectBranches : Prop :=
  ∀ (s : State) (i : Iss) (o : Op), s.iss? = some i → splitGuard i.g i.sp o = true →
    let a := scalar32 i.sp o.a
    let t := (s.wgOf i.g).par.targets.toNat
    let bad (u : State) (code addr : Nat) : Prop :=
      let b : Bad := { cause := .badtarget, aux := BitVec.ofNat 32 code, addr := BitVec.ofNat 64 addr }
      exec (.brx o) s = .next (u.raiseAll i b) ∧ exec (.callx o) s = .next (u.raiseAll i b)
    (t = 0 → bad s 1 a) ∧ (t ≠ 0 → t % 8 ≠ 0 → bad s 5 t) ∧
    (t ≠ 0 → t % 8 = 0 → ∀ s1 l1, s.gx i .read false t = (s1, .ok l1) → s1.badGran l1.place 4 = none →
      Quiet s s1 ∧
      (min (s1.rd l1.place 4) 65536 ≤ a → bad s1 2 a) ∧
      (a < min (s1.rd l1.place 4) 65536 → ∀ s2 l2, s1.gx i .read false (t + 8 + 8 * a) = (s2, .ok l2) → s2.badGran l2.place 8 = none →
        let e := s2.rd l2.place 8
        Quiet s1 s2 ∧
        (e % 4 ≠ 0 ∨ 2 ^ 52 ≤ e → bad s2 3 e) ∧
        (e % 4 = 0 → e < 2 ^ 52 →
          (∃ v y, exec (.brx o) s = .next v ∧ Becomes s2 v i y i.g.lanes ∧ i.sp.At y (BitVec.ofNat 50 (e / 4)) i.sp.s) ∧
          (∀ r, o.d = .s r → ∃ v y, exec (.callx o) s = .next v ∧ Becomes s2 v i y i.g.lanes ∧
            i.sp.At y (BitVec.ofNat 50 (e / 4)) (writeRegs i.sp.s r.toNat (4 * (s2.nextPc i (opUnits o)).toNat) 2)))))

/-- Decoding what encoding gives is the identity on well-formed instructions (R39, R44, R57, R64). -/
def Obligations.DecodeEncodeAgree : Prop :=
  ∀ (cx : DecCx) (i : Instr) (rest : List Word), i.wf cx = true → decodeUnits cx (encode i ++ rest) = .ok i (encode i).length

/-- Words of the spec's encoding examples decode to their instructions (R44, R57, R235, R287, R326). -/
def Obligations.DecodeWords : Prop :=
  let cx : DecCx := { vregs := 64, width := 32 }
  let o : Op := { len := 1, pg := 0, pn := 0, fn := 0, ty := 0, d := .none, a := .none, b := .none, c := .none, ext := .none }
  let m0 : MemWord := ⟨0, 0, 0, 0, 0, 0, 0, 0⟩
  decodeUnits cx [0x08080101, 0x14000008] = .ok (.fadd { o with ty := 0x05, d := .v 2, a := .v 2, b := .v 2 }) 2 ∧
  decodeUnits cx [0x181C0101, 0x14800000] = .ok (.fadd { o with ty := 0x05, d := .v 7, a := .v 6, b := .q 0 }) 2 ∧
  decodeUnits cx [0x042003C3, 0x150C0C08, 0x10240041, 0x04C00004] =
    .ok (.pair .ffma { o with len := 3, ty := 0x05, d := .v 8, a := .v 1, b := .v 2, c := .v 3 } .iadd { o with ty := 0x01, d := .v 9, a := .v 4, b := .imm 1 }) 4 ∧
  decodeUnits cx [0x08080042, 0x00C00000, 200] = .ok (.iadd { o with len := 2, d := .v 2, a := .v 2, b := .l32 200 }) 3 ∧
  decodeUnits cx [0x0C0404C1, 0x08CC0000] = .ok (.icmp { o with fn := 1, ty := 0x02, d := .p 1, a := .v 3, b := .imm 0 }) 2 ∧
  decodeUnits cx [0x0414088D, 0xA8000C08] = .ok (.lop3 { o with fn := 2, ty := 0x2A, d := .v 5, a := .v 1, b := .v 2, c := .v 3 }) 2 ∧
  decodeUnits cx [0x0820218D, 0x28001C0C] = .ok (.pack { o with fn := 8, ty := 0x0A, d := .v 8, a := .v 2, b := .v 3, c := .v 7 }) 2 ∧
  decodeUnits cx [0x102001D1, 0x14040000] = .ok (.reduce { o with ty := 0x05, d := .s 8, a := .v 4 }) 2 ∧
  decodeUnits cx [0x00080202, 0x00100000, 0x000A0000] =
    .ok (.ld { o with len := 2, d := .v 2, a := .s 0, b := .v 0, ext := .mem { m0 with scale := 2, ixp := 1 } }) 3 ∧
  decodeUnits cx [0x1010021E, 0x08100C08, 0x064A0000] =
    .ok (.atom { o with len := 2, ty := 0x02, d := .v 4, a := .s 4, b := .v 2, c := .v 3, ext := .mem { m0 with scope := 3, ord := 1, scale := 2, ixp := 1 } }) 3 ∧
  decodeUnits cx [0x08000235, 0x0CF00004] = .ok (.fence { o with ty := 0x03, a := .imm 2, b := .imm 1 }) 2 ∧
  decodeUnits cx [0x10000281, 0x00300000] = .ok (.sink { o with a := .imm 4 }) 2 ∧
  decodeUnits cx [0x1018028A, 0x00000000, 4] = .ok (.sld { o with len := 2, d := .v 6, a := .v 4, ext := .mem { m0 with ofs := 4 } }) 3 ∧
  decodeUnits cx [0x000402AB, 0x01DC5000, 0x00200020, 0x00800002] =
    .ok (.cpyo { o with len := 3, d := .bar 1, a := .s 0, b := .imm 0, c := .s 20,
                        ext := .copy { hv := 0, hn := 0, rot := 0, dst := 8, zero := 0, dpitch := 2, rows := 32, rowb := 32 } }) 4 ∧
  decodeUnits cx [0x400402C3, 0x000C0000, 0x00000000, 0x08106000] =
    .ok (.mma { o with len := 3, d := .acc 1, a := .v 16, c := .v 0,
                       ext := .mat { asrc := 0, aidx := 0, bidx := 2, arot := 0, bofs := 32, bsofs := 384, atp := 0, arp := 0, acol := 0, hv := 0, hn := 0 } }) 4 ∧
  decodeUnits cx [0x002002D1, 0x00040000] = .ok (.qtest { o with d := .s 8, a := .qn 0 }) 2 ∧
  decodeUnits cx [0x04000301, 0x00000000] = .ok (.fwait { o with a := .h 1 }) 2 ∧
  decodeUnits cx [0x00040331, 0x000C0000] = .ok (.barw { o with d := .bar 1 }) 2 ∧
  decodeUnits cx [0x0050033E, 0x00C40000, 0x2042] = .ok (.cntrd { o with len := 2, d := .s 20, b := .l32 0x2042 }) 3 ∧
  decodeUnits cx [0x00F80016, 0x00040000, 5] = .ok (.call { o with len := 2, d := .s 62, ext := .rel 5 }) 3 ∧
  decodeUnits cx [0x0000038A, 0x34000000, 0x00000000] = .ok (.sysrd { o with len := 2, ty := 0x0D, d := .v 0, ext := .sys 0 0 }) 3 ∧
  decodeUnits cx [0x00000F81, 0x00C00004] = .ok (.fmtset { o with fn := 3, b := .imm 1 }) 2 ∧
  decodeUnits cx [0x2008039D, 0x001C0000] = .ok (.ctxload { o with d := .h 2, a := .s 8 }) 2 ∧
  decodeUnits cx [0x100007B1, 0x00500020] = .ok (.tlbinvRange { o with fn := 1, a := .s 4, b := .s 8 }) 2 ∧
  decodeUnits cx [0x200C0375, 0x001C0000] = .ok (.launch { o with d := .h 3, a := .s 8 }) 2

/-- A step runs the instruction that the units at the program counter decode to (R42, R63, R64), or the machine step of the agenda. An
instruction that turns out to be held up has not issued (R35). The order of the issues of one cycle (`cyc`) is that of R472; the places of the
machine steps that come late or enqueue a task are the model's (log 7, log 20). -/
def Obligations.StepRunsDecoded : Prop :=
  (∀ (s s1 : State) (rest : List Turn) (w : Who) (i : Iss) (us : List Word), s.agenda = .issue 0 w :: rest → s.cyc.traps = [] →
    let s0 : State := { s with agenda := rest, cur := some w }
    s0.iss? = some i → s0.splitReady i.g i.sp = true → s0.fetchHeld i = false → s0.fetch i (i.sp.pc.toNat / 8 * 32) = (s1, .ok us) →
      (∀ ins units, decodeBlock (s1.decCx i.g) i.sp.jumped us (i.sp.pc.toNat % 8) = .ok ins units → (i.sp.rerun ≠ none ∨ i.sp.skip = 0) →
        s1.again i = i → i.sp.arrived = false → s1.served w.key = false → lexLt (issueKey i ins) s1.cyc.last = false → s1.lets i ins = true →
        (setAllows s1 i ins = true ∨ 512 ≤ i.sp.starve.toNat) →
        ∀ t, exec ins (({ s1 with issued := s1.issued ++ [(w, issueCycles i.sp ins)] } : State).modSplit w fun x => { x with starve := 0 }) = .next t →
          (t.heldUp w = false → step s = .next
            (let u := t.countIssue w.key (512 ≤ i.sp.starve.toNat); { u with cyc := { u.cyc with last := issueKey i ins } })) ∧
          (t.heldUp w = true → step s = .next s1)) ∧
      (∀ ins units t, decodeBlock (s1.decCx i.g) i.sp.jumped us (i.sp.pc.toNat % 8) = .ok ins units → (i.sp.rerun ≠ none ∨ i.sp.skip = 0) →
        s1.again i = i → i.sp.arrived = true → lexLt (gatherKey i) s1.cyc.last = false → exec ins s1 = .next t →
        step s = .next { t with cyc := { t.cyc with last := gatherKey i } }) ∧
      (decodeBlock (s1.decCx i.g) i.sp.jumped us (i.sp.pc.toNat % 8) = .pad → step s = exec .pad s1) ∧
      (∀ b, decodeBlock (s1.decCx i.g) i.sp.jumped us (i.sp.pc.toNat % 8) = .bad b →
        let key := [0, i.core, schedOf w.key]
        s1.served w.key = false → lexLt key s1.cyc.last = false → i.sp.pend = none →
        step s = .next (({ s1 with issued := s1.issued ++ [(w, [false])], cyc := { s1.cyc with last := key } } : State).raiseAll (s1.again i)
          (decodeAddr i.sp.pc b)))) ∧
  (∀ (s : State) (rest : List Turn) (ins : Instr), s.agenda = .event 0 ins :: rest → isEvent ins = true → s.cyc.traps = [] → s.cyc.closed = [] →
    let s0 : State := { s with agenda := rest }
    (lateStep ins = false → (∀ t, exec ins s0 = .next t → t.taskNum = s.taskNum) → step s = exec ins s0) ∧
    (∀ t, exec ins s0 = .next t → lateStep ins = true ∨ t.taskNum ≠ s.taskNum →
      (lexLt (eventKey ins) s.cyc.last = false → step s = .next { t with cyc := { t.cyc with last := eventKey ins } }) ∧
      (lexLt (eventKey ins) s.cyc.last = true → ∀ u, exec ins (s0.tick 1) = .next u → step s = .next { u with cyc := { u.cyc with last := eventKey ins } })))

/-- The canonical form of every memory is kept by every step. -/
def Obligations.StepKeepsCanon : Prop := ∀ s t : State, s.Canon → step s = .next t → t.Canon

/-- The machine after reset has its memories in canonical form. -/
def Obligations.ResetCanon : Prop := State.reset.Canon

/-- What reset leaves (R69, R75, R76, R207). That device memory reads zero, with no firmware image loaded yet, is the model's choice (log 2, log 3). -/
def Obligations.ResetValues : Prop :=
  let s := State.reset
  (∀ c, let k := s.core c
    k.carve = 1 ∧ k.carvePend = false ∧ k.mmin = 2 ∧ k.mmax = 16 ∧ k.fix = false ∧ k.lmin = 1 ∧ k.lmax = 8 ∧ k.ctxid = 0 ∧ k.m = [16, 16, 16, 16]) ∧
  (∀ p, (s.part p).accepted = 0 ∧ (s.part p).completed = 0) ∧
  s.clock = 0 ∧ s.groups = [] ∧ s.wgs = [] ∧ s.launches = [] ∧ s.copies = [] ∧ s.tierOps = [] ∧ s.dram = [] ∧ s.ulock = true ∧
  (∀ a, Store.get s.mem a = 0) ∧ s.poison = [] ∧ s.staged = [] ∧ s.bad = [] ∧
  s.xm.length = 9 ∧ (∀ k, k < 9 → s.xm.getD k 0 = BitVec.ofNat 24 (2 ^ k + 2 ^ (9 + k) + if k ≤ 5 then 2 ^ (18 + k) else 0))

/-- Unassigned opcodes (R62) and pad runs (R41). -/
def Obligations.PadsAndUnassignedOpcodes : Prop :=
  let free (c : Nat) : Prop := (0x0D ≤ c ∧ c ≤ 0x0F) ∨ (0x39 ≤ c ∧ c ≤ 0x3F) ∨ (0x51 ≤ c ∧ c ≤ 0x5F) ∨ (0x6D ≤ c ∧ c ≤ 0x6F) ∨ (0x79 ≤ c ∧ c ≤ 0x7F) ∨
    (0x92 ≤ c ∧ c ≤ 0x9F) ∨ (0xA4 ≤ c ∧ c ≤ 0xA7) ∨ (0xAE ≤ c ∧ c ≤ 0xAF) ∨ (0xB6 ≤ c ∧ c ≤ 0xBF) ∨ (0xC5 ≤ c ∧ c ≤ 0xC7) ∨ (0xD3 ≤ c ∧ c ≤ 0xD7) ∨
    (0xDE ≤ c ∧ c ≤ 0xDF) ∨ (0xED ≤ c ∧ c ≤ 0xEF) ∨ (0xF1 ≤ c ∧ c ≤ 0xFF)
  let one : Bad := { cause := .illop, aux := 1 }
  (∀ c, c < 256 → (Opc.ofCode c = none ↔ free c)) ∧
  (∀ (cx : DecCx) (u0 u1 : Word) (rest : List Word), free (u0.extractLsb' 2 8).toNat → u0.extractLsb' 0 2 ≠ 0 →
    lenUnits (u0.extractLsb' 0 2).toNat ≤ rest.length + 2 → decodeUnits cx (u0 :: u1 :: rest) = .bad one) ∧
  (∀ (cx : DecCx) (u0 u1 u2 u3 : Word) (rest : List Word), u0.extractLsb' 0 10 = 0x3C3 → 
    (free (u1.extractLsb' 18 8).toNat → decodeUnits cx (u0 :: u1 :: u2 :: u3 :: rest) = .bad one) ∧
    (¬ free (u1.extractLsb' 18 8).toNat → free (u2.extractLsb' 2 8).toNat →
      decodeUnits cx (u0 :: u1 :: u2 :: u3 :: rest) = .bad { cause := .illop, aux := 1 + 64 })) ∧
  (∀ (s : State) (i : Iss) (c : BitVec 8), s.iss? = some i → exec (.unassignedOpcode c) s = .next (s.raiseAll i one)) ∧
  (∀ (s : State) (i : Iss), s.iss? = some i →
    ∃ t, exec .pad s = .next t ∧ Becomes s t i { i.sp with pc := BitVec.ofNat 50 (i.sp.pc.toNat / 8 * 8 + 8), jumped := false } i.g.lanes)

/-- Memory instructions issue (R54, R240, R241, R242, R259, R275, R398). -/
def Obligations.MemoryIssues : Prop :=
  ∀ (s : State) (i : Iss) (x : Op), s.iss? = some i →
    let ls := activeLanes i.g i.sp x
    let k := s.core i.core
    let past (y : Split) (o : Opc) (lanes : List Nat) (la : Nat) : Prop := i.sp.Past y (opUnits x) i.sp.s i.sp.flags ∧
      ∃ p, y.pend = some p ∧ p.pc = i.sp.pc ∧ p.opc = o ∧ p.op = x ∧ p.lanes = laneMask lanes ∧ p.budget = la ∧ p.sink = [] ∧ p.bad = [] ∧ p.epoch = k.epoch
    let tracked (u : State) (o : Opc) (lanes : List Nat) : Core := { k with misses := ((u.takeMisses i o x lanes).core i.core).misses,
                                                                            xmiss := ((u.takeMisses i o x lanes).core i.core).xmiss }
    let issues (ins : Instr) (o : Opc) (lanes : List Nat) (la : Nat) (k' : Core) : Prop :=
      ∃ t y, exec ins s = .next t ∧ Turns { s with cores := t.cores } t i i.g y ∧ past y o lanes la ∧ CoreBecomes s t i.core k'
    let plain : List (Instr × Opc) := [(.ld x, .ld), (.st x, .st), (.ldl x, .ldl), (.stl x, .stl), (.ldp x, .ldp), (.stp x, .stp), (.atoml x, .atoml)]
    let atomic : List (Instr × Opc) := [(.atom x, .atom), (.atomnr x, .atomnr), (.cas x, .cas), (.fatom x, .fatom), (.fatomnr x, .fatomnr)]
    (∀ e ∈ plain ++ atomic, ls = [] → ∃ t y, exec e.1 s = .next t ∧ Becomes s t i y i.g.lanes ∧ i.sp.Past y (opUnits x) i.sp.s i.sp.flags) ∧
    (∀ e ∈ plain, ls ≠ [] → s.sinkHolds i false (s.sectorsOf i e.2 x ls) = false → s.missHolds i e.2 x ls = false →
      issues e.1 e.2 ls x.fn.toNat (tracked s e.2 ls)) ∧
    (∀ e ∈ atomic, ls ≠ [] → s.sinkHolds i true (s.sectorsOf i e.2 x ls) = false → s.missHolds i e.2 x ls = false →
      issues e.1 e.2 ls x.fn.toNat { tracked (s.takeEntries i (s.sectorsOf i e.2 x ls)) e.2 ls with
        sink := k.sink ++ (s.sectorsOf i e.2 x ls).map fun q =>
          { sector := q.1, slot := i.who.key % 64, lane := q.2, st := if i.sp.rerun.isSome then .resending else .inFlight } }) ∧
    (splitGuard i.g i.sp x = true →
      (s.sinkHolds i false (s.sectorsOf i .ldc x [lowLane i.g i.sp]) = false → s.missHolds i .ldc x [lowLane i.g i.sp] = false →
        issues (.ldc x) .ldc (liveLanes i.g i.sp) x.fn.toNat (tracked s .ldc [lowLane i.g i.sp])) ∧
      ∃ t y, exec (.publish x) s = .next t ∧ Becomes s t i y i.g.lanes ∧ past y .publish (liveLanes i.g i.sp) 0) ∧
    (∀ e ∈ plain ++ atomic, ls ≠ [] → (s.missHolds i e.2 x ls = true ∨ s.sinkHolds i (decide (e ∈ atomic)) (s.sectorsOf i e.2 x ls) = true) →
      ∃ t y, exec e.1 s = .next t ∧ Becomes s t i y i.g.lanes ∧ y = { i.sp with wait := .stall })

/-- Addresses and the faults raised at them (R204, R239, R243). That ALIGN comes before PAGE, PROT and STACKLIM, and that a private or local offset is a
signed number that may lie below 0, is the model's reading (log 74). -/
def Obligations.AddressChecks : Prop :=
  ∀ (s : State) (i : Iss) (o : Opc) (x : Op) (l : Nat) (m : MemWord), x.ext = .mem m →
    let ln := i.g.lane l
    let n := memBytes x.ty.toNat
    let idx : Nat := if m.ixp = 1 then readOpnd i.sp ln (.int 32) x.b * 2 ^ m.scale.toNat else 0
    let ofs : Int := m.ofs.toInt
    let w := s.wgOf i.g
    let code (k : Nat) : Word := BitVec.ofNat 32 (k + 16 * (accOf o).code)
    let at64 (a : Int) : DWord := BitVec.ofInt 64 a
    (o ∈ [Opc.ld, .st, .ldc, .atom, .atomnr, .cas, .fatom, .fatomnr] →
      let ea : Int := (readOpnd i.sp ln (.int 64) x.a + idx : Nat) + ofs
      let e := (at64 ea).toNat
      (e % n ≠ 0 → s.accessOf i o x l = .error { cause := .align, aux := code 1, addr := at64 ea }) ∧
      (e % n = 0 → s.accessOf i o x l = .ok (e, [(e, n)]))) ∧
    (o ∈ [Opc.ldl, .stl, .atoml] →
      let a : Int := (readOpnd i.sp ln (.int 32) x.a + idx : Nat) + ofs
      (a % n ≠ 0 → s.accessOf i o x l = .error { cause := .align, aux := code 1, addr := at64 a }) ∧
      (a % n = 0 → (a < 0 ∨ (w.par.localkb * 1024 : Nat) < a + n) → s.accessOf i o x l = .error { cause := .prot, aux := code 4, addr := at64 a }) ∧
      (a % n = 0 → 0 ≤ a → a + n ≤ (w.par.localkb * 1024 : Nat) → s.accessOf i o x l = .ok ((at64 a).toNat, [(a.toNat, n)]))) ∧
    (o ∈ [Opc.ldp, .stp] →
      let a : Int := (readOpnd i.sp ln (.int 32) x.a + idx : Nat) + ofs
      let region := (w.par.privwords.toNat * 256 + 65535) / 65536 * 65536
      let word (k : Nat) : Nat := ((s.part w.part).poolbase.toNat + (64 * s.coreIndex w.part (i.who.key / 64) + i.who.key % 64) * region +
        (k * i.g.width + l) * 4) % 2 ^ 64
      (a % n ≠ 0 → s.accessOf i o x l = .error { cause := .align, aux := code 1, addr := at64 a }) ∧
      (a % n = 0 → (a < 0 ∨ (w.par.privwords.toNat * 4 : Nat) < a + n) → s.accessOf i o x l = .error { cause := .stacklim, aux := code 1, addr := at64 a }) ∧
      (a % n = 0 → 0 ≤ a → a + n ≤ (w.par.privwords.toNat * 4 : Nat) → s.accessOf i o x l = .ok ((at64 a).toNat,
        if n < 4 then [(word (a.toNat / 4) + a.toNat % 4, n)] else (List.range (n / 4)).map fun k => (word (a.toNat / 4 + k), 4)))) ∧
    (∀ acc claim va, 2 ^ 52 ≤ va → s.gx i acc claim va = (s, .error { cause := .page, aux := BitVec.ofNat 32 (2 + 16 * acc.code), addr := BitVec.ofNat 64 va }))

/-- Loads are performed at MEMORY_ACCESS_COMPLETION (R242, R245, R250), in the lanes that no flush keeps waiting (R393). -/
def Obligations.LoadsPerformed : Prop :=
  ∀ (s : State) (key n : Nat) (g : Group) (sp : Split) (p : Pend), s.groups.get? key = some g → g.split? n = some sp → sp.pend = some p → g.retired = false → p.bad = [] →
    let i : Iss := ⟨⟨key, n⟩, g, sp⟩
    let x := p.op
    let loc := p.opc == .ldl
    let now := s.freeLanes i p
    let ext (v : Nat) : Nat := if x.ty = 0x10 then ((BitVec.ofNat 8 v).signExtend 32).toNat else if x.ty = 0x12 then ((BitVec.ofNat 16 v).signExtend 32).toNat else v
    let reads (l v : Nat) : Prop := ∃ t, s.heldTarget i p.opc x l = some t ∧ s.clean i loc t.pieces ∧ (loc = false → s.unkept t.pieces) ∧
      v = ext (ofBytes (t.pieces.map fun q => if loc then Store.getList (s.wgOf g).ls q.place q.len else Store.getList s.mem q.place q.len).flatten)
    let after (u t : State) (g' : Group) (y : Split) : Prop := exec (.memoryAccessCompletion key n) s = .next t ∧ Quiet s u ∧
      OnlyGroup { u with cores := t.cores } t key ∧ CoreBecomes u t (key / 64) (s.coreLeft i p (u.core (key / 64))) ∧
      SameMemory s t ∧ t.groups.get? key = some g' ∧ g.OnlyLanes g' n ∧ g'.q4 = g.q4 ∧ g'.q4pos = g.q4pos ∧ g'.split? n = some y
    (∀ val : Nat → Nat, p.opc ∈ [Opc.ld, .ldl, .ldp] → now ≠ [] → (∀ l ∈ now, reads l (val l)) → ∀ d, x.d = .v d →
      ∃ u t g', after u t g' { sp with pend := s.left i p } ∧ ∀ l < g.lanes.length, g'.lane l = if l ∈ now then
        { g.lane l with v := writeRegs (g.lane l).v d.toNat (val l) (max 1 (memBytes x.ty.toNat / 4)) } else g.lane l) ∧
    (∀ val, p.opc = .ldc → s.mayPerform i p = true → reads (lowLane g sp) val → ∀ d, x.d = .s d →
      ∃ u t g', after u t g' { sp with pend := none, s := writeRegs sp.s d.toNat val (max 1 (memBytes x.ty.toNat / 4)) } ∧ g'.lanes = g.lanes)

/-- Stores are performed at MEMORY_ACCESS_COMPLETION (R218, R242, R245), in the lanes that no flush keeps waiting (R393). -/
def Obligations.StoresPerformed : Prop :=
  ∀ (s : State) (key n : Nat) (g : Group) (sp : Split) (p : Pend), s.groups.get? key = some g → g.split? n = some sp → sp.pend = some p → g.retired = false →
    p.opc ∈ [Opc.st, .stl, .stp] → p.bad = [] →
    let i : Iss := ⟨⟨key, n⟩, g, sp⟩
    let x := p.op
    let loc := p.opc == .stl
    let ls := s.freeLanes i p
    ls ≠ [] →
    ∀ target : Nat → Target, (∀ l ∈ ls, s.heldTarget i p.opc x l = some (target l) ∧ s.clean i loc (target l).pieces) →
      let writes : List (Nat × List Byte) := (ls.map fun l => (target l).pieces.map fun q =>
        (q.place, ((toBytes (memBytes x.ty.toNat) (storeVal x sp (g.lane l))).drop q.off).take q.len)).flatten
      let stored (before after : Memory) : Prop :=
        (∀ a, (∀ w ∈ writes, a < w.1 ∨ w.1 + w.2.length ≤ a) → Store.get after a = Store.get before a) ∧
        (∀ pre w post, writes = pre ++ w :: post → ∀ k < w.2.length, (∀ v ∈ post, w.1 + k < v.1 ∨ v.1 + v.2.length ≤ w.1 + k) →
          Store.get after (w.1 + k) = w.2.getD k 0)
      ∃ t g', exec (.memoryAccessCompletion key n) s = .next t ∧ t.groups.get? key = some g' ∧ g' = { g with splits := g'.splits } ∧
        (∀ m, m ≠ n → g'.split? m = g.split? m) ∧ g'.split? n = some { sp with pend := s.left i p } ∧ (∀ k, k ≠ key → t.groups.get? k = s.groups.get? k) ∧
        (loc = false → stored s.mem t.mem ∧ t.wgs = s.wgs ∧
          t = { s with groups := t.groups, mem := t.mem, staged := t.staged, cores := t.cores, poison := t.poison,
                       bad := t.bad, l2 := t.l2, dram := t.dram, freeCtr := t.freeCtr, older := t.older, xmHeld := t.xmHeld } ∧
          ∀ c, t.core c = { (if c = key / 64 then s.coreLeft i p (s.core c) else s.core c) with
            l1 := (t.core c).l1, icache := (t.core c).icache, vta := (t.core c).vta, lls := (t.core c).lls }) ∧
        (loc = true → ∀ w, s.wgs.get? g.wg = some w → ∃ w', t.wgs.get? g.wg = some w' ∧ stored w.ls w'.ls ∧
          w' = { w with ls := w'.ls, lsPoison := w'.lsPoison, lsBad := w'.lsBad } ∧ (∀ k, k ≠ g.wg → t.wgs.get? k = s.wgs.get? k) ∧
          t = { s with groups := t.groups, wgs := t.wgs, cores := t.cores } ∧
          CoreBecomes s t (key / 64) (s.coreLeft i p (s.core (key / 64))))

/-- Atomics are performed at MEMORY_ACCESS_COMPLETION (R242, R251, R256), in the lanes that no flush keeps waiting (R393). -/
def Obligations.AtomicsPerformed : Prop :=
  ∀ (s : State) (key n : Nat) (g : Group) (sp : Split) (p : Pend), s.groups.get? key = some g → g.split? n = some sp → sp.pend = some p → g.retired = false →
    p.opc ∈ [Opc.atom, .cas, .fatom, .atomnr, .fatomnr, .atoml] → p.bad = [] →
    let i : Iss := ⟨⟨key, n⟩, g, sp⟩
    let x := p.op
    let loc := p.opc == .atoml
    let bytes := memBytes x.ty.toNat
    let ls := s.freeLanes i p
    let aop := (memW x).aop.toNat
    ls ≠ [] →
    ∀ place : Nat → Nat, (∀ l ∈ ls, l < g.lanes.length ∧ s.partGran i loc (place l) = .ok ∧
        ((loc = false ∧ ∃ t, s.accessOf i p.opc x l = .ok (t, [(t, bytes)]) ∧ s.sharedFault i .atomic t = none ∧
            ∃ xl, s.held i .atomic true t = some xl ∧ xl.place = place l ∧ s.unkept [⟨xl.place, bytes, 0, xl.path⟩]) ∨
         (loc = true ∧ s.accessOf i .atoml x l = .ok (place l, [(place l, 4)]) ∧ bytes = 4))) →
      let one (m : Memory × List (Nat × Nat)) (l : Nat) : Memory × List (Nat × Nat) :=
        let old := ofBytes (Store.getList m.1 (place l) bytes)
        (Store.setList m.1 (place l) (toBytes bytes (atomNew p.opc aop x.ty.toNat sp.fmt old (atomC p.opc x sp (g.lane l))).1), m.2 ++ [(l, old)])
      let run (m : Memory) : Memory × List (Nat × Nat) := ls.foldl one (m, [])
      ∃ t g' y, exec (.memoryAccessCompletion key n) s = .next t ∧ t.groups.get? key = some g' ∧ g' = { g with lanes := g'.lanes, splits := g'.splits } ∧
        (∀ m, m ≠ n → g'.split? m = g.split? m) ∧ g'.split? n = some y ∧ (∀ k, k ≠ key → t.groups.get? k = s.groups.get? k) ∧
        (loc = false → t.mem = (run s.mem).1 ∧
          t = { s with groups := t.groups, mem := t.mem, staged := t.staged, cores := t.cores, poison := t.poison,
                       bad := t.bad, l2 := t.l2, dram := t.dram, freeCtr := t.freeCtr, older := t.older, xmHeld := t.xmHeld } ∧
          ∀ c, t.core c = { (if c = key / 64 then s.coreLeft i p (s.core c) else s.core c) with
            l1 := (t.core c).l1, icache := (t.core c).icache, vta := (t.core c).vta, lls := (t.core c).lls,
            sink := if c = key / 64 then (s.core c).sink.filter fun e => !(e.slot == key % 64 && ls.contains e.lane) else (s.core c).sink }) ∧
        (loc = true → (∀ w, s.wgs.get? g.wg = some w → t.wgs.get? g.wg = some { w with ls := (run w.ls).1 }) ∧
          (∀ k, k ≠ g.wg → t.wgs.get? k = s.wgs.get? k) ∧ t = { s with groups := t.groups, wgs := t.wgs, cores := t.cores } ∧
          CoreBecomes s t (key / 64) (s.coreLeft i p (s.core (key / 64)))) ∧
        (∀ l < g.lanes.length, l ∉ ls → g'.lane l = g.lane l) ∧
        (p.opc ∈ [Opc.atomnr, .fatomnr] → g'.lanes = g.lanes ∧ y = { sp with pend := s.left i p }) ∧
        (p.opc ∈ [Opc.atom, .cas, .fatom, .atoml] → ∀ w, (loc = true → s.wgs.get? g.wg = some w) →
          y = { sp with pend := s.left i p, flags := y.flags } ∧ (∀ f, sp.flags.getLsbD f = true → y.flags.getLsbD f = true) ∧
          ∀ d, x.d = .v d → ∀ e ∈ (run (if loc then w.ls else s.mem)).2, ∃ r, (loc = true → r = (g.lane e.1).rcpt) ∧
            g'.lane e.1 = { g.lane e.1 with v := writeRegs (g.lane e.1).v d.toNat e.2 (if bytes = 8 then 2 else 1), rcpt := r })

/-- FENCE, PREF, FLUSH, TIERPF, and PUBLISH at its completion (R258 to R262). -/
def Obligations.FencesAndRanges : Prop :=
  (∀ (s : State) (i : Iss) (o : Op), s.iss? = some i →
    let quiet (ins : Instr) : Prop := ∃ u t y, exec ins s = .next t ∧ Quiet s u ∧ Becomes u t i y i.g.lanes ∧ i.sp.Past y (opUnits o) i.sp.s i.sp.flags
    quiet (.pref o) ∧
    (splitGuard i.g i.sp o = true →
      quiet (.flush o) ∧
      (∃ t y ids gs, exec (.fence o) s = .next t ∧ Becomes s t i y i.g.lanes ∧ ({ i.sp with fences := y.fences } : Split).Past y (opUnits o) i.sp.s i.sp.flags ∧
        y.fences = i.sp.fences ++ (if ids = [] ∧ gs = [] then [] else [{ q := fenceBits o.b, ids := ids, gathers := gs }]) ∧
        (∀ l ∈ lanesOf i.g i.sp, ∀ n, n = ((i.g.lane l).q2.length + i.g.q2Due l) / 2 - (i.g.lane l).gbuf.length → n ≠ 0 →
          (fenceBits o.a).getLsbD 0 = true → (l, n) ∈ gs) ∧
        (∀ c ∈ s.copies, c.of i.who.key i.sp = true → o.ty ≠ 0 →
          (fenceBits o.a).getLsbD 2 = true ∨ (fenceBits o.a).getLsbD 3 = true → c.id ∈ ids) ∧
        (∀ m ∈ i.g.mops, m.slices &&& i.sp.slices ≠ 0 →
          ((m.kind = .mdrain ∧ m.ls = true ∧ (fenceBits o.a).getLsbD 5 = true) ∨
           (m.kind ≠ .mdrain ∧ (m.kind = .mfill → m.ls = true) ∧ (fenceBits o.a).getLsbD 4 = true)) → m.id ∈ ids) ∧
        ∀ id ∈ ids, (∃ c ∈ s.copies, c.id = id ∧ c.of i.who.key i.sp = true) ∨
          ∃ m ∈ i.g.mops, m.id = id ∧ m.slices &&& i.sp.slices ≠ 0 ∧ (m.kind = .mfill ∨ m.kind = .mdrain → m.ls = true)) ∧
      (∀ h, o.d = .h h →
        ((i.g.handle h.toNat).st ≠ 0 → exec (.tierpf o) s = .next (s.raiseAll i { cause := .handle, aux := BitVec.ofNat 32 (1 + 16 * h.toNat) })) ∧
        ((i.g.handle h.toNat).st = 0 → ∃ t y f, exec (.tierpf o) s = .next t ∧ t.tierOps = s.tierOps ++ [f] ∧ f.id = s.nextId ∧ f.core = i.core ∧
          f.wg = i.g.wg ∧ f.cancelled = false ∧ f.lines = s.tierLines i (rangeOf o i.sp).1 (rangeOf o i.sp).2 ∧ (f.bar = none ↔ ∀ b, o.c ≠ .bar b) ∧
          Turns { s with tierOps := t.tierOps, nextId := s.nextId + 1 } t i
            { i.g with handles := setAt i.g.handles h.toNat { st := 1, kind := 3, op := s.nextId } } y ∧
          i.sp.Past y (opUnits o) i.sp.s i.sp.flags)))) ∧
  (∀ (s : State) (i : Iss) (ins : Instr) (f : Fence) (p : Opc × Op) (k : Nat), f ∈ i.sp.fences → p ∈ Instr.ops ins → k ∈ accessKinds p.1 p.2 →
    f.q.getLsbD k = true → ((∃ id ∈ f.ids, s.underWay i.g id = true) ∨ ∃ e ∈ f.gathers, e.2 ≠ 0) → mayIssue s i ins = false) ∧
  (∀ (s : State) (key n : Nat) (g : Group) (sp : Split) (p : Pend), s.groups.get? key = some g → g.split? n = some sp → sp.pend = some p → g.retired = false →
    p.opc = .publish → p.bad = [] → s.mayPerform ⟨⟨key, n⟩, g, sp⟩ p = true →
    let i : Iss := ⟨⟨key, n⟩, g, sp⟩
    let a := (rangeOf p.op sp).1
    let len := (rangeOf p.op sp).2
    ∀ s1 pages, s.publishPages i a (pagesOf a len) = (s1, .ok pages) →
      ∃ t g', exec (.memoryAccessCompletion key n) s = .next t ∧ Quiet s s1 ∧ t.groups.get? key = some g' ∧ g' = { g with splits := g'.splits } ∧
        (∀ m, m ≠ n → g'.split? m = g.split? m) ∧ g'.split? n = some { sp with pend := none } ∧ (∀ k, k ≠ key → t.groups.get? k = s.groups.get? k) ∧
        t = { s1 with groups := t.groups, cores := t.cores, staged := t.staged, older := t.older } ∧ CoreBecomes s1 t (key / 64) ((s1.core (key / 64)).freed ⟨key, n⟩) ∧
        ∀ gr, let hit := ∃ e ∈ pages, ∃ va, s1.lineVA e.2.1 e.2.2 e.1 (gr / 4) = some va ∧ a < va + gr % 4 * 32 + 32 ∧ va + gr % 4 * 32 < a + len
          (hit → t.staged.get gr = 0 ∧ t.stagedAtHome gr = false) ∧
          (¬ hit → t.staged.get gr = s.staged.get gr ∧ t.stagedAtHome gr = s1.stagedAtHome gr))

/-- Queues and futures (R311, R314, R315). -/
def Obligations.FuturesAndQueues : Prop :=
  ∀ (s : State) (i : Iss) (o : Op), s.iss? = some i → splitGuard i.g i.sp o = true →
    let past (ins : Instr) (g : Group) : Prop := ∃ t y, exec ins s = .next t ∧ Turns s t i g y ∧ i.sp.Past y (opUnits o) i.sp.s i.sp.flags
    let gives (ins : Instr) (v : Nat) : Prop := ∀ d, o.d = .s d → ∃ t y, exec ins s = .next t ∧ Becomes s t i y i.g.lanes ∧
      i.sp.Past y (opUnits o) (writeRegs i.sp.s d.toNat v 1) i.sp.flags
    let bad (ins : Instr) (code h n : Nat) : Prop := exec ins s = .next (s.raiseAll i { cause := .handle, aux := BitVec.ofNat 32 (code + 16 * h + 256 * n) })
    (∀ q, o.a = .qn q → ∀ n,
      let count (l : Nat) : Nat := match q.toNat with
        | 0 => if o.fn = 1 then 64 - (i.g.lane l).q0.length else (i.g.lane l).q0.length
        | 1 => if o.fn = 1 then 32 - (i.g.lane l).q1.length else (i.g.lane l).q1.length
        | 2 => if o.fn = 1 then 16 - (i.g.lane l).q2.length else (i.g.lane l).q2.length
        | 3 => if o.fn = 1 then 8 - (i.g.lane l).q3.length else (i.g.lane l).q3.length
        | _ => if o.fn = 1 then 16 - i.g.q4.length else i.g.q4.length
      (∃ l ∈ liveLanes i.g i.sp, n = count l) → (∀ l ∈ liveLanes i.g i.sp, n ≤ count l) → gives (.qtest o) n) ∧
    (∀ h, o.a = .h h →
      let st := (i.g.handle h.toNat).st
      gives (.ftest o) st.toNat ∧ past (.frel o) { i.g with handles := setAt i.g.handles h.toNat {} } ∧
      (st = 2 ∨ st = 3 → past (.fwait o) i.g ∧ past (.fcancel o) i.g) ∧
      (st = 0 → (∀ n, i.sp.wait ≠ .future n) → bad (.fwait o) 2 h.toNat 0) ∧ (st = 0 → bad (.fcancel o) 2 h.toNat 0) ∧
      (∀ n, st = 0 → i.sp.wait = .future n → past (.fwait o) i.g) ∧
      (st = 1 →
        (∃ t, exec (.fwait o) s = .next t ∧ OnlyGroup s t i.who.key ∧
          t.groups.get? i.who.key = some (i.g.modSplit i.who.split fun y => { y with wait := .future (BitVec.ofNat 4 h.toNat) })) ∧
        ((i.g.handle h.toNat).kind ≠ 3 → past (.fcancel o) i.g) ∧
        ((i.g.handle h.toNat).kind = 3 → ∃ t y, exec (.fcancel o) s = .next t ∧ Turns { s with tierOps := t.tierOps } t i i.g y ∧
          i.sp.Past y (opUnits o) i.sp.s i.sp.flags ∧
          t.tierOps = s.tierOps.map fun f => if f.id = (i.g.handle h.toNat).op then { f with cancelled := true } else f)) ∧
      (∀ hd, o.d = .h hd → ∀ n, n = (if o.fn = 1 then scalar32 i.sp o.b else i.g.gid.toNat) →
        (st = 0 → bad (.fmov o) 2 h.toNat 0) ∧
        (st ≠ 0 → (s.wgOf i.g).par.groups ≤ n → bad (.fmov o) 4 h.toNat (n % 16)) ∧
        (st ≠ 0 → n < (s.wgOf i.g).par.groups →
          (s.groupAt i.g.wg n = none → bad (.fmov o) 4 h.toNat (n % 16)) ∧
          (∀ key g, s.groupAt i.g.wg n = some key → s.groups.get? key = some g → key ≠ i.who.key →
            (g.retired = true → bad (.fmov o) 4 h.toNat n) ∧
            (g.retired = false → (g.handle hd.toNat).st ≠ 0 → bad (.fmov o) 3 hd.toNat n) ∧
            (g.retired = false → (g.handle hd.toNat).st = 0 → ∃ t y, exec (.fmov o) s = .next t ∧
              Turns { s with groups := s.groups.put key { g with handles := setAt g.handles hd.toNat (i.g.handle h.toNat) } } t i
                { i.g with handles := setAt i.g.handles h.toNat {} } y ∧ i.sp.Past y (opUnits o) i.sp.s i.sp.flags)) ∧
          (s.groupAt i.g.wg n = some i.who.key → i.g.retired = true → bad (.fmov o) 4 h.toNat n) ∧
          (s.groupAt i.g.wg n = some i.who.key → i.g.retired = false → hd.toNat = h.toNat → past (.fmov o) i.g) ∧
          (s.groupAt i.g.wg n = some i.who.key → i.g.retired = false → hd.toNat ≠ h.toNat →
            ((i.g.handle hd.toNat).st ≠ 0 → bad (.fmov o) 3 hd.toNat n) ∧
            ((i.g.handle hd.toNat).st = 0 →
              past (.fmov o) { i.g with handles := setAt (setAt i.g.handles hd.toNat (i.g.handle h.toNat)) h.toNat {} })))))

/-- A gather of one lane (R306, R309): the next address of its q2 is read, and what has been read goes to q3 as it has room. -/
def Obligations.GatherReads : Prop :=
  ∀ (s : State) (key l : Nat) (g : Group), s.groups.get? key = some g → l < g.lanes.length →
    let ln := g.lane l
    let va := ln.nextGather
    let moved (read : List GEntry) : Lane :=
      { ln with q2 := ln.q2.drop (2 * min read.length (8 - ln.q3.length)), q3 := ln.q3 ++ read.take (8 - ln.q3.length), gbuf := read.drop (8 - ln.q3.length) }
    let sameSplits (g' : Group) : Prop := g'.splits.map (fun x => { x with fences := [] }) = g.splits.map (fun x => { x with fences := [] })
    let becomes (u v : State) (read : List GEntry) : Prop := OnlyGroup u v key ∧ ∃ g', v.groups.get? key = some g' ∧
      g' = { g with lanes := g'.lanes, splits := g'.splits } ∧ sameSplits g' ∧ g'.lanes.length = g.lanes.length ∧
      (∀ m < g.lanes.length, m ≠ l → g'.lane m = g.lane m) ∧ g'.lane l = moved read
    (s.mayGather key g l = true →
      (va % 4 = 0 → ∀ t, s.held ⟨⟨key, 0⟩, g, { slices := 0, pc := 0 }⟩ .gather true va = some t → s.gran (t.place / 32) = .ok →
        ∃ u v, exec (.gather key l) s = .next v ∧ Quiet s u ∧
          becomes u v (ln.gbuf ++ [{ val := BitVec.ofNat 32 (s.rd t.place 4), addr := BitVec.ofNat 64 va, fault := none }])) ∧
      (va % 4 ≠ 0 → ∃ v e, exec (.gather key l) s = .next v ∧ becomes s v (ln.gbuf ++ [e]) ∧ e.addr = BitVec.ofNat 64 va ∧
        ∃ b, e.fault = some b ∧ b.cause = .align)) ∧
    (s.mayGather key g l = false → ∃ v, exec (.gather key l) s = .next v ∧ becomes s v ln.gbuf)

/-- Copies issue (R285, R290, R292, R294): they complete wherever every source byte is held by the translation cache with the right to read it.
Two points are the model's readings: an ALIGN of A names A as the operand gives it (log 27), and HANDLE has the lanes that R292 gives its table
(log 98, where R315 differs). -/
def Obligations.CopiesIssue : Prop :=
  ∀ (s : State) (i : Iss) (o : Op) (d : CopyDesc) (bar : BitVec 8), s.iss? = some i → o.ext = .copy d → o.d = .bar bar →
    let a := scalar64 i.sp o.a
    let b := scalar32 i.sp o.b
    let c := scalar32 i.sp o.c
    let low := lowLane i.g i.sp
    let live := liveLanes i.g i.sp
    let act := activeLanes i.g i.sp o
    let block : List (Nat × Nat) := (List.range d.rows.toNat).map fun j => ((a + j * c) % 2 ^ 64, low)
    let cases : List (Instr × Opc × CopyShape × List Nat) :=
      [(.cpy o, .cpy, ⟨[(a, low)], c, 0, b, some c⟩, live), (.cpyb o, .cpyb, ⟨block, d.rowb.toNat, d.dpitch.toNat * 16, b, some c⟩, live),
       (.cpyo o, .cpyo, ⟨block, d.rowb.toNat, d.dpitch.toNat * 16, b, some c⟩, live),
       (.cpyg o, .cpyg, ⟨act.map fun l => (readOpnd i.sp (i.g.lane l) (.int 64) o.a, l), d.rowb.toNat, d.dpitch.toNat * 16, b, none⟩, act)]
    let prod := (s.wgOf i.g).par.producer
    let retired : Prop := ∃ e ∈ s.groups, e.2.wg = i.g.wg ∧ e.2.gid.toNat = prod.toNat ∧ e.2.retired = true
    let limit := if d.dst = 0 then (s.wgOf i.g).par.localkb * 1024 else 16384
    let entry (h : CopyShape) (pages : List (Nat × Nat × Nat)) : CopyOp :=
      { id := s.nextId, key := i.who.key, wg := i.g.wg, core := i.core, bar := bar.setWidth 4, lane := low, rot := d.rot.toNat,
        dst := d.dst.toNat, dest := b, dp := h.dp, rowb := h.rowb, rows := h.rows.map fun r => (BitVec.ofNat 64 r.1, r.2), pages := pages,
        lanes := laneMask (h.rows.map (·.2)), epoch := (s.core i.core).epoch }
    (∀ e ∈ cases, (if e.2.1 = .cpyg then act ≠ [] else splitGuard i.g i.sp o = true) →
      let h := e.2.2.1
      let raises (cause : Cause) (aux : Nat) (addr : Nat) : Prop :=
        exec e.1 s = .next (s.raise i { cause := cause, aux := BitVec.ofNat 32 aux, addr := BitVec.ofNat 64 addr } e.2.2.2)
      let gid := 256 * i.g.gid.toNat
      let outside (off : Nat) : Prop := limit ≤ off ∧ ∃ j < h.rows.length, b + j * h.dp ≤ off ∧ off < b + j * h.dp + h.rowb
      let flies (s1 t : State) (y : Split) (pages : List (Nat × Nat × Nat)) : Prop := exec e.1 s = .next t ∧ t.copies = s.copies ++ [entry h pages] ∧
        i.sp.Past y (opUnits o) i.sp.s i.sp.flags ∧ Turns { s1 with copies := t.copies, nextId := s.nextId + 1 } t i
          (if d.hv = 1 then { i.g with handles := setAt i.g.handles d.hn.toNat { st := 1, kind := 1, op := s.nextId } } else i.g) y
      (prod = 0xFF → raises .nocopy (2 + gid) 0) ∧
      (prod ≠ 0xFF → retired → raises .nocopy (3 + gid) 0) ∧
      (prod ≠ 0xFF → ¬ retired → i.g.gid.toNat ≠ prod.toNat → raises .nocopy (1 + gid) 0) ∧
      (prod ≠ 0xFF → ¬ retired → i.g.gid.toNat = prod.toNat →
        (d.hv = 1 → (i.g.handle d.hn.toNat).st ≠ 0 → raises .handle (1 + 16 * d.hn.toNat) 0) ∧
        ((d.hv = 1 → (i.g.handle d.hn.toNat).st = 0) →
          (∀ r, (if e.2.1 = .cpyg then h.rows.find? (fun q => q.1 % 16 != 0) else h.rows[0]?) = some r → r.1 % 16 ≠ 0 → raises .align (2 + 16) r.1) ∧
          ((∀ r ∈ (if e.2.1 = .cpyg then h.rows else h.rows.take 1), r.1 % 16 = 0) →
            (b % 16 ≠ 0 → raises .align (2 + 32) b) ∧
            (b % 16 = 0 → e.2.1 ≠ .cpyg → (c % 16 ≠ 0 ∨ (e.2.1 = .cpy ∧ c = 0)) → raises .align (2 + 48) c) ∧
            (b % 16 = 0 → (e.2.1 ≠ .cpyg → c % 16 = 0) → (e.2.1 = .cpy → c ≠ 0) →
              (limit < b + (h.rows.length - 1) * h.dp + h.rowb →
                ∃ addr, raises .copybounds (if d.dst = 0 then 1 else 2 + 256 * (d.dst.toNat - 8)) addr ∧
                  (h.rows ≠ [] → h.rowb ≠ 0 → outside addr ∧ ∀ off, outside off → addr ≤ off)) ∧
              (b + (h.rows.length - 1) * h.dp + h.rowb ≤ limit →
                let full := 128 ≤ (s.copies.filter fun q => q.core == i.core).length
                ((∀ r ∈ h.rows, ∀ k < h.rowb, (s.held i .copy false (r.1 + k)).isSome = true) →
                  (full → exec e.1 s = .next (s.stall i)) ∧
                  (¬ full → ∃ t y pages, flies s t y pages ∧ ∀ r ∈ h.rows, ∀ k < h.rowb, ∀ xl, s.held i .copy false (r.1 + k) = some xl →
                    s.copyPlace (entry h pages) (r.1 + k) = xl.place)) ∧
                (∀ s1 b, s.sourceCheck i e.2.1 h = (s1, .error b) → Quiet s s1 ∧ exec e.1 s = .next (s1.raise i b e.2.2.2)) ∧
                (∀ s1 pages, s.sourceCheck i e.2.1 h = (s1, .ok pages) → Quiet s s1 ∧ (full → exec e.1 s = .next (s1.stall i)) ∧
                  (¬ full → ∃ t y, flies s1 t y pages)))))))) ∧
    (act = [] → ∃ t y, exec (.cpyg o) s = .next t ∧ Becomes s t i y i.g.lanes ∧ i.sp.Past y (opUnits o) i.sp.s i.sp.flags)

/-- COPY_ARRIVAL (R290, R291, R296, R420). -/
def Obligations.CopyArrives : Prop :=
  ∀ (s : State) (c : CopyOp) (w : Workgroup), (s.copies.find? fun q => q.id == c.id) = some c → s.wgs.get? c.wg = some w →
    (s.mayArrive c = false → exec (.copyArrival c.id) s = .next s) ∧
    (s.mayArrive c = true → c.epoch ≠ (s.core c.core).epoch → exec (.copyArrival c.id) s = .next { s with copies := s.copies.filter fun q => q.id != c.id }) ∧
    (s.mayArrive c = true → c.epoch = (s.core c.core).epoch →
    let chunks : List (Nat × Nat) := ((List.range c.rows.length).map fun j => (List.range (c.rowb / 16)).map fun k =>
      (((c.rows.getD j (0, 0)).1.toNat + 16 * k) % 2 ^ 64, c.dest + j * c.dp + 16 * (k ^^^ (j % 2 ^ c.rot)))).flatten
    let loc := c.dst == 0
    let at' (off : Nat) : Nat := if loc then off else 131072 * w.bufset.getD 0 + 16384 * (c.dst - 8) + off
    (∀ q ∈ chunks, q.1 < 2 ^ 52 ∧ s.gran (s.copyPlace c q.1 / 32) = .ok ∧
      (if loc then w.lsGran (at' q.2 / 32) else (s.core c.core).bufGran (at' q.2 / 32)) = .ok ∧
      ∃ e, s.tlbHit (.core c.core) (s.ctxOf c.core) q.1 = some e ∧ leafCheck .copy q.1 e.leaf e.level = none ∧ claimActs c.core e.leaf = false) →
    let moved (before after : Memory) : Prop :=
      (∀ a, (∀ q ∈ chunks, a < at' q.2 ∨ at' q.2 + 16 ≤ a) → Store.get after a = Store.get before a) ∧
      (∀ pre q post, chunks = pre ++ q :: post → ∀ k < 16, (∀ z ∈ post, at' q.2 + k < at' z.2 ∨ at' z.2 + 16 ≤ at' q.2 + k) →
        Store.get after (at' q.2 + k) = Store.get s.mem (s.copyPlace c q.1 + k))
    ∃ t w', exec (.copyArrival c.id) s = .next t ∧ t.wgs.get? c.wg = some w' ∧ t.mem = s.mem ∧ t.hostMem = s.hostMem ∧
      (if loc then moved w.ls w'.ls ∧ ∀ k, (t.core k).bufs = (s.core k).bufs
       else w'.ls = w.ls ∧ moved (s.core c.core).bufs (t.core c.core).bufs ∧ ∀ k, k ≠ c.core → (t.core k).bufs = (s.core k).bufs) ∧
      (∀ n, n ≠ c.wg → t.wgs.get? n = s.wgs.get? n) ∧
      (∀ q, q ∈ t.copies ↔ q ∈ s.copies ∧ q.id ≠ c.id) ∧
      (∀ key g, s.groups.get? key = some g → ∃ g', t.groups.get? key = some g' ∧ g'.lanes = g.lanes ∧ g'.handles = g.handles.map fun h =>
        if h.st = 1 ∧ h.kind = 1 ∧ h.op = c.id then { h with st := 2 } else h) ∧
      (let b := w.bar c.bar.toNat
       let tb := BitVec.ofNat 32 (b.tb.toNat - c.rows.length * c.rowb)
       w.bars.length = 16 →
         let b' := w'.bar c.bar.toNat
         (c.wg, c.bar.toNat) ∈ t.cyc.due ∧ b'.arrived = b.arrived + 1 ∧ b'.tb = tb ∧ b'.phase = b.phase ∧ b'.expected = b.expected))

/-- SEAL and WAITB (R433). -/
def Obligations.SealedBatches : Prop :=
  ∀ (s : State) (i : Iss) (o : Op), s.iss? = some i → splitGuard i.g i.sp o = true →
    let n := i.g.sealSeq + 1
    (∃ t y, exec (.seal o) s = .next t ∧
      t.copies = (s.copies.map fun c => if c.key = i.who.key ∧ c.batch = none then { c with batch := some n } else c) ∧
      Turns { s with copies := t.copies } t i { i.g with sealSeq := n } y ∧
      (o.d = .none → i.sp.Past y (opUnits o) i.sp.s i.sp.flags) ∧
      (∀ d, o.d = .s d → i.sp.Past y (opUnits o) (writeRegs i.sp.s d.toNat n.toNat 1) i.sp.flags)) ∧
    (let b : Word := BitVec.ofNat 32 (scalar32 i.sp o.b)
     let covers (c : CopyOp) : Prop := c.key = i.who.key ∧ ∃ m, c.batch = some m ∧ (b - m).toNat < 2 ^ 31
     (2 ^ 31 ≤ (i.g.sealSeq - b).toNat → exec (.waitb o) s = .next (s.raiseAll i { cause := .illop, aux := 9 + 256 * 7 })) ∧
     ((i.g.sealSeq - b).toNat < 2 ^ 31 →
       ((∃ c ∈ s.copies, covers c) → exec (.waitb o) s = .next (s.stall i)) ∧
       ((∀ c ∈ s.copies, ¬ covers c) → ∃ t y, exec (.waitb o) s = .next t ∧ Becomes s t i y i.g.lanes ∧ i.sp.Past y (opUnits o) i.sp.s i.sp.flags)))

/-- The instructions of the barrier registers (R423). -/
def Obligations.BarrierRegisters : Prop :=
  ∀ (s : State) (i : Iss) (o : Op) (w : Workgroup) (n : Nat), s.iss? = some i → splitGuard i.g i.sp o = true → s.wgs.get? i.g.wg = some w →
    w.bars.length = 16 → n < 16 → i.sp.rerun = none →
    let b := w.bar n
    let closed : State := { s with cyc := { s.cyc with closed := (i.g.wg, n) :: s.cyc.closed } }
    let bad (u : State) (ins : Instr) (sub : Nat) : Prop := exec ins s = .next (u.raiseAll i { cause := .illop, aux := BitVec.ofNat 32 (9 + 256 * sub) })
    let sets (ins : Instr) (b' : BarReg) : Prop := ∃ t y, exec ins s = .next t ∧ WgBecomes s t i.g.wg { w with bars := setAt w.bars n b' } ∧
      Turns { closed with wgs := t.wgs } t i i.g y ∧ i.sp.Past y (opUnits o) i.sp.s i.sp.flags
    let gives (ins : Instr) (v k : Nat) : Prop := ∀ d, o.d = .s d → ∃ t y, exec ins s = .next t ∧ Becomes closed t i y i.g.lanes ∧
      i.sp.Past y (opUnits o) (writeRegs i.sp.s d.toNat v k) i.sp.flags
    let waits (p : BitVec 16) : Prop := ∃ t, exec (.bwait o) s = .next t ∧
      Becomes s t i { i.sp with wait := .barrier (BitVec.ofNat 4 n) p s.clock, timedOut := i.sp.timedOut.filter fun e => e.1 != i.sp.pc } i.g.lanes
    let bit (m : BitVec 16) (k : Nat) : BitVec 16 := m ||| (1#16 <<< k)
    let gid := i.g.gid.toNat
    let marked : Split := { i.sp with mark := bit i.sp.mark n }
    let alone : Prop := ∀ y ∈ i.g.splits, y.id ≠ i.sp.id → y.mark.getLsbD n = true
    let still : Prop := s.barSettle i.g.wg n = s
    ((∀ k p c, i.sp.wait ≠ .barrier k p c) → (o.d = .bar (BitVec.ofNat 8 n) → ∀ ins ∈ [Instr.binit o, .bexp o], exec ins s = exec ins (s.barSettle i.g.wg n)) ∧
      (o.a = .bar (BitVec.ofNat 8 n) → ∀ ins ∈ [Instr.bread o, .pmread o], exec ins s = exec ins (s.barSettle i.g.wg n))) ∧
    (o.d = .bar (BitVec.ofNat 8 n) →
      (still → (b.arrived ≠ 0 ∨ b.tb ≠ 0 ∨ s.barBusy i.g.wg n = true) → bad closed (.binit o) 1) ∧
      (still → b.arrived = 0 → b.tb = 0 → s.barBusy i.g.wg n = false →
        let m := scalar32 i.sp o.a % 2 ^ w.par.groups
        sets (.binit o) { b with left := BitVec.ofNat 16 (65535 - m), expected := BitVec.ofNat 8 ((List.range 16).filter fun k => m.testBit k).length,
                                 post := List.replicate 68 0xFFFF#16 }) ∧
      (b.left.getLsbD gid = true → bad s (.barv o) 8 ∧ bad s (.barw o) 8) ∧
      (b.left.getLsbD gid = false → i.sp.mark.getLsbD n = true → bad s (.barv o) 2 ∧ bad s (.barw o) 2) ∧
      (b.left.getLsbD gid = false → i.sp.mark.getLsbD n = false →
        (¬ alone → ∃ t y, exec (.barv o) s = .next t ∧ WgBecomes s t i.g.wg { w with bars := setAt w.bars n { b with marked := bit b.marked gid } } ∧
          Turns { s with wgs := t.wgs } t i i.g y ∧ marked.Past y (opUnits o) i.sp.s i.sp.flags) ∧
        (alone → ∃ t y b', exec (.barv o) s = .next t ∧ WgBecomes s t i.g.wg { w with bars := setAt w.bars n b' } ∧
          b' = { b with arrived := b.arrived + 1, who := bit b.who gid, marked := bit b.marked gid, first := b'.first, post := b'.post, seen := true } ∧
          Turns { s with wgs := t.wgs, cyc := { s.cyc with due := (i.g.wg, n) :: s.cyc.due } } t i i.g y ∧ marked.Past y (opUnits o) i.sp.s i.sp.flags) ∧
        (∃ t g' y, exec (.barw o) s = .next t ∧ t.groups.get? i.who.key = some g' ∧ g'.split? i.who.split = some y ∧
          y.mark = marked.mark ∧ y.pc = i.sp.pc ∧ y.wait = .barrier (BitVec.ofNat 4 n) b.phase s.clock)) ∧
      (o.fn = 0 → waits b.phase) ∧
      (o.fn = 1 →
        let p := BitVec.ofNat 16 (scalar32 i.sp o.a)
        (p = b.phase → waits p) ∧
        (p ≠ b.phase → ∃ t y, exec (.bwait o) s = .next t ∧ Becomes s t i y i.g.lanes ∧
          ({ i.sp with timedOut := y.timedOut } : Split).Past y (opUnits o) i.sp.s i.sp.flags)) ∧
      (still →
       let e := b.expected.toNat + scalar32 i.sp o.a % 256
       let c := b.tb.toNat + scalar32 i.sp o.b
       (255 < e ∨ 2 ^ 32 ≤ c → bad closed (.bexp o) 3) ∧
       (e ≤ 255 → c < 2 ^ 32 → sets (.bexp o) { b with expected := BitVec.ofNat 8 e, tb := BitVec.ofNat 32 c }))) ∧
    (o.a = .bar (BitVec.ofNat 8 n) → still →
      gives (.bread o) (b.expected.toNat + 2 ^ 8 * b.arrived.toNat + 2 ^ 16 * b.phase.toNat + 2 ^ 32 * b.tb.toNat) 2 ∧
      (let v := scalar32 i.sp o.b
       (16 < v / 4 % 32 ∨ 128 ≤ v → bad closed (.pmread o) 4) ∧
       (v / 4 % 32 ≤ 16 → v < 128 → gives (.pmread o) (b.post.getD ((b.phase.toNat + 4 - v % 4) % 4 * 17 + v / 4 % 32) 0xFFFF#16).toNat 1)))

/-- A phase of a barrier register completes at the end of the cycle that fills it (R28, R419, R420). That a register whose values are equal still is
tested again in the next cycle, so that a barrier without a member completes a phase in every cycle, is the model's reading (log 104). -/
def Obligations.PhaseCompletes : Prop :=
  (∀ (s : State) (i : Iss) (o : Op) (w : Workgroup) (n : Nat), s.iss? = some i → splitGuard i.g i.sp o = true → s.wgs.get? i.g.wg = some w →
    n < 16 → i.sp.rerun = none → o.d = .bar (BitVec.ofNat 8 n) → (w.bar n).left.getLsbD i.g.gid.toNat = false → i.sp.mark.getLsbD n = false →
    (∀ y ∈ i.g.splits, y.id ≠ i.sp.id → y.mark.getLsbD n = true) →
    ∀ ins ∈ [Instr.barv o, .barw o], ∃ t, exec ins s = .next t ∧ (i.g.wg, n) ∈ t.cyc.due) ∧
  (∀ (s : State) (wg n : Nat) (w : Workgroup) (gone : Option (BitVec 4)) (dt : Nat), s.wgs.get? wg = some w → w.bars.length = 16 → n < 16 → dt ≠ 0 →
    s.barDrops wg = gone.toList →
    let b := w.bar n
    let leaves : Option (BitVec 4) := gone.filter fun m => !b.left.getLsbD m.toNat
    let b0 : BarReg := match leaves with
      | none => b
      | some m => { b with left := b.left ||| (1#16 <<< m.toNat), expected := b.expected - 1,
                           arrived := b.arrived - (if b.who.getLsbD m.toNat = true then 1 else 0) }
    let full : Prop := ((wg, n) ∈ s.cyc.due ∨ leaves ≠ none) ∧ b0.arrived = b0.expected ∧ b0.tb = 0
    let members : BitVec 8 := BitVec.ofNat 8 (w.par.groups - popN 16 (b0.left.toNat % 2 ^ w.par.groups))
    (dt = 1 ∨ ((wg, n) ∉ s.cyc.closed ∧ (full → members ≠ 0))) →
    ∃ t w', runTurn s (.cycle dt) = .next t ∧ t.wgs.get? wg = some w' ∧ w' = { w with bars := w'.bars } ∧ SameMemory s t ∧ t.cyc = { due := t.cyc.due } ∧
      (dt = 1 → ((wg, n) ∈ t.cyc.due ↔ (wg, n) ∈ s.cyc.closed ∨
        (((wg, n) ∈ s.cyc.due ∨ gone ≠ none) ∧ (w'.bar n).arrived = (w'.bar n).expected ∧ (w'.bar n).tb = 0))) ∧
      (¬ full → w'.bar n = b0 ∧ ∀ key g m x, s.groups.get? key = some g → g.wg = wg → g.split? m = some x →
        ∃ g' y, t.groups.get? key = some g' ∧ g'.split? m = some y ∧ y.mark.getLsbD n = x.mark.getLsbD n ∧
          ∀ k p c, x.wait = .barrier k p c → k.toNat = n → y.pc = x.pc ∧ y.wait = x.wait) ∧
      (full → w'.bar n = { b0 with phase := b.phase + 1, arrived := 0, tb := 0, seen := false, who := 0, marked := 0,
                                   expected := members } ∧
        ∀ key g m x, s.groups.get? key = some g → g.wg = wg → g.split? m = some x →
          ∃ g' y, t.groups.get? key = some g' ∧ g'.lanes = g.lanes ∧ g'.split? m = some y ∧ y.mark.getLsbD n = false ∧ y.s = x.s ∧ y.flags = x.flags ∧
            ∀ k p c, x.wait = .barrier k p c → k.toNat = n →
              (p = b.phase → y.pc = x.pc + 2 ∧ y.wait = .ready) ∧ (p ≠ b.phase → y.pc = x.pc ∧ y.wait = x.wait)) ∧
      (∀ key g, s.groups.get? key = some g → ∃ g', t.groups.get? key = some g' ∧ g' = { g with splits := g'.splits }))

/-- CNTRD and CNTCFG (R434 to R437). That the counter of cycles without an issue is the clock less the cycles of issues is the model's reading (log 11). -/
def Obligations.EventCounters : Prop :=
  ∀ (s : State) (i : Iss) (o : Op), s.iss? = some i → splitGuard i.g i.sp o = true →
    let k := s.core i.core
    let sel := scalar32 i.sp o.b
    let idx := sel % 4096
    let gives (v : Nat) : Prop := ∀ d, o.d = .s d → ∃ t y, exec (.cntrd o) s = .next t ∧ Becomes s t i y i.g.lanes ∧
      i.sp.Past y (opUnits o) (writeRegs i.sp.s d.toNat v 2) i.sp.flags
    let bad : Prop := exec (.cntrd o) s = .next (s.raiseAll i { cause := .illop, aux := BitVec.ofNat 32 (9 + 256 * 5) })
    let open' : Prop := s.ulock = true ∨ i.sp.priv ≠ 0
    let locked : Prop := exec (.cntrd o) s = .next (s.raiseAll i { cause := .prot, aux := BitVec.ofNat 32 (2 ^ 31 + 2 ^ 28) })
    (65536 ≤ sel → bad) ∧
    (sel / 4096 = 0 →
      ((32 ≤ idx ∨ 6 ≤ idx % 8) → bad) ∧
      (idx < 32 → idx % 8 < 6 → idx % 8 ≠ 1 → idx % 8 ≠ 4 → gives (k.ev.get idx).toNat) ∧
      (idx < 32 → idx % 8 = 4 → gives (if k.fix then k.mmax.toNat else (k.m.getD (idx / 8) 16#5).toNat)) ∧
      (idx < 32 → idx % 8 = 1 → gives ((s.clock.toNat + 2 ^ 48 - (k.ev.get (idx / 8 * 8 + 1)).toNat) % 2 ^ 48))) ∧
    (sel / 4096 = 1 → (64 ≤ idx → bad) ∧ (idx < 64 → gives (k.lls.get idx).toNat)) ∧
    (sel / 4096 = 2 → (6 ≤ idx % 8 → bad) ∧ (idx % 8 < 6 → (open' → gives (s.chan.get idx).toNat) ∧ (¬ open' → locked))) ∧
    (sel / 4096 = 3 → ((256 ≤ idx ∨ 6 ≤ idx % 8) → bad) ∧
      (idx < 256 → idx % 8 < 6 → (open' → gives (s.chan.get (4096 + idx)).toNat) ∧ (¬ open' → locked))) ∧
    (4 ≤ sel / 4096 → sel / 4096 < 15 → bad) ∧
    (sel / 4096 = 15 → (idx ≠ 0 → bad) ∧ (idx = 0 → gives ((if s.freeze then 1 else 0) + if s.ulock then 4 else 0))) ∧
    ∀ ins ∈ [Instr.cntcfg o, .cntcfgClear o],
      (i.sp.priv = 0 → exec ins s = .next (s.raiseAll i { cause := .prot, aux := BitVec.ofNat 32 (2 ^ 31 + 2 ^ 30 + 2 ^ 28) })) ∧
      (i.sp.priv ≠ 0 → ∃ t y, exec ins s = .next t ∧ t.ulock = sel.testBit 2 ∧ t.freeze = sel.testBit 0 ∧
        (∀ a, t.chan.get a = if sel.testBit 1 then 0 else s.chan.get a) ∧
        Turns { s with ulock := t.ulock, freeze := t.freeze, chan := t.chan } t i i.g y ∧ i.sp.Past y (opUnits o) i.sp.s i.sp.flags)

/-- EXMSET, EXMGET, TLBINV and an instruction fetch complete (R91, R92, R231, R400, R401). -/
def Obligations.MasksAndTranslations : Prop :=
  ∀ (s : State) (i : Iss) (o : Op), s.iss? = some i → splitGuard i.g i.sp o = true →
    (∃ t y lanes, exec (.exmset o) s = .next t ∧ Becomes s t i y lanes ∧ i.sp.Past y (opUnits o) i.sp.s i.sp.flags ∧
      lanes.length = i.g.lanes.length ∧ ∀ l < i.g.lanes.length, lanes.getD l {} =
        if l ∈ liveLanes i.g i.sp then { i.g.lane l with exm := (scalar64 i.sp o.b).testBit l && onPath i.g l } else i.g.lane l) ∧
    (∀ d, o.d = .s d → ∃ t y v, exec (.exmget o) s = .next t ∧ Becomes s t i y i.g.lanes ∧
      i.sp.Past y (opUnits o) (writeRegs i.sp.s d.toNat v 2) i.sp.flags ∧ v < 2 ^ 64 ∧
      ∀ l < 64, v.testBit l = (decide (l ∈ liveLanes i.g i.sp) && (i.g.lane l).exm)) ∧
    (let ctx := s.ctxOf i.core
     let va := scalar64 i.sp o.a
     let n := scalar32 i.sp o.b
     let held (named : BitVec 16 → Prop) : Prop := (∃ c ∈ s.copies, named (s.ctxOf (c : CopyOp).core) ∧ s.inEpoch c.core c.epoch = true) ∨
       ∃ e ∈ s.cores, named e.2.ctxid ∧ s.sinksPending e.1 = true
     let drops (ins : Instr) (hit : BitVec 16 → Nat → Nat → Bool) (named : BitVec 16 → Prop) : Prop := ¬ held named → ∃ t y, exec ins s = .next t ∧
         (∀ c, t.core c = { s.core c with tlb := (s.core c).tlb.filter fun e => !hit e.ctx e.page e.level,
                                          walk := (s.core c).walk.filter fun w => !hit w.ctx w.page w.level }) ∧
         t.sliceTlb = (s.sliceTlb.map fun e => (e.1, e.2.filter fun e => !hit e.ctx e.page e.level)) ∧
         t.execTlb = (s.execTlb.map fun e => (e.1, e.2.filter fun e => !hit e.ctx e.page e.level)) ∧
         Turns { s with cores := t.cores, sliceTlb := t.sliceTlb, execTlb := t.execTlb } t i i.g y ∧
         i.sp.Past y (opUnits o) i.sp.s i.sp.flags
     let waits (ins : Instr) (named : BitVec 16 → Prop) : Prop := held named → exec ins s = .next (s.stall i)
     let pageOf (lv : Nat) := match lv with | 3 => 2 ^ 16 | 2 => 2 ^ 21 | 1 => 2 ^ 30 | _ => 2 ^ 35
     let prot (ins : Instr) (lv : Nat) := exec ins s = .next (s.raiseAll i { cause := .prot, aux := BitVec.ofNat 32 (2 ^ 31 + 2 ^ 30 + 2 ^ 28 * lv) })
     let ill (ins : Instr) := exec ins s = .next (s.raiseAll i illop9)
     (i.sp.priv = 0 → prot (.tlbinvVa o) 1 ∧ prot (.tlbinvRange o) 1 ∧ prot (.tlbinvCtx o) 1) ∧
     (i.sp.priv.toNat < 2 → prot (.tlbinvId o) 2) ∧
     (i.sp.priv ≠ 0 → 2 ^ 52 ≤ va → ill (.tlbinvVa o) ∧ ill (.tlbinvRange o)) ∧
     (2 ≤ i.sp.priv.toNat → 4096 ≤ n → ill (.tlbinvId o)) ∧
     (i.sp.priv ≠ 0 → va < 2 ^ 52 →
       drops (.tlbinvVa o) (fun c p lv => decide (c = ctx ∧ va / pageOf lv = p)) (· = ctx) ∧ waits (.tlbinvVa o) (· = ctx) ∧
       drops (.tlbinvRange o) (fun c p lv => decide (c = ctx ∧ p * pageOf lv < va + n ∧ va < (p + 1) * pageOf lv ∧ 0 < n)) (fun c => c = ctx ∧ n ≠ 0) ∧
       waits (.tlbinvRange o) (fun c => c = ctx ∧ n ≠ 0)) ∧
     (i.sp.priv ≠ 0 → drops (.tlbinvCtx o) (fun c _ _ => decide (c = ctx)) (· = ctx) ∧ waits (.tlbinvCtx o) (· = ctx)) ∧
     (2 ≤ i.sp.priv.toNat → n < 4096 →
       drops (.tlbinvId o) (fun c _ _ => decide (c.toNat % 4096 = n)) (fun c => c.toNat % 4096 = n) ∧
       waits (.tlbinvId o) (fun c => c.toNat % 4096 = n))) ∧
    (∀ us, (s.fetch i (i.sp.pc.toNat / 8 * 32)).2 = .ok us → ∃ t, exec .instructionFetch s = .next t ∧ Quiet s t) ∧
    (∀ t b, s.fetch i (i.sp.pc.toNat / 8 * 32) = (t, .error b) → Quiet s t ∧
      exec .instructionFetch s = .next (if i.sp.pend.isSome then s.stall i else t.raiseAll i b))

/-- The cross-lane instructions complete (R174 to R190). -/
def Obligations.CrossLaneResults : Prop :=
  ∀ (s : State) (i : Iss) (o : Op), s.iss? = some i → 0 < i.g.width → i.g.lanes.length = i.g.width → i.sp.owedAt i.sp.pc = none →
    let e := activeLanes i.g i.sp o
    let n := if ty64 o.ty.toNat then 2 else 1
    let w := i.g.width
    let a (l : Nat) : Nat := readOpnd i.sp (i.g.lane l) (.int (32 * n)) o.a
    let b (l : Nat) : Nat := readOpnd i.sp (i.g.lane l) (.int 32) o.b
    let low := e.headD 0
    let gives (ins : Instr) (k : Nat) (ls : List Nat) (val : Nat → Nat) (pred : Nat → Bool) : Prop :=
      ∃ t g' y flags, exec ins s = .next t ∧ OnlyGroup s t i.who.key ∧ SameMemory s t ∧ t.groups.get? i.who.key = some g' ∧
        i.g.OnlySplit g' i.who.split ∧ g'.split? i.who.split = some y ∧ g'.lanes.length = i.g.lanes.length ∧
        i.sp.Past y (opUnits o) (match o.d with | .s d => writeRegs i.sp.s d.toNat (val low) k | _ => i.sp.s) flags ∧
        (crossFloat o.ty.toNat = false → flags = i.sp.flags) ∧ (∀ f, i.sp.flags.getLsbD f = true → flags.getLsbD f = true) ∧
        ∀ l < i.g.lanes.length, g'.lane l = if l ∈ ls then (i.g.lane l).write o.d k (val l) (pred l) else i.g.lane l
    let ok (ins : Instr) : Prop := ins.wf (s.decCx i.g) = true
    let exact (ins : Instr) (k : Nat) (val : Nat → Nat) : Prop := gives ins k e val fun _ => false
    let preds (ins : Instr) (p : Nat → Bool) : Prop := ok ins → gives ins 1 e (fun _ => 0) p
    (e = [] → ∀ ins ∈ [Instr.shfl o, .bcast o, .vote o, .ballot o, .compact o, .reduce o, .scan o, .matchKeys o, .agemask o],
      ∃ t y, exec ins s = .next t ∧ Becomes s t i y i.g.lanes ∧ i.sp.Past y (opUnits o) i.sp.s i.sp.flags) ∧
    (e ≠ [] →
      (ok (.shfl o) →
        let sg := match o.fn.toNat / 4 with | 0 => w | 1 => 4 | 2 => 8 | _ => 16
        ∃ src : Nat → Nat, exact (.shfl o) n (fun l => a (src l)) ∧ ∀ l ∈ e,
          let base := l - l % sg
          let dest (k : Nat) : Prop := src l = if k ∈ e then k else l
          (o.fn.toNat % 4 = 0 → dest (base + b l % sg)) ∧ (o.fn.toNat % 4 = 1 → dest (base + (l % sg + b l) % sg)) ∧
          (o.fn.toNat % 4 = 2 → ∃ k < sg, (k + b l) % sg = l % sg ∧ dest (base + k)) ∧
          (o.fn.toNat % 4 = 3 → dest (base + ((l % sg) ^^^ (b l % sg))))) ∧
      (let k := scalar32 i.sp o.b % 64 % w
       ok (.bcast o) → exact (.bcast o) n fun _ => a (if o.fn = 0 ∧ k ∈ e then k else low)) ∧
      (o.fn = 0 → preds (.vote o) fun _ => decide (∀ l ∈ e, readPred (i.g.lane l) o.a = true)) ∧
      (o.fn = 1 → preds (.vote o) fun _ => decide (∃ l ∈ e, readPred (i.g.lane l) o.a = true)) ∧
      (o.fn = 2 → preds (.vote o) fun _ => decide (∀ l ∈ e, readPred (i.g.lane l) o.a = readPred (i.g.lane low) o.a)) ∧
      (ok (.ballot o) → ∃ m : BitVec 64, exact (.ballot o) 2 (fun _ => m.toNat) ∧ ∀ l < 64, m.getLsbD l = (decide (l ∈ e) && readPred (i.g.lane l) o.a)) ∧
      (let sel := e.filter fun l => readPred (i.g.lane l) o.b
       ok (.compact o) → ∃ v, exact (.compact o) n v ∧ ∀ j < e.length, v (e.getD j 0) = if j < sel.length then a (sel.getD j 0) else 0) ∧
      (crossFloat o.ty.toNat = false →
        let m := 2 ^ (32 * n)
        let sgn (x : Nat) : Int := if o.ty = 1 ∨ o.ty = 3 then (if x < m / 2 then (x : Int) else (x : Int) - m) else x
        let spent (ls : List Nat) (r : Nat) : Prop := r < m ∧
          (o.fn.toNat % 8 = 0 → r = (ls.map a).sum % m) ∧
          (o.fn.toNat % 8 = 1 → (∃ l ∈ ls, r = a l) ∧ ∀ l ∈ ls, sgn r ≤ sgn (a l)) ∧
          (o.fn.toNat % 8 = 2 → (∃ l ∈ ls, r = a l) ∧ ∀ l ∈ ls, sgn (a l) ≤ sgn r) ∧
          (o.fn.toNat % 8 = 3 → ∀ k < 32 * n, r.testBit k = decide (∀ l ∈ ls, (a l).testBit k = true)) ∧
          (o.fn.toNat % 8 = 4 → ∀ k < 32 * n, r.testBit k = decide (∃ l ∈ ls, (a l).testBit k = true)) ∧
          (o.fn.toNat % 8 = 5 → ∀ k < 32 * n, r.testBit k = decide ((ls.filter fun l => (a l).testBit k).length % 2 = 1))
        let ident (r : Nat) : Prop := r < m ∧ (o.fn.toNat % 8 = 1 → ∀ x < m, sgn x ≤ sgn r) ∧ (o.fn.toNat % 8 = 2 → ∀ x < m, sgn r ≤ sgn x) ∧
          (o.fn.toNat % 8 = 3 → r = m - 1) ∧ (o.fn.toNat % 8 = 0 ∨ o.fn.toNat % 8 = 4 ∨ o.fn.toNat % 8 = 5 → r = 0)
        (ok (.reduce o) → w = 16 ∨ w = 32 ∨ w = 64 → ∃ r, exact (.reduce o) n (fun _ => r) ∧ spent e r) ∧
        (ok (.scan o) → o.fn.toNat < 8 → ∃ v, exact (.scan o) n v ∧ ∀ l ∈ e, spent (e.filter (· ≤ l)) (v l)) ∧
        (ok (.scan o) → 8 ≤ o.fn.toNat → ∃ v, exact (.scan o) n v ∧ ident (v low) ∧ ∀ l ∈ e, l ≠ low → spent (e.filter (· < l)) (v l))) ∧
      (crossFloat o.ty.toNat = true → fmtTE i.sp.fmt = 0 → ∀ ins ∈ [Instr.reduce o, .scan o], ok ins → ∃ v, exact ins n v) ∧
      (let eq (l m : Nat) : Bool := if crossFloat o.ty.toNat
         then ((tyFmt o.ty.toNat).1.read false (a l)).1.eq ((tyFmt o.ty.toNat).1.read false (a m)).1 else decide (a l = a m)
       (o.fn = 1 → preds (.matchKeys o) fun l => decide (∀ m ∈ e, m < l → eq l m = false)) ∧
       (o.fn = 0 → ok (.matchKeys o) → ∃ v : Nat → BitVec 64,
         gives (.matchKeys o) 2 (liveLanes i.g i.sp) (fun l => (v l).toNat) (fun _ => false) ∧
         ∀ l m, m < 64 → (v l).getLsbD m = (decide (l ∈ e) && decide (m ∈ e) && eq l m))) ∧
      (let id (l : Nat) := (i.g.lane l).workid
       let lev := scalar32 i.sp o.b
       let bits := ((s.wgOf i.g).par.widths.take lev).sum
       (o.fn = 0 → preds (.agemask o) fun l => decide ((i.g.lane l).age.toNat = lev % 2 ^ 16)) ∧
       (o.fn = 1 → preds (.agemask o) fun l => decide ((i.g.lane l).age = (i.g.lane low).age)) ∧
       (o.fn = 2 → lev ≤ 6 → preds (.agemask o) fun l => decide ((id l).toNat / 2 ^ bits = (id low).toNat / 2 ^ bits)) ∧
       (o.fn = 2 → 6 < lev → ok (.agemask o) → exec (.agemask o) s = .next (s.raise i illop9 e))))

/-- Sink groups (R265 to R274). That a fetch fault of a later block of the body is raised at the SINK is the model's choice (log 96). -/
def Obligations.SinkGroups : Prop :=
  (∀ (s : State) (i : Iss) (o : Op), s.iss? = some i →
    let ill (ins : Instr) (code : Nat) : Prop :=
      exec ins s = .next (s.raiseAll i { cause := .illsink, aux := BitVec.ofNat 32 code, addr := BitVec.ofNat 64 (4 * i.sp.pc.toNat) })
    let ls := activeLanes i.g i.sp o
    ill (.sret o) 8 ∧ ill (.sld o) 8 ∧ ill (.sst o) 8 ∧
    (∀ n, o.a = .imm n → (n.toNat < 2 ∨ 8 < n.toNat) → ill (.sink o) 1) ∧
    (∀ n u r, o.a = .imm n → 2 ≤ n.toNat → n.toNat ≤ 8 →
      s.readBody i n.toNat (8 * allBlocks) { pc := i.sp.pc + BitVec.ofNat 50 (opUnits o) } = (u, r) → Quiet s u ∧
      (r = .error none → exec (.sink o) s = .next (u.stall i)) ∧
      (∀ e, r = .error (some e) → exec (.sink o) s = .next (u.raiseAll i e)) ∧
      ∀ b, r = .ok b →
      let stands (y : Split) : Prop := i.sp.Kept y ∧ y.pc = b.pc ∧ y.s = i.sp.s ∧ y.flags = i.sp.flags ∧ y.wait = .ready
      (ls = [] → ∃ t y, exec (.sink o) s = .next t ∧ Becomes u t i y i.g.lanes ∧ stands y) ∧
      (ls ≠ [] → ∀ a rest, b.ops = (.ld, a) :: rest → u.sinkWaits i o a ls = false → bodyWaits i.g i.sp b = false → o.ty.toNat < 32 →
        ∀ xl : Nat → Xl, (∀ l ∈ ls, globAddr a i.sp (i.g.lane l) % memBytes a.ty.toNat = 0 ∧
            u.held i (if rest.any (fun e => e.1 == .sst) then .atomic else .read) true (globAddr a i.sp (i.g.lane l)) = some (xl l)) →
          ∃ t y p, exec (.sink o) s = .next t ∧ Turns { u with cores := t.cores } t i i.g y ∧ stands y ∧
            y.pend = some p ∧ p.opc = .sink ∧ p.op = o ∧ p.pc = i.sp.pc ∧ p.body = b.ops ∧ p.lanes = laneMask ls ∧
            p.sink = ls.map (fun l => (l, SinkSt.sent)) ∧ p.epoch = (s.core i.core).epoch ∧
            p.aims = ls.map (fun l => { lane := l, ea := globAddr a i.sp (i.g.lane l), place := (xl l).place, leaf := (xl l).leaf }) ∧
            CoreBecomes u t i.core { u.core i.core with sink := (u.core i.core).sink ++ ls.map fun l =>
              { sector := u.sectorPA (xl l).leaf (xl l).place, slot := i.who.key % 64, lane := l, st := if i.sp.rerun.isSome then .resending else .inFlight } }))) ∧
  (∀ (s : State) (key n l : Nat) (g : Group) (sp : Split) (p : Pend), s.groups.get? key = some g → g.split? n = some sp → sp.pend = some p →
    g.retired = false → p.opc = .sink →
    let i : Iss := ⟨⟨key, n⟩, g, sp⟩
    let one (t : State) (g' : Group) (y : Split) : Prop := t.groups.get? key = some g' ∧ (∀ k, k ≠ key → t.groups.get? k = s.groups.get? k) ∧
      (∀ m, m ≠ n → g'.split? m = g.split? m) ∧ g'.split? n = some y
    (∀ hd tl a rest, sinkRequest i p l = hd :: tl → (p.aims.map (·.lane)).Nodup → s.sinkBehind i p l = false → s.inEpoch i.core p.epoch = true →
      p.body = (.ld, a) :: rest → (∀ e ∈ rest, e.1 ≠ .sld ∧ e.1 ≠ .sst) → s.gran (hd.place / 32) = .ok →
      let sector := hd.place / 32
      let ctx := s.ctxOf i.core
      let l1 : Bool := (s.l1Hit i.core (sector / 4) ctx).any fun e => e.valid.getLsbD (sector % 4)
      let l2 : Bool := s.liveCtx ctx && (s.l2At (sector / 4) ctx).isSome
      let level : Nat := if l1 = true then 0 else if l2 = true then 1 else if pteSink hd.leaf = true then (if pteTier hd.leaf = true then 3 else 2) else 1
      let start (m : Aim) : Lane × Flags := ((g.lane m.lane).write a.d (memN a.ty.toNat)
        (loadVal a.ty.toNat (ofBytes (Store.getList s.mem m.place (memBytes a.ty.toNat)))) false, 0)
      let run (b : Lane × Flags) (e : Opc × Op) : Lane × Flags := if e.1 = .sret then b else
        let out := aluVal e.1 e.2.fn.toNat e.2.ty.toNat (sinkFmt sp.fmt) 1 (laneIn e.1 e.2 sp b.1 [])
        (b.1.write e.2.d (dstN e.1 e.2) out.val out.pred, b.2 ||| out.flags)
      let fin (m : Aim) : Lane × Flags := rest.foldl run (start m)
      let word (m : Aim) (r : Op → Opnd) : Word := (rest.getLast?.map fun e => BitVec.ofNat 32 (readOpnd sp (fin m).1 (.int 32) (r e.2))).getD 0
      ∃ t g' y, exec (.sinkGroupExecution key n l) s = .next t ∧ SameMemory s t ∧ t.wgs = s.wgs ∧ one t g' y ∧
        g' = { g with splits := g'.splits } ∧
        y = { sp with pend := some { p with sink := p.sink.map fun e => match (hd :: tl).find? fun m => m.lane == e.1 with
          | some m => (e.1, .done (word m (·.a)) (word m (·.b)) (fin m).2 (BitVec.ofNat 2 level) (levelUnit level i.core (sector / 4)))
          | none => e } }) ∧
    (∀ r0 r1 fl level unit, p.sinkAt l = some (.done r0 r1 fl level unit) → l < g.lanes.length → (∀ e ∈ p.sink, ∀ b, e.2 ≠ .failed b) →
      let k := match p.body.getLast? with
        | some e => e.2
        | none => { len := 1 }
      let done (t : State) : Prop := ∃ g' y, one t g' y ∧ g' = { g with lanes := g'.lanes, splits := g'.splits } ∧
        (∀ m, m ≠ l → g'.lane m = g.lane m) ∧
        g'.lane l = { ((g.lane l).write k.a 1 r0.toNat false).write k.b 1 r1.toNat false with rcpt := level } ∧
        y = { sp with
          flags := sp.flags ||| fl
          pend := if ∀ e ∈ p.sink, e.1 ≠ l → e.2 = .returned then none
            else some { p with sink := p.sink.map fun e => if e.1 = l then (l, .returned) else e } } ∧
        (∀ e ∈ (s.core i.core).sink, e ∈ (t.core i.core).sink ∨ (e.slot = key % 64 ∧ ∃ q ∈ p.sink, e.lane = q.1)) ∧
        ∀ e ∈ (t.core i.core).sink, e ∈ (s.core i.core).sink ∧ (e.slot = key % 64 → e.lane ≠ l)
      (p.op.ty.toNat < 32 → ∃ t, exec (.sinkGroupReturn key n l) s = .next t ∧ done t ∧ SameMemory s t ∧ t.wgs = s.wgs) ∧
      (∀ xl, 32 ≤ p.op.ty.toNat → s.held i .write true ((scalar64 sp p.op.b + 4 * l) % 2 ^ 64) = some xl → xl.place % 4 = 0 → s.gran (xl.place / 32) = .ok →
        s.sinkBusyAt key g .write ((scalar64 sp p.op.b + 4 * l) % 2 ^ 64) = false →
        ∃ t, exec (.sinkGroupReturn key n l) s = .next t ∧ done t ∧ t.wgs = s.wgs ∧
          t.mem = Store.setList s.mem xl.place (toBytes 4 (2 ^ 16 * (g.lane l).age.toNat + 4 * (unit % 256) + level.toNat)))))

/-- The matrix instructions issue (R327, R328, R333, R334, R337, R339). That the HANDLE of MMA and MMAZ names the active lanes, as R328 says of its whole
table where R315 differs, is the model's reading (log 98). -/
def Obligations.MatrixIssues : Prop :=
  ∀ (s : State) (i : Iss) (o : Op), s.iss? = some i → i.g.octets.length = i.g.width / 8 →
    let w := s.wgOf i.g
    let fmt := i.sp.fmt.toNat
    let accf := fmt / 256 % 4
    let a := scalar32 i.sp o.a
    let b := scalar32 i.sp o.b
    let loc := w.par.localkb * 1024
    let took (t : State) (g' : Group) (y : Split) : Prop := Turns { s with nextId := s.nextId + 1 } t i g' y
    let tagged (g' : Group) (n : Nat) (k : Nat → Bool) : Prop := g'.octets.length = i.g.octets.length ∧
      ∀ q < i.g.octets.length, g'.octet q = { i.g.octet q with tag := (g'.octet q).tag } ∧
        ∀ r < 4, (g'.octet q).tag.getLsbD r = if r = n ∧ k q = true then decide (accf = 1) else (i.g.octet q).tag.getLsbD r
    (∀ (d : MatDesc) (n : Nat), o.ext = .mat d → n < 4 → o.d = .acc (BitVec.ofNat 8 n) → accf < 2 →
      let ls := activeLanes i.g i.sp o
      let touched (q : Nat) : Bool := ls.any fun l => l / 8 == q
      let combo : Prop := (fmt % 256 = 0 ∧ accf = 1) ∨ (accf = 0 ∧ (fmt % 256 = 0x11 ∨ fmt % 256 = 0x22 ∨ fmt % 256 = 0x33 ∨ fmt % 256 = 0x66 ∨
        fmt % 256 = 0x44 ∨ fmt % 256 = 0x45 ∨ fmt % 256 = 0x54 ∨ fmt % 256 = 0x55))
      let plane : Nat := if fmt % 16 = 6 then 128 else if (fmt % 16 = 4 ∨ fmt % 16 = 5) ∧ fmtF8S i.sp.fmt = true then 32 else 0
      let chunk (l c : Nat) : Nat := a + l / 8 * d.atp.toNat * 16 + l % 8 * d.arp.toNat * 16 + 16 * ((2 * d.acol.toNat + c) ^^^ (l % 8 % 2 ^ d.arot.toNat))
      let reads (v : Nat) : Prop := ∃ l ∈ ls, ∃ c < 2, chunk l c ≤ v ∧ v < chunk l c + 16
      let checks (z : Bool) : List (Prop × Bad) :=
        [(w.bufset = none, illop9 1), (d.hv = 1 ∧ (i.g.handle d.hn.toNat).st ≠ 0, { cause := .handle, aux := BitVec.ofNat 32 (1 + 16 * d.hn.toNat) }),
         (¬ combo, illop9 2), (z = false ∧ ∃ l ∈ ls, (i.g.octet (l / 8)).tag.getLsbD n ≠ decide (accf = 1), illop9 3),
         (plane ≠ 0 ∧ 16384 < d.bsofs.toNat * 32 + plane, illop9 4),
         (d.asrc ≠ 0 ∧ a % 16 ≠ 0, { cause := .align, aux := 1, addr := BitVec.ofNat 64 a }), (d.asrc = 2 ∧ ∃ v, reads v ∧ 16384 ≤ v, illop9 5)]
      ∀ z : Bool, ∀ ins, ins = (if z then Instr.mmaz o else .mma o) →
        (ls = [] → ∃ t y, exec ins s = .next t ∧ Becomes s t i y i.g.lanes ∧ i.sp.Past y (opUnits o) i.sp.s i.sp.flags) ∧
        (ls ≠ [] →
          (∀ pre c bad post, checks z = pre ++ (c, bad) :: post → (∀ e ∈ pre, ¬ e.1) → c → exec ins s = .next (s.raise i bad ls)) ∧
          ((∀ e ∈ checks z, ¬ e.1) →
            (∀ v, d.asrc = 1 → reads v → loc ≤ v → (∀ v', reads v' → loc ≤ v' → v ≤ v') →
              exec ins s = .next (s.raise i { cause := .prot, aux := 4, addr := BitVec.ofNat 64 v } ls)) ∧
            ((d.asrc = 1 → ∀ v, reads v → v < loc) → ∃ t y g' m, exec ins s = .next t ∧ took t g' y ∧ i.sp.Past y (opUnits o) i.sp.s i.sp.flags ∧
              g' = { i.g with mops := i.g.mops ++ [m], octets := g'.octets, handles := g'.handles } ∧ tagged g' n (fun q => z && touched q) ∧
              g'.handles = (if d.hv = 1 then setAt i.g.handles d.hn.toNat { st := 1, kind := 2, op := s.nextId } else i.g.handles) ∧
              m.id = s.nextId ∧ m.kind = (if z then .mmaz else .mma) ∧ m.acc = n ∧ m.fmt = i.sp.fmt ∧ m.lanes = laneMask ls ∧ m.slice = i.sp.id ∧
              m.desc = d ∧ m.base = a ∧ (∀ r, o.a = .v r → ∀ l ∈ ls, (m.arows.get l).toNat = readRegs (i.g.lane l).v r.toNat 8) ∧
              ∀ r, o.c = .v r → ∀ l ∈ ls, m.ascale.get l = (i.g.lane l).v.get r.toNat)))) ∧
    (splitGuard i.g i.sp o = true → ∀ n, n < 4 → o.d = .acc (BitVec.ofNat 8 n) → i.sp.pend = none →
      let ls := o.ty.getLsbD 0
      let cell (t : Nat → Nat) (r j : Nat) : Nat := a + r * b + j * (4 * t (r / 8))
      let tagNow (q : Nat) : Nat := if (i.g.octet q).tag.getLsbD n = true then 2 else 1
      let tagNew (_ : Nat) : Nat := if accf = 1 then 2 else 1
      let beyond (t : Nat → Nat) (v : Nat) : Prop := ∃ r < i.g.width, ∃ j < 32, cell t r j ≤ v ∧ v < cell t r j + 4 * t (r / 8) ∧ loc ≤ v
      let bad (ins : Instr) (cause : Cause) (k : Acc) (code v : Nat) : Prop := exec ins s = .next (s.raiseAll i
        { cause := cause, aux := BitVec.ofNat 32 (code + 16 * k.code), addr := BitVec.ofNat 64 v })
      let fits (t : Nat → Nat) : Prop := ls = true → a % 16 = 0 ∧ b % 16 = 0 ∧ ∀ v, ¬ beyond t v
      (∀ e ∈ [(Instr.mdrain o, Acc.write, tagNow), (Instr.mfill o, Acc.read, tagNew)], ls = true →
        (a % 16 ≠ 0 → bad e.1 .align e.2.1 1 a) ∧ (a % 16 = 0 → b % 16 ≠ 0 → bad e.1 .align e.2.1 1 b) ∧
        (a % 16 = 0 → b % 16 = 0 → ∀ v, beyond e.2.2 v → (∀ v', beyond e.2.2 v' → v ≤ v') → bad e.1 .prot e.2.1 4 v)) ∧
      (∀ h, o.c = .h h → fits tagNow → o.ty.getLsbD 2 = true → (i.g.handle h.toNat).st ≠ 0 →
        exec (.mdrain o) s = .next (s.raiseAll i { cause := .handle, aux := BitVec.ofNat 32 (1 + 16 * h.toNat) })) ∧
      (fits tagNow → (∀ h, o.c = .h h → o.ty.getLsbD 2 = true → (i.g.handle h.toNat).st = 0) → ∃ t y g' m p, exec (.mdrain o) s = .next t ∧ took t g' y ∧
        i.sp.Past y (opUnits o) i.sp.s i.sp.flags ∧ y.pend = some p ∧ p.opc = .mdrain ∧ p.id = s.nextId ∧ p.pc = i.sp.pc ∧ p.lanes = laneMask (liveLanes i.g i.sp) ∧
        g' = { i.g with mops := i.g.mops ++ [m], handles := g'.handles } ∧
        (∀ h, o.c = .h h → o.ty.getLsbD 2 = true → g'.handles = setAt i.g.handles h.toNat { st := 1, kind := 2, op := s.nextId }) ∧
        m.id = s.nextId ∧ m.kind = .mdrain ∧ m.acc = n ∧ m.ls = ls ∧ m.z = o.ty.getLsbD 1 ∧ m.base = a ∧ m.pitch = b ∧ m.round = 0 ∧
        (∀ l < i.g.width, m.idle.getLsbD l = (i.g.lane l).idle) ∧ ∀ q < i.g.width / 8, m.tags.getLsbD q = (i.g.octet q).tag.getLsbD n) ∧
      (accf < 2 → fits tagNew → ∃ t y g' m, exec (.mfill o) s = .next t ∧ took t g' y ∧ i.sp.Past y (opUnits o) i.sp.s i.sp.flags ∧
        g' = { i.g with mops := i.g.mops ++ [m], octets := g'.octets } ∧ tagged g' n (fun _ => true) ∧
        m.id = s.nextId ∧ m.kind = .mfill ∧ m.acc = n ∧ m.ls = ls ∧ m.base = a ∧ m.pitch = b ∧ m.round = 0 ∧
        ∀ l < i.g.width, m.idle.getLsbD l = (i.g.lane l).idle)) ∧
    (splitGuard i.g i.sp o = true →
      let k := s.core i.core
      let word (f : BitVec 8) : Nat := 65536 * k.mat.trans.toNat + 256 * f.toNat + 16 * (8 - popN 8 f.toNat)
      let prot : Bad := { cause := .prot, aux := BitVec.ofNat 32 (2 ^ 31 + 2 ^ 30 + 2 ^ 28) }
      (∀ d, o.d = .s d → ∃ t y, exec (.mselfStat o) s = .next t ∧ Becomes s t i y i.g.lanes ∧
        i.sp.Past y (opUnits o) (writeRegs i.sp.s d.toNat (word k.mat.fenced) 1) i.sp.flags) ∧
      (i.sp.priv = 0 → exec (.mselfRun o) s = .next (s.raiseAll i prot) ∧ exec (.mselfInj o) s = .next (s.raiseAll i prot)) ∧
      (i.sp.priv ≠ 0 →
        ((∃ e ∈ s.groups, e.1 / 64 = i.core ∧ e.2.mops ≠ []) → exec (.mselfRun o) s = .next (s.stall i)) ∧
        (∀ d, o.d = .s d → (∀ e ∈ s.groups, e.1 / 64 = i.core → e.2.mops = []) → ∃ t y f, exec (.mselfRun o) s = .next t ∧
          (t.core i.core).mat = { k.mat with fenced := f, work := (t.core i.core).mat.work } ∧
          (∀ c < 8, (k.mat.fenced.getLsbD c = true → f.getLsbD c = true) ∧
            (k.mat.work.length = 8 → k.mat.fenced.getLsbD c = false → (t.core i.core).mat.work.getD c 1 = 0)) ∧
          (∃ g', t.groups.get? i.who.key = some g' ∧ g' = { i.g with splits := g'.splits } ∧ g'.split? i.who.split = some y) ∧
          i.sp.Past y (opUnits o) (writeRegs i.sp.s d.toNat (word f) 1) i.sp.flags ∧ t.mem = s.mem ∧ (f ≠ 0xFF → t.wgs = s.wgs) ∧
          (f = 0xFF → k.mat.fenced ≠ 0xFF → (t.core i.core).retired = true) ∧
          (f ≠ 0xFF → 8 ≤ s.logRoom →
            let new := (List.range 8).filter fun c => f.getLsbD c && !k.mat.fenced.getLsbD c
            t.errTail = s.errTail + BitVec.ofNat 12 new.length ∧ ∀ n c, new[n]? = some c →
              Store.getList t.hostMem ((s.errBase.toNat + 32 * (s.errTail + BitVec.ofNat 12 n).toNat) % 2 ^ 64) 32 =
                ({ type := 3, cls := 1, unit := 8 * i.core + c } : ErrRec).bytes s.clock.toNat) ∧
          ∀ q, (t.wgs.get? q).map (fun v => { v with preempt := none }) = (s.wgs.get? q).map fun v => { v with preempt := none }) ∧
        ((8 ≤ a ∨ k.mat.fenced.getLsbD a = true) → exec (.mselfInj o) s = .next (s.raiseAll i illop9)) ∧
        (a < 8 → k.mat.fenced.getLsbD a = false → ∃ t y, exec (.mselfInj o) s = .next t ∧
          CoreBecomes s t i.core { k with mat := { k.mat with inject := k.mat.inject ||| (1#8 <<< a) } } ∧
          Turns { s with cores := t.cores } t i i.g y ∧ i.sp.Past y (opUnits o) i.sp.s i.sp.flags)))

/-- Matrix operations take effect (R321 to R327, R332 to R337). -/
def Obligations.MatrixEffects : Prop :=
  (∀ (s : State) (key : Nat) (g : Group) (m : MatOp) (w : Workgroup), s.groups.get? key = some g → s.wgs.get? g.wg = some w → w.core = key / 64 →
    (g.width = 16 ∨ g.width = 32 ∨ g.width = 64) → g.lanes.length = g.width → g.octets.length = g.width / 8 → g.retired = false → m.acc < 4 →
    (g.mops.find? fun x => x.id == m.id) = some m → g.firstOn m = true →
    let core := key / 64
    let k := s.core core
    let mine (t : State) (g' : Group) : Prop := t.groups.get? key = some g' ∧ t.mem = s.mem ∧ t.nextId = s.nextId ∧
      ∀ q, q ≠ key → (t.groups.get? q).map (fun h => { h with handles := [] }) = (s.groups.get? q).map (fun h => { h with handles := [] })
    let handles (g' : Group) : Prop := g'.handles = g.handles.map fun h => if h.st = 1 ∧ h.kind = 2 ∧ h.op = m.id then { h with st := 2 } else h
    let spent (g' : Group) : Prop := g'.mops = g.mops.filter (fun x => x.id != m.id) ∧ handles g'
    ((m.kind = .mma ∨ m.kind = .mmaz) → ∀ sub < 8, k.mat.fenced.getLsbD sub = false → k.mat.work.getD sub 0 < 2 ^ 22 → k.mat.inject.getLsbD sub = false → k.mat.avoids m sub = false →
      (fmtRM m.fmt ≠ .rs → m.lanes.toNat < 2 ^ g.width → (∀ e ∈ mmaGrans m ((List.range 64).filter fun l => m.lanes.getLsbD l), s.matGran w e.1 e.2.1 = .ok) →
        let set := 131072 * w.bufset.getD 0
        let buf (n off len : Nat) : Nat := ofBytes (Store.getList k.bufs (set + 16384 * n + off) len)
        let chunk (l c : Nat) : Nat := m.base + l / 8 * (m.desc.atp.toNat * 16) + l % 8 * (m.desc.arp.toNat * 16) +
          16 * ((2 * m.desc.acol.toNat + c) ^^^ (l % 8 % 2 ^ m.desc.arot.toNat))
        let half (l c : Nat) : Nat := if m.desc.asrc = 1 then ofBytes (Store.getList w.ls (chunk l c) 16) else buf m.desc.aidx.toNat (chunk l c) 16
        let row (l : Nat) : Nat := if m.desc.asrc = 0 then (m.arows.get l).toNat else half l 0 + 2 ^ 128 * half l 1
        let scale (j : Nat) : Nat := if fmtAF m.fmt = 6 then buf (4 + m.desc.bidx.toNat) (m.desc.bsofs.toNat * 32 + 4 * j) 4
          else if (fmtAF m.fmt = 4 ∨ fmtAF m.fmt = 5) ∧ fmtF8S m.fmt = true then buf (4 + m.desc.bidx.toNat) (m.desc.bsofs.toNat * 32 + j) 1 else 0
        let col (j : Nat) : Nat := buf (4 + m.desc.bidx.toNat) (m.desc.bofs.toNat * 32 + 32 * j) 32
        let f := if fmtACCF m.fmt = 1 then Fmt.f64 else .f32
        let out (l j : Nat) : Rounded := (kstep m.fmt f (g.lane l).mlfsr (if m.kind = .mmaz then none else some (f.read (fmtFTZ m.fmt) ((g.octet (l / 8)).elem m.acc (l % 8) j)))
          (matElems (fmtAF m.fmt) m.fmt (row l) (m.ascale.get l).toNat) (matElems (fmtBF m.fmt) m.fmt (col j) (scale j))).1
        ∃ t g', exec (.matrixOperationCompletion key m.id sub .ok) s = .next t ∧ mine t g' ∧ spent g' ∧ t.wgs = s.wgs ∧
          g' = { g with octets := g'.octets, splits := g'.splits, mops := g'.mops, handles := g'.handles } ∧
          (∀ q < g.width / 8, ∀ n < 4, ∀ r < 8, ∀ j < 32, (g'.octet q).elem n r j =
            if n = m.acc ∧ m.lanes.getLsbD (8 * q + r) = true then (out (8 * q + r) j).code else (g.octet q).elem n r j) ∧
          (∀ q < g.width / 8, (g'.octet q).tag = (g.octet q).tag) ∧
          (∀ n y, g.split? n = some y → ∃ fl, g'.split? n = some { y with flags := fl } ∧ ∀ b, fl.getLsbD b = true ↔ (y.flags.getLsbD b = true ∨
            (y.slices.getLsbD m.slice = true ∧ ∃ l < g.width, m.lanes.getLsbD l = true ∧ ∃ j < 32, (out l j).flags.getLsbD b = true)))) ∧
      (let next (x : MatOp) : BitVec 8 := if (x.avoid ||| (1#8 <<< sub)) ||| k.mat.fenced = 0xFF then 1#8 <<< sub else x.avoid ||| (1#8 <<< sub)
       let fails : Group := { g with mops := g.mops.map fun x => if x.id = m.id then { x with avoid := next x } else x }
       let failed (t : State) : Prop := t.groups = s.groups.put key fails ∧ (k.mat.work.length = 8 → (t.core core).mat.work.getD sub 1 = 0)
       (∃ t, exec (.matrixOperationCompletion key m.id sub .transient) s = .next t ∧ failed t ∧ t.mem = s.mem ∧ t.wgs = s.wgs ∧
        (t.core core).mat.trans.toNat = min 255 (k.mat.trans.toNat + 1) ∧ (t.core core).mat.fenced = k.mat.fenced) ∧
       ∃ t, exec (.matrixOperationCompletion key m.id sub .lasting) s = .next t ∧ failed t ∧ t.mem = s.mem ∧
        (k.mat.fenced ||| (1#8 <<< sub) ≠ 0xFF → t.wgs = s.wgs) ∧ (k.mat.fenced ||| (1#8 <<< sub) = 0xFF → (t.core core).retired = true) ∧
        (t.core core).mat.trans = k.mat.trans ∧ (t.core core).mat.fenced = k.mat.fenced ||| (1#8 <<< sub))) ∧
    (let cell (u l : Nat) : Nat × Nat := if g.width = 16 then (u / 2, l + 16 * (u % 2)) else if g.width = 32 then (u, l) else (2 * u + l / 32, l % 32)
     let words (u : Nat) : Nat := if m.tags.getLsbD ((cell u 0).1 / 8) = true then 2 else 1
     let elem (h : Group) (r j : Nat) : Nat := (h.octet (r / 8)).elem m.acc (r % 8) j
     let bytes (r : Nat) : Nat := if m.tags.getLsbD (r / 8) = true then 8 else 4
     let at' (r j : Nat) : Nat := m.base + r * m.pitch + j * bytes r
     let total := ((List.range 32).map words).sum
     let elsewhere (g' : Group) : Prop := ∀ q < g.width / 8, ∀ n < 4, n ≠ m.acc → ∀ r < 8, ∀ j < 32, (g'.octet q).elem n r j = (g.octet q).elem n r j
     let cells : List (Nat × Nat) := ((List.range g.width).map fun r => (List.range 32).map fun j => (r, j)).flatten
     (m.kind = .mdrain → ∀ n p y, g.drainSplit m.id = some (n, p) → g.split? n = some y →
       ((∃ q < g.width / 8, (g.octet q).poison.getLsbD m.acc = true) → m.ls = false →
         exec (.accumulatorTransferCompletion key m.id) s = .next ((s.setGroup key { g with mops := g.mops.filter fun x => x.id != m.id }).faultPoint ⟨key, n⟩ p
           (((List.range 64).filter fun l => p.lanes.getLsbD l).map fun l => (l, { cause := .dataerr, aux := BitVec.ofNat 32 (2 + 16 * 6 + 4096 * m.acc) })))) ∧
       ((∀ q < g.width / 8, (g.octet q).poison.getLsbD m.acc = false) →
         let drained (g' : Group) : Prop := spent g' ∧ elsewhere g' ∧ (∀ o, o ≠ n → g'.split? o = g.split? o) ∧ g'.split? n = some { y with pend := none } ∧
           ∀ r < g.width, ∀ j < 32, elem g' r j = if m.z then 0 else elem g r j
         (m.ls = false → g.firstMover m = true → m.round = 0 → (∀ l < g.width, m.idle.getLsbD l = false → (g.lane l).q0.length + total ≤ 64) →
           ∃ t g', exec (.accumulatorTransferCompletion key m.id) s = .next t ∧ mine t g' ∧ drained g' ∧ t.wgs = s.wgs ∧
             ∀ l < g.width, g'.lane l = { g.lane l with q0 := (g.lane l).q0 ++ if m.idle.getLsbD l then [] else
               ((List.range 32).map fun u => (List.range (words u)).map fun c => BitVec.ofNat 32 (elem g (cell u l).1 (cell u l).2 / 2 ^ (32 * c))).flatten }) ∧
         (m.ls = true → 256 ≤ m.pitch → ∃ t g', exec (.accumulatorTransferCompletion key m.id) s = .next t ∧ mine t g' ∧ drained g' ∧ g'.lanes = g.lanes ∧
           ∃ w', WgBecomes s t g.wg w' ∧ w' = { w with ls := w'.ls, lsPoison := w'.lsPoison, lsBad := w'.lsBad } ∧
             (∀ a, (∀ c ∈ cells, a < at' c.1 c.2 ∨ at' c.1 c.2 + bytes c.1 ≤ a) → Store.get w'.ls a = Store.get w.ls a) ∧
             ∀ c ∈ cells, Store.getList w'.ls (at' c.1 c.2) (bytes c.1) = toBytes (bytes c.1) (elem g c.1 c.2)))) ∧
     (m.kind = .mfill → (m.tags = 0 ∨ m.tags = 0xFF) →
       (m.ls = false → g.firstMover m = true → m.round = 0 → (∀ l < g.width, m.idle.getLsbD l = false → total ≤ (g.lane l).q1.length) →
         ∃ t g', exec (.accumulatorTransferCompletion key m.id) s = .next t ∧ mine t g' ∧ spent g' ∧ elsewhere g' ∧ t.wgs = s.wgs ∧ g'.splits = g.splits ∧
           (∀ l < g.width, g'.lane l = { g.lane l with q1 := if m.idle.getLsbD l then (g.lane l).q1 else (g.lane l).q1.drop total }) ∧
           (∀ q < g.width / 8, (g'.octet q).poison.getLsbD m.acc = false) ∧
           ∀ u < 32, ∀ l < g.width, elem g' (cell u l).1 (cell u l).2 = if m.idle.getLsbD l then 0 else
             ((g.lane l).q1.getD (u * words u) 0).toNat + if words u = 2 then 2 ^ 32 * ((g.lane l).q1.getD (2 * u + 1) 0).toNat else 0) ∧
       (m.ls = true → (∀ c ∈ cells, w.lsGran (at' c.1 c.2 / 32) = .ok) →
         ∃ t g', exec (.accumulatorTransferCompletion key m.id) s = .next t ∧ mine t g' ∧ spent g' ∧ elsewhere g' ∧ t.wgs = s.wgs ∧
           g'.splits = g.splits ∧ g'.lanes = g.lanes ∧ (∀ q < g.width / 8, (g'.octet q).poison.getLsbD m.acc = false) ∧
           ∀ c ∈ cells, elem g' c.1 c.2 = ofBytes (Store.getList w.ls (at' c.1 c.2) (bytes c.1)))))) ∧
  (∀ (s : State) (core sub : Nat), sub < 8 → (s.core core).mat.fenced.getLsbD sub = false → (s.core core).mat.work.length = 8 →
    (∃ t, exec (.subarraySelfTest core sub true) s = .next t ∧ t.groups = s.groups ∧ t.mem = s.mem ∧ (t.core core).mat =
      { (s.core core).mat with work := setAt (s.core core).mat.work sub 0 }) ∧
    ∃ t, exec (.subarraySelfTest core sub false) s = .next t ∧ t.groups = s.groups ∧ t.mem = s.mem ∧ (t.core core).mat =
      { (s.core core).mat with work := setAt (s.core core).mat.work sub 0, fenced := (s.core core).mat.fenced ||| (1#8 <<< sub) })

/-- Device barriers, time-outs and the throttle epoch (R378, R386, R425, R427 to R429). When bit 15 of BARTIMEOUT's TRAPAUX is set (log 76), and that an
epoch is counted under FIX = 1 and then leaves M and the counts (log 11), are the model's readings. -/
def Obligations.DeviceBarriersAndTimeouts : Prop :=
  (∀ (s : State) (i : Iss) (o : Op), s.iss? = some i → splitGuard i.g i.sp o = true →
    let a := scalar64 i.sp o.a
    let rd (p n : Nat) : Nat := ofBytes (Store.getList s.mem p n)
    let misaligned (ins : Instr) (acc addr : Nat) : Prop :=
      exec ins s = .next (s.raiseAll i { cause := .align, aux := BitVec.ofNat 32 (1 + 16 * acc), addr := BitVec.ofNat 64 addr })
    (a % 64 ≠ 0 → misaligned (.dbarv o) 2 a) ∧
    (∀ xl d, a % 64 = 0 → o.d = .s d → s.held i .atomic true a = some xl → s.badGran xl.place 64 = none → s.dbarHeld i xl = false →
      let p := xl.place
      let expect := rd p 4
      let arrived := rd (p + 4) 4
      let phase := rd (p + 8) 2
      let ctl := rd (p + 10) 1
      let lagth := rd (p + 11) 1
      let now := s.clock.toNat / 1024 % 2 ^ 32
      let first := if arrived = 0 then now else rd (p + 12) 4
      let entry (r k : Nat) : Nat := rd (p + 16) 48 / 2 ^ (12 * (4 * r + k)) % 4096
      let mine := i.core / 48
      let entry' (r k : Nat) : Nat := if r = phase % 8 then
          let old := if arrived = 0 then 0 else entry r k
          if k = mine then (max (old : Int) (min (1 + (now : Int) - first) 0xFFF)).toNat else old
        else entry r k
      let last := arrived + 1 = expect
      let row (r : Nat) : List Nat := (List.range 4).map (entry' r)
      let lags (k : Nat) : Prop := ∃ rs : List Nat, rs.Nodup ∧ 6 ≤ rs.length ∧ ∀ r ∈ rs, r < 8 ∧
        let nz := (row r).filter (· ≠ 0)
        2 ≤ nz.length ∧ (∀ j < 4, j ≠ k → entry' r j < entry' r k) ∧
        ∃ m ∈ nz, (nz.filter (· < m)).length ≤ (nz.length - 1) / 2 ∧ (nz.length - 1) / 2 < (nz.filter (· ≤ m)).length ∧ m + lagth < entry' r k
      ((expect = 0 ∨ expect ≤ arrived ∨ 2 ≤ ctl) → exec (.dbarv o) s = .next (s.raiseAll i (illop9 6))) ∧
      (expect ≠ 0 → arrived < expect → ctl < 2 → mine < 4 → ∃ t u y bs post, exec (.dbarv o) s = .next t ∧ Stored s u p bs ∧
        Becomes { u with launches := t.launches } t i y i.g.lanes ∧ i.sp.Past y (opUnits o) (writeRegs i.sp.s d.toNat phase 1) i.sp.flags ∧
        bs = toBytes 4 expect ++ toBytes 4 (if last then 0 else arrived + 1) ++ toBytes 2 (if last then (phase + 1) % 65536 else phase) ++
          toBytes 1 ctl ++ toBytes 1 lagth ++ toBytes 4 first ++ toBytes 48 post ∧
        (∀ r < 8, ∀ k < 4, post / 2 ^ (12 * (4 * r + k)) % 4096 = entry' r k) ∧
        (¬ (last ∧ ctl = 1) → t.launches = s.launches) ∧
        (last → ctl = 1 → ∀ l, (s.wgs.get? i.g.wg).map Workgroup.launch = some l → ∀ x, s.launches.get? l = some x → ∃ x', t.launches.get? l = some x' ∧
          x' = { x with shares := x'.shares } ∧ x'.shares.map (fun e => (e.1, { e.2 with steal := false })) = x.shares.map (fun e => (e.1, { e.2 with steal := false })) ∧
          ∀ e ∈ x.shares, ∀ e' ∈ x'.shares, e'.1 = e.1 → x.shares.Pairwise (fun e f => e.1 ≠ f.1) → (e'.2.steal = true ↔ e.2.steal = true ∨ (e.1 < 4 ∧ lags e.1)) ∨ 4 ≤ e.1))) ∧
    (∀ (adr : DWord) (q : BitVec 16),
      (((i.sp.rerun = none ∨ ∀ e ∈ i.sp.timedOut, e.1 ≠ i.sp.pc) ∧ adr.toNat = a ∧ q.toNat = scalar32 i.sp o.b % 2 ^ 16) ∨
        (i.sp.rerun ≠ none ∧ ∃ since, (i.sp.timedOut.find? fun e => e.1 == i.sp.pc) = some (i.sp.pc, .dbar adr q since))) →
      (adr.toNat % 64 ≠ 0 → misaligned (.dbwait o) 0 adr.toNat) ∧
      ∀ xl, adr.toNat % 64 = 0 → s.held i .read true adr.toNat = some xl → s.badGran xl.place 64 = none → s.dbarHeld i xl = false →
        let x : Split := { i.sp with timedOut := i.sp.timedOut.filter fun e => e.1 != i.sp.pc }
        (rd (xl.place + 8) 2 ≠ q.toNat → ∃ u t y, exec (.dbwait o) s = .next t ∧ Quiet s u ∧ Becomes u t i y i.g.lanes ∧ x.Past y (opUnits o) x.s x.flags) ∧
        (rd (xl.place + 8) 2 = q.toNat → ∃ u t, exec (.dbwait o) s = .next t ∧ Quiet s u ∧
          Becomes u t i { x with wait := .dbar adr q s.clock } i.g.lanes))) ∧
  (∀ (s : State) (key n : Nat) (g : Group) (sp : Split) (w : Workgroup), s.groups.get? key = some g → g.split? n = some sp → s.wgs.get? g.wg = some w →
    let i : Iss := ⟨⟨key, n⟩, g, sp⟩
    let lasts (since : DWord) : Prop := (if w.par.barto = 0 then 2 ^ 20 else 1024 * w.par.barto.toNat) ≤ (s.clock - since).toNat
    let rec' (aux addr : Nat) : TrapRec := { cause := Cause.bartimeout.code, pc := sp.pc.setWidth 64, addr := BitVec.ofNat 64 addr,
                                             lanes := laneMask (liveLanes g sp), aux := BitVec.ofNat 32 aux }
    (∀ addr q since, sp.wait = .dbar addr q since →
      (∀ xl, addr.toNat % 64 = 0 → s.held i .read true addr.toNat = some xl → s.badGran xl.place 64 = none → s.dbarHeld i xl = false → ∃ u t, exec (.dbwaitReread key n) s = .next t ∧ Quiet s u ∧
        (ofBytes (Store.getList s.mem (xl.place + 8) 2) = q.toNat → t = u) ∧
        (ofBytes (Store.getList s.mem (xl.place + 8) 2) ≠ q.toNat → ∃ y, Becomes u t i y g.lanes ∧ sp.Past y 2 sp.s sp.flags)) ∧
      (lasts since → exec (.bartimeout key n) s = .next ((s.modSplit ⟨key, n⟩ fun y => { y with timedOut := (sp.pc, sp.wait) :: y.timedOut }).deliver ⟨key, n⟩ (rec' 4 addr.toNat))) ∧
      (¬ lasts since → exec (.bartimeout key n) s = .next s)) ∧
    (∀ b q since, sp.wait = .barrier b q since →
      let r := w.bar b.toNat
      let miss := (List.range w.par.groups).filter fun m => !r.left.getLsbD m && !r.who.getLsbD m
      let engine := r.tb ≠ 0 ∨ miss.length < (r.expected - r.arrived).toNat
      let closed : State := { s with cyc := { s.cyc with closed := (g.wg, b.toNat) :: s.cyc.closed } }
      (∀ j, (s.barClose g.wg b.toNat).issAt ⟨key, n⟩ = some j → j.sp.wait = .ready → exec (.bartimeout key n) s = .next (s.barClose g.wg b.toNat)) ∧
      (s.barSettle g.wg b.toNat = s → lasts since → ∃ mask : BitVec 16, (∀ m < 16, mask.getLsbD m = decide (m ∈ miss)) ∧
        exec (.bartimeout key n) s = .next ((closed.modSplit ⟨key, n⟩ fun y => { y with timedOut := (sp.pc, sp.wait) :: y.timedOut }).deliver ⟨key, n⟩
          (rec' (1 + 16 * b.toNat + (if engine then 2 ^ 15 else 0) + 2 ^ 16 * mask.toNat) (match miss with | [] => 0 | m :: _ => s.groupPc g.wg m)))) ∧
      (s.barSettle g.wg b.toNat = s → ¬ lasts since → exec (.bartimeout key n) s = .next closed)) ∧
    (∀ since z, sp.wait = .gather (some since) → lasts since → z ∈ g.splits → (∀ y ∈ g.splits, y.id < sp.id → y.pc ≠ sp.pc) → g.splits.Pairwise (fun x y => x.id < y.id) →
      (∀ y ∈ g.splits, y.pc = sp.pc → ∃ c, y.wait = .gather c) → z.pc ≠ sp.pc → (∀ y ∈ g.splits, y.pc ≠ sp.pc → z.id ≤ y.id) →
      (∀ x u, (s.reach i).2 ≠ .ok (.refill x) u) →
      let late := (g.splits.filter fun y => y.pc != sp.pc).foldl (fun m y => m ||| y.slices) 0
      exec (.gatherTimeout key sp.pc) s = .next ((s.setGroup key { g with splits := g.splits.map fun y => if y.pc = sp.pc then (if y.id = n then
            { y with wait := .gather none, timedOut := (sp.pc, .gather none) :: y.timedOut } else { y with wait := .gather none }) else y }).deliver
        ⟨key, n⟩ (rec' (2 + 2 ^ 16 * late.toNat) (4 * (s.pastPads ⟨⟨key, z.id⟩, g, z⟩ allBlocks z.pc).toNat))))) ∧
  (∀ (s : State) (c q : Nat), q < 4 →
    let k := s.core c
    let counted := (k.ev.get (8 * q + 5)).toNat
    let m := (k.m.getD q 16#5).toNat
    let score := (((List.range 16).filter fun j => (s.groups.get? (64 * c + 4 * j + q)).isSome).map fun j => (k.lls.get (4 * j + q)).toNat).sum
    (counted < s.clock.toNat / 1024 % 2 ^ 48 → k.m.length = 4 → ∃ t k', exec (.throttleEpoch c q) s = .next t ∧ t = { s with cores := t.cores } ∧ CoreBecomes s t c k' ∧
      k' = { k with ev := k'.ev, m := k'.m, lls := k'.lls } ∧ (k'.ev.get (8 * q + 5)).toNat = (counted + 1) % 2 ^ 48 ∧ (∀ e, e ≠ 8 * q + 5 → k'.ev.get e = k.ev.get e) ∧
      (k.fix = true → k'.m = k.m ∧ k'.lls = k.lls) ∧
      (k.fix = false → k.mmin.toNat ≤ 16 → k.mmax.toNat ≤ 16 → m ≤ 16 → (k'.m.getD q 0).toNat =
          (if 4 * m < score then max k.mmin.toNat (m - 1) else if score < m then min k.mmax.toNat (m + 1) else m) ∧
        (∀ p, p ≠ q → k'.m.getD p 0 = k.m.getD p 0) ∧
        ∀ e < 64, (k'.lls.get e).toNat = if e % 4 = q then (k.lls.get e).toNat / 2 else (k.lls.get e).toNat)) ∧
    (s.clock.toNat / 1024 % 2 ^ 48 ≤ counted → exec (.throttleEpoch c q) s = .next s))

/-- The task instructions complete (R351 to R357). -/
def Obligations.TaskInstructions : Prop :=
  ∀ (s : State) (i : Iss) (o : Op) (w : Workgroup) (l : Launch), s.iss? = some i → splitGuard i.g i.sp o = true →
    s.wgs.get? i.g.wg = some w → s.launches.get? w.launch = some l → (∀ e ∈ s.taskq, e.2.length < 65536) →
    let a := scalar64 i.sp o.a
    let home := i.core / 48
    let own := w.launch % 1024
    let past (y : Split) : Prop := i.sp.Past y (opUnits o) i.sp.s i.sp.flags
    let bad (ins : Instr) (sub : Nat) : Prop := exec ins s = .next (s.raiseAll i { illop9 sub with addr := BitVec.ofNat 64 a })
    let queued (t : State) (d : Nat) (env : DWord) (launch : Nat) (deadline : Nat) : Prop := t.taskq = s.taskq.put d (s.taskq.getD d [] ++
        [{ env := env, launch := launch, deadline := BitVec.ofNat 64 deadline, num := s.taskNum.getD d 0 }]) ∧ t.taskNum = s.taskNum.put d (s.taskNum.getD d 0 + 1)
    let still (t : State) : Prop := t.taskq = s.taskq ∧ t.taskNum = s.taskNum
    let passes (t u : State) (p : Nat) (bs : List Byte) (y : Split) : Prop := Stored s u p bs ∧ past y ∧
      Becomes { u with launches := t.launches, taskq := t.taskq, taskNum := t.taskNum } t i y i.g.lanes
    (a % 64 ≠ 0 → ∀ ins ∈ [Instr.tspawn o, .tarm o, .tdec o], exec ins s = .next (s.raiseAll i { cause := .align, aux := BitVec.ofNat 32 (1 + 16 * 2), addr := BitVec.ofNat 64 a })) ∧
    (∀ xl, a % 64 = 0 → s.held i .atomic false a = some xl → s.badGran xl.place 64 = none →
      let f (off n : Nat) : Nat := ofBytes (Store.getList s.mem (xl.place + off) n)
      let st := f 0x30 4
      let ready := st / 8 * 8 + 2
      let reserved : Prop := st / 1024 ≠ 0 ∨ st / 8 % 32 ≠ 0 ∨ f 0x38 8 ≠ 0 ∨ f 0 8 % 4 ≠ 0 ∨ f 8 8 % 64 ≠ 0
      let e := BitVec.ofNat 64 a
      let opens (t : State) : Prop := t.launches = s.launches.put w.launch { l with tasks := l.tasks + 1 }
      (st % 8 ≠ 0 → st % 8 ≠ 4 → bad (.tspawn o) 2 ∧ bad (.tarm o) 2) ∧
      (st % 8 = 0 ∨ st % 8 = 4 → (reserved → bad (.tspawn o) 3 ∧ bad (.tarm o) 3) ∧
        (¬ reserved →
          (o.fn = 1 → (s.part w.part).dies.length ≤ scalar32 i.sp o.b → bad (.tspawn o) 4) ∧
          (∀ d, (o.fn ≠ 1 → d = home) → (o.fn = 1 → (s.part w.part).dies[scalar32 i.sp o.b]? = some d) → ∃ t u y, exec (.tspawn o) s = .next t ∧
            passes t u (xl.place + 0x30) (toBytes 4 ready ++ toBytes 4 own) y ∧ opens t ∧ queued t d e w.launch (f 0x10 8)) ∧
          (f 0x28 4 = 0 → ∃ t u y, exec (.tarm o) s = .next t ∧ passes t u (xl.place + 0x30) (toBytes 4 ready ++ toBytes 4 own) y ∧ opens t ∧
            queued t home e w.launch (f 0x10 8)) ∧
          (f 0x28 4 ≠ 0 → ∃ t u y, exec (.tarm o) s = .next t ∧ passes t u (xl.place + 0x30) (toBytes 4 (st / 8 * 8 + 1) ++ toBytes 4 own) y ∧ opens t ∧
            still t))) ∧
      (let failed := if o.fn = 1 then st ||| 256 else st
       let j := f 0x28 4
       let wakes : Prop := j = 1 ∧ st % 8 = 1
       ∃ t u y, exec (.tdec o) s = .next t ∧ t.launches = s.launches ∧
        passes t u (xl.place + 0x28) (toBytes 4 (j - 1) ++ toBytes 4 (f 0x2C 4) ++ toBytes 4 (if wakes then failed / 8 * 8 + 2 else failed)) y ∧
        (wakes → queued t home e (1024 * w.part + f 0x34 4 % 1024) (f 0x10 8)) ∧ (¬ wakes → still t))) ∧
    (i.g.task = none → exec (.tdone o) s = .next (s.raiseAll i (illop9 1)) ∧ exec (.tyield o) s = .next (s.raiseAll i (illop9 1))) ∧
    (∀ r, i.g.task = some r → i.g.undrained = true → exec (.tdone o) s = .next (s.stall i) ∧ exec (.tyield o) s = .next (s.stall i)) ∧
    (∀ r xl, i.g.task = some r → i.g.undrained = false → r.env.toNat % 64 = 0 → s.held i .atomic false r.env.toNat = some xl → s.badGran xl.place 64 = none →
      let f (off n : Nat) : Nat := ofBytes (Store.getList s.mem (xl.place + off) n)
      let st := f 0x30 4
      let retires (t : State) : Prop := ∃ g', t.groups.get? i.who.key = some g' ∧ g'.retired = true ∧ g'.lanes = i.g.lanes.map (fun x => { x with idle := true, exm := false }) ∧
        g'.handles = i.g.handles.map (fun _ => {}) ∧ (∀ y ∈ g'.splits, y.pend ≠ none) ∧ g'.task = i.g.task
      let kept (t : State) (lo n : Nat) (bs : List Byte) : Prop := bs.length = n ∧ Store.getList t.mem (xl.place + lo) n = bs ∧
        ∀ x, (x < xl.place + lo ∨ xl.place + lo + n ≤ x) → Store.get t.mem x = Store.get s.mem x
      (f 0x18 8 = 0 → f 0x20 8 = 0 → ∃ t, exec (.tdone o) s = .next t ∧ retires t ∧ still t ∧
        (let v := if o.fn = 1 then st ||| 256 else st
         kept t 0x30 4 (toBytes 4 (v / 8 * 8 + 4)) ∧
         t.launches = s.launches.put w.launch { l with tasks := l.tasks - 1, faults := if v.testBit 8 && !l.aborted then l.faults + 1 else l.faults })) ∧
      (let dl := if o.fn = 1 then scalar64 i.sp o.b % 2 ^ 64 else f 0x10 8
       ∃ t, exec (.tyield o) s = .next t ∧ retires t ∧ t.launches = s.launches ∧ queued t home (BitVec.ofNat 64 r.env.toNat) w.launch dl ∧
        kept t 0 0x34 (toBytes 8 (4 * (s.nextPc i (opUnits o)).toNat) ++ toBytes 8 (f 8 8) ++ toBytes 8 dl ++
          Store.getList s.mem (xl.place + 0x18) 24 ++ toBytes 4 (st / 8 * 8 + 2))))

/-- Launches from record to completion (R342 to R347, R354, R358, R448, R453). The model's choices: the lowest free table entry (log 33), LAUNCH's order
of checks (log 38), a child's SEQ 0 (log 28), what a forwarded launch carries (log 31), and which records count as from before a crash (log 116). -/
def Obligations.LaunchLifecycle : Prop :=
  let par (r : List Byte) : Params :=
    let k : Bool := recF r 2 1 == 0
    { kind := recF r 2 1, width := 16 * 2 ^ recF r 4 1, vregs := if recF r 5 1 = 0 then 256 else recF r 5 1, localkb := recF r 6 2,
      entry := BitVec.ofNat 64 (recF r 8 8), widths := if k then (List.range 6).map fun n => recF r (0x10 + n) 1 else [6, 0, 0, 0, 0, 0],
      wglevel := if k then recF r 0x16 1 else 1, tilelevel := if k then recF r 0x17 1 else 1, refill := if k then recF r 0x20 1 else 1,
      items := BitVec.ofNat 64 (recF r 0x18 8), producer := BitVec.ofNat 8 (recF r 0x21 1), groups := recF r 0x22 2,
      privwords := BitVec.ofNat 32 (recF r 0x24 4), args := BitVec.ofNat 64 (recF r 0x28 8), traptab := BitVec.ofNat 64 (recF r 0x30 8),
      targets := BitVec.ofNat 64 (recF r 0x38 8), deadline := BitVec.ofNat 64 (recF r 0x68 8), budget := BitVec.ofNat 32 (recF r 0x70 4),
      barto := BitVec.ofNat 32 (recF r 0x74 4), fmtinit := BitVec.ofNat 32 (recF r 0x78 4), devset := BitVec.ofNat 64 (recF r 0x80 8) }
  let checks (s : State) (p : Nat) (r : List Byte) (child : Bool) (seq : Nat) : List (Prop × Nat) :=
    let k := recF r 2 1
    let v := recF r 5 1
    let q := par r
    let sum := q.widths.sum
    let zeros : List (Nat × Nat) := (if k = 0 then [(0x70, 4)] else if k = 1 then [(8, 8), (0x10, 8), (0x18, 8), (0x20, 1), (0x80, 8)]
      else [(4, 0x3C), (0x68, 8), (0x70, 8), (0x80, 8)]) ++ [(0x88, 0x70)]
    [(recF r 0 2 ≠ s.versel.toNat % 65536, 1), (2 < k, 2),
     ((child = false ∧ 7 < recF r 3 1) ∨ (k < 2 ∧ (2 < recF r 4 1 ∨ (v ≠ 0 ∧ (v < 16 ∨ 248 < v ∨ v % 8 ≠ 0)))), 3),
     ((∃ z ∈ zeros, recF r z.1 z.2 ≠ 0) ∨ ∃ n < 4, 2 ^ 56 ≤ recF r (0x40 + 8 * n) 8, 4),
     (k = 0 ∧ ¬ (sum ≤ 64 ∧ q.items.toNat ≤ 2 ^ sum ∧ q.wglevel ≤ q.tilelevel ∧ q.tilelevel ≤ 6 ∧ q.wglevel ≤ q.refill ∧ q.refill ≤ 6), 5),
     (k < 2 ∧ (q.groups = 0 ∨ 16 < q.groups ∨ (k = 1 ∧ q.groups ≠ 1) ∨ (q.producer ≠ 0xFF ∧ q.groups ≤ q.producer.toNat)), 6),
     (k < 2 ∧ (262144 < q.groups * q.width * q.vregs ∨ (∀ c < 192, (s.part p).pcores.getLsbD c = true → 512 - 64 * (s.core c).lmin.toNat < q.localkb) ∨
       (s.part p).poolsize.toNat < ((List.range 192).filter fun c => (s.part p).pcores.getLsbD c).length * 64 * ((256 * q.privwords.toNat + 65535) / 65536 * 65536)), 7),
     ((k = 0 ∧ q.entry.toNat % 4 ≠ 0) ∨ (k < 2 ∧ q.args.toNat % 64 ≠ 0) ∨ recF r 0x60 8 = 0 ∨ recF r 0x60 8 % 32 ≠ 0, 8),
     (recF r 0x7C 4 ≠ 0 ∨ fmtLegal q.fmtinit = false ∨ (k = 2 ∧ q.fmtinit ≠ 0), 9),
     (∃ n < 4, recF r (0x40 + 8 * n) 8 ≠ 0 ∧ (child = true ∨ seq ≤ recF r (0x40 + 8 * n) 8), 10),
     (q.devset ≠ 0 ∧ (child = true ∨ q.devset &&& ~~~Config.fabricGroup ≠ 0 ∨ q.devset.getLsbD s.devnum.toNat = false), 11)]
  let first (cs : List (Prop × Nat)) (n : Nat) : Prop := ∃ pre c post, cs = pre ++ (c, n) :: post ∧ c ∧ ∀ e ∈ pre, ¬ e.1
  let free (s : State) (p k : Nat) : Prop := k < 1024 ∧ s.launches.get? (1024 * p + k) = none ∧ ∀ j < k, s.launches.get? (1024 * p + j) ≠ none
  let written (u t : State) (place status reason : Nat) (faults : Word) (seq cseq : Nat) : Prop := Store.getList t.mem place 32 =
      toBytes 2 (u.versel.toNat / 65536 % 65536) ++ toBytes 1 status ++ toBytes 1 reason ++ toBytes 4 faults.toNat ++ toBytes 8 seq ++ toBytes 8 cseq ++
      toBytes 8 u.clock.toNat ∧ ∀ a, a < place ∨ place + 32 ≤ a → Store.get t.mem a = Store.get u.mem a
  (∀ (s : State) (p : Nat), s.powered = true → s.fwstat = 2 → s.go = true → s.err = false → (s.part p).pcores ≠ 0 →
    let q := s.part p
    let seq : BitVec 56 := if q.accepted + 1 = 0 then 1 else q.accepted + 1
    let base := q.lwbase.toNat + 256 * (seq.toNat % 64)
    let r := Store.getList s.hostMem base 256
    let here : Prop := recF r 0xFF 1 = (seq.toNat % 256) ^^^ 0xA5 ∧ recF r 0xF8 7 = seq.toNat ∧ s.hostFailed = false ∧ q.stale.getLsbD (seq.toNat % 64) = false
    (¬ here → exec (.launchRecordAccept p) s = .next s) ∧
    (here → ∀ k, free s p k →
      ((∀ e ∈ checks s p r false seq.toNat, ¬ e.1) → ∃ t l, exec (.launchRecordAccept p) s = .next t ∧
        t = { s with parts := t.parts, launches := s.launches.put (1024 * p + k) l } ∧ t.part p = { q with accepted := seq } ∧
        (∀ o, o ≠ p → t.part o = s.part o) ∧ l.part = p ∧ l.seq = seq ∧ l.prio = recF r 3 1 ∧ l.par = par r ∧
        l.dep = (List.range 4).map (fun n => BitVec.ofNat 64 (recF r (0x40 + 8 * n) 8)) ∧ l.doneaddr = BitVec.ofNat 64 (recF r 0x60 8) ∧
        l.parent = none ∧ l.tasks = 0 ∧ l.faults = 0 ∧ l.given = 0 ∧ l.aborted = false) ∧
      (∀ n, first (checks s p r false seq.toNat) n → ∃ t, exec (.launchRecordAccept p) s = .next t ∧ t.launches = s.launches ∧
        (t.part p).accepted = seq ∧ (t.part p).completed = q.completed + 1 ∧
        ∀ u xl, recF r 0x60 8 ≠ 0 → recF r 0x60 8 % 32 = 0 →
          (s.modPart p fun q => { q with accepted := seq }).sysXlate q.pctx q.ctxtbase.toNat .write (recF r 0x60 8) = (u, .ok xl) →
          written s t xl.place 1 n 0 seq.toNat (q.completed + 1).toNat))) ∧
  (∀ (s : State) (i : Iss) (o : Op) (w : Workgroup) (h : BitVec 8), s.iss? = some i → splitGuard i.g i.sp o = true → s.wgs.get? i.g.wg = some w → o.d = .h h → h.toNat < 16 →
    let a := scalar64 i.sp o.a
    (a % 256 ≠ 0 → exec (.launch o) s = .next (s.raiseAll i { cause := .align, aux := 1, addr := BitVec.ofNat 64 a })) ∧
    (∀ xl next, a % 256 = 0 → s.held i .read false a = some xl → next = s.place (s.linePA (pteHash xl.leaf) (xl.place / 128) + 128) (pteHash xl.leaf) →
      s.badGran xl.place 128 = none → s.badGran next 128 = none →
      let r := Store.getList s.mem xl.place 128 ++ Store.getList s.mem next 128
      ((i.g.handle h.toNat).st ≠ 0 → exec (.launch o) s = .next (s.raiseAll i { cause := .handle, aux := BitVec.ofNat 32 (1 + 16 * h.toNat) })) ∧
      ((i.g.handle h.toNat).st = 0 → (∀ k < 1024, s.launches.get? (1024 * w.part + k) ≠ none) → exec (.launch o) s = .next (s.stall i)) ∧
      ((i.g.handle h.toNat).st = 0 → ∀ k, free s w.part k →
        ((∀ e ∈ checks s w.part r true 0, ¬ e.1) → ∃ t y l, exec (.launch o) s = .next t ∧ t.launches = s.launches.put (1024 * w.part + k) l ∧
          t.nextId = s.nextId + 1 ∧ i.sp.Past y (opUnits o) i.sp.s i.sp.flags ∧
          Turns { s with launches := t.launches, nextId := t.nextId } t i { i.g with handles := setAt i.g.handles h.toNat { st := 1, kind := 4, op := s.nextId } } y ∧
          l.part = w.part ∧ l.seq = 0 ∧ l.par = par r ∧ l.parent = some w.launch ∧ l.handle = s.nextId ∧ l.doneaddr = BitVec.ofNat 64 (recF r 0x60 8)) ∧
        (∀ n, first (checks s w.part r true 0) n → ∃ t g' y, exec (.launch o) s = .next t ∧ t.launches = s.launches ∧ t.parts = s.parts ∧
          t.groups.get? i.who.key = some g' ∧ g'.split? i.who.split = some y ∧ i.sp.Past y (opUnits o) i.sp.s i.sp.flags ∧
          g' = { i.g with splits := g'.splits, handles := setAt i.g.handles h.toNat { st := 2, kind := 4 } })))) ∧
  (∀ (s : State) (key : Nat) (l : Launch), s.launches.get? key = some l → l.par.kind = 0 → l.parent = none → l.forPeer = false → l.aborted = false →
    let ended : Prop := (∀ d ∈ l.dep, d ≠ 0 → ∀ e ∈ s.launches, ¬ (e.2.part = l.part ∧ e.2.parent = none ∧ e.2.forPeer = false ∧ e.2.seq.toNat = d.toNat)) ∧
      l.given = l.total ∧ l.tasks = 0 ∧ l.peers = 0 ∧ (∀ e ∈ s.wgs, e.2.launch ≠ key) ∧ (∀ e ∈ s.images, e.2.launch ≠ key) ∧ ∀ e ∈ s.launches, e.2.parent ≠ some key
    (¬ ended → exec (.launchCompletion key) s = .next s) ∧
    (ended → ∃ t, exec (.launchCompletion key) s = .next t ∧ t.launches = s.launches.erase key ∧ (t.part l.part).completed = (s.part l.part).completed + 1 ∧
      ∀ u xl, l.doneaddr ≠ 0 → l.doneaddr.toNat % 32 = 0 →
        ({ s with launches := s.launches.erase key } : State).sysXlate (s.part l.part).pctx (s.part l.part).ctxtbase.toNat .write l.doneaddr.toNat = (u, .ok xl) →
        written s t xl.place (if l.faults = 0 then 0 else 2) 0 l.faults l.seq.toNat ((s.part l.part).completed + 1).toNat)) ∧
  (∀ (s : State) (p : Nat) (seq : BitVec 56) (r : List Byte) (k : Nat), free s p k → s.attached = true → (s.part p).pcores ≠ 0 → recF r 2 1 = 0 →
    (par r).devset.getLsbD s.devnum.toNat = true → ∃ t l, exec (.fabricLaunchForward p seq r) s = .next t ∧
      t = { s with launches := s.launches.put (1024 * p + k) l } ∧ l.part = p ∧ l.seq = seq ∧ l.par = par r ∧ l.forPeer = true ∧ l.peers = 0) ∧
  (∀ (s : State) (key : Nat) (l : Launch), s.launches.get? key = some l →
    exec (.fabricShareCompletion key) s = .next { s with launches := s.launches.put key { l with peers := l.peers - 1 } }) ∧
  (∀ (s : State) (key : Nat) (l : Launch) (d : Nat) (u : State) (xl : Xl), s.launches.get? key = some l → l.par.kind = 1 → l.seeded = false → l.aborted = false →
    s.runnable l = true → d < 4 → (s.part l.part).pdies.getLsbD d = true → s.queueLen d < 65536 →
    (∀ e < 4, (s.part l.part).pdies.getLsbD e = true → s.queueLen d < s.queueLen e ∨ (s.queueLen d = s.queueLen e ∧ d ≤ e)) →
    s.sysXlate (s.part l.part).pctx (s.part l.part).ctxtbase.toNat .atomic l.par.args.toNat = (u, .ok xl) → u.badGran xl.place 64 = none →
    let f (off n : Nat) : Nat := ofBytes (Store.getList s.mem (xl.place + off) n)
    let st := f 0x30 4
    (st % 8 = 0 ∨ st % 8 = 4) → st / 1024 = 0 → st / 8 % 32 = 0 → f 0x38 8 = 0 → f 0 8 % 4 = 0 → f 8 8 % 64 = 0 →
      ∃ t, exec (.taskSeed key) s = .next t ∧ t.launches = s.launches.put key { l with tasks := l.tasks + 1, seeded := true } ∧
        t.taskq = s.taskq.put d (s.taskq.getD d [] ++ [{ env := l.par.args, launch := key, num := s.taskNum.getD d 0,
                                                         deadline := if l.par.deadline ≠ 0 then l.par.deadline else BitVec.ofNat 64 (f 0x10 8) }]) ∧
        Store.getList t.mem (xl.place + 0x30) 8 = toBytes 4 (st / 8 * 8 + 2) ++ toBytes 4 (key % 1024) ∧
        ∀ a, a < xl.place + 0x30 ∨ xl.place + 0x38 ≤ a → Store.get t.mem a = Store.get s.mem a)

/-- From a queued tile or task to running groups, and back (R6, R13, R16, R17, R25, R31, R32, R350, R355, R356, R430, R475). The model's choices: a
BUDGET that finds its split waiting takes it at the boundary before the instruction it waits in (log 32), Started tiles before Claimed ones (log 35), the
lowest free slots (log 33), postmarks kept over a restart (log 34), the seed's BUDGET (log 29), claims by die numbers of 4 and more (log 31), the peer's
tile (log 101), and a core that is being moved admits nothing (log 107). -/
def Obligations.Admission : Prop :=
  let lanesAt (p : Params) (first stop : Nat) (g : Nat) : List Lane := (List.range p.width).map fun k =>
    let id := BitVec.ofNat 64 (first + g * p.width + k)
    if first + g * p.width + k < stop then { idle := false, exm := true, workid := id, wgid := wgidOf p id, age := 0, rcpt := 0, vlfsr := vseed id, mlfsr := mseed id } else {}
  let fresh (p : Params) (wg gid : Nat) (lanes : List Lane) (g : Group) : Prop := g.wg = wg ∧ g.gid = BitVec.ofNat 4 gid ∧ g.width = p.width ∧ g.lanes = lanes ∧
    g.handles = List.replicate 16 {} ∧ g.rstacks = List.replicate (p.width / 4) [] ∧ g.octets = List.replicate (p.width / 8) {} ∧ g.q4 = [] ∧ g.trap = {} ∧
    g.mops = [] ∧ g.results = [] ∧ g.sealSeq = 0 ∧ g.started = false ∧ g.retired = false ∧
    ∃ y, g.splits = [y] ∧ y.slices = BitVec.ofNat 16 (2 ^ (p.width / 4) - 1) ∧ y.pc = BitVec.ofNat 50 (p.entry.toNat / 4) ∧ y.s = [] ∧ y.fmt = p.fmtinit ∧
      y.flags = 0 ∧ y.priv = 0 ∧ y.mark = 0 ∧ y.wait = .ready
  let starts (t : State) (wg : Nat) (w : Workgroup) (first stop : Nat) : Prop := ∀ g < w.par.groups, ∃ x,
    t.groups.get? (64 * w.core + w.slots.getD g 0) = some x ∧ fresh w.par wg g (lanesAt w.par first stop g) x ∧ x.task = none
  let tile (p : Params) (d k : Nat) : Started := { tile := k, die := d, cursor := k * 2 ^ min 64 (p.widths.take p.tilelevel).sum,
                                                   stop := min ((k + 1) * 2 ^ min 64 (p.widths.take p.tilelevel).sum) p.items.toNat }
  (∀ (l : Launch) (d : Nat),
    let open' (x : Started) : Prop := x.die = d ∧ x.cursor < x.stop
    let sh := l.share d
    (∀ t ∈ l.started, open' t → (∀ x ∈ l.started, open' x → x = t ∨ t.tile < x.tile) → l.nextTile d = some (l, t)) ∧
    ((∀ x ∈ l.started, ¬ open' x) →
      (∀ k ∈ sh.claimed, (∀ j ∈ sh.claimed, k ≤ j) → (∀ x ∈ l.started, x.tile ≠ k) → l.nextTile d = some ({ l with
        shares := l.shares.put d { sh with claimed := sh.claimed.filter (· != k) }, started := l.started ++ [tile l.par d k] }, tile l.par d k)) ∧
      (sh.claimed = [] → (sh.stop ≤ sh.next → l.nextTile d = none) ∧ (sh.next < sh.stop → (∀ x ∈ l.started, x.tile ≠ sh.next) → l.nextTile d = some ({ l with
        shares := l.shares.put d { sh with next := sh.next + 1 }, started := l.started ++ [tile l.par d sh.next] }, tile l.par d sh.next))))) ∧
  (∀ (s : State) (p d : Nat) (q : Params),
    let free (c : Nat) : Nat := (s.freeSlots c).length
    let takes (c : Nat) : Prop := c < 192 ∧ (s.part p).pcores.getLsbD c = true ∧ c / 48 = d ∧ s.powered = true ∧ (s.core c).retired = false ∧ (s.core c).stopped = false ∧
      (s.core c).carvePend = false ∧ (s.core c).moving = none ∧ s.coreFailed.getLsbD c = false ∧ (s.core c).ctxid = (s.part p).pctx ∧ q.groups ≤ free c ∧
      ((s.coreWgs c).map fun w => w.par.groups * w.par.width * w.par.vregs).sum + q.groups * q.width * q.vregs ≤ 262144 ∧
      ((s.coreWgs c).map fun w => w.par.localkb).sum + q.localkb ≤ 512 - 64 * (s.core c).carve.toNat ∧
      (q.producer ≠ 0xFF → ∃ b < 2, ∀ w ∈ s.coreWgs c, w.bufset ≠ some b)
    ((∀ c, ¬ takes c) → s.coreFor p d q = none) ∧
    ∀ c, takes c → (∀ e, takes e → e = c ∨ free e < free c ∨ (free e = free c ∧ c < e)) → s.coreFor p d q = some c) ∧
  (∀ (s : State) (p d k : Nat) (l l' : Launch) (t : Started), s.launches.get? k = some l → s.effPrio k ≤ 7 → l.nextTile d = some (l', t) →
    (∀ r ∈ s.taskq.getD d [], s.effPrio r.launch < s.effPrio k) →
    (s.orderKey k l t.cursor, Head.wg k) ∈ s.waitingAt d →
    (∀ e ∈ s.waitingAt d, e = (s.orderKey k l t.cursor, Head.wg k) ∨ lexLt (s.orderKey k l t.cursor) e.1 = true) →
    let stop := min (t.cursor + 2 ^ min 64 (l.par.widths.take l.par.wglevel).sum) t.stop
    let n := min (l.par.groups * l.par.width) (stop - t.cursor)
    ∀ ins ∈ [Instr.workgroupAdmission p d, .taskDispatch p d],
      (k / 1024 ≠ p → exec ins s = .next s) ∧
      (k / 1024 = p → s.coreFor p d l.par = none → exec ins s = .next s) ∧
      ∀ c, k / 1024 = p → s.coreFor p d l.par = some c → ∃ u w, exec ins s = .next u ∧ u.wgs.get? s.nextId = some w ∧ u.nextId = s.nextId + 1 ∧ w.core = c ∧ w.part = p ∧ w.launch = k ∧
        w.par = l.par ∧ w.slots = (s.freeSlots c).take l.par.groups ∧ w.next = t.cursor + n ∧ w.stop = stop ∧ w.tile = t.tile ∧ w.task = false ∧ w.ls = [] ∧
        u.launches = s.launches.put k { l' with given := l'.given + n, started := l'.started.map fun x => if x.tile = t.tile then { t with cursor := stop } else x } ∧
        ((l.par.groups - 1) * l.par.width < n → starts u s.nextId w t.cursor stop ∧ w.bars = List.replicate 16 { expected := BitVec.ofNat 8 l.par.groups } ∧
          u = { s with wgs := u.wgs, groups := u.groups, launches := u.launches, cores := u.cores, nextId := u.nextId } ∧
          (∀ m, m ≠ s.nextId → u.wgs.get? m = s.wgs.get? m) ∧ (∀ e, e ≠ c → u.core e = s.core e) ∧
          ∀ key, (∀ g < l.par.groups, key ≠ 64 * c + w.slots.getD g 0) → u.groups.get? key = s.groups.get? key)) ∧
  (∀ (s u : State) (p d : Nat) (r : TaskRef) (l : Launch) (x : Xl), r ∈ s.taskq.getD d [] → s.launches.get? r.launch = some l → l.aborted = false →
    (∀ e ∈ s.taskq.getD d [], e = r ∨ r.deadline.toNat < e.deadline.toNat ∨ (r.deadline = e.deadline ∧ r.num < e.num)) →
    (∀ e ∈ s.waitingAt d, 7 - s.effPrio r.launch ≤ e.1.headD 0) →
    (r.launch / 1024 ≠ p → exec (.taskDispatch p d) s = .next s) ∧
    (r.launch / 1024 = p → s.sysXlate (s.part p).pctx (s.part p).ctxtbase.toNat .atomic r.env.toNat = (u, .ok x) →
    let f (off n : Nat) : Nat := ofBytes (Store.getList s.mem (x.place + off) n)
    let st := f 0x30 4
    let par : Params := { l.par with
      kind := 1, groups := 1, entry := BitVec.ofNat 64 (f 0 8), args := BitVec.ofNat 64 (f 8 8), widths := [6, 0, 0, 0, 0, 0], wglevel := 1, tilelevel := 1, refill := 1, items := 0 }
    let left : Table (List TaskRef) := s.taskq.put d ((s.taskq.getD d []).filter fun e => e.num != r.num)
    let kept (t : State) (v : Nat) : Prop := Store.getList t.mem (x.place + 0x30) 4 = toBytes 4 v ∧
      ∀ a, a < x.place + 0x30 ∨ x.place + 0x34 ≤ a → Store.get t.mem a = Store.get s.mem a
    (st.testBit 8 = true → st.testBit 9 = true → f 0x18 8 = 0 → f 0x20 8 = 0 → ∃ t, exec (.taskDispatch p d) s = .next t ∧ t.taskq = left ∧ kept t (st / 8 * 8 + 4) ∧
      t.groups = s.groups ∧ t.launches = s.launches.put r.launch { l with tasks := l.tasks - 1, faults := l.faults + 1 }) ∧
    ((st.testBit 8 = false ∨ st.testBit 9 = false) →
      (u.coreFor p d { par with entry := 0, args := 0 } = none → exec (.taskDispatch p d) s = .next u) ∧
      ∀ c, u.coreFor p d { par with entry := 0, args := 0 } = some c → ∃ t w g slot, exec (.taskDispatch p d) s = .next t ∧ t.taskq = left ∧ kept t (st / 8 * 8 + 3) ∧
        (u.freeSlots c).head? = some slot ∧ t.wgs = s.wgs.put s.nextId w ∧ t.groups = s.groups.put (64 * c + slot) g ∧ t.launches = s.launches ∧ t.nextId = s.nextId + 1 ∧
        w.core = c ∧ w.part = p ∧ w.launch = r.launch ∧ w.par = par ∧ w.slots = [slot] ∧ w.task = true ∧
        g.task = some { env := r.env, start := s.clock, budget := if l.par.kind = 1 ∧ l.par.budget ≠ 0 ∧ r.env = l.par.args then l.par.budget else BitVec.ofNat 32 (f 0x2C 4) } ∧
        fresh par s.nextId 0 ((List.range par.width).map fun k => { idle := false, exm := true, workid := BitVec.ofNat 64 k, vlfsr := vseed (BitVec.ofNat 64 k), mlfsr := mseed (BitVec.ofNat 64 k) }) g))) ∧
  (∀ (s : State) (key : Nat) (g : Group) (sp : Split) (rest : List Split) (w : Workgroup), s.groups.get? key = some g → g.splits = sp :: rest → s.wgs.get? g.wg = some w →
    let x : Iss := ⟨⟨key, sp.id⟩, g, sp⟩
    let a := w.par.args.toNat
    (g.started = true ∨ g.retired = true ∨ s.coreFailed.getLsbD (key / 64) = true → exec (.startBlockRead key) s = .next s) ∧
    (g.started = false → g.retired = false → s.coreFailed.getLsbD (key / 64) = false →
      (∀ xl, s.held x .read false a = some xl → s.badGran xl.place 64 = none → ∃ u t g' y, exec (.startBlockRead key) s = .next t ∧ Quiet s u ∧
        t = { u with groups := s.groups.put key g' } ∧ g' = { g with splits := g'.splits, started := true } ∧
        g'.split? sp.id = some y ∧ y = { sp with s := y.s } ∧ (∀ k < 16, y.s.get k = BitVec.ofNat 32 (ofBytes (Store.getList s.mem (xl.place + 4 * k) 4))) ∧
        ∀ k, 16 ≤ k → y.s.get k = sp.s.get k) ∧
      (∀ l u b, g.task = none → s.launches.get? w.launch = some l → s.gx x .read false a = (u, .error b) → ∃ t g', exec (.startBlockRead key) s = .next t ∧
        t.groups.get? key = some g' ∧ g'.retired = true ∧ (∀ ln ∈ g'.lanes, ln.idle = true ∧ ln.exm = false) ∧
        t.launches = s.launches.put w.launch (if l.aborted then l else { l with faults := l.faults + 1 })))) ∧
  (∀ (s : State) (n : Nat) (w : Workgroup), s.wgs.get? n = some w →
    let done : Prop := (∀ e ∈ s.groups, e.2.wg = n → e.2.retired = true ∧ e.2.splits = [] ∧ e.2.mops = []) ∧ (∀ c ∈ s.copies, c.wg ≠ n) ∧
      ∀ t ∈ s.tierOps, t.wg = n → t.bar = none
    let holds : Prop := w.task = false ∧ w.next < w.stop
    (¬ (done ∧ ¬ holds) → exec (.workgroupRetirement n) s = .next s) ∧
    (done → ¬ holds → ∃ t, exec (.workgroupRetirement n) s = .next t ∧ t = { s with wgs := s.wgs.erase n, groups := t.groups, launches := t.launches, cyc := t.cyc } ∧
      t.groups = s.groups.filter (fun e => e.2.wg != n) ∧ ∀ k l, s.launches.get? k = some l → ∃ l', t.launches.get? k = some l' ∧
        l' = { l with started := l'.started } ∧ l'.started.map (fun x => { x with done := false }) = l.started.map fun x => { x with done := false }) ∧
    (¬ (done ∧ holds) ∨ w.preempt ≠ none → exec (.workgroupRestart n) s = .next s) ∧
    (∀ v, done → holds → w.preempt = none → (s.barFlush n).wgs.get? n = some v → w.slots.Nodup → w.slots.length = w.par.groups →
      let k := min (w.par.groups * w.par.width) (w.stop - w.next)
      (w.par.groups - 1) * w.par.width < k → ∃ t w', exec (.workgroupRestart n) s = .next t ∧ WgBecomes s t n w' ∧
        w' = { w with next := w.next + k, bars := v.bars.map fun b => { expected := BitVec.ofNat 8 w.par.groups, phase := b.phase, post := b.post } } ∧
        starts t n w w.next w.stop ∧ (∀ l, s.launches.get? w.launch = some l → t.launches = s.launches.put w.launch { l with given := l.given + k }) ∧
        t = { s with wgs := t.wgs, groups := t.groups, launches := t.launches, cyc := t.cyc })) ∧
  (∀ (s : State) (key d own : Nat) (l : Launch) (sh : Share), s.launches.get? key = some l → l.shares.get? own = some sh → own ≠ d → sh.steal = true → sh.next < sh.stop →
    sh.stop ≤ 2 ^ 64 → l.shares.Pairwise (fun e f => e.1 ≠ f.1) → (∀ e ∈ l.shares, e.1 = own ∨ e.1 = d ∨ e.2.steal = false ∨ e.2.stop ≤ e.2.next ∨ e.2.stop < sh.stop) →
    l.par.kind = 0 → l.aborted = false → s.runnable l = true →
    let mine := l.share d
    let size := 2 ^ min 64 (l.par.widths.take l.par.tilelevel).sum
    let moved := l.shares.put own { sh with stop := sh.stop - 1 }
    (4 ≤ d → l.par.devset = 0 → exec (.tileClaim key d) s = .next s) ∧
    (4 ≤ d → l.par.devset ≠ 0 → ∃ t, exec (.tileClaim key d) s = .next t ∧ t = { s with launches := t.launches } ∧ t.launches = s.launches.put key { l with
      shares := moved, total := l.total - (min (sh.stop * size) l.par.items.toNat - min ((sh.stop - 1) * size) l.par.items.toNat) }) ∧
    (d < 4 → (s.part l.part).pdies.getLsbD d = true → mine.claimed = [] → (mine.stop ≤ mine.next ∨ mine.steal = true) → s.coreFor l.part d l.par ≠ none →
      (∀ k, s.peerClaim l d = some k → exec (.tileClaim key d) s = .next { s with freeCtr := s.freeCtr + 1, launches := s.launches.put key { l with
        shares := l.shares.put d { mine with claimed := [k] }, total := l.total + (min ((k + 1) * size) l.par.items.toNat - min (k * size) l.par.items.toNat) } }) ∧
      (s.peerClaim l d = none → ∃ t, exec (.tileClaim key d) s = .next t ∧ t = { s with launches := t.launches } ∧ t.launches = s.launches.put key { l with
        shares := moved.put d { mine with claimed := [sh.stop - 1] } })) ∧
    (d < 4 → (mine.claimed ≠ [] ∨ s.coreFor l.part d l.par = none) → exec (.tileClaim key d) s = .next s)) ∧
  (∀ (s : State) (key : Nat) (g : Group) (t : TaskRun) (x : Split), s.groups.get? key = some g → g.task = some t →
    x ∈ g.splits → (∀ y ∈ g.splits, y = x ∨ x.id < y.id) → g.started = true → g.retired = false →
    x.pend = none → x.held = none → x.rerun = none → x.skip = 0 →
    let due : Prop := t.spent = false ∧ t.budget ≠ 0 ∧ t.budget.toNat ≤ (s.clock - t.start).toNat
    (¬ due → exec (.budget key) s = .next s) ∧
    let rec' : TrapRec := { cause := Cause.budget.code, pc := (s.pastPads ⟨⟨key, x.id⟩, g, x⟩ allBlocks x.pc).setWidth 64, lanes := laneMask (liveLanes g x) }
    (due → (∀ b p c, x.wait ≠ .barrier b p c) → (∀ a p c, x.wait ≠ .dbar a p c) →
      exec (.budget key) s = .next ((s.setGroup key { g with task := some { t with spent := true } }).deliver ⟨key, x.id⟩ rec')) ∧
    let resumes (u : State) : Prop := exec (.budget key) s = .next ((u.modSplit ⟨key, x.id⟩ fun y =>
      { y with timedOut := (x.pc, x.wait) :: y.timedOut.filter fun e => e.1 != x.pc }).deliver ⟨key, x.id⟩ rec')
    let spent : State := s.setGroup key { g with task := some { t with spent := true } }
    (∀ b p c, due → x.wait = .barrier b p c → s.barSettle g.wg b.toNat = s → resumes { spent with cyc := { s.cyc with closed := (g.wg, b.toNat) :: s.cyc.closed } }) ∧
    ∀ a p c, due → x.wait = .dbar a p c → resumes spent)

/-- Saving, loading and aborting (R261, R409 to R412, R414, R416, R433). The model's choices: CTXLOAD's order of checks (log 43) and its check of FMT
(log 102), the bytes of a handle in an area (log 22), what a pre-emption waits for (log 41), what an MDRAIN behind an unperformed operation does on a core
without a sub-array (log 22), and what an abort reaches (log 82). -/
def Obligations.SaveAndLoad : Prop :=
  let idle (g : Group) : Prop := g.retired = true ∧ ∀ ln ∈ g.lanes, ln.idle = true ∧ ln.exm = false
  (∀ (s : State) (i : Iss) (o : Op) (w : Workgroup), s.iss? = some i → splitGuard i.g i.sp o = true → s.wgs.get? i.g.wg = some w →
    let a := scalar64 i.sp o.a
    let ad : DWord := BitVec.ofNat 64 a
    let raise (u : State) (ins : Instr) (b : Bad) : Prop := exec ins s = .next (u.raiseAll i b)
    (∀ ins ∈ [Instr.ctxsave o, .ctxload o],
      (i.sp.priv = 0 → raise s ins { cause := .prot, aux := 0xD0000000, addr := ad }) ∧
      (i.sp.priv ≠ 0 → a % 65536 ≠ 0 → raise s ins { cause := .align, aux := 1, addr := ad })) ∧
    (i.sp.priv ≠ 0 → a % 65536 = 0 →
      (∀ u b, s.gx i .write false a = (u, .error b) → raise u (.ctxsave o) { b with addr := ad }) ∧
      (∀ u b, s.gx i .read false a = (u, .error b) → raise u (.ctxload o) { b with addr := ad }) ∧
      ((s.held i .write false a).isSome = true → (∀ k, 0 < k → k < (w.par.areaSize + 65535) / 65536 → (s.held i .write false (a + 65536 * k)).isSome = true) →
        ∃ t y, exec (.ctxsave o) s = .next t ∧ i.sp.Past y (opUnits o) i.sp.s i.sp.flags ∧ Becomes { s with wgs := t.wgs } t i y i.g.lanes ∧
          WgBecomes s t i.g.wg { w with preempt := if w.preempt = none then some { area := ad, reason := 0 } else w.preempt }) ∧
      (∀ xl (h : BitVec 8), s.held i .read false a = some xl → s.badGran xl.place 64 = none → o.d = .h h → h.toNat < 16 →
        let hd (off n : Nat) : Nat := ofBytes (Store.getList s.mem (xl.place + off) n)
        let run := s.imageLaunch w.part (s.ctxOf i.core) a (hd 0x10 8) (hd 0x18 8) (hd 0x0B 1)
        let par (l : Launch) : Params := { l.par with groups := hd 4 2 }
        let size (l : Launch) : Nat := (par l).areaSize
        let fmts (l : Launch) : Bool := s.areaFmts ((s.areaPages (s.ctxOf i.core) (s.part w.part).ctxtbase.toNat .read a (size l)).getD []) (par l)
        (∀ e, run = some e → ∀ k, 0 < k → k < (size e.2 + 65535) / 65536 → (s.held i .read false (a + 65536 * k)).isSome = true) →
        let c1 : Prop := hd 0 2 = s.versel.toNat / 2 ^ 32
        let c2 : Prop := hd 0xC 2 = (s.ctxOf i.core).toNat
        let c3 : Prop := (hd 3 1).testBit 0 = false
        ((i.g.handle h.toNat).st ≠ 0 → raise s (.ctxload o) { cause := .handle, aux := BitVec.ofNat 32 (1 + 16 * h.toNat), addr := ad }) ∧
        ((i.g.handle h.toNat).st = 0 →
          (¬ c1 → raise s (.ctxload o) { illop9 1 with addr := ad }) ∧ (c1 → ¬ c2 → raise s (.ctxload o) { illop9 2 with addr := ad }) ∧
          (c1 → c2 → ¬ c3 → raise s (.ctxload o) { illop9 3 with addr := ad }) ∧ (c1 → c2 → c3 → run = none → raise s (.ctxload o) { illop9 4 with addr := ad }) ∧
          (∀ e, c1 → c2 → c3 → run = some e → fmts e.2 = false → raise s (.ctxload o) { illop9 with addr := ad }) ∧
          (∀ e, c1 → c2 → c3 → run = some e → fmts e.2 = true → ∃ t u y n im id, exec (.ctxload o) s = .next t ∧ Stored s u (xl.place + 3) [BitVec.ofNat 8 (hd 3 1 ||| 1)] ∧
            i.sp.Past y (opUnits o) i.sp.s i.sp.flags ∧ t.images = s.images.put n im ∧ im.area = ad ∧ im.ctx = s.ctxOf i.core ∧ im.queued = true ∧ im.handle = id ∧ s.nextId < id ∧ im.launch = e.1 ∧
            Turns { u with images := t.images, nextId := id + 1 } t i { i.g with handles := setAt i.g.handles h.toNat { st := 1, kind := 5, op := id } } y))))) ∧
  (∀ (s : State) (n : Nat) (w : Workgroup) (area : DWord), s.wgs.get? n = some w → ∃ t, exec (.preemption n area) s = .next t ∧
    t = { s with wgs := t.wgs } ∧ WgBecomes s t n { w with preempt := if w.preempt = none then some { area := area, reason := 0x3F } else w.preempt }) ∧
  (∀ (s : State) (n : Nat) (w : Workgroup) (r : Preempt), s.wgs.get? n = some w →
    let mine (g : Group) : Prop := g.wg = n
    let fenced : Prop := (s.core w.core).mat.healthy = 0
    let completed : Prop := ∀ e ∈ s.groups, mine e.2 → (e.2.started = true ∨ e.2.retired = true) ∧ e.2.results = [] ∧
      (∀ x ∈ e.2.splits, ∀ p, x.pend = some p → fenced ∧ p.opc = .mdrain ∧ ∃ m ∈ e.2.mops, m.id = p.id ∧ e.2.pointReady m = false) ∧
      (∀ m ∈ e.2.mops, fenced ∨ m.kind = .mdrain ∨ m.kind = .mfill) ∧
      (∀ l ∈ e.2.lanes, e.2.retired = true ∨ (l.unread = 0 ∧ l.movable = 0)) ∧ s.budgetFirst e.2 = false
    let live : Prop := (w.task = false ∧ w.next < w.stop) ∨ ∃ e ∈ s.groups, mine e.2 ∧ ¬ (e.2.retired = true ∧ e.2.splits = [] ∧ e.2.mops = [])
    (w.preempt = none ∨ ¬ completed ∨ (∃ c ∈ s.copies, c.wg = n) → exec (.saveAreaWrite n) s = .next s) ∧
    (∀ pages, w.preempt = some r → completed → live → s.barFlush n = s → (∀ c ∈ s.copies, c.wg ≠ n) → w.par.width ∈ [16, 32, 64] →
      w.bars.length = 16 → (∀ b ∈ w.bars, b.post.length = 68) → w.slots.length = w.par.groups →
      (∀ e ∈ s.groups, mine e.2 → ((s.atBoundary e.1 e.2).savedBytes w.par s.clock s.handleBar (s.frameBytes w e.1)).length = w.par.section) →
      s.areaPages (s.ctxOf w.core) (s.part w.part).ctxtbase.toNat .write r.area.toNat w.par.areaSize = some pages →
      (∀ j ∈ [0, 1] ++ (List.range (32 * w.par.localkb)).map (128 + ·), ∀ k < w.par.areaSize / 32, j ≠ k → s.areaPlace pages (32 * j) / 32 ≠ s.areaPlace pages (32 * k) / 32) →
      (∀ k < w.par.areaSize / 32, s.areaPlace pages (32 * k) % 32 = 0) →
      let p := w.par
      let gone : Prop := p.producer = 0xFF ∨ ∃ e ∈ s.groups, mine e.2 ∧ e.2.gid.toNat = p.producer.toNat ∧ e.2.retired = true
      ∃ t, exec (.saveAreaWrite n) s = .next t ∧ t.wgs = s.wgs.erase n ∧ t.groups = s.groups.filter (fun e => e.2.wg != n) ∧ t.launches = s.launches ∧
        (∃ im, t.images = s.images.put s.nextId im ∧ im.area = r.area ∧ im.ctx = s.ctxOf w.core ∧ im.part = w.part ∧ im.launch = w.launch ∧ im.die = w.core / 48 ∧
          im.queued = r.reload ∧ im.ops = s.pendingOps n) ∧
        (Store.getList t.mem (s.areaPlace pages 0) 32 =
          toBytes 2 (s.versel.toNat / 2 ^ 32) ++ toBytes 1 r.reason.toNat ++ toBytes 1 ((if r.reload then 1 else 0) + if w.bufset.isSome then 2 else 0) ++ toBytes 2 p.groups ++
          toBytes 1 (if p.width = 16 then 0 else if p.width = 32 then 1 else 2) ++ toBytes 1 p.vregs ++ toBytes 2 p.localkb ++
          Store.getList t.mem (s.areaPlace pages 0 + 0xA) 1 ++ toBytes 1 (w.core / 48) ++ toBytes 2 (s.ctxOf w.core).toNat ++ toBytes 2 (s.pendingOps n).length ++
          toBytes 8 (s.launchSeq w.launch) ++ toBytes 8 w.wgid.toNat) ∧
        (gone → Store.getList t.mem (s.areaPlace pages 0 + 0xA) 1 = [0xFF]) ∧ (¬ gone → Store.getList t.mem (s.areaPlace pages 0 + 0xA) 1 = [p.producer]) ∧
        Store.getList t.mem (s.areaPlace pages 0x20) 32 = toBytes 8 w.next ++ toBytes 8 w.stop ++ toBytes 4 ((0x2400 + p.width * (1568 + 4 * p.vregs) + 4095) / 4096 * 4096) ++ List.replicate 12 0 ∧
        ∀ k < 32 * p.localkb, Store.getList t.mem (s.areaPlace pages (0x1000 + 32 * k)) 32 = Store.getList w.ls (32 * k) 32)) ∧
  (∀ (s : State) (n id : Nat) (im : Image) (o : SavedOp), s.images.get? n = some im → o ∈ im.ops → o.id = id → (∀ e ∈ s.images, ∀ q ∈ e.2.ops, q.id = id → e = (n, im) ∧ q = o) →
    (s.imagePages im .write = none → exec (.savedCompletion id) s = .next s) ∧
    (∀ pages, s.imagePages im .write = some pages → (∀ t ∈ s.tierOps, t.id ≠ id) →
      let spent : Prop := (∀ e ∈ s.launches, e.2.parent ≠ none → e.2.handle ≠ id) ∧ ∀ e ∈ s.images, e.2.queued = true → e.2.handle ≠ id
      (¬ spent → exec (.savedCompletion id) s = .next s) ∧
      (∀ h, spent → o.handle = some h → o.bar = none →
        let p1 := s.areaPlace pages ((s.imageParams im).areaGroup o.gid + 0x100 + 16 * h)
        let p2 := s.areaPlace pages 0xE
        (p1 < p2 ∨ p2 + 2 ≤ p1) → s.areaPlace pages 0xF = p2 + 1 → ∃ t, exec (.savedCompletion id) s = .next t ∧ Store.getList t.mem p1 1 = [2] ∧
          Store.getList t.mem p2 2 = toBytes 2 (s.areaRead pages 0xE 2 - 1) ∧ t.groups = s.groups ∧ t.launches = s.launches ∧
          t.images = s.images.put n { im with ops := im.ops.filter fun q => q.id != id }))) ∧
  (∀ (s : State) (n c : Nat) (im : Image) (key : List Nat) (pages : List (Nat × Nat)), s.images.get? n = some im → s.headAt im.die = some (key, .image n) →
    s.taskFirst im.die = none →
    let p := s.imageParams im
    (s.coreFor im.part im.die p = none → exec (.imageAdmission n) s = .next s) ∧
    (s.coreFor im.part im.die p = some c → s.imagePages im .read = some pages → ∃ t w, exec (.imageAdmission n) s = .next t ∧
      t.wgs.get? s.nextId = some w ∧ w.core = c ∧ w.part = im.part ∧ w.launch = im.launch ∧ w.par = p ∧ w.slots = (s.freeSlots c).take p.groups ∧
      (let rd := s.areaRead pages
       w.next = rd 0x20 8 ∧ w.stop = rd 0x28 8 ∧ t.images = s.images.erase n ∧
       (∀ b < 16, (w.bar b).phase = BitVec.ofNat 16 (rd (0x80 + 8 * b) 8 / 2 ^ 16) ∧ (w.bar b).arrived = BitVec.ofNat 8 (rd (0x80 + 8 * b) 8 / 2 ^ 8) ∧
         (w.bar b).expected = BitVec.ofNat 8 (rd (0x80 + 8 * b) 8) ∧ (w.bar b).tb = BitVec.ofNat 32 (rd (0x80 + 8 * b) 8 / 2 ^ 32) ∧
         (w.bar b).left = BitVec.ofNat 16 (rd (0x100 + 4 * b) 4) ∧ ∀ m < 68, (w.bar b).post.getD m 0 = BitVec.ofNat 16 (rd (0x200 + 136 * b + 2 * m) 2)) ∧
       (∀ a < 1024 * p.localkb, Store.get w.ls a = Store.get s.mem (s.areaPlace pages (0x1000 + a))) ∧
       ∀ g < p.groups, ∃ y, t.groups.get? (64 * c + w.slots.getD g 0) = some y ∧ y.wg = s.nextId ∧ y.width = p.width ∧ y.lanes.length = p.width ∧
         y.sealSeq = BitVec.ofNat 32 (rd (p.areaGroup g + 40) 4) ∧
         (∀ k < p.width, ∀ r < p.vregs, (y.lane k).v.get r = BitVec.ofNat 32 (rd (p.areaGroup g + 0x2400 + 64 * p.width + 4 * (r * p.width + k)) 4)) ∧
         (∀ x ∈ y.splits, ∃ k < 16, ∀ r < 64, x.s.get r = BitVec.ofNat 32 (rd (p.areaGroup g + 0x600 + 256 * k + 4 * r) 4)) ∧
         ∀ q < p.width / 8, ∀ e < 1024, (y.octets.getD q {}).elems.get e =
           BitVec.ofNat 64 (rd (p.areaGroup g + 0x2400 + 64 * p.width + 4 * p.vregs * p.width + 480 * p.width + 8 * (1024 * q + e)) 8)) ∧
      ∀ e ∈ t.groups, ∀ h ∈ e.2.handles, h.kind = 5 → h.op = im.handle → h.st ≠ 1)) ∧
  (∀ (s : State) (t : TierOp), t ∈ s.tierOps → (∀ x ∈ s.tierOps, x.id = t.id → x = t) → (∀ e ∈ s.images, ∀ q ∈ e.2.ops, q.id ≠ t.id) → t.cancelled = false →
    let hs (g : Group) : Group := { g with handles := g.handles.map fun h => if h.st = 1 ∧ h.kind = 3 ∧ h.op = t.id then { h with st := 2 } else h }
    ∃ u, exec (.tierpfCompletion t.id) s = .next u ∧ u.tierOps = s.tierOps.filter (fun x => x.id != t.id) ∧ (∀ a, Store.get u.mem a = Store.get s.mem a) ∧
      (t.bar = none → u.wgs = s.wgs ∧ ∀ key g, s.groups.get? key = some g → u.groups.get? key = some (hs g)) ∧
      (∀ b w, t.bar = some b → s.wgs.get? t.wg = some w → w.bars.length = 16 → (t.wg, b.toNat) ∈ u.cyc.due ∧
        (∀ key g, s.groups.get? key = some g → u.groups.get? key = some (hs g)) ∧ ∃ b', WgBecomes s u t.wg { w with bars := setAt w.bars b.toNat b' } ∧
          b'.arrived = (w.bar b.toNat).arrived + 1 ∧ b'.tb = (w.bar b.toNat).tb ∧ b'.phase = (w.bar b.toNat).phase ∧ b'.expected = (w.bar b.toNat).expected)) ∧
  (∀ (s : State) (part key : Nat) (seq : BitVec 56) (l : Launch), s.launches.get? key = some l →
    (∀ e ∈ s.launches, (e.2.part = part ∧ e.2.parent = none ∧ e.2.forPeer = false ∧ e.2.seq = seq) ↔ e = (key, l)) →
    let mine (P : Nat → Group → Prop) : Prop := ∀ k g w, s.groups.get? k = some g → s.wgs.get? g.wg = some w → w.launch = key → g.retired = false → P k g
    let ends (t : State) : Prop := mine fun k g => if ∀ x ∈ g.splits, x.pend = none then ∃ g', t.groups.get? k = some g' ∧ idle g'
      else ∃ g', t.groups.get? k = some g' ∧ g' = { g with handles := g'.handles }
    (l.aborted = true → ∃ t, exec (.abort part seq) s = .next t ∧ t.images = s.images ∧ ends t) ∧
    (l.aborted = false → ∃ t l', exec (.abort part seq) s = .next t ∧ t.launches.get? key = some l' ∧ l'.aborted = true ∧ l'.faults = l.faults ∧ l'.seq = l.seq ∧ l'.par = l.par ∧
      t.images = s.images.filter (fun e => e.2.launch != key) ∧ (∀ d, ∀ r ∈ t.taskq.getD d [], r.launch ≠ key) ∧
      (∀ n w, s.wgs.get? n = some w → w.launch = key → ∃ w', t.wgs.get? n = some w' ∧ w'.next = w'.stop ∧ w'.preempt = none) ∧
      ends t))

/-- What the memories do by themselves and for the host (R77, R197, R210 to R213, R234, R303, R305, R393, R437). The model's choices: the hash H0 of
physical accesses (log 19), the host's windows (log 92), each LPDDR6 channel a stack of its own (log 97), which sets a carve gives up (log 48), and that
writing its stamp byte again makes a record a new one (log 116). -/
def Obligations.MemoryMaintenance : Prop :=
  (∀ (s u : State) (core : Nat) (va : DWord) (claim : Bool) (w : Walked), va.toNat < 2 ^ 52 → s.coreFailed.getLsbD core = false →
    s.walk (some core) (s.ctxOf core) (s.coreCtxt core) .read va.toNat = (u, .ok w) → (pteW w.leaf && pteX w.leaf) = false →
    tierOf (pteAddr w.leaf (pageBits w.level)) = some (pteTier w.leaf) →
    let acts : Bool := claim && (pteClass w.leaf == 0 || (pteClass w.leaf == 1 && (pteOwner w.leaf != core || pteX w.leaf || pteCP w.leaf)))
    let mine : Bool := pteClass w.leaf == 0 && !pteX w.leaf && !pteCP w.leaf
    let leaf : DWord := if acts then pteSet w.leaf (if mine then 1 else 2) (if mine then core else 0) else w.leaf
    (claim = true → u.claimWaits core w = true → exec (.translationWalk core va claim) s = .next u) ∧
    ((claim = true → u.claimWaits core w = false) → (acts = true → u.older.get? (w.entryAt / 32) = none) → ∃ t, exec (.translationWalk core va claim) s = .next t ∧
      Stored s t w.entryAt (if acts then toBytes 8 leaf.toNat else []) ∧
      ⟨s.ctxOf core, va.toNat / 2 ^ pageBits w.level, w.level, leaf, w.entryAt⟩ ∈ (t.core core).tlb)) ∧
  (∀ (s : State) (core : Nat) (va : DWord) (claim : Bool),
    (2 ^ 52 ≤ va.toNat ∨ s.coreFailed.getLsbD core = true → exec (.translationWalk core va claim) s = .next s ∧ exec (.flushAndReclassify core va) s = .next s) ∧
    (va.toNat < 2 ^ 52 → s.coreFailed.getLsbD core = false → ∀ u b, s.walk (some core) (s.ctxOf core) (s.coreCtxt core) .read va.toNat = (u, .error b) →
      Quiet s u ∧ exec (.translationWalk core va claim) s = .next u ∧ exec (.flushAndReclassify core va) s = .next u)) ∧
  (∀ (s u : State) (core : Nat) (va : DWord) (w : Walked), va.toNat < 2 ^ 52 → s.coreFailed.getLsbD core = false →
    s.walk (some core) (s.ctxOf core) (s.coreCtxt core) .read va.toNat = (u, .ok w) → pteClass w.leaf = 1 →
    (pteOwner w.leaf ≠ core ∨ pteX w.leaf = true ∨ pteCP w.leaf = true) →
    (u.claimWaits core w = true → exec (.flushAndReclassify core va) s = .next u) ∧
    (u.claimWaits core w = false → u.older.get? (w.entryAt / 32) = none → ∃ t, exec (.flushAndReclassify core va) s = .next t ∧ Stored s t w.entryAt (toBytes 8 (pteSet w.leaf 2 0).toNat) ∧
      (∀ e ∈ (t.core (pteOwner w.leaf)).tlb, ¬ (e.ctx = s.ctxOf core ∧ e.level = w.level ∧ e.page = va.toNat / 2 ^ pageBits w.level)) ∧
      (pteHash w.leaf ≠ 3 ∨ u.xmHeld = [] → ∀ l ∈ (t.core (pteOwner w.leaf)).l1, t.pageHas w.leaf w.level l.line = false))) ∧
  (∀ (s : State) (line : Nat), ∃ t, exec (.recallLine line) s = .next t ∧ Quiet s t ∧
    (s.cores.Pairwise (fun e f => e.1 ≠ f.1) → ∀ c ctx l, c < 192 → (s.core c).l1At line ctx = some l →
      (l.cls = .owned → (t.core c).l1At line ctx = some { l with cls := .shared, dirty := 0 }) ∧ (l.cls = .priv → (t.core c).l1At line ctx = none))) ∧
  (∀ (s : State) (c : Nat),
    let k := s.core c
    let fits : Prop := k.carvePend = true ∧ ((s.coreWgs c).map fun w => w.par.localkb).sum ≤ 512 - 64 * k.carveReq.toNat
    (¬ fits → exec (.carveApply c) s = .next s) ∧
    (fits → ∃ t k', exec (.carveApply c) s = .next t ∧ t = { s with cores := t.cores, l2 := t.l2, dram := t.dram, older := t.older } ∧
      (∀ d, d ≠ c → t.core d = { s.core d with icache := (t.core d).icache }) ∧ k' = t.core c ∧
      k' = { k with carve := k.carveReq, carvePend := false, l1 := k'.l1, icache := k'.icache } ∧ ∀ l ∈ k'.l1, l ∈ k.l1 ∧ Config.l1Set l.line % (64 * k.carve.toNat) < 64 * k.carveReq.toNat)) ∧
  (∀ (s : State) (sector stall : Nat) (write conflict : Bool),
    let d := dramAt (sector / 4)
    let c := (d.lp, d.chan)
    let rs := (s.dram.filter fun q => (dramAt (q.1 / 4)).sameRow d).take 4
    let g := s.rows.getD d.group {}
    let now := s.clock.toNat / (if g.high then 46875 else 93750) % 2 ^ 16
    let age := (now + 2 ^ 16 - g.ts.toNat) % 2 ^ 16
    let fresh : Prop := g.mask = 0 ∨ g.stale = true ∨ 2 ^ 15 ≤ age ∨ 128 < age
    (rs.head? ≠ some (sector, write) ∨ s.selfRefresh.getLsbD (stackOf c) = true → exec (.dramRequest sector write conflict stall) s = .next s) ∧
    (rs.head? = some (sector, write) → s.selfRefresh.getLsbD (stackOf c) = false → ∃ t g', exec (.dramRequest sector write conflict stall) s = .next t ∧
      t = { s with dram := t.dram, rows := s.rows.put d.group g', chan := t.chan } ∧ (∀ q, t.dram.count q + rs.count q = s.dram.count q) ∧ g'.high = g.high ∧ g'.stale = false ∧
      (fresh → g'.mask = 1#8 <<< (d.row % 8) ∧ g'.ts = BitVec.ofNat 16 now) ∧ (¬ fresh → g'.mask = g.mask ||| (1#8 <<< (d.row % 8)) ∧ g'.ts = g.ts) ∧
      (s.freeze = true → t.chan = s.chan) ∧
      (s.freeze = false → (∀ e ∈ [(0, 1), (1, if conflict then 1 else 0), (2, stall), (4, (rs.filter fun q => !q.2).length), (5, (rs.filter fun q => q.2).length)],
          t.chan.get (chanKey c e.1) = s.chan.get (chanKey c e.1) + BitVec.ofNat 48 e.2) ∧
        ∀ k, (∀ j ∈ [0, 1, 2, 4, 5], k ≠ chanKey c j) → t.chan.get k = s.chan.get k))) ∧
  (∀ (s : State) (group : Nat),
    let c := groupChan group
    let hot := s.trefwHigh.getLsbD (stackOf c)
    let g := s.rows.getD group {}
    let unit (h : Bool) : Nat := if h then 46875 else 93750
    let age := (s.clock.toNat / unit g.high % 2 ^ 16 + 2 ^ 16 - g.ts.toNat) % 2 ^ 16
    let skips : Prop := g.mask = 0xFF ∧ g.stale = false ∧ age < 2 ^ 15 ∧ age * unit g.high ≤ 128 * unit hot
    (s.selfRefresh.getLsbD (stackOf c) = true → exec (.refreshSlot group) s = .next s) ∧
    (s.selfRefresh.getLsbD (stackOf c) = false → ∃ t, exec (.refreshSlot group) s = .next t ∧
      t = { s with rows := s.rows.put group { g with mask := 0, high := hot }, chan := t.chan } ∧ (¬ skips ∨ s.freeze = true → t.chan = s.chan) ∧
      (skips → s.freeze = false → t.chan = s.chan.set (chanKey c 3) (s.chan.get (chanKey c 3) + 1)))) ∧
  (∀ (s : State) (n : Nat), n < 40 →
    let asked : Prop := ∃ q ∈ s.dram, stackOf ((dramAt (q.1 / 4)).lp, (dramAt (q.1 / 4)).chan) = n
    (asked → exec (.selfRefreshEntry n) s = .next s) ∧
    (¬ asked → ∃ t, exec (.selfRefreshEntry n) s = .next t ∧ t = { s with selfRefresh := t.selfRefresh } ∧
      ∀ k, t.selfRefresh.getLsbD k = (s.selfRefresh.getLsbD k || k == n)) ∧
    (s.selfRefresh.getLsbD n = false → exec (.selfRefreshExit n) s = .next s) ∧
    (s.selfRefresh.getLsbD n = true → ∃ t, exec (.selfRefreshExit n) s = .next t ∧ t = { s with selfRefresh := t.selfRefresh, rows := t.rows } ∧
      (∀ k, t.selfRefresh.getLsbD k = (s.selfRefresh.getLsbD k && k != n)) ∧
      ∀ r g, s.rows.get? r = some g → t.rows.get? r = some (if stackOf (groupChan r) = n then { g with mask := 0, stale := true } else g)) ∧
    (∀ high, ∃ t, exec (.trefwChange n high) s = .next t ∧ t = { s with trefwHigh := t.trefwHigh } ∧
      ∀ k, t.trefwHigh.getLsbD k = if k = n then high else s.trefwHigh.getLsbD k)) ∧
  (∀ (s : State) (a : Nat) (bs : List Byte),
    (∃ t, exec (.hostMemWrite .own a bs) s = .next t ∧ t = { s with hostMem := t.hostMem, parts := t.parts } ∧
      (∀ k < bs.length, Store.get t.hostMem (a + k) = bs.getD k 0) ∧ (∀ x, x < a ∨ a + bs.length ≤ x → Store.get t.hostMem x = Store.get s.hostMem x) ∧
      ∀ n, t.part n = { s.part n with stale := (t.part n).stale } ∧ ∀ k < 64, (t.part n).stale.getLsbD k =
        ((s.part n).stale.getLsbD k && !decide (a ≤ (s.part n).lwbase.toNat + 256 * k + 0xFF ∧ (s.part n).lwbase.toNat + 256 * k + 0xFF < a + bs.length))) ∧
    ∀ who : Outside, who ≠ .own →
    let deaf : Prop := s.powered = false ∨ (who = .host ∧ s.hostFailed = true) ∨ ∃ p, who = .peer p ∧ s.peerFailed.getLsbD p = true
    (deaf → exec (.hostMemWrite who a bs) s = .next s ∧ exec (.hostMemRead ⟨who, a⟩ bs.length) s = .next s) ∧
    (¬ deaf → s.reachedBy who a = true → 0 < bs.length → a % 32 + bs.length ≤ 32 → ∃ t, exec (.hostMemWrite who a bs) s = .next t ∧
      Stored s t (s.place a 0) bs ∧ t.staged.get (s.place a 0 / 32) = 0) ∧
    (¬ deaf → (∃ t, exec (.hostMemWrite who a bs) s = .next t ∧ t.groups = s.groups ∧ t.wgs = s.wgs ∧
        ∀ p, (∀ k < bs.length, s.reachedBy who (a + k) = true → p ≠ s.place (a + k) 0) → Store.get t.mem p = Store.get s.mem p) ∧
      ∃ t, exec (.hostMemRead ⟨who, a⟩ bs.length) s = .next t ∧ Quiet s t))

/-- The device's edges (R192, R202, R207, R415, R443 to R446, R449 to R451). The model's choices: PDIES and PCORES are judged once both are set (log 46),
CTXRET is ignored while its partition's command runs (log 47), a moved core takes only values that a SYSWR would (log 58) once it is drained (log 107),
cached lines keep their places under a new matrix (log 49), the record of a firmware failure (log 50), the zeroing at the first image (log 52), the opaque
hash and signature check (log 17) and measurement 4 (log 57). -/
def Obligations.DeviceControls : Prop :=
  let entry (s : State) (ty cls unit code addr : Nat) : List Byte := toBytes 1 ty ++ toBytes 1 cls ++ toBytes 2 unit ++ toBytes 4 code ++ toBytes 8 addr ++ toBytes 8 s.clock.toNat ++ List.replicate 8 0
  let logged (s t : State) (bs : List Byte) : Prop :=
    let a := (s.errBase.toNat + 32 * s.errTail.toNat) % 2 ^ 64
    let z := (s.errBase.toNat + 32 * (s.errTail - 1).toNat) % 2 ^ 64 + 0x1F
    (s.errTail + 1 ≠ s.errHead → t.errTail = s.errTail + 1 ∧ Store.getList t.hostMem a 32 = bs ∧ ∀ x, x < a ∨ a + 32 ≤ x → Store.get t.hostMem x = Store.get s.hostMem x) ∧
    (s.errTail + 1 = s.errHead → t.errTail = s.errTail ∧ Store.get t.hostMem z = Store.get s.hostMem z ||| 1 ∧ ∀ x, x ≠ z → Store.get t.hostMem x = Store.get s.hostMem x)
  let becomes (s : State) (i : Instr) (u : State) : Prop := exec i s = .next u
  let dies (d : BitVec 4) (c : BitVec 192) : Prop := d = 0 ∨ c = 0 ∨
    ((∀ n < 192, c.getLsbD n = true → d.getLsbD (n / 48) = true) ∧ ∀ k < 4, d.getLsbD k = true → ∃ n < 192, n / 48 = k ∧ c.getLsbD n = true)
  let current (s : State) (x : BitVec 16) : Prop := s.gens.get (x.toNat % 4096) = x.extractLsb' 12 4 ∧
    ¬ (x.extractLsb' 12 4 = 15 ∧ ∃ e ∈ s.retire, e.2.toNat = x.toNat % 4096)
  (∀ (s : State) (p : Nat) (v : BitVec 192),
    let q := s.part p
    let free : Prop := p < 16 ∧ (∀ e ∈ s.launches, e.2.part ≠ p) ∧ (∀ e ∈ s.wgs, e.2.part ≠ p) ∧ ∀ e ∈ s.images, e.2.part ≠ p
    let d := v.setWidth 4
    let c := v.setWidth 16
    let alone : Prop := ∀ e ∈ s.parts, e.1 = p ∨ e.2.pcores &&& v = 0
    let takes (q' : Partition) (n : Nat) : Prop := n < 192 ∧ q'.pcores.getLsbD n = true ∧ (∀ e ∈ s.groups, e.1 / 64 ≠ n) ∧ current s q'.pctx
    let set (off : BitVec 12) (ok : Prop) (q' : Partition) : Prop :=
      (s.powered = false → becomes s (.partitionSettingWrite p off v) s) ∧
      (s.powered = true → free → ok → ∃ t, exec (.partitionSettingWrite p off v) s = .next t ∧ t = { s with parts := s.parts.put p q', cores := t.cores } ∧
        ∀ n, t.core n = if off ≠ 0x040 ∧ takes q' n then { s.core n with ctxid := q'.pctx } else s.core n) ∧
      (s.powered = true → ¬ (free ∧ ok) → ∃ t, exec (.partitionSettingWrite p off v) s = .next t ∧ t = { s with hostMem := t.hostMem, errTail := t.errTail } ∧
        logged s t (entry s 9 5 p off.toNat (v.toNat % 2 ^ 64)))
    set 0x040 (dies d q.pcores) { q with pdies := d } ∧ set 0x048 (s.gens.get (c.toNat % 4096) = c.extractLsb' 12 4) { q with pctx := c } ∧
    set 0x050 (dies q.pdies v ∧ alone) { q with pcores := v }) ∧
  (∀ (s : State) (v : DWord),
    let w (page : Nat) (off : Nat) : Instr := .managementWindowWrite page (BitVec.ofNat 12 off) v
    let bad (x : BitVec 48) (k : Nat) : Prop := ¬ (s.verMin.toNat / 2 ^ k % 2 ^ 16 ≤ x.toNat / 2 ^ k % 2 ^ 16 ∧ x.toNat / 2 ^ k % 2 ^ 16 ≤ s.verMax.toNat / 2 ^ k % 2 ^ 16)
    let wrong (x : BitVec 48) : Prop := bad x 0 ∨ bad x 16 ∨ bad x 32
    let judged (i : Instr) (x : BitVec 48) (go : Bool) : Prop := ∀ e : Bool, (e = true ↔ go = true ∧ wrong x) → becomes s i { s with versel := x, go := go, err := e }
    (s.powered = false → ∀ page off, becomes s (w page off) s) ∧
    (s.powered = true →
      judged (w 0 0x010) (v.setWidth 48) s.go ∧ judged (w 0 0x018) s.versel (v.getLsbD 0) ∧ judged .attachGo s.versel true ∧
      becomes s (w 0 0x100) { s with errHead := v.setWidth 12 } ∧ becomes s (w 0 0x110) { s with errBase := v } ∧
      (∀ i < 9, ∃ t, exec (.xmWrite i (v.setWidth 24)) s = .next t ∧ becomes s (w 0 (0x040 + 8 * i)) t) ∧
      (∀ n < 128, becomes s (w 0 (0x800 + 8 * n)) { s with fabric := s.fabric.set n v }) ∧
      (∀ off < 4096, off ∉ [0x010, 0x018, 0x100, 0x110] → (∀ i < 9, off ≠ 0x040 + 8 * i) → (∀ n < 128, off ≠ 0x800 + 8 * n) → becomes s (w 0 off) s) ∧
      (∀ page off, 17 ≤ page → becomes s (w page off) s) ∧
      ∀ p < 16,
        let q := s.part p
        let set (off : Nat) (q' : Partition) : Prop := becomes s (w (p + 1) off) { s with parts := s.parts.put p q' }
        set 0x000 { q with lwbase := v } ∧ set 0x008 { q with ctxtbase := v } ∧ set 0x010 { q with poolbase := v } ∧ set 0x018 { q with poolsize := v } ∧
        set 0x020 { q with tfbase := v } ∧ set 0x028 { q with svec := v } ∧ set 0x030 { q with hvec := v } ∧
        (∀ t, exec (.ctxretWrite p (v.setWidth 32)) s = .next t → becomes s (w (p + 1) 0x038) t) ∧
        (∀ off ∈ [0x040, 0x048], ∀ t, exec (.partitionSettingWrite p (BitVec.ofNat 12 off) (v.setWidth 192)) s = .next t → becomes s (w (p + 1) off) t) ∧
        (∀ k < 3, let new := (q.pcores &&& ~~~(BitVec.ofNat 192 (2 ^ 64 - 1) <<< (64 * k))) ||| (v.setWidth 192 <<< (64 * k))
          (s.partSetting p 0x050 new).isSome = true → ∀ t, exec (.partitionSettingWrite p 0x050 new) s = .next t → becomes s (w (p + 1) (0x050 + 8 * k)) t) ∧
        ∀ off < 4096, off ∉ [0x000, 0x008, 0x010, 0x018, 0x020, 0x028, 0x030, 0x038, 0x040, 0x048, 0x050, 0x058, 0x060] → becomes s (w (p + 1) off) s) ∧
    (s.powered = false → becomes s .attachGo s ∧ ∀ i, becomes s (.xmWrite i (v.setWidth 24)) s) ∧
    (s.powered = true → ∀ i, ∃ t, exec (.xmWrite i (v.setWidth 24)) s = .next t ∧ t = { s with xm := setAt s.xm i (v.setWidth 24), xmHeld := t.xmHeld } ∧
      (s.cachedLines = [] → t.xmHeld = []) ∧ ∀ line ∈ s.cachedLines, t.linePA 3 line = s.linePA 3 line) ∧
    (∀ page off, s.powered = false → s.windowRead page off = 0) ∧
    (s.powered = true → s.windowRead 0 0x000 = s.verMin.setWidth 64 ∧ s.windowRead 0 0x008 = s.verMax.setWidth 64 ∧ s.windowRead 0 0x010 = s.versel.setWidth 64 ∧
      s.windowRead 0 0x018 = (if s.go then 1 else 0) ||| (if s.err then 2 else 0) ∧ s.windowRead 0 0x020 = s.fwstat.setWidth 64 ∧
      (∀ n < 128, s.windowRead 0 (BitVec.ofNat 12 (0x800 + 8 * n)) = s.fabric.get n) ∧
      ∀ p < 16, s.windowRead (p + 1) 0x000 = (s.part p).lwbase ∧ s.windowRead (p + 1) 0x008 = (s.part p).ctxtbase ∧ s.windowRead (p + 1) 0x038 = (s.part p).ctxret.setWidth 64 ∧
        s.windowRead (p + 1) 0x058 = (s.part p).pcores.extractLsb' 64 64 ∧ s.windowRead (p + 1) 0x070 = 0)) ∧
  (∀ (s : State) (c : Nat) (lim : BitVec 8) (ctx : BitVec 16) (th : BitVec 17),
    let k := s.core c
    let lo := lim.toNat % 16
    let hi := lim.toNat / 16
    let mn := th.toNat % 32
    let mx := th.toNat / 256 % 32
    let limOk : Prop := lo ≠ 0 ∧ hi ≤ 8 ∧ lo ≤ hi
    let ctxOk : Prop := current s ctx ∧ ∀ p, s.corePart c = some p → (s.part p).pctx = ctx
    let thOk : Prop := 2 ≤ mn ∧ mx ≤ 16 ∧ mn ≤ mx
    let held : Prop := (∃ e ∈ s.groups, e.1 / 64 = c) ∨ s.coreWgs c ≠ []
    (held → ∃ t, exec (.partitionCoreMove c lim ctx th) s = .next t ∧ t = { s with cores := t.cores } ∧ CoreBecomes s t c { k with moving := some (lim, ctx, th) }) ∧
    (¬ held → ∃ t k', exec (.partitionCoreMove c lim ctx th) s = .next t ∧ t = { s with cores := t.cores } ∧ CoreBecomes s t c k' ∧
      k' = { k with lmin := k'.lmin, lmax := k'.lmax, ctxid := k'.ctxid, mmin := k'.mmin, mmax := k'.mmax, fix := k'.fix, m := k'.m, carvePend := k'.carvePend, carveReq := k'.carveReq, moving := none } ∧
      (limOk → k'.lmin.toNat = lo ∧ k'.lmax.toNat = hi ∧ ((k.carve.toNat < lo ∨ hi < k.carve.toNat) → k'.carvePend = true ∧ k'.carveReq.toNat = if k.carve.toNat < lo then lo else hi)) ∧
      (¬ limOk → k'.lmin = k.lmin ∧ k'.lmax = k.lmax) ∧ (ctxOk → k'.ctxid = ctx) ∧ (¬ ctxOk → k'.ctxid = k.ctxid) ∧
      (thOk → k'.mmin.toNat = mn ∧ k'.mmax.toNat = mx ∧ k'.fix = th.getLsbD 16 ∧ ∀ q < k.m.length, (k'.m.getD q 0).toNat = min mx (max mn (k.m.getD q 0).toNat)) ∧
      (¬ thOk → k'.mmin = k.mmin ∧ k'.mmax = k.mmax ∧ k'.fix = k.fix ∧ k'.m = k.m))) ∧
  (∀ (s : State) (p : Nat) (v : Word),
    (s.powered = false ∨ (∃ e ∈ s.retire, e.1 = p) → exec (.ctxretWrite p v) s = .next s) ∧
    (s.powered = true → (∀ e ∈ s.retire, e.1 ≠ p) → ∃ t, exec (.ctxretWrite p v) s = .next t ∧ t = { s with parts := t.parts, retire := s.retire ++ [(p, v.setWidth 12)] } ∧
      t.part p = { s.part p with ctxret := ((s.part p).ctxret &&& 0xF000) ||| (v &&& 0xFFF) } ∧ ∀ o, o ≠ p → t.part o = s.part o)) ∧
  (∀ (s : State), (s.retire = [] → exec .retireCommandCompletion s = .next s) ∧
    (∀ p id rest, s.retire = (p, id) :: rest →
      let gen := s.gens.get id.toNat
      let mine (c : BitVec 16) : Prop := c.toNat % 4096 = id.toNat
      ∃ t, exec .retireCommandCompletion s = .next t ∧
        t = { s with gens := t.gens, retire := rest, parts := t.parts, cores := t.cores, l2 := t.l2, dram := t.dram, older := t.older, xmHeld := t.xmHeld,
                     sliceTlb := t.sliceTlb, execTlb := t.execTlb } ∧
        (∀ k, t.gens.get k = if k = id.toNat then gen + 1 else s.gens.get k) ∧ (∀ o, o ≠ p → t.part o = s.part o) ∧
        t.part p = { s.part p with ctxret := BitVec.ofNat 32 (2 ^ 31 + 2 ^ 12 * (gen + 1).toNat + id.toNat) } ∧
        (∀ c, ∀ l ∈ (t.core c).l1, l.ctx = gen ++ id → l.dirty = 0) ∧ (∀ l ∈ t.l2, l.ctx = gen ++ id → l.sd = 0) ∧
        (gen = 15 → (∀ c, (∀ l ∈ (t.core c).l1, ¬ mine l.ctx) ∧ (∀ l ∈ (t.core c).icache, ¬ mine l.ctx) ∧ ∀ e ∈ (t.core c).tlb, ¬ mine e.ctx) ∧ ∀ l ∈ t.l2, ¬ mine l.ctx))) ∧
  (∀ (s : State) (header body sig : List Byte),
    let waits : Prop := s.powered = true ∧ (s.fwstat = 0 ∨ s.fwstat = 3)
    let holds : Bool := Config.sigHolds header sig && Config.sha3 body == Config.headerHash header
    let verifies : Prop := s.powered = true ∧ s.fwstat = 1 ∧ s.fwImage = some (header, body, sig)
    (¬ waits → ¬ verifies → exec (.firmwareImage header body sig) s = .next s) ∧
    (waits → exec (.firmwareImage header body sig) s = .next { s with fwstat := 1, fwImage := some (header, body, sig) }) ∧
    (verifies → ∃ t, exec (.firmwareImage header body sig) s = .next t ∧ (holds = false → t = { s with fwstat := 3, fwImage := none }) ∧
      (holds = true → t.fwstat = 2 ∧ t.fwImage = none ∧ t.fwHash = Config.sha3 body ∧ t.fwVersion = Config.headerVersion header ∧
        t.verMin = Config.verMin ∧ t.verMax = Config.verMax ∧ t.err = (s.go && !t.versionsOk) ∧ (∀ c < 192, t.core c = { s.core c with stopped := false }) ∧
        (s.fwHash ≠ 0 → t.mem = s.mem) ∧ (s.fwHash = 0 → ∀ a, Store.get t.mem a = 0 ∧ t.poison.get a = 0 ∧ t.staged.get a = 0))) ∧
    (s.powered = true → ∃ t, exec .firmwareFailure s = .next t ∧ logged s t (entry s 5 4 0 0 0) ∧ t.fwstat = 0 ∧ t.fwImage = none ∧
      (∀ c < 192, t.core c = { s.core c with stopped := true, sink := [], misses := [], xmiss := [] }) ∧ t.copies = [] ∧ t.tierOps = [] ∧
      t.launches = [] ∧ t.groups = [] ∧ t.wgs = [] ∧ t.images = [] ∧ t.taskq = [] ∧ t.parts = s.parts ∧ t.versel = s.versel ∧ t.mem = s.mem) ∧
    exec (.spdmRequest 1) s = .next { s with spdm := s.spdm ++ [(1, s.fwHash)] } ∧
    exec (.spdmRequest 2) s = .next { s with spdm := s.spdm ++ [(2, Config.fuses)] } ∧
    exec (.spdmRequest 3) s = .next { s with spdm := s.spdm ++ [(3, BitVec.ofNat 512 s.retiredUnits)] } ∧
    (∃ m, exec (.spdmRequest 4) s = .next { s with spdm := s.spdm ++ [(4, m)] } ∧ m = Config.sha3 s.epochBytes))

/-- Failures, heat and power (R202, R213, R337, R447, R454, R455, R458). The model's choices: unit numbers (log 59), the shutdown's record (log 51), what
a core's failure does (log 54), LINK_RESET changes nothing (log 55), no core with a resident group sleeps (log 56), an accumulator's error (log 98), what
power-off keeps (log 53), and that a host's failure marks the records of its letterboxes (log 116). -/
def Obligations.Reliability : Prop :=
  let entry (s : State) (ty cls unit addr : Nat) : List Byte := toBytes 1 ty ++ toBytes 1 cls ++ toBytes 2 unit ++ toBytes 4 0 ++ toBytes 8 addr ++ toBytes 8 s.clock.toNat ++ List.replicate 8 0
  let logged (s t : State) (bs : List Byte) : Prop :=
    let a := (s.errBase.toNat + 32 * s.errTail.toNat) % 2 ^ 64
    let z := (s.errBase.toNat + 32 * (s.errTail - 1).toNat) % 2 ^ 64 + 0x1F
    (s.errTail + 1 ≠ s.errHead → t.errTail = s.errTail + 1 ∧ Store.getList t.hostMem a 32 = bs ∧ ∀ x, x < a ∨ a + 32 ≤ x → Store.get t.hostMem x = Store.get s.hostMem x) ∧
    (s.errTail + 1 = s.errHead → t.errTail = s.errTail ∧ Store.get t.hostMem z = Store.get s.hostMem z ||| 1 ∧ ∀ x, x ≠ z → Store.get t.hostMem x = Store.get s.hostMem x)
  let leaves (s t : State) (n addr : Nat) : Prop := s.wgs.Pairwise (fun e f => e.1 ≠ f.1) → ∀ m w, s.wgs.get? m = some w →
    (w.core ≠ n → t.wgs.get? m = some w) ∧
    (w.core = n → ∃ r, t.wgs.get? m = some { w with preempt := some r } ∧
      (w.preempt = none → r.reason = 0x3F ∧ r.reload = true ∧ r.area.toNat % 65536 = addr % 65536) ∧ ∀ p, w.preempt = some p → r = p)
  (∀ (s : State) (n addr : Nat),
    let runs (i : Instr) (t : State) : Prop := exec i s = .next t
    (∀ e ∈ [(UnitKind.granule, 0), (.link, 2)], ∃ t, runs (.unitFailure e.1 n addr false) t ∧ logged s t (entry s 2 e.2 n addr) ∧
      t = { s with hostMem := t.hostMem, errTail := t.errTail }) ∧
    (∃ t, runs (.unitFailure .core n addr false) t ∧ logged s t (entry s 2 3 n 0) ∧ t = { s with hostMem := t.hostMem, errTail := t.errTail }) ∧
    (let k := s.core (n / 8)
     (∃ t k', runs (.unitFailure .subarray n addr false) t ∧ logged s t (entry s 2 1 n 0) ∧ CoreBecomes s t (n / 8) k' ∧ k' = { k with mat := { k.mat with trans := k'.mat.trans } } ∧
       k'.mat.trans.toNat = min 255 (k.mat.trans.toNat + 1) ∧ t = { s with hostMem := t.hostMem, errTail := t.errTail, cores := t.cores }) ∧
     (k.mat.fenced.getLsbD (n % 8) = false → ∃ t, runs (.unitFailure .subarray n addr true) t ∧ (t.core (n / 8)).mat.fenced = k.mat.fenced ||| (1#8 <<< (n % 8)) ∧
       (∀ d, d ≠ n / 8 → t.core d = s.core d) ∧
       (k.mat.fenced ||| (1#8 <<< (n % 8)) ≠ 0xFF → (t.core (n / 8)).retired = k.retired ∧ t.retiredUnits = s.retiredUnits + 1 ∧ logged s t (entry s 3 1 n 0)) ∧
       (k.mat.fenced ||| (1#8 <<< (n % 8)) = 0xFF → (t.core (n / 8)).retired = true ∧
         (k.retired = false → t.retiredUnits = s.retiredUnits + 2 ∧ leaves s t (n / 8) addr)))) ∧
    (∃ t, runs (.unitFailure .granule n addr true) t ∧ logged s t (entry s 3 0 n addr) ∧ t.poison.get n = 1 ∧ (∀ g, g ≠ n → t.poison.get g = s.poison.get g) ∧
      t.retiredUnits = s.retiredUnits + 1 ∧ (dramAt (n / 4)).group * 8 + (dramAt (n / 4)).row % 8 ∈ t.spare ∧ t.mem = s.mem) ∧
    (n < 32 → ∃ t, runs (.unitFailure .link n addr true) t ∧ logged s t (entry s 3 2 n addr) ∧ (∀ j, t.links.getLsbD j = (s.links.getLsbD j || j == n)) ∧
      t = { s with hostMem := t.hostMem, errTail := t.errTail, links := t.links, retiredUnits := s.retiredUnits + 1 }) ∧
    ((s.core n).retired = false → ∃ t, runs (.unitFailure .core n addr true) t ∧ logged s t (entry s 3 3 n 0) ∧ CoreBecomes s t n { s.core n with retired := true } ∧
      t.retiredUnits = s.retiredUnits + 1 ∧ leaves s t n addr) ∧
    ∀ lasting g, s.groups.get? (n / 32) = some g → n / 4 % 8 < g.octets.length → ∃ t g', runs (.unitFailure .accumulator n addr lasting) t ∧
      t = { s with groups := t.groups } ∧ t.groups.get? (n / 32) = some g' ∧ (∀ k, k ≠ n / 32 → t.groups.get? k = s.groups.get? k) ∧ g' = { g with octets := g'.octets } ∧
      ∀ o b, b < 4 → (g'.octet o).elems = (g.octet o).elems ∧ (g'.octet o).tag = (g.octet o).tag ∧
        (g'.octet o).poison.getLsbD b = ((g.octet o).poison.getLsbD b || (o == n / 4 % 8 && b == n % 4))) ∧
  (∀ (s : State) (c : Nat),
    let dirty (g : Nat) : Prop := ∃ l ∈ (s.core c).l1, l.line = g / 4 ∧ l.dirty.getLsbD (g % 4) = true
    (c < 192 → ∃ t, exec (.agentFailure (.core c)) s = .next t ∧ (∀ g, dirty g → t.poison.get g = 1) ∧ (∀ g, ¬ dirty g → t.poison.get g = s.poison.get g) ∧
      (t.core c).l1 = [] ∧ (t.core c).icache = [] ∧ (∀ e ∈ t.older, e ∈ s.older ∧ ¬ dirty e.1) ∧ (∀ n, t.coreFailed.getLsbD n = (s.coreFailed.getLsbD n || n == c)) ∧ t.mem = s.mem ∧ t.groups = s.groups) ∧
    (s.coreFailed.getLsbD c = false → exec (.agentRejoin (.core c)) s = .next s) ∧
    (s.coreFailed.getLsbD c = true → ∃ t, exec (.agentRejoin (.core c)) s = .next t ∧ (t.core c).epoch = (s.core c).epoch + 1 ∧ (t.core c).l1 = [] ∧ (t.core c).icache = [] ∧
      (t.core c).tlb = [] ∧ (t.core c).walk = [] ∧ (∀ n, t.coreFailed.getLsbD n = (s.coreFailed.getLsbD n && n != c)) ∧ t.mem = s.mem) ∧
    exec (.agentFailure .host) s = .next { s with hostFailed := true, parts := s.parts.map fun e => (e.1, { e.2 with stale := BitVec.allOnes 64 }) } ∧
    exec (.agentFailure (.peer c)) s = .next { s with peerFailed := s.peerFailed ||| (1#64 <<< c) } ∧
    (∃ t, exec (.agentRejoin .host) s = .next t ∧ t = { s with hostFailed := false,
                                                                hostEpoch := if s.hostFailed then s.hostEpoch + 1 else s.hostEpoch }) ∧
    (s.peerFailed.getLsbD c = false → exec (.agentRejoin (.peer c)) s = .next s) ∧
    (s.peerFailed.getLsbD c = true → ∃ t, exec (.agentRejoin (.peer c)) s = .next t ∧ t = { s with peerFailed := t.peerFailed, peerEpoch := t.peerEpoch } ∧
      (∀ p, t.peerFailed.getLsbD p = (s.peerFailed.getLsbD p && p != c)) ∧
      ∀ p, t.peerEpoch.get p = if p = c then s.peerEpoch.get p + 1 else s.peerEpoch.get p)) ∧
  (∀ (s : State),
    (∀ on, exec (.thermalThrottle on) s = .next { s with throttled := on }) ∧
    (∃ t, exec .thermalShutdown s = .next t ∧ logged s t (entry s 3 3 0 0) ∧ (∀ c < 192, t.core c = { s.core c with stopped := true }) ∧
      t = { s with cores := t.cores, hostMem := t.hostMem, errTail := t.errTail }) ∧
    exec .linkReset s = .next s ∧
    (s.powered = true → exec .powerUp s = .next s) ∧ (s.powered = false → exec .powerUp s = .next { s with powered := true, rows := [], spare := [] }) ∧
    (∃ t, exec .powerOff s = .next t ∧ t = { State.reset with
      powered := false, hostMem := s.hostMem, spare := s.spare, cur := t.cur, agenda := t.agenda, nextId := t.nextId, freeCtr := t.freeCtr }) ∧
    ∀ n, (n < 192 → (∀ e ∈ s.groups, e.1 / 64 ≠ n) → ∃ t, exec (.retentionSleepEntry true n) s = .next t ∧ t = { s with cores := t.cores } ∧
        CoreBecomes s t n { s.core n with asleep := true }) ∧
      ((∃ e ∈ s.groups, e.1 / 64 = n) → exec (.retentionSleepEntry true n) s = .next s) ∧
      (n < 256 → ∃ t, exec (.retentionSleepEntry false n) s = .next t ∧ t = { s with sliceAsleep := t.sliceAsleep } ∧ ∀ k, t.sliceAsleep.getLsbD k = (s.sliceAsleep.getLsbD k || k == n)))
end

