-- ==== Sys2Proof/Laws/Store.lean ====
section
/-! SUPPORT. Sparse stores and tables: reading after writing, and that every operation keeps the canonical form. -/
namespace Sys2Proof

theorem Store.wfFrom_mono {w : Nat} {m : Store w} {lo lo' : Nat} (h : Store.wfFrom lo' m = true) (le : lo ≤ lo') :
    Store.wfFrom lo m = true := by
  cases m with
  | nil => rfl
  | cons e r =>
    simp only [Store.wfFrom, Bool.and_eq_true, decide_eq_true_eq] at h ⊢
    exact ⟨⟨by omega, h.1.2⟩, h.2⟩

theorem Store.get_below {w : Nat} {m : Store w} {lo k : Nat} (h : Store.wfFrom lo m = true) (lt : k < lo) : m.get k = 0#w := by
  cases m with
  | nil => rfl
  | cons e r =>
    simp only [Store.wfFrom, Bool.and_eq_true, decide_eq_true_eq] at h
    have : k < e.1 := by omega
    simp [Store.get, this]

theorem Store.dropTo_wfFrom {w : Nat} (k : Nat) : ∀ {m : Store w} {lo : Nat}, Store.wfFrom lo m = true →
    Store.wfFrom (k + 1) (Store.dropTo k m) = true := by
  intro m
  induction m with
  | nil => intro _ _; rfl
  | cons e r ih =>
    intro lo h
    simp only [Store.wfFrom, Bool.and_eq_true, decide_eq_true_eq] at h
    unfold Store.dropTo
    split
    · exact ih h.2
    · simp only [Store.wfFrom, Bool.and_eq_true, decide_eq_true_eq]
      exact ⟨⟨by omega, h.1.2⟩, h.2⟩

theorem Store.get_dropTo {w : Nat} {k j : Nat} (lt : k < j) : ∀ (m : Store w), (Store.dropTo k m).get j = m.get j := by
  intro m
  induction m with
  | nil => rfl
  | cons e r ih =>
    unfold Store.dropTo
    split
    · rw [ih]
      have : ¬ j < e.1 := by omega
      have : j ≠ e.1 := by omega
      simp [Store.get, *]
    · rfl

theorem Store.get_dropTo_low {w : Nat} {k j : Nat} (le : j ≤ k) : ∀ (m : Store w), (Store.dropTo k m).get j = 0#w := by
  intro m
  induction m with
  | nil => rfl
  | cons e r ih =>
    unfold Store.dropTo
    split
    · exact ih
    · have : j < e.1 := by omega
      simp [Store.get, this]

/-- Writing keeps the canonical form. -/
theorem Store.set_wfFrom {w : Nat} (k : Nat) (v : BitVec w) : ∀ {m : Store w} {lo : Nat}, Store.wfFrom lo m = true → lo ≤ k →
    Store.wfFrom lo (m.set k v) = true := by
  intro m
  induction m with
  | nil =>
    intro lo _ le
    unfold Store.set
    split <;> simp_all [Store.wfFrom]
  | cons e r ih =>
    intro lo h le
    have h' := h
    simp only [Store.wfFrom, Bool.and_eq_true, decide_eq_true_eq] at h
    unfold Store.set
    split
    · rename_i lt
      split
      · exact h'
      · rename_i ne
        simp [Store.wfFrom, le, ne, h.1.2, h.2]; omega
    · split
      · rename_i eq
        split
        · exact Store.wfFrom_mono (Store.dropTo_wfFrom k h.2) (by omega)
        · rename_i ne
          subst eq
          simp [Store.wfFrom, le, ne, h.2]
      · simp only [Store.wfFrom, Bool.and_eq_true, decide_eq_true_eq]
        exact ⟨h.1, ih h.2 (by omega)⟩

theorem Store.set_wf {w : Nat} {m : Store w} (k : Nat) (v : BitVec w) (h : m.wf = true) : (m.set k v).wf = true :=
  Store.set_wfFrom k v h (Nat.zero_le k)

theorem Store.setList_wf {w : Nat} (vs : List (BitVec w)) : ∀ {m : Store w} (k : Nat), m.wf = true → (m.setList k vs).wf = true := by
  induction vs with
  | nil => intro _ _ h; exact h
  | cons v vs ih => intro m k h; exact ih (k + 1) (Store.set_wf k v h)

theorem Store.filter_wfFrom {w : Nat} (p : Nat × BitVec w → Bool) : ∀ {m : Store w} {lo : Nat}, Store.wfFrom lo m = true →
    Store.wfFrom lo (List.filter p m) = true := by
  intro m
  induction m with
  | nil => intro _ h; exact h
  | cons e r ih =>
    intro lo h
    simp only [Store.wfFrom, Bool.and_eq_true, decide_eq_true_eq] at h
    unfold List.filter
    split
    · simp only [Store.wfFrom, Bool.and_eq_true, decide_eq_true_eq]
      exact ⟨h.1, ih h.2⟩
    · exact Store.wfFrom_mono (ih h.2) (by omega)

theorem Store.filter_wf {w : Nat} {m : Store w} (p : Nat × BitVec w → Bool) (h : m.wf = true) : Store.wf (w := w) (List.filter p m) = true :=
  Store.filter_wfFrom p h

theorem Store.dropTo_keeps {w : Nat} (k : Nat) : ∀ {m : Store w} {lo : Nat}, Store.wfFrom lo m = true → Store.wfFrom lo (Store.dropTo k m) = true := by
  intro m
  induction m with
  | nil => intro _ h; exact h
  | cons e r ih =>
    intro lo h
    have h' := h
    simp only [Store.wfFrom, Bool.and_eq_true, decide_eq_true_eq] at h
    unfold Store.dropTo
    split
    · exact Store.wfFrom_mono (ih h.2) (by omega)
    · exact h'

theorem Store.clearTo_wfFrom {w : Nat} (lo k : Nat) : ∀ {m : Store w} {l : Nat}, Store.wfFrom l m = true → Store.wfFrom l (Store.clearTo lo k m) = true := by
  intro m
  induction m with
  | nil => intro _ h; exact h
  | cons e r ih =>
    intro l h
    unfold Store.clearTo
    split
    · simp only [Store.wfFrom, Bool.and_eq_true, decide_eq_true_eq] at h ⊢
      exact ⟨h.1, ih h.2⟩
    · exact Store.dropTo_keeps k h

theorem Store.clear_wf {w : Nat} {m : Store w} (lo n : Nat) (h : m.wf = true) : (m.clear lo n).wf = true := by
  unfold Store.clear
  split
  · exact h
  · exact Store.clearTo_wfFrom _ _ h

theorem Store.get_clearTo_in {w : Nat} {lo k j : Nat} (h1 : lo ≤ j) (h2 : j ≤ k) : ∀ (m : Store w), (Store.clearTo lo k m).get j = 0#w := by
  intro m
  induction m with
  | nil => rfl
  | cons e r ih =>
    unfold Store.clearTo
    split
    · have : ¬ j < e.1 := by omega
      have : j ≠ e.1 := by omega
      simp [Store.get, *]
    · exact Store.get_dropTo_low h2 _

theorem Store.get_clearTo_out {w : Nat} {lo k j : Nat} (h : j < lo ∨ k < j) (hk : lo ≤ k + 1) : ∀ (m : Store w),
    (Store.clearTo lo k m).get j = m.get j := by
  intro m
  induction m with
  | nil => rfl
  | cons e r ih =>
    unfold Store.clearTo
    split
    · simp [Store.get, ih]
    · rcases h with h | h
      · rw [Store.get_dropTo_low (by omega)]
        have : j < e.1 := by omega
        simp [Store.get, this]
      · exact Store.get_dropTo h _

/-- The keys that were removed read zero. -/
theorem Store.get_clear_in {w : Nat} {m : Store w} {lo n j : Nat} (h1 : lo ≤ j) (h2 : j < lo + n) : (m.clear lo n).get j = 0#w := by
  unfold Store.clear
  split
  · omega
  · exact Store.get_clearTo_in h1 (by omega) m

/-- Every other key reads as before. -/
theorem Store.get_clear_out {w : Nat} {m : Store w} {lo n j : Nat} (h : j < lo ∨ lo + n ≤ j) : (m.clear lo n).get j = m.get j := by
  unfold Store.clear
  split
  · rfl
  · exact Store.get_clearTo_out (by omega) (by omega) m

/-- A read after a write of the same key gives the value written. -/
@[simp] theorem Store.get_set_same {w : Nat} (k : Nat) (v : BitVec w) : ∀ (m : Store w), (m.set k v).get k = v := by
  intro m
  induction m with
  | nil => unfold Store.set; split <;> simp_all [Store.get]
  | cons e r ih =>
    unfold Store.set
    split
    · split <;> simp_all [Store.get]
    · split
      · split
        · rename_i v0; rw [v0]; exact Store.get_dropTo_low (by omega) r
        · simp [Store.get]
      · simp [Store.get, *]

/-- A write leaves every other key alone. -/
theorem Store.get_set_other {w : Nat} {k j : Nat} (v : BitVec w) (ne : j ≠ k) : ∀ (m : Store w), (m.set k v).get j = m.get j := by
  intro m
  induction m with
  | nil =>
    unfold Store.set
    split
    · rfl
    · simp [Store.get, ne]
  | cons e r ih =>
    unfold Store.set
    split
    · split
      · rfl
      · rename_i lt _
        unfold Store.get
        by_cases jk : j < k
        · have : j < e.1 := by omega
          simp [jk, this]
        · simp [jk, ne, Store.get]
    · split
      · rename_i ek
        subst ek
        by_cases jk : j < e.1
        · split
          · rw [Store.get_dropTo_low (by omega)]; simp [Store.get, jk]
          · simp [Store.get, jk]
        · split
          · rw [Store.get_dropTo (by omega)]; simp [Store.get, jk, ne]
          · simp [Store.get, jk, ne]
      · unfold Store.get; rw [ih]

/-- A write of consecutive values leaves every key outside them alone. -/
theorem Store.get_setList_other {w : Nat} {j : Nat} (vs : List (BitVec w)) : ∀ {m : Store w} {k : Nat},
    (j < k ∨ k + vs.length ≤ j) → (m.setList k vs).get j = m.get j := by
  induction vs with
  | nil => intro _ _ _; rfl
  | cons v vs ih =>
    intro m k out
    simp only [List.length_cons] at out
    show (Store.setList (m.set k v) (k + 1) vs).get j = _
    rw [ih (by omega), Store.get_set_other v (by omega)]

/-- A read after a write of consecutive values gives the value written at each key. -/
theorem Store.get_setList_same {w : Nat} (vs : List (BitVec w)) : ∀ {m : Store w} {k i : Nat} (lt : i < vs.length),
    (m.setList k vs).get (k + i) = vs[i] := by
  induction vs with
  | nil => intro _ _ i lt; simp at lt
  | cons v vs ih =>
    intro m k i lt
    show (Store.setList (m.set k v) (k + 1) vs).get (k + i) = _
    cases i with
    | zero => rw [Store.get_setList_other vs (Or.inl (by omega)), Nat.add_zero, Store.get_set_same]; rfl
    | succ i => rw [show k + (i + 1) = k + 1 + i by omega, ih (by simpa using lt)]; rfl

@[simp] theorem Table.get?_put_same {α : Type} (k : Nat) (y : α) : ∀ (t : Table α), (t.put k y).get? k = some y := by
  intro t
  induction t with
  | nil => simp [Table.put, Table.get?]
  | cons e r ih =>
    unfold Table.put
    split
    · simp_all [Table.get?]
    · simp_all [Table.get?]

theorem Table.get?_put_other {α : Type} {k j : Nat} (y : α) (ne : j ≠ k) : ∀ (t : Table α), (t.put k y).get? j = t.get? j := by
  intro t
  induction t with
  | nil => simp [Table.put, Table.get?, ne]
  | cons e r ih =>
    unfold Table.put
    split
    · simp_all [Table.get?]
    · simp_all [Table.get?]

@[simp] theorem Table.put_put {α : Type} (k : Nat) (y z : α) : ∀ (t : Table α), (t.put k y).put k z = t.put k z := by
  intro t
  induction t with
  | nil => simp [Table.put]
  | cons e r ih => by_cases he : k = e.1 <;> simp [Table.put, he, ih] <;> simp_all

end Sys2Proof
end

