-- ==== Sys2Proof/Laws/Canon.lean ====
section
/-! SUPPORT. The canonical form of every memory is kept: the tables, the state's fields, and the operations of Memory.lean. -/
namespace Sys2Proof

theorem Table.All.of_get {α : Type} {P : α → Prop} : ∀ {t : Table α} {k : Nat} {x : α}, Table.All P t → t.get? k = some x → P x := by
  intro t
  induction t with
  | nil => intro k x _ e; simp [Table.get?] at e
  | cons a r ih =>
    intro k x h e
    unfold Table.get? at e
    split at e
    · cases e; exact h _ (by simp)
    · exact ih (fun y m => h y (by simp [m])) e

theorem Table.All.getD {α : Type} {P : α → Prop} {t : Table α} {k : Nat} {d : α} (h : Table.All P t) (hd : P d) : P (t.getD k d) := by
  unfold Table.getD
  cases e : t.get? k with
  | none => exact hd
  | some x => exact h.of_get e

theorem Table.All.put {α : Type} {P : α → Prop} {t : Table α} {k : Nat} {y : α} (h : Table.All P t) (hy : P y) : Table.All P (t.put k y) := by
  induction t with
  | nil => intro e m; simp only [Table.put, List.mem_singleton] at m; subst m; exact hy
  | cons a r ih =>
    have hr := ih fun e m => h e (List.mem_cons_of_mem _ m)
    have ha := h a List.mem_cons_self
    unfold Table.put
    split
    · intro e m
      rcases List.mem_cons.mp m with m | m
      · subst m; exact hy
      · exact h e (List.mem_cons_of_mem _ m)
    · intro e m
      rcases List.mem_cons.mp m with m | m
      · subst m; exact ha
      · exact hr e m

theorem Table.All.filter {α : Type} {P : α → Prop} {t : Table α} {p : Nat × α → Bool} (h : Table.All P t) :
    Table.All P (List.filter p t) := fun e m => h e (List.mem_filter.mp m).1

theorem Table.All.erase {α : Type} {P : α → Prop} {t : Table α} {k : Nat} (h : Table.All P t) : Table.All P (t.erase k) := h.filter

theorem Table.All.map {α : Type} {P : α → Prop} {t : Table α} {f : Nat × α → Nat × α} (h : Table.All P t) (hf : ∀ e, P e.2 → P (f e).2) :
    Table.All P (List.map f t) := by
  intro e m
  obtain ⟨a, ha, rfl⟩ := List.mem_map.mp m
  exact hf a (h a ha)

theorem Table.All.nil {α : Type} {P : α → Prop} : Table.All P ([] : Table α) := fun _ m => nomatch m

end Sys2Proof

namespace Sys2Proof.Machine

/-- The default workgroup of `wgOf` is in canonical form. -/
theorem Workgroup.canon_of {w : Workgroup} (h1 : w.ls = []) (h2 : w.lsPoison = []) (h3 : w.lsBad = []) : w.Canon :=
  ⟨by rw [h1]; rfl, by rw [h2]; rfl, by rw [h3]; rfl⟩

theorem Core.canon_of {k : Core} (h1 : k.bufs = []) (h2 : k.bufPoison = []) (h3 : k.bufBad = []) : k.Canon :=
  ⟨by rw [h1]; rfl, by rw [h2]; rfl, by rw [h3]; rfl⟩

/-- Only the memory of a Workgroup matters. -/
theorem Workgroup.Canon.lit (w : Workgroup) (h : w.Canon)
    {f_core f_part f_launch f_par f_slots f_wgid f_next f_stop f_tile f_tiles f_bars f_bufset f_task f_preempt} :
    (Workgroup.mk f_core f_part f_launch f_par f_slots f_wgid f_next f_stop f_tile f_tiles w.ls w.lsPoison w.lsBad f_bars f_bufset f_task f_preempt).Canon := ⟨h.1, h.2, h.3⟩

/-- Only the memory of a Core matters. -/
theorem Core.Canon.lit (k : Core) (h : k.Canon)
    {f_carve f_carvePend f_carveReq f_mmin f_mmax f_fix f_lmin f_lmax f_ctxid f_m f_ev f_lls f_sink f_misses f_xmiss f_l1 f_icache f_vta f_tlb f_walk
     f_mat f_retired f_asleep f_stopped f_epoch f_moving} :
    (Core.mk f_carve f_carvePend f_carveReq f_mmin f_mmax f_fix f_lmin f_lmax f_ctxid f_m f_ev f_lls f_sink f_misses f_xmiss f_l1 f_icache f_vta f_tlb f_walk
      k.bufs k.bufPoison k.bufBad f_mat f_retired f_asleep f_stopped f_epoch f_moving).Canon := ⟨h.1, h.2, h.3⟩

theorem State.Canon.wgOf {s : State} (h : s.Canon) (g : Group) : (s.wgOf g).Canon := h.wgs.getD (Workgroup.canon_of rfl rfl rfl)

theorem State.Canon.core {s : State} (h : s.Canon) (c : Nat) : (s.core c).Canon := h.cores.getD (Core.canon_of rfl rfl rfl)

/-- Only the memories, the workgroups and the cores matter. -/
theorem State.Canon.mk' (s : State) (h : s.Canon)
    {f_clock f_powered f_verMin f_verMax f_versel f_go f_err f_fwstat f_fwImage f_devnum f_xm f_errHead f_errTail f_errBase f_hdm
     f_fabric f_parts f_cores f_groups f_wgs f_launches f_taskq f_taskNum f_older f_xmHeld f_l2 f_sliceTlb f_execTlb f_gens f_retire
     f_rows f_trefwHigh f_selfRefresh f_chan f_ulock f_freeze f_copies f_tierOps f_images f_retiredUnits f_spare f_links f_sliceAsleep
     f_hostEpoch f_hostFailed f_peerEpoch f_peerFailed f_coreFailed f_throttled f_fwHash f_fwVersion f_spdm f_cur f_agenda f_issued f_cyc f_nextId
     f_dram f_freeCtr}
    (hw : Table.All Workgroup.Canon f_wgs) (hc : Table.All Core.Canon f_cores) :
    (State.mk f_clock f_powered f_verMin f_verMax f_versel f_go f_err f_fwstat f_fwImage f_devnum f_xm f_errHead f_errTail f_errBase
      f_hdm f_fabric f_parts f_cores f_groups f_wgs f_launches f_taskq f_taskNum s.mem s.poison s.staged s.bad s.hostMem f_older
      f_xmHeld f_l2 f_sliceTlb f_execTlb f_gens f_retire f_rows f_trefwHigh f_selfRefresh f_chan f_ulock f_freeze f_copies f_tierOps
      f_images f_retiredUnits f_spare f_links f_sliceAsleep f_hostEpoch f_hostFailed f_peerEpoch f_peerFailed f_coreFailed f_throttled f_fwHash
      f_fwVersion f_spdm f_cur f_agenda f_issued f_cyc f_nextId f_dram f_freeCtr).Canon :=
  ⟨h.mem, h.hostMem, h.poison, h.staged, h.bad, hw, hc⟩

/-- The canonical form of a state that is written out field by field. -/
def State.CanonLit (s : State) : Prop := s.Canon

theorem State.canon_lit
    {f_clock f_powered f_verMin f_verMax f_versel f_go f_err f_fwstat f_fwImage f_devnum f_xm f_errHead f_errTail f_errBase f_hdm
     f_fabric f_parts f_cores f_groups f_wgs f_launches f_taskq f_taskNum f_mem f_poison f_staged f_bad f_hostMem f_older f_xmHeld f_l2
     f_sliceTlb f_execTlb f_gens f_retire f_rows f_trefwHigh f_selfRefresh f_chan f_ulock f_freeze f_copies f_tierOps f_images
     f_retiredUnits f_spare f_links f_sliceAsleep f_hostEpoch f_hostFailed f_peerEpoch f_peerFailed f_coreFailed f_throttled f_fwHash f_fwVersion
     f_spdm f_cur f_agenda f_issued f_cyc f_nextId f_dram f_freeCtr} :
    (State.mk f_clock f_powered f_verMin f_verMax f_versel f_go f_err f_fwstat f_fwImage f_devnum f_xm f_errHead f_errTail f_errBase
      f_hdm f_fabric f_parts f_cores f_groups f_wgs f_launches f_taskq f_taskNum f_mem f_poison f_staged f_bad f_hostMem f_older
      f_xmHeld f_l2 f_sliceTlb f_execTlb f_gens f_retire f_rows f_trefwHigh f_selfRefresh f_chan f_ulock f_freeze f_copies f_tierOps
      f_images f_retiredUnits f_spare f_links f_sliceAsleep f_hostEpoch f_hostFailed f_peerEpoch f_peerFailed f_coreFailed f_throttled f_fwHash
      f_fwVersion f_spdm f_cur f_agenda f_issued f_cyc f_nextId f_dram f_freeCtr).Canon ↔
    (State.mk f_clock f_powered f_verMin f_verMax f_versel f_go f_err f_fwstat f_fwImage f_devnum f_xm f_errHead f_errTail f_errBase
      f_hdm f_fabric f_parts f_cores f_groups f_wgs f_launches f_taskq f_taskNum f_mem f_poison f_staged f_bad f_hostMem f_older
      f_xmHeld f_l2 f_sliceTlb f_execTlb f_gens f_retire f_rows f_trefwHigh f_selfRefresh f_chan f_ulock f_freeze f_copies f_tierOps
      f_images f_retiredUnits f_spare f_links f_sliceAsleep f_hostEpoch f_hostFailed f_peerEpoch f_peerFailed f_coreFailed f_throttled f_fwHash
      f_fwVersion f_spdm f_cur f_agenda f_issued f_cyc f_nextId f_dram f_freeCtr).CanonLit := Iff.rfl

theorem State.CanonLit.of (s : State) (h : s.Canon)
    {f_clock f_powered f_verMin f_verMax f_versel f_go f_err f_fwstat f_fwImage f_devnum f_xm f_errHead f_errTail f_errBase f_hdm
     f_fabric f_parts f_cores f_groups f_wgs f_launches f_taskq f_taskNum f_older f_xmHeld f_l2 f_sliceTlb f_execTlb f_gens f_retire
     f_rows f_trefwHigh f_selfRefresh f_chan f_ulock f_freeze f_copies f_tierOps f_images f_retiredUnits f_spare f_links f_sliceAsleep
     f_hostEpoch f_hostFailed f_peerEpoch f_peerFailed f_coreFailed f_throttled f_fwHash f_fwVersion f_spdm f_cur f_agenda f_issued f_cyc f_nextId
     f_dram f_freeCtr}
    (hw : Table.All Workgroup.Canon f_wgs) (hc : Table.All Core.Canon f_cores) :
    (State.mk f_clock f_powered f_verMin f_verMax f_versel f_go f_err f_fwstat f_fwImage f_devnum f_xm f_errHead f_errTail f_errBase
      f_hdm f_fabric f_parts f_cores f_groups f_wgs f_launches f_taskq f_taskNum s.mem s.poison s.staged s.bad s.hostMem f_older
      f_xmHeld f_l2 f_sliceTlb f_execTlb f_gens f_retire f_rows f_trefwHigh f_selfRefresh f_chan f_ulock f_freeze f_copies f_tierOps
      f_images f_retiredUnits f_spare f_links f_sliceAsleep f_hostEpoch f_hostFailed f_peerEpoch f_peerFailed f_coreFailed f_throttled f_fwHash
      f_fwVersion f_spdm f_cur f_agenda f_issued f_cyc f_nextId f_dram f_freeCtr).CanonLit :=
  ⟨h.mem, h.hostMem, h.poison, h.staged, h.bad, hw, hc⟩

theorem State.Canon.allWgs {s : State} (h : s.Canon) : Table.All Workgroup.Canon s.wgs := h.wgs
theorem State.Canon.allCores {s : State} (h : s.Canon) : Table.All Core.Canon s.cores := h.cores

/-- A next state, if there is one, is in canonical form. -/
def Out.Canon (o : Host.Outcome State Fault Refusal) : Prop := ∀ t, o = .next t → t.Canon

theorem Out.canon_next {s : State} (h : s.Canon) : Out.Canon (.next s) := fun _ e => by cases e; exact h
theorem Out.canon_fault (r : Fault) : Out.Canon (.fault r) := fun _ e => nomatch e
theorem Out.canon_refused (r : Refusal) : Out.Canon (.refused r) := fun _ e => nomatch e

/-- A state that is given, if any, is in canonical form. -/
structure OptCanon (o : Option State) : Prop where
  all : ∀ t, o = some t → t.Canon
theorem optCanon_none : OptCanon none := ⟨fun _ e => nomatch e⟩
theorem optCanon_some {s : State} (h : s.Canon) : OptCanon (some s) := ⟨fun _ e => by cases e; exact h⟩
theorem OptCanon.of {o : Option State} {t : State} (e : o = some t) (h : OptCanon o) : t.Canon := h.all t e

/-- A core that is given, if any, is in canonical form. -/
structure OptCore (o : Option Core) : Prop where
  all : ∀ t, o = some t → t.Canon
theorem optCore_none : OptCore none := ⟨fun _ e => nomatch e⟩
theorem optCore_some {k : Core} (h : k.Canon) : OptCore (some k) := ⟨fun _ e => by cases e; exact h⟩
theorem OptCore.of {o : Option Core} {t : Core} (e : o = some t) (h : OptCore o) : t.Canon := h.all t e
theorem optCore_map {o : Option Core} {f : Core → State} (h : OptCore o) (hf : ∀ k, k.Canon → (f k).Canon) : OptCanon (o.map f) := by
  refine ⟨fun t e => ?_⟩
  cases o with
  | none => cases e
  | some k => cases e; exact hf k (h.all k rfl)

/-- The state of a pair. -/
theorem fst_canon {α : Type} {p : State × α} {s : State} {a : α} (e : p = (s, a)) (h : p.1.Canon) : s.Canon := by subst e; exact h

theorem foldl_canon {α : Type} {f : State → α → State} (hf : ∀ s a, s.Canon → (f s a).Canon) :
    ∀ (l : List α) {s : State}, s.Canon → (l.foldl f s).Canon := by
  intro l
  induction l with
  | nil => intro _ h; exact h
  | cons a r ih => intro s h; exact ih (hf s a h)

theorem foldl_wg_canon {α : Type} {f : Workgroup → α → Workgroup} (hf : ∀ w a, w.Canon → (f w a).Canon) :
    ∀ (l : List α) {w : Workgroup}, w.Canon → (l.foldl f w).Canon := by
  intro l
  induction l with
  | nil => intro _ h; exact h
  | cons a r ih => intro w h; exact ih (hf w a h)

/-- A fold over a pair whose first part is the state. -/
theorem foldl_fst_canon {α β : Type} {f : State × β → α → State × β} (hf : ∀ p a, p.1.Canon → (f p a).1.Canon) :
    ∀ (l : List α) {p : State × β}, p.1.Canon → (l.foldl f p).1.Canon := by
  intro l
  induction l with
  | nil => intro _ h; exact h
  | cons a r ih => intro p h; exact ih (hf p a h)

theorem State.setBytes_canon {s : State} (h : s.Canon) (p : Nat) (bs : List Byte) : (s.setBytes p bs).Canon :=
  ⟨Store.setList_wf bs p h.mem, h.hostMem, h.poison, h.staged, h.bad, h.wgs, h.cores⟩

theorem State.poisonGran_canon {s : State} (h : s.Canon) (gr : Nat) : (s.poisonGran gr).Canon :=
  ⟨h.mem, h.hostMem, Store.set_wf _ _ h.poison, h.staged, Store.clear_wf (gr * 32) 32 h.bad, h.wgs, h.cores⟩

theorem State.markRead_canon {s : State} (h : s.Canon) (p n : Nat) : (s.markRead p n).Canon := by
  refine foldl_canon ?_ _ h
  intro s g h
  split
  · exact State.poisonGran_canon h g
  · exact h

theorem dropBlock_canon {t : Table Core} (h : Table.All Core.Canon t) (line sector : Nat) : Table.All Core.Canon (dropBlock line sector t) :=
  h.map fun _ hk => ⟨hk.bufs, hk.bufPoison, hk.bufBad⟩

theorem State.modCore_canon {s : State} (c : Nat) (f : Core → Core) (hC : s.Canon) (hf : ∀ x, x.Canon → (f x).Canon) :
    (State.modCore s c f).Canon := by
  unfold State.modCore
  repeat' first | (with_reducible first | assumption | apply hf | apply State.Canon.allWgs | apply State.Canon.allCores | apply State.Canon.core | apply Table.All.put) | (simp only [State.canon_lit]; refine State.CanonLit.of _ ?_ ?_ ?_) | dsimp only | split

theorem State.l2Put_canon {s : State} (x : L2Line) (hC : s.Canon) :
    (State.l2Put s x).Canon := by
  unfold State.l2Put
  repeat' first | (with_reducible first | assumption | apply State.Canon.allWgs | apply State.Canon.allCores) | split | (simp only [State.canon_lit]; refine State.CanonLit.of _ ?_ ?_ ?_) | dsimp only

theorem State.syncDir_canon {s : State} (line : Nat) (ctx : BitVec 16) (hC : s.Canon) :
    (State.syncDir s line ctx).Canon := by
  unfold State.syncDir
  repeat' first | (with_reducible first | assumption | apply State.Canon.allWgs | apply State.Canon.allCores | apply State.l2Put_canon) | split | dsimp only | (simp only [State.canon_lit]; refine State.CanonLit.of _ ?_ ?_ ?_)

theorem State.syncLine_canon {s : State} (line : Nat) (hC : s.Canon) : (State.syncLine s line).Canon :=
  foldl_canon (fun _ l hs => State.syncDir_canon line l.ctx hs) _ hC

theorem State.granWritten_canon {s : State} (h : s.Canon) (gr : Nat) (full host : Bool) : (s.granWritten gr full host).Canon := by
  have h1 : ({ s with staged := s.staged.set gr (if host then 0 else 1) } : State).Canon :=
    ⟨h.mem, h.hostMem, h.poison, Store.set_wf _ _ h.staged, h.bad, h.wgs, h.cores⟩
  have fin : ∀ u : State, u.Canon → (({ u with cores := dropBlock (gr / 4) (gr % 4) u.cores } : State).syncLine (gr / 4)).Canon := fun u hu =>
    State.syncLine_canon _ ⟨hu.mem, hu.hostMem, hu.poison, hu.staged, hu.bad, hu.wgs, dropBlock_canon hu.cores _ _⟩
  have mid : ∀ u : State, u.Canon → (if full then { u with poison := u.poison.set gr 0, bad := if u.bad == [] then [] else u.bad.clear (gr * 32) 32 }
      else if u.gran gr == .uncorrectable then u.poisonGran gr else u : State).Canon := by
    intro u hu
    cases full with
    | true =>
      refine ⟨hu.mem, hu.hostMem, Store.set_wf _ _ hu.poison, hu.staged, ?_, hu.wgs, hu.cores⟩
      show Store.wf (if u.bad == [] then [] else u.bad.clear (gr * 32) 32) = true
      split
      · rfl
      · exact Store.clear_wf _ _ hu.bad
    | false =>
      show (if u.gran gr == .uncorrectable then u.poisonGran gr else u : State).Canon
      split
      · exact State.poisonGran_canon hu gr
      · exact hu
  exact fin _ (mid _ h1)

theorem State.wr_canon {s : State} (h : s.Canon) (p : Nat) (bs : List Byte) (host : Bool) : (s.wr p bs host).Canon :=
  State.setBytes_canon (foldl_canon (fun _ g hs => State.granWritten_canon hs g _ host) _ h) p bs

theorem State.wrN_canon {s : State} (h : s.Canon) (p n v : Nat) : (s.wrN p n v).Canon := State.wr_canon h p _ _

theorem State.hostWr_canon {s : State} (h : s.Canon) (a : Nat) (bs : List Byte) : (s.hostWr a bs).Canon :=
  ⟨h.mem, Store.setList_wf bs a h.hostMem, h.poison, h.staged, h.bad, h.wgs, h.cores⟩

theorem State.logPut_canon {s : State} (h : s.Canon) (r : ErrRec) : (s.logPut r).Canon := 
  State.Canon.mk' _ (State.hostWr_canon h _ _) (State.hostWr_canon h _ _).wgs (State.hostWr_canon h _ _).cores

theorem State.logLost_canon {s : State} (h : s.Canon) : s.logLost.Canon := by
  unfold State.logLost
  split
  · exact h
  · exact State.hostWr_canon h _ _

theorem State.logSet_canon {s : State} (h : s.Canon) (rs : List ErrRec) : (s.logSet rs).Canon := by
  unfold State.logSet
  split
  · exact foldl_canon (fun _ r hs => State.logPut_canon hs r) rs h
  · exact State.logLost_canon h

end Sys2Proof.Machine
end

