-- ==== Sys2Proof/Laws/Split.lean ====
section
/-! SUPPORT. What the shared operations on the issuing split do: reaching it, changing it, moving it on. -/
namespace Sys2Proof.Machine

/-- The issuing split of a state stands in it. -/
theorem State.iss?_some {s : State} {i : Iss} (h : s.iss? = some i) :
    s.cur = some i.who ∧ s.groups.get? i.who.key = some i.g ∧ i.g.split? i.who.split = some i.sp := by
  unfold State.iss? at h
  split at h
  · cases h
  · rename_i w ew
    split at h
    · cases h
    · rename_i g eg
      split at h
      · cases h
      · rename_i sp es
        cases h
        exact ⟨ew, eg, es⟩

/-- An instruction issues from the issuing split. -/
theorem issue_some {s : State} {i : Iss} (h : s.iss? = some i) (k : Iss → State) : issue s k = .next (k i) := by simp [issue, h]

/-- A split-scope instruction under a true guard takes effect (R67). -/
theorem splitScope_true {s : State} {i : Iss} {o : Op} (h : s.iss? = some i) (hg : splitGuard i.g i.sp o = true) (k : Iss → State) :
    splitScope o s k = .next (k i) := by simp [splitScope, issue, h, hg]

/-- A split-scope instruction under a false guard only completes (R67). -/
theorem splitScope_false {s : State} {i : Iss} {o : Op} (h : s.iss? = some i) (hg : splitGuard i.g i.sp o = false) (k : Iss → State) :
    splitScope o s k = .next (s.done i o) := by simp [splitScope, issue, h, hg]

theorem Group.split?_id {g : Group} {n : Nat} {x : Split} (h : g.split? n = some x) : x.id = n := by
  have := List.find?_some h; simpa using this

theorem find?_map_if {n : Nat} {f : Split → Split} (hid : ∀ y, (f y).id = y.id) {x : Split} : ∀ (l : List Split),
    l.find? (fun y => y.id == n) = some x → (l.map fun y => if y.id == n then f y else y).find? (fun y => y.id == n) = some (f x) := by
  intro l
  induction l with
  | nil => intro h; cases h
  | cons y l ih =>
    intro h
    rw [List.map_cons, List.find?_cons]
    rw [List.find?_cons] at h
    by_cases e : (y.id == n) = true
    · simp only [e] at h
      cases h
      simp only [e, ↓reduceIte, hid]
    · simp only [Bool.not_eq_true] at e
      simp only [e] at h
      simp only [e, ih h, Bool.false_eq_true, ↓reduceIte]

theorem find?_map_if_other {n m : Nat} (ne : m ≠ n) {f : Split → Split} (hid : ∀ y, (f y).id = y.id) : ∀ (l : List Split),
    (l.map fun y => if y.id == n then f y else y).find? (fun y => y.id == m) = l.find? fun y => y.id == m := by
  intro l
  induction l with
  | nil => rfl
  | cons y l ih =>
    rw [List.map_cons, List.find?_cons, List.find?_cons, ih]
    by_cases e : y.id = n
    · have e1 : (y.id == m) = false := by simp [e, Ne.symm ne]
      have e2 : ((f y).id == m) = false := by rw [hid]; exact e1
      simp only [e, beq_self_eq_true, ↓reduceIte, e2]
      rw [← e, e1]
    · have e1 : (y.id == n) = false := by simpa using e
      simp only [e1, Bool.false_eq_true, ↓reduceIte]

theorem Group.split?_modSplit_same {g : Group} {n : Nat} {x : Split} {f : Split → Split} (h : g.split? n = some x)
    (hid : ∀ y, (f y).id = y.id) : (g.modSplit n f).split? n = some (f x) := find?_map_if hid _ h

theorem Group.split?_modSplit_other {g : Group} {n m : Nat} {f : Split → Split} (ne : m ≠ n) (hid : ∀ y, (f y).id = y.id) :
    (g.modSplit n f).split? m = g.split? m := find?_map_if_other ne hid _

theorem State.modSplit_eq {s : State} {w : Who} {g : Group} (h : s.groups.get? w.key = some g) (f : Split → Split) :
    s.modSplit w f = s.setGroup w.key (g.modSplit w.split f) := by simp [State.modSplit, State.modGroup, h]

theorem State.modGroup_eq {s : State} {key : Nat} {g : Group} (h : s.groups.get? key = some g) (f : Group → Group) :
    s.modGroup key f = s.setGroup key (f g) := by simp [State.modGroup, h]

@[simp] theorem Split.id_adv (x : Split) (u : Nat) : (x.adv u).id = x.id := rfl
@[simp] theorem Split.id_jump (x : Split) (pc : BitVec 50) : (x.jump pc).id = x.id := rfl

@[simp] theorem State.setGroup_get (s : State) (k : Nat) (g : Group) : (s.setGroup k g).groups.get? k = some g := Table.get?_put_same k g _
theorem State.setGroup_other (s : State) {k j : Nat} (g : Group) (ne : j ≠ k) : (s.setGroup k g).groups.get? j = s.groups.get? j :=
  Table.get?_put_other g ne _
@[simp] theorem State.setGroup_setGroup (s : State) (k : Nat) (g g' : Group) : (s.setGroup k g).setGroup k g' = s.setGroup k g' := by
  simp [State.setGroup]

theorem OnlyGroup.refl (s : State) (key : Nat) : OnlyGroup s s key := ⟨rfl, fun _ _ => rfl⟩
theorem OnlyGroup.trans {s t u : State} {key : Nat} (h : OnlyGroup s t key) (h' : OnlyGroup t u key) : OnlyGroup s u key :=
  ⟨h'.rest.trans (congrArg (fun x : State => { x with groups := u.groups }) h.rest),
   fun k ne => (h'.others k ne).trans (h.others k ne)⟩
theorem OnlyGroup.setGroup (s : State) (key : Nat) (g : Group) : OnlyGroup s (s.setGroup key g) key :=
  ⟨rfl, fun _ ne => State.setGroup_other s g ne⟩

theorem OnlyGroup.sameMemory {s t : State} {key : Nat} (h : OnlyGroup s t key) : SameMemory s t := by
  rw [h.rest]; exact ⟨fun _ => rfl, fun _ => rfl, fun _ _ => rfl, fun _ _ => rfl⟩

theorem Group.OnlySplit.modSplit (g : Group) (n : Nat) {f : Split → Split} (hid : ∀ y, (f y).id = y.id) : g.OnlySplit (g.modSplit n f) n :=
  ⟨rfl, fun _ ne => Group.split?_modSplit_other ne hid⟩

/-- Changing the issuing split changes nothing else. -/
theorem Becomes.modSplit {s : State} {i : Iss} (h : s.iss? = some i) {f : Split → Split} (hid : ∀ y, (f y).id = y.id) :
    Becomes s (s.modSplit i.who f) i (f i.sp) i.g.lanes := by
  obtain ⟨_, hg, hs⟩ := State.iss?_some h
  rw [State.modSplit_eq hg]
  have o : OnlyGroup s (s.setGroup i.who.key (i.g.modSplit i.who.split f)) i.who.key := OnlyGroup.setGroup s _ _
  exact ⟨o, o.sameMemory, _, State.setGroup_get _ _ _, Group.OnlySplit.modSplit _ _ hid, Group.split?_modSplit_same hs hid, rfl⟩

theorem Split.adv_past (x : Split) (u : Nat) : x.Past (x.adv u) u x.s x.flags := ⟨rfl, rfl, rfl, rfl, rfl⟩

/-- The instruction completes: the split stands at the next one, and nothing else changes. -/
theorem State.done_becomes {s : State} {i : Iss} (h : s.iss? = some i) (o : Op) :
    Becomes s (s.done i o) i (i.sp.adv (opUnits o)) i.g.lanes := Becomes.modSplit h fun _ => rfl

theorem Group.modSplit_modSplit (g : Group) (n : Nat) {f f' : Split → Split} (hid : ∀ y, (f y).id = y.id) :
    (g.modSplit n f).modSplit n f' = g.modSplit n fun x => f' (f x) := by
  unfold Group.modSplit
  dsimp only
  rw [List.map_map]
  congr 1
  apply List.map_congr_left
  intro x _
  show (if (if x.id == n then f x else x).id == n then f' (if x.id == n then f x else x) else (if x.id == n then f x else x)) = _
  by_cases e : (x.id == n) = true
  · simp only [e, ↓reduceIte, hid]
  · simp only [e, Bool.false_eq_true, ↓reduceIte]

theorem State.modSplit_modSplit {s : State} {w : Who} {g : Group} (h : s.groups.get? w.key = some g) {f f' : Split → Split}
    (hid : ∀ y, (f y).id = y.id) : (s.modSplit w f).modSplit w f' = s.modSplit w fun x => f' (f x) := by
  rw [State.modSplit_eq h, State.modSplit_eq (State.setGroup_get _ _ _), State.modSplit_eq h, State.setGroup_setGroup,
    Group.modSplit_modSplit _ _ hid]

@[simp] theorem Split.id_write (x : Split) (d : Opnd) (n v : Nat) : (x.write d n v).id = x.id := by
  unfold Split.write; split <;> rfl

theorem State.modSplit_cur (s : State) (w : Who) (f : Split → Split) : (s.modSplit w f).cur = s.cur := by
  unfold State.modSplit State.modGroup; split <;> rfl

/-- A group replaced, its issuing split changed, and the instruction complete: one replacement of the group. -/
theorem State.setGroup_done (s : State) (i : Iss) (g : Group) {f : Split → Split} (hid : ∀ y, (f y).id = y.id) (o : Op) :
    ((s.setGroup i.who.key g).modSplit i.who f).done i o =
      (s.setGroup i.who.key (g.modSplit i.who.split fun y => (f y).adv (opUnits o))) := by
  rw [State.done, State.modSplit_modSplit (State.setGroup_get _ _ _) hid, State.modSplit_eq (State.setGroup_get _ _ _), State.setGroup_setGroup]

/-- The same without a change of the split but its place. -/
theorem State.setGroup_done' (s : State) (i : Iss) (g : Group) (o : Op) :
    (s.setGroup i.who.key g).done i o = (s.setGroup i.who.key (g.modSplit i.who.split fun y => y.adv (opUnits o))) := by
  rw [State.done, State.modSplit_eq (State.setGroup_get _ _ _), State.setGroup_setGroup]

end Sys2Proof.Machine
end

