-- ==== Sys2Proof/Laws/Lane.lean ====
section
/-! SUPPORT. Reading back what was written to lanes and registers. -/
namespace Sys2Proof

theorem setAt_length {α : Type} (y : α) : ∀ (l : List α) (i : Nat), (setAt l i y).length = l.length := by
  intro l
  induction l with
  | nil => intro i; rfl
  | cons x l ih => intro i; cases i <;> simp [setAt, ih]

theorem setAt_getElem? {α : Type} (y : α) : ∀ (l : List α) (i j : Nat), (setAt l i y)[j]? = if j = i ∧ i < l.length then some y else l[j]? := by
  intro l
  induction l with
  | nil => intro i j; simp [setAt]
  | cons x l ih =>
    intro i j
    cases i with
    | zero => cases j <;> simp [setAt]
    | succ i => cases j <;> simp [setAt, ih]

@[simp] theorem modAt_length {α : Type} (l : List α) (i : Nat) (f : α → α) : (modAt l i f).length = l.length := by
  unfold modAt; split <;> simp [setAt_length]

theorem modAt_getD {α : Type} (l : List α) (i j : Nat) (f : α → α) (d : α) (hj : j < l.length) :
    (modAt l i f).getD j d = if j = i then f (l.getD j d) else l.getD j d := by
  unfold modAt
  split
  · rename_i x hx
    have hi : i < l.length := by
      by_cases h : i < l.length
      · exact h
      · simp [List.getElem?_eq_none (Nat.le_of_not_lt h)] at hx
    rw [List.getD_eq_getElem?_getD, setAt_getElem?]
    by_cases e : j = i
    · subst e
      have := (List.getElem_eq_iff hj).mpr hx
      simp [hi, this]
    · simp [e]
  · rename_i hn
    have : j ≠ i := by
      intro e; subst e
      rw [List.getElem?_eq_getElem hj] at hn; cases hn
    simp [this]

end Sys2Proof

namespace Sys2Proof.Machine

@[simp] theorem Group.modLane_length (g : Group) (l : Nat) (f : Lane → Lane) : (g.modLane l f).lanes.length = g.lanes.length := modAt_length _ _ _
theorem Group.modLane_rest (g : Group) (l : Nat) (f : Lane → Lane) : g.modLane l f = { g with lanes := (g.modLane l f).lanes } := rfl
theorem Group.lane_modLane (g : Group) (i j : Nat) (f : Lane → Lane) (hj : j < g.lanes.length) :
    (g.modLane i f).lane j = if j = i then f (g.lane j) else g.lane j := modAt_getD _ _ _ _ _ hj

/-- A fold over lanes changes each listed lane once, by its entry, and nothing but lanes. -/
theorem foldl_modLane {α : Type} (f : α → Lane → Lane) : ∀ (es : List (Nat × α)) (g : Group), (es.map (·.1)).Nodup →
    let g' := es.foldl (fun g e => g.modLane e.1 (f e.2)) g
    g'.lanes.length = g.lanes.length ∧ g' = { g with lanes := g'.lanes } ∧
    (∀ e ∈ es, e.1 < g.lanes.length → g'.lane e.1 = f e.2 (g.lane e.1)) ∧
    (∀ l, l < g.lanes.length → l ∉ es.map (·.1) → g'.lane l = g.lane l) := by
  intro es
  induction es with
  | nil => intro g _; exact ⟨rfl, rfl, by simp, fun _ _ _ => rfl⟩
  | cons e es ih =>
    intro g nd
    simp only [List.map_cons, List.nodup_cons] at nd
    obtain ⟨h1, h2, h3, h4⟩ := ih (g.modLane e.1 (f e.2)) nd.2
    simp only [List.foldl_cons]
    refine ⟨h1.trans (by simp), h2.trans rfl, ?_, ?_⟩
    · intro x hx hl
      rcases List.mem_cons.mp hx with rfl | hm
      · rw [h4 _ (by simpa using hl) nd.1, Group.lane_modLane _ _ _ _ hl]; simp
      · have ne : x.1 ≠ e.1 := fun he => nd.1 (he ▸ List.mem_map_of_mem hm)
        rw [h3 x hm (by simpa using hl), Group.lane_modLane _ _ _ _ hl]; simp [ne]
    · intro l hl hn
      simp only [List.map_cons, List.mem_cons, not_or] at hn
      rw [h4 l (by simpa using hl) hn.2, Group.lane_modLane _ _ _ _ hl]; simp [hn.1]

/-- The same of a change of several lanes by their numbers. -/
theorem Group.modLanes_spec (g : Group) (f : Nat → Lane → Lane) (ls : List Nat) (nd : ls.Nodup) :
    (g.modLanes ls f).lanes.length = g.lanes.length ∧ g.modLanes ls f = { g with lanes := (g.modLanes ls f).lanes } ∧
    (∀ l ∈ ls, l < g.lanes.length → (g.modLanes ls f).lane l = f l (g.lane l)) ∧
    (∀ l, l < g.lanes.length → l ∉ ls → (g.modLanes ls f).lane l = g.lane l) := by
  have h := foldl_modLane f (ls.map fun l => (l, l)) g (by simpa [Function.comp_def] using nd)
  simp only [List.foldl_map, List.map_map, Function.comp_def, List.map_id'] at h
  exact ⟨h.1, h.2.1, fun l hl hg => h.2.2.1 (l, l) (List.mem_map_of_mem (f := fun l => (l, l)) hl) hg, h.2.2.2⟩

/-- A register after n registers from r have been written. -/
theorem writeRegs_get (v r k : Nat) : ∀ (n : Nat) (m : Store 32) , (writeRegs m r v n).get k =
    if r ≤ k ∧ k < r + n then BitVec.ofNat 32 (v / 2 ^ (32 * (k - r))) else m.get k := by
  intro n
  induction n generalizing r v with
  | zero => intro m; simp only [writeRegs]; rw [if_neg (by omega)]
  | succ n ih =>
    intro m
    simp only [writeRegs]
    rw [ih]
    by_cases h : r + 1 ≤ k ∧ k < r + 1 + n
    · rw [if_pos h, if_pos (by omega), Nat.div_div_eq_div_mul, ← Nat.pow_add]
      congr 3; omega
    · rw [if_neg h]
      by_cases e : k = r
      · subst e; rw [if_pos (by omega), Store.get_set_same]; simp
      · rw [if_neg (by omega), Store.get_set_other _ e]

/-- A predicate after a write; p0 stays as it is (R70). -/
theorem Lane.setPred_bit (ln : Lane) (n m : Nat) (b : Bool) (hm : m < 8) :
    (ln.setPred n b).p.getLsbD m = if m = n ∧ n ≠ 0 then b else ln.p.getLsbD m := by
  unfold Lane.setPred
  by_cases h0 : n = 0
  · simp [h0]
  · simp only [beq_iff_eq, h0, ↓reduceIte, ne_eq, not_false_eq_true, and_true]
    by_cases e : m = n
    · subst e; cases b <;> simp [hm]
    · have hb : ¬ m - n = 0 ∨ m < n := by omega
      cases b <;> rcases hb with hb | hb <;> simp [hm, e, hb]

end Sys2Proof.Machine
end

