-- ==== Sys2Proof/Laws/Alu.lean ====
section
/-! SUPPORT. What an arithmetic instruction leaves in a lane and in a group. -/
namespace Sys2Proof.Machine

theorem Lane.write_v (ln : Lane) (d : Opnd) (n val : Nat) (pred : Bool) (r : Nat) : (ln.write d n val pred).v.get r = match d with
    | .v d => if d.toNat ≤ r ∧ r < d.toNat + n then BitVec.ofNat 32 (val / 2 ^ (32 * (r - d.toNat))) else ln.v.get r
    | _ => ln.v.get r := by
  cases d <;> simp only [Lane.write, writeRegs_get]
  · split <;> rfl
  · unfold Lane.setPred; split <;> rfl

theorem Lane.write_p (ln : Lane) (d : Opnd) (n val : Nat) (pred : Bool) (m : Nat) (hm : m < 8) : (ln.write d n val pred).p.getLsbD m =
    if m ≠ 0 ∧ d = .p (BitVec.ofNat 8 m) then pred else ln.p.getLsbD m := by
  cases d with
  | p r =>
    simp only [Lane.write, Lane.setPred_bit _ _ _ _ hm]
    have : (m = r.toNat ∧ r.toNat ≠ 0) ↔ (m ≠ 0 ∧ Opnd.p r = .p (BitVec.ofNat 8 m)) := by
      constructor
      · rintro ⟨rfl, h⟩; simp [h]
      · rintro ⟨h0, h⟩
        injection h with h
        subst h
        simp [Nat.mod_eq_of_lt (show m < 256 by omega), h0]
    simp only [this]
  | q r => simp only [Lane.write]; split <;> simp
  | _ => simp [Lane.write]

theorem Lane.write_rest (ln : Lane) (d : Opnd) (n val : Nat) (pred : Bool) : ln.write d n val pred = { ln with
    v := (ln.write d n val pred).v, p := (ln.write d n val pred).p,
    q1 := ln.q1 ++ (if d = .q 1 then [BitVec.ofNat 32 val] else []), q2 := ln.q2 ++ (if d = .q 2 then [BitVec.ofNat 32 val] else []) } := by
  cases d with
  | q r =>
    simp only [Lane.write]
    split
    · rename_i h
      have : r = 1#8 := BitVec.eq_of_toNat_eq h
      subst this; simp
    · rename_i h
      have : r = 2#8 := BitVec.eq_of_toNat_eq h
      subst this; simp
    · rename_i h1 h2
      have e1 : ¬ r = 1#8 := fun e => h1 (by rw [e]; rfl)
      have e2 : ¬ r = 2#8 := fun e => h2 (by rw [e]; rfl)
      simp [e1, e2]
  | p r => simp only [Lane.write, Lane.setPred]; split <;> simp
  | _ => simp [Lane.write]

/-- What `laneAfter` does to a lane. -/
theorem laneAfter_takes (o : Opc) (x : Op) (out : LaneOut) (ln : Lane) : Lane.Takes o x out ln (laneAfter o x out ln) := by
  have key : ∀ (f : Lane → Lane), (∀ l, (f l) = { l with p := (f l).p }) →
      laneAfter o x out ln = f (({ ln.popped (opPops x) with vlfsr := out.lfsr } : Lane).write x.d (dstN o x) out.val out.pred) →
      (∀ (l : Lane) n, n < 8 → (f l).p.getLsbD n = if o = .s2p then out.preds.getLsbD n else
        if n ≠ 0 ∧ ((o = .iaddc ∨ o = .isubb) ∧ x.c = .p (BitVec.ofNat 8 n)) then out.pred else l.p.getLsbD n) → 
      Lane.Takes o x out ln (laneAfter o x out ln) := by
    intro f hf he hp
    rw [he]
    refine ⟨?_, ?_, ?_⟩
    · have hw := Lane.write_rest { ln.popped (opPops x) with vlfsr := out.lfsr } x.d (dstN o x) out.val out.pred
      rw [hf]
      generalize Lane.write _ x.d (dstN o x) out.val out.pred = w at hw ⊢
      cases w
      simp only [Lane.popped, Lane.mk.injEq] at hw
      simp only [Lane.mk.injEq]
      exact ⟨trivial, trivial, hw.2.2⟩
    · intro r
      rw [hf]
      exact Lane.write_v _ _ _ _ _ _
    · intro n hn
      rw [hp _ n hn, Lane.write_p _ _ _ _ _ _ hn]
      show (if o = .s2p then _ else if _ then _ else if _ then _ else ln.p.getLsbD n) = _
      by_cases h : o = .s2p
      · simp [h]
      · simp only [h, ↓reduceIte]
        by_cases h0 : n = 0
        · simp [h0]
        · by_cases h1 : x.d = .p (BitVec.ofNat 8 n) <;> by_cases h2 : (o = .iaddc ∨ o = .isubb) ∧ x.c = .p (BitVec.ofNat 8 n) <;> simp [h0, h1, h2]
  have carry : (o = .iaddc ∨ o = .isubb) → Lane.Takes o x out ln (laneAfter o x out ln) := by
    intro ho
    apply key (fun l => match x.c with
      | .p r => l.setPred r.toNat out.pred
      | _ => l)
    · intro l; split
      · unfold Lane.setPred; split <;> rfl
      · rfl
    · rcases ho with rfl | rfl <;> rfl
    · intro l n hn
      have hs : ¬ o = .s2p := by rcases ho with rfl | rfl <;> decide
      simp only [hs, ↓reduceIte, ho, true_and]
      have := Lane.write_p l x.c 0 0 out.pred n hn
      rw [← this]
      cases hc : x.c with
      | q r => simp only [Lane.write]; split <;> rfl
      | _ => rfl
  by_cases h1 : o = .iaddc
  · exact carry (.inl h1)
  by_cases h2 : o = .isubb
  · exact carry (.inr h2)
  by_cases h3 : o = .s2p
  · subst h3
    exact key (fun l => { l with p := out.preds }) (fun _ => rfl) rfl (fun _ _ _ => rfl)
  · apply key id (fun _ => rfl)
    · cases o <;> first | rfl | contradiction
    · intro l n hn; simp [h1, h2, h3]

theorem foldl_pushEvt {α : Type} (f : α → EvtRec) : ∀ (es : List α) (g : Group),
    es.foldl (fun g e => g.pushEvt (f e)) g = { g with q4 := g.q4 ++ es.map f } := by
  intro es
  induction es with
  | nil => intro g; simp
  | cons e es ih => intro g; rw [List.foldl_cons, ih]; simp [Group.pushEvt]

/-- What `applyLanes` does to a group: each listed lane takes its result, q4 gains the user records, and nothing else changes. -/
theorem applyLanes_spec (clock : DWord) (o : Opc) (x : Op) (outs : List (Nat × LaneOut)) (g : Group) (nd : (outs.map (·.1)).Nodup) :
    let g' := applyLanes clock o x outs g
    g' = { g with lanes := g'.lanes, q4 := g'.q4 } ∧ g'.lanes.length = g.lanes.length ∧
    g'.q4 = g.q4 ++ (if opPush x = some 4 then outs.map fun e => userEvt clock e.1 e.2.val else []) ∧
    (∀ e ∈ outs, e.1 < g.lanes.length → Lane.Takes o x e.2 (g.lane e.1) (g'.lane e.1)) ∧
    (∀ l, l < g.lanes.length → l ∉ outs.map (·.1) → g'.lane l = g.lane l) := by
  obtain ⟨h1, h2, h3, h4⟩ := foldl_modLane (laneAfter o x) outs g nd
  have e : applyLanes clock o x outs g = { outs.foldl (fun g e => g.modLane e.1 (laneAfter o x e.2)) g with
      q4 := (outs.foldl (fun g e => g.modLane e.1 (laneAfter o x e.2)) g).q4 ++
        (if opPush x = some 4 then outs.map fun e => userEvt clock e.1 e.2.val else []) } := by
    by_cases h : opPush x = some 4 <;> simp [applyLanes, h, foldl_pushEvt]
  dsimp only
  rw [e]
  generalize outs.foldl (fun g e => g.modLane e.1 (laneAfter o x e.2)) g = w at h1 h2 h3 h4 ⊢
  refine ⟨?_, h1, ?_, fun e he hl => (h3 e he hl) ▸ laneAfter_takes _ _ _ _, h4⟩
  · rw [h2]
  · rw [h2]

/-- Popping q4 changes nothing of the group but q4. -/
theorem popEvts_rest (n : Nat) : ∀ g : Group, (popEvts n g).2 = { g with q4 := (popEvts n g).2.q4, q4pos := (popEvts n g).2.q4pos } := by
  induction n with
  | zero => intro g; rfl
  | succ n ih =>
    intro g
    simp only [popEvts]
    have h1 : g.popEvt.2 = { g with q4 := g.popEvt.2.q4, q4pos := g.popEvt.2.q4pos } := by
      unfold Group.popEvt
      split
      · rfl
      · dsimp only; split <;> rfl
    generalize g.popEvt.2 = w at h1 ⊢
    rw [h1]
    exact ih _

theorem takeEvts_rest (i : Iss) (x : Op) (ls : List Nat) :
    (takeEvts i x ls).2 = { i.g with q4 := (takeEvts i x ls).2.q4, q4pos := (takeEvts i x ls).2.q4pos } := by
  unfold takeEvts
  split
  · rfl
  · exact popEvts_rest _ _

theorem activeLanes_nodup (g : Group) (x : Split) (o : Op) : (activeLanes g x o).Nodup :=
  ((((List.nodup_range).filter _).filter _).filter _).filter _

/-- No flag that is raised has its trap enabled, when none of any lane has. -/
theorem orFlags_and (te : Flags) : ∀ (outs : List (Nat × LaneOut)), (∀ e ∈ outs, e.2.flags &&& te = 0) → orFlags outs &&& te = 0 := by
  intro outs
  have key : ∀ (l : List (Nat × LaneOut)) (f : Flags), f &&& te = 0 → (∀ e ∈ l, e.2.flags &&& te = 0) →
      l.foldl (fun f e => f ||| e.2.flags) f &&& te = 0 := by
    intro l
    induction l with
    | nil => intro f hf _; exact hf
    | cons e l ih =>
      intro f hf h
      simp only [List.foldl_cons]
      apply ih
      · have h1 := h e (List.mem_cons_self ..)
        apply BitVec.eq_of_getLsbD_eq
        intro j _
        have a := congrArg (fun v : Flags => v.getLsbD j) hf
        have b := congrArg (fun v : Flags => v.getLsbD j) h1
        revert a b
        simp only [BitVec.getLsbD_and, BitVec.getLsbD_or, BitVec.ofNat_eq_ofNat, BitVec.getLsbD_zero]
        cases f.getLsbD j <;> cases e.2.flags.getLsbD j <;> cases te.getLsbD j <;> simp
      · exact fun e he => h e (List.mem_cons_of_mem _ he)
  exact key outs 0 (by simp)

theorem Group.split?_splits {g h : Group} (e : h.splits = g.splits) (n : Nat) : h.split? n = g.split? n := by
  unfold Group.split?; rw [e]

/-- A lane that the group does not have is idle. -/
theorem Group.lane_out {g : Group} {l : Nat} (h : g.lanes.length ≤ l) : g.lane l = {} := by
  simp only [Group.lane, List.getD_eq_getElem?_getD]
  rw [List.getElem?_eq_none h]; rfl

theorem liveLanes_lt {g : Group} {x : Split} {l : Nat} (h : l ∈ liveLanes g x) : l < g.lanes.length := by
  rcases Nat.lt_or_ge l g.lanes.length with hl | hl
  · exact hl
  · simp [liveLanes, Group.lane_out hl] at h

theorem exmLanes_live {g : Group} {x : Split} {l : Nat} (h : l ∈ exmLanes g x) : l ∈ liveLanes g x := (List.mem_filter.mp h).1

theorem activeLanes_live {g : Group} {x : Split} {o : Op} {l : Nat} (h : l ∈ activeLanes g x o) : l ∈ liveLanes g x :=
  exmLanes_live (List.mem_filter.mp h).1

/-- The lanes of a split are in range of its group's lanes when they are not idle. -/
theorem activeLanes_lt {g : Group} {x : Split} {o : Op} {l : Nat} (h : l ∈ activeLanes g x o) : l < g.lanes.length :=
  liveLanes_lt (activeLanes_live h)

theorem laneIn_vlfsr (o : Opc) (x : Op) (sp : Split) (ln : Lane) (w : Word) (ev : List Word) :
    laneIn o x sp { ln with vlfsr := w } ev = laneIn o x sp ln ev := by
  have h : ∀ b t z, readAny sp { ln with vlfsr := w } ev b t z = readAny sp ln ev b t z := by intro b t z; cases z <;> rfl
  have h2 : ∀ t z, readOpnd sp { ln with vlfsr := w } t z = readOpnd sp ln t z := by intro t z; cases z <;> rfl
  simp only [laneIn, h, h2]
  rfl

/-- A bit of the flags of several lanes. -/
theorem orFlags_bit (f : Nat) (out : Nat → LaneOut) (ls : List Nat) :
    (orFlags (ls.map fun l => (l, out l))).getLsbD f = ls.any fun l => (out l).flags.getLsbD f := by
  have key : ∀ (l : List Nat) (a : Flags), ((l.map fun l => (l, out l)).foldl (fun f e => f ||| e.2.flags) a).getLsbD f =
      (a.getLsbD f || l.any fun l => (out l).flags.getLsbD f) := by
    intro l
    induction l with
    | nil => intro a; simp
    | cons l ls ih => intro a; simp [ih, Bool.or_assoc]
  unfold orFlags
  rw [key]; simp

end Sys2Proof.Machine
end

