-- ==== Sys2Proof/Laws/CanonAccess.lean ====
section
/-! SUPPORT. The canonical form of every memory is kept by the caches, translation, access, barriers and shared operations. -/
namespace Sys2Proof.Machine

theorem State.keepOld_canon {s : State} (sector : Nat) (hC : s.Canon) :
    (State.keepOld s sector).Canon := by
  unfold State.keepOld
  repeat' first | (with_reducible first | assumption | apply State.Canon.allWgs | apply State.Canon.allCores) | dsimp only | split | (simp only [State.canon_lit]; refine State.CanonLit.of _ ?_ ?_ ?_)

theorem Core.l1Put_canon {k : Core} (x : L1Line) (hC : k.Canon) :
    (Core.l1Put k x).Canon := by
  unfold Core.l1Put
  repeat' first | exact ⟨hC.1, hC.2, hC.3⟩ | split

theorem State.dramAsk_canon {s : State} (line : Nat) (mask : BitVec 4) (write : Bool) (hC : s.Canon) :
    (State.dramAsk s line mask write).Canon := by
  unfold State.dramAsk
  repeat' first | (with_reducible first | assumption | apply State.Canon.allWgs | apply State.Canon.allCores) | (simp only [State.canon_lit]; refine State.CanonLit.of _ ?_ ?_ ?_) | dsimp only | split

theorem State.l2Dirty_canon {s : State} (line : Nat) (ctx : BitVec 16) (mask : BitVec 4) (hC : s.Canon) :
    (State.l2Dirty s line ctx mask).Canon := by
  unfold State.l2Dirty
  repeat' first | (with_reducible first | assumption | apply State.l2Put_canon | apply State.dramAsk_canon | apply State.Canon.allWgs | apply State.Canon.allCores) | dsimp only | split | (simp only [State.canon_lit]; refine State.CanonLit.of _ ?_ ?_ ?_)

theorem State.takeBack_canon {s : State} (line : Nat) (ctx : BitVec 16) (mask : BitVec 4) (hC : s.Canon) :
    (State.takeBack s line ctx mask).Canon := by
  have hk : ∀ (l : List (Nat × OldSector)) (t : Table Core), Table.All Core.Canon t →
      Table.All Core.Canon (l.foldl (fun t e => dropBlock line (e.1 % 4) t) t) := by
    intro l
    induction l with
    | nil => exact fun _ h => h
    | cons e l ih => exact fun t h => ih _ (dropBlock_canon h _ _)
  unfold State.takeBack
  split
  · exact hC
  · exact State.syncLine_canon _ (State.l2Dirty_canon _ _ _ (State.Canon.mk' s hC hC.wgs (hk _ _ hC.cores)))

theorem State.dropL1_canon {s : State} (c line : Nat) (ctx : BitVec 16) (hC : s.Canon) :
    (State.dropL1 s c line ctx).Canon := by
  unfold State.dropL1
  repeat' first | (with_reducible first | assumption | apply State.Canon.allWgs | apply State.Canon.allCores | apply State.modCore_canon | apply State.takeBack_canon) | (rename_i hx; exact ⟨hx.1, hx.2, hx.3⟩) | intro _ | split | dsimp only | (simp only [State.canon_lit]; refine State.CanonLit.of _ ?_ ?_ ?_)

theorem State.dropSectors_canon {s : State} (c line : Nat) (ctx : BitVec 16) (mask : BitVec 4) (hC : s.Canon) :
    (State.dropSectors s c line ctx mask).Canon := by
  unfold State.dropSectors
  repeat' first | (with_reducible first | assumption | apply State.dropL1_canon | apply State.takeBack_canon | apply State.modCore_canon | apply Core.l1Put_canon | apply State.Canon.allWgs | apply State.Canon.allCores) | (rename_i hx; exact ⟨hx.1, hx.2, hx.3⟩) | dsimp only | split | (simp only [State.canon_lit]; refine State.CanonLit.of _ ?_ ?_ ?_) | intro _

theorem Core.dropCode_canon {k : Core} (line : Nat) (hC : k.Canon) :
    (Core.dropCode k line).Canon := by
  unfold Core.dropCode
  repeat' exact ⟨hC.1, hC.2, hC.3⟩

theorem State.dropCopies_canon {s : State} (line : Nat) (ctx : BitVec 16) (mask : BitVec 4) (p : Nat → Bool) (hC : s.Canon) :
    (State.dropCopies s line ctx mask p).Canon := by
  unfold State.dropCopies
  repeat' first | (with_reducible first | assumption | apply State.dropSectors_canon | apply State.syncLine_canon | apply State.modCore_canon | apply State.dropL1_canon | apply Core.dropCode_canon | apply foldl_canon) | intro _ | (rename_i hx; exact ⟨hx.1, hx.2, hx.3⟩) | dsimp only | split

theorem State.evictL2_canon {s : State} (x : L2Line) (hC : s.Canon) :
    (State.evictL2 s x).Canon := by
  unfold State.evictL2
  repeat' first | (with_reducible first | assumption | apply State.dramAsk_canon | apply State.dropCopies_canon | apply State.Canon.allWgs | apply State.Canon.allCores) | dsimp only | split | (simp only [State.canon_lit]; refine State.CanonLit.of _ ?_ ?_ ?_)

theorem State.roomL2_canon {s : State} (line : Nat) (hC : s.Canon) :
    (State.roomL2 s line).Canon := by
  unfold State.roomL2
  repeat' first | (with_reducible first | assumption | apply State.evictL2_canon | apply State.Canon.allWgs | apply State.Canon.allCores) | dsimp only | split | (simp only [State.canon_lit]; refine State.CanonLit.of _ ?_ ?_ ?_)

theorem State.l2Fill_canon {s : State} (line : Nat) (ctx : BitVec 16) (priv : Option Nat) (mask : BitVec 4) (fill : Bool) (hC : s.Canon) :
    (State.l2Fill s line ctx priv mask fill).Canon := by
  unfold State.l2Fill
  repeat' first | (with_reducible first | assumption | apply State.Canon.allWgs | apply State.Canon.allCores | apply State.l2Put_canon | apply State.dramAsk_canon | apply State.roomL2_canon) | split | dsimp only | (simp only [State.canon_lit]; refine State.CanonLit.of _ ?_ ?_ ?_)

theorem State.l2Share_canon {s : State} (line : Nat) (ctx : BitVec 16) (hC : s.Canon) :
    (State.l2Share s line ctx).Canon := by
  unfold State.l2Share
  repeat' first | (with_reducible first | assumption | apply State.l2Put_canon | apply State.Canon.allWgs | apply State.Canon.allCores) | dsimp only | split | (simp only [State.canon_lit]; refine State.CanonLit.of _ ?_ ?_ ?_)

theorem Core.countMiss_canon {k : Core} (line : Nat) (slot : BitVec 6) (hC : k.Canon) :
    (Core.countMiss k line slot).Canon := by
  unfold Core.countMiss
  repeat' first | exact hC | exact ⟨hC.1, hC.2, hC.3⟩ | split

theorem Core.enterVictim_canon {k : Core} (l : L1Line) (hC : k.Canon) :
    (Core.enterVictim k l).Canon := by
  unfold Core.enterVictim
  repeat' exact ⟨hC.1, hC.2, hC.3⟩

theorem State.roomL1_canon {s : State} (c line : Nat) (hC : s.Canon) :
    (State.roomL1 s c line).Canon := by
  unfold State.roomL1
  repeat' first | (with_reducible first | assumption | apply State.modCore_canon | apply State.syncDir_canon | apply State.dropL1_canon | apply Core.enterVictim_canon | apply State.Canon.allWgs | apply State.Canon.allCores) | intro _ | dsimp only | split | (simp only [State.canon_lit]; refine State.CanonLit.of _ ?_ ?_ ?_) | (rename_i hx; exact ⟨hx.1, hx.2, hx.3⟩)

theorem State.enterL1_canon {s : State} (c : Nat) (x : L1Line) (hC : s.Canon) :
    (State.enterL1 s c x).Canon := by
  unfold State.enterL1
  repeat' first | (with_reducible first | assumption | apply State.dropL1_canon | apply State.modCore_canon | apply Core.l1Put_canon | apply State.roomL1_canon) | intro _ | split | (rename_i hx; exact ⟨hx.1, hx.2, hx.3⟩) | dsimp only

theorem State.recallOthers_canon {s : State} (c line : Nat) (ctx : BitVec 16) (mask : BitVec 4) (hC : s.Canon) :
    (State.recallOthers s c line ctx mask).Canon := by
  unfold State.recallOthers
  repeat' first | (with_reducible first | assumption | apply State.dropSectors_canon | apply State.Canon.allWgs | apply State.Canon.allCores | apply State.modCore_canon | apply Core.l1Put_canon | apply State.takeBack_canon | apply State.dropL1_canon | apply foldl_canon) | intro _ | split | dsimp only | (simp only [State.canon_lit]; refine State.CanonLit.of _ ?_ ?_ ?_) | (rename_i hx; exact ⟨hx.1, hx.2, hx.3⟩)

theorem State.loadLine_canon {s : State} (c : Nat) (slot : BitVec 6) (ctx : BitVec 16) (path : Path) (na : Bool) (sector : Nat) (hC : s.Canon) :
    (State.loadLine s c slot ctx path na sector).Canon := by
  unfold State.loadLine
  repeat' first | (with_reducible first | assumption | apply State.l2Share_canon | apply State.modCore_canon | apply State.syncDir_canon | apply State.l2Fill_canon | apply Core.countMiss_canon | apply State.enterL1_canon | apply State.recallOthers_canon) | intro _ | dsimp only | split | (rename_i hx; exact ⟨hx.1, hx.2, hx.3⟩)

theorem State.storeHome_canon {s : State} (c line : Nat) (ctx : BitVec 16) (bit : BitVec 4) (full : Bool) (p : Nat → Bool) (hC : s.Canon) :
    (State.storeHome s c line ctx bit full p).Canon := by
  unfold State.storeHome
  repeat' first | (with_reducible first | assumption | apply State.recallOthers_canon | apply State.l2Fill_canon | apply State.dropCopies_canon | apply State.takeBack_canon | apply State.syncDir_canon) | dsimp only | split

theorem State.storeLine_canon {s : State} (c : Nat) (slot : BitVec 6) (ctx : BitVec 16) (path : Path) (full : Bool) (sector : Nat) (na : Bool) (hC : s.Canon) :
    (State.storeLine s c slot ctx path full sector na).Canon := by
  unfold State.storeLine
  repeat' first | (with_reducible first | assumption | apply State.l2Share_canon | apply State.storeHome_canon | apply State.Canon.allWgs | apply State.Canon.allCores | apply State.modCore_canon | apply Core.l1Put_canon | apply State.syncDir_canon | apply State.takeBack_canon | apply State.dropCopies_canon | apply State.l2Fill_canon | apply Core.countMiss_canon | apply State.enterL1_canon | apply State.recallOthers_canon) | intro _ | dsimp only | split | dsimp only | (simp only [State.canon_lit]; refine State.CanonLit.of _ ?_ ?_ ?_) | (rename_i hx; exact ⟨hx.1, hx.2, hx.3⟩)

theorem State.cleanLine_canon {s : State} (line : Nat) (inv : Bool) (hC : s.Canon) :
    (State.cleanLine s line inv).Canon := by
  unfold State.cleanLine
  repeat' first | (with_reducible first | assumption | apply State.Canon.allWgs | apply State.Canon.allCores | apply State.modCore_canon | apply State.l2Put_canon | apply Core.l1Put_canon | apply State.dramAsk_canon | apply State.takeBack_canon | apply State.evictL2_canon | apply foldl_canon) | intro _ | dsimp only | split | dsimp only | (simp only [State.canon_lit]; refine State.CanonLit.of _ ?_ ?_ ?_) | (rename_i hx; exact ⟨hx.1, hx.2, hx.3⟩)

theorem State.aside_canon {s : State} (c : Nat) (ctx : BitVec 16) (path : Path) (sector : Nat) (hC : s.Canon) :
    (State.aside s c ctx path sector).Canon := by
  unfold State.aside
  repeat' first | (with_reducible first | assumption | apply State.keepOld_canon) | dsimp only | split

theorem State.enterCode_canon {s : State} (c : Nat) (ctx : BitVec 16) (sector : Nat) (hC : s.Canon) :
    (State.enterCode s c ctx sector).Canon := by
  unfold State.enterCode
  repeat' first | (with_reducible first | assumption | apply State.recallOthers_canon | apply State.modCore_canon | apply State.syncDir_canon | apply State.l2Fill_canon | apply State.Canon.allWgs | apply State.Canon.allCores) | (rename_i hx; exact ⟨hx.1, hx.2, hx.3⟩) | intro _ | dsimp only | split | (simp only [State.canon_lit]; refine State.CanonLit.of _ ?_ ?_ ?_)

theorem State.setTlb_canon {s : State} (t : Tc) (l : List TlbEntry) (hC : s.Canon) :
    (State.setTlb s t l).Canon := by
  unfold State.setTlb
  repeat' first | (with_reducible first | assumption | apply State.modCore_canon | apply State.Canon.allWgs | apply State.Canon.allCores) | (rename_i hx; exact ⟨hx.1, hx.2, hx.3⟩) | intro _ | split | (simp only [State.canon_lit]; refine State.CanonLit.of _ ?_ ?_ ?_) | dsimp only

theorem State.readEntry_canon {s : State} (ctx : BitVec 16) (acc : Acc) (va pa : Nat) (hC : s.Canon) :
    (State.readEntry s ctx acc va pa).1.Canon := by
  unfold State.readEntry
  repeat' first | (with_reducible first | assumption | apply State.l2Fill_canon | apply State.markRead_canon) | dsimp only | split

theorem walkFrom_canon (ctx : BitVec 16) (acc : Acc) (va : Nat) (levs : List Nat) : ∀ (t : Nat) {s : State} (_ : s.Canon), (walkFrom ctx acc va levs t s).1.Canon := by
  induction levs with
  | nil => intro _ _ h; exact h
  | cons lev rest ih =>
    intro t s h
    unfold walkFrom
    dsimp only
    repeat' first | (with_reducible first | assumption | refine fst_canon (by assumption) ?_ | apply ih | apply State.readEntry_canon) | split

theorem State.walkFails_canon {s : State} (c va : Nat) (b : Bad) (hC : s.Canon) :
    (State.walkFails s c va b).Canon := by
  unfold State.walkFails
  repeat' first | (with_reducible first | assumption | apply State.modCore_canon | apply State.Canon.allWgs | apply State.Canon.allCores) | (rename_i hx; exact ⟨hx.1, hx.2, hx.3⟩) | dsimp only | split | (simp only [State.canon_lit]; refine State.CanonLit.of _ ?_ ?_ ?_) | intro _

theorem State.walk_canon {s : State} (core : Option Nat) (ctx : BitVec 16) (ctxt : Nat) (acc : Acc) (va : Nat) (hC : s.Canon) :
    (State.walk s core ctx ctxt acc va).1.Canon := by
  unfold State.walk
  repeat' first | (with_reducible first | assumption | apply State.walkFails_canon | refine fst_canon (by assumption) ?_ | apply State.modCore_canon | apply State.readEntry_canon | apply walkFrom_canon | apply State.Canon.allWgs | apply State.Canon.allCores | apply foldl_canon) | (rename_i hx; exact ⟨hx.1, hx.2, hx.3⟩) | intro _ | dsimp only | split | (simp only [State.canon_lit]; refine State.CanonLit.of _ ?_ ?_ ?_)

theorem State.flushPage_canon {s : State} (ctx : BitVec 16) (leaf : DWord) (level owner page : Nat) (hC : s.Canon) :
    (State.flushPage s ctx leaf level owner page).Canon := by
  unfold State.flushPage
  repeat' first | (with_reducible first | assumption | apply State.modCore_canon | apply State.dropL1_canon | apply State.Canon.allWgs | apply State.Canon.allCores | apply foldl_canon) | (rename_i hx; exact ⟨hx.1, hx.2, hx.3⟩) | intro _ | dsimp only | (simp only [State.canon_lit]; refine State.CanonLit.of _ ?_ ?_ ?_) | split

theorem State.swapEntry_canon {s : State} (ctx : BitVec 16) (p : Nat) (e : DWord) (hC : s.Canon) :
    (State.swapEntry s ctx p e).Canon := by
  unfold State.swapEntry
  repeat' first | (with_reducible first | assumption | apply State.l2Fill_canon | apply State.l2Dirty_canon | apply State.wrN_canon | apply State.Canon.allWgs | apply State.Canon.allCores) | dsimp only | split | (simp only [State.canon_lit]; refine State.CanonLit.of _ ?_ ?_ ?_)

theorem State.claim_canon {s : State} (c : Nat) (ctx : BitVec 16) (va : Nat) (w : Walked) (hC : s.Canon) :
    (State.claim s c ctx va w).1.Canon := by
  unfold State.claim
  repeat' first | (with_reducible first | assumption | apply State.swapEntry_canon | apply State.wr_canon | apply State.Canon.allWgs | apply State.Canon.allCores | apply State.wrN_canon | apply State.flushPage_canon) | dsimp only | split | dsimp only | (simp only [State.canon_lit]; refine State.CanonLit.of _ ?_ ?_ ?_)

theorem State.translate_canon {s : State} (t : Tc) (ctx : BitVec 16) (ctxt : Nat) (acc : Acc) (claim : Bool) (va : Nat) (hC : s.Canon) :
    (State.translate s t ctx ctxt acc claim va).1.Canon := by
  unfold State.translate
  repeat' first | (with_reducible first | assumption | apply State.done_canon | refine fst_canon (by assumption) ?_ | apply State.setTlb_canon | apply State.walk_canon | apply State.claim_canon | apply State.Canon.allWgs | apply State.Canon.allCores) | dsimp only | split | (simp only [State.canon_lit]; refine State.CanonLit.of _ ?_ ?_ ?_)

theorem State.dropTlb_canon {s : State} (p : BitVec 16 → Nat → Nat → Bool) (hC : s.Canon) :
    (State.dropTlb s p).Canon := by
  unfold State.dropTlb
  repeat' first | (with_reducible first | assumption | refine fst_canon (by assumption) ?_ | apply State.walk_canon | apply State.Canon.allWgs | apply State.Canon.allCores | apply Table.All.map) | (rename_i hx; exact ⟨hx.1, hx.2, hx.3⟩) | intro _ | dsimp only | (simp only [State.canon_lit]; refine State.CanonLit.of _ ?_ ?_ ?_) | split

theorem State.setGroup_canon {s : State} (key : Nat) (g : Group) (hC : s.Canon) :
    (State.setGroup s key g).Canon := by
  unfold State.setGroup
  repeat' first | (with_reducible first | assumption | apply State.Canon.allWgs | apply State.Canon.allCores) | (simp only [State.canon_lit]; refine State.CanonLit.of _ ?_ ?_ ?_) | dsimp only | split

theorem State.modGroup_canon {s : State} (key : Nat) (f : Group → Group) (hC : s.Canon) :
    (State.modGroup s key f).Canon := by
  unfold State.modGroup
  repeat' first | (with_reducible first | assumption | apply State.setGroup_canon) | split | dsimp only

theorem State.modSplit_canon {s : State} (w : Who) (f : Split → Split) (hC : s.Canon) :
    (State.modSplit s w f).Canon := by
  unfold State.modSplit
  repeat' first | (with_reducible first | assumption | apply State.modGroup_canon) | dsimp only | split

theorem State.modWg_canon {s : State} (n : Nat) (f : Workgroup → Workgroup) (hC : s.Canon) (hf : ∀ x, x.Canon → (f x).Canon) :
    (State.modWg s n f).Canon := by
  unfold State.modWg
  repeat' first | (with_reducible first | assumption | apply hf | apply State.Canon.allWgs | apply State.Canon.allCores | refine Table.All.of_get (State.Canon.wgs ?_) (by assumption) | apply Table.All.put) | split | (simp only [State.canon_lit]; refine State.CanonLit.of _ ?_ ?_ ?_) | dsimp only

theorem State.modLaunch_canon {s : State} (n : Nat) (f : Launch → Launch) (hC : s.Canon) :
    (State.modLaunch s n f).Canon := by
  unfold State.modLaunch
  repeat' first | (with_reducible first | assumption | apply State.Canon.allWgs | apply State.Canon.allCores) | split | (simp only [State.canon_lit]; refine State.CanonLit.of _ ?_ ?_ ?_) | dsimp only

theorem State.modPart_canon {s : State} (p : Nat) (f : Partition → Partition) (hC : s.Canon) :
    (State.modPart s p f).Canon := by
  unfold State.modPart
  repeat' first | (with_reducible first | assumption | apply State.Canon.allWgs | apply State.Canon.allCores) | (simp only [State.canon_lit]; refine State.CanonLit.of _ ?_ ?_ ?_) | dsimp only | split

theorem issue_canon {s : State} (k : Iss → State) (hk : ∀ x0, (k x0).Canon) : Out.Canon (issue s k) := by
  unfold issue
  split
  · exact Out.canon_next (hk _)
  · exact Out.canon_fault _

theorem State.done_canon {s : State} (x : Iss) (o : Op) (hC : s.Canon) :
    (State.done s x o).Canon := by
  unfold State.done
  repeat' first | (with_reducible first | assumption | apply State.modSplit_canon) | dsimp only | split

theorem State.stall_canon {s : State} (x : Iss) (hC : s.Canon) :
    (State.stall s x).Canon := by
  unfold State.stall
  repeat' first | (with_reducible first | assumption | apply State.Canon.allWgs | apply State.Canon.allCores | apply State.modSplit_canon) | dsimp only | (simp only [State.canon_lit]; refine State.CanonLit.of _ ?_ ?_ ?_) | split

theorem State.gx_canon {s : State} (x : Iss) (acc : Acc) (claim : Bool) (va : Nat) (hC : s.Canon) :
    (State.gx s x acc claim va).1.Canon := by
  unfold State.gx
  repeat' first | (with_reducible first | assumption | refine fst_canon (by assumption) ?_ | apply State.claim_canon | apply State.translate_canon) | dsimp only | split

theorem State.logData_canon {s : State} (launch : Nat) (code addr : Nat) (hC : s.Canon) :
    (State.logData s launch code addr).Canon := by
  unfold State.logData
  repeat' first | (with_reducible first | assumption | apply State.logSet_canon) | dsimp only | split

theorem State.dataEvent_canon {s : State} (key lane code addr : Nat) (hC : s.Canon) :
    (State.dataEvent s key lane code addr).Canon := by
  unfold State.dataEvent
  repeat' first | (with_reducible first | assumption | apply State.setGroup_canon | apply State.logData_canon) | dsimp only | split

theorem State.barSet_canon {s : State} (wg n : Nat) (f : BarReg → BarReg) (hC : s.Canon) :
    (State.barSet s wg n f).Canon := by
  unfold State.barSet
  repeat' first | (with_reducible first | assumption | apply State.Canon.allWgs | apply State.Canon.allCores | apply State.modWg_canon) | (rename_i hx; exact ⟨hx.1, hx.2, hx.3⟩) | intro _ | dsimp only | (simp only [State.canon_lit]; refine State.CanonLit.of _ ?_ ?_ ?_) | split

theorem State.barTest_canon {s : State} (wg n : Nat) (hC : s.Canon) :
    (State.barTest s wg n).Canon := by
  unfold State.barTest
  split
  · exact hC
  · rename_i w hw
    dsimp only
    split
    · exact hC
    · exact State.Canon.mk' s hC (hC.wgs.put (Workgroup.Canon.lit w (Table.All.of_get hC.wgs hw))) hC.cores

theorem State.barChange_canon {s : State} (wg n : Nat) (f : BarReg → BarReg) (hC : s.Canon) :
    (State.barChange s wg n f).Canon := by
  unfold State.barChange
  repeat' first | (with_reducible first | assumption | apply State.barSet_canon | apply State.Canon.allWgs | apply State.Canon.allCores | apply Table.All.put) | (refine Workgroup.Canon.lit _ ?_; first | assumption | exact State.Canon.wgOf (by assumption) _ | exact Table.All.of_get (State.Canon.wgs (by assumption)) (by assumption)) | dsimp only | split | (simp only [State.canon_lit]; refine State.CanonLit.of _ ?_ ?_ ?_)

theorem State.barSettle_canon {s : State} (wg n : Nat) (hC : s.Canon) :
    (State.barSettle s wg n).Canon := by
  unfold State.barSettle
  repeat' first | (with_reducible first | assumption | apply State.barSet_canon | apply foldl_canon | apply State.barTest_canon | apply State.Canon.allWgs | apply State.Canon.allCores | apply foldl_canon) | dsimp only | split | (simp only [State.canon_lit]; refine State.CanonLit.of _ ?_ ?_ ?_) | intro _

theorem State.barClose_canon {s : State} (wg n : Nat) (hC : s.Canon) :
    (State.barClose s wg n).Canon := by
  unfold State.barClose
  repeat' first | (with_reducible first | assumption | apply State.barSettle_canon | apply State.Canon.allWgs | apply State.Canon.allCores) | dsimp only | split | (simp only [State.canon_lit]; refine State.CanonLit.of _ ?_ ?_ ?_)

theorem State.barSettleAll_canon {s : State} (wg : Nat) (hC : s.Canon) :
    (State.barSettleAll s wg).Canon := by
  unfold State.barSettleAll
  repeat' first | (with_reducible first | assumption | apply foldl_canon | apply State.barSettle_canon | apply foldl_canon) | dsimp only | split | intro _

theorem State.barFlush_canon {s : State} (wg : Nat) (hC : s.Canon) :
    (State.barFlush s wg).Canon := by
  unfold State.barFlush
  repeat' first | (with_reducible first | assumption | apply State.barSettleAll_canon | apply State.Canon.allWgs | apply State.Canon.allCores) | dsimp only | split | (simp only [State.canon_lit]; refine State.CanonLit.of _ ?_ ?_ ?_)

theorem State.barCycleEnds_canon {s : State} (hC : s.Canon) :
    (State.barCycleEnds s).Canon := by
  unfold State.barCycleEnds
  repeat' first | (with_reducible first | assumption | apply foldl_canon | apply State.barSettleAll_canon | apply State.Canon.allWgs | apply State.Canon.allCores | apply foldl_canon) | dsimp only | split | (simp only [State.canon_lit]; refine State.CanonLit.of _ ?_ ?_ ?_) | intro _

theorem State.barCycles_canon : ∀ (n : Nat) {s : State}, s.Canon → (State.barCycles n s).Canon := by
  intro n
  induction n with
  | zero => exact fun h => h
  | succ n ih =>
    intro s h
    unfold State.barCycles
    split
    · exact h
    · exact ih (State.barCycleEnds_canon h)

theorem State.barDropAll_canon {s : State} (wg : Nat) (gid : BitVec 4) (hC : s.Canon) :
    (State.barDropAll s wg gid).Canon := by
  unfold State.barDropAll
  repeat' first | (with_reducible first | assumption | apply State.Canon.allWgs | apply State.Canon.allCores | apply State.barChange_canon | apply foldl_canon) | intro _ | split | dsimp only | (simp only [State.canon_lit]; refine State.CanonLit.of _ ?_ ?_ ?_)

theorem State.barSplitEnds_canon {s : State} (g : Group) (x : Split) (hC : s.Canon) :
    (State.barSplitEnds s g x).Canon := by
  unfold State.barSplitEnds
  repeat' first | (with_reducible first | assumption | apply State.barChange_canon | apply foldl_canon) | intro _ | dsimp only | split

theorem State.enqueueOn_canon {s : State} (d : Nat) (env : DWord) (launch : Nat) (deadline : DWord) (hC : s.Canon) :
    (State.enqueueOn s d env launch deadline).Canon := by
  unfold State.enqueueOn
  repeat' first | (with_reducible first | assumption | apply State.Canon.allWgs | apply State.Canon.allCores) | dsimp only | (simp only [State.canon_lit]; refine State.CanonLit.of _ ?_ ?_ ?_) | split

theorem State.enqueue_canon {s : State} (p d : Nat) (env : DWord) (launch : Nat) (deadline : DWord) (hC : s.Canon) :
    (State.enqueue s p d env launch deadline).Canon := by
  unfold State.enqueue
  repeat' first | (with_reducible first | assumption | apply State.enqueueOn_canon) | dsimp only | split

theorem State.sysXlate_canon {s : State} (ctx : BitVec 16) (ctxt : Nat) (acc : Acc) (va : Nat) (hC : s.Canon) :
    (State.sysXlate s ctx ctxt acc va).1.Canon := by
  unfold State.sysXlate
  repeat' first | (with_reducible first | assumption | refine fst_canon (by assumption) ?_ | apply State.walk_canon) | split | dsimp only

theorem State.homeWr_canon {s : State} (ctx : BitVec 16) (p : Nat) (bs : List Byte) (hC : s.Canon) :
    (State.homeWr s ctx p bs).Canon := by
  unfold State.homeWr
  repeat' first | (with_reducible first | assumption | apply State.wr_canon | apply State.storeLine_canon) | dsimp only | split

theorem State.envSetState_canon {s : State} (e : Env) (v : Nat) (hC : s.Canon) :
    (State.envSetState s e v).Canon := by
  unfold State.envSetState
  repeat' first | (with_reducible first | assumption | apply State.homeWr_canon) | dsimp only | split

theorem State.tdec_canon {s : State} (e : Env) (fail : Bool) (p d : Nat) (hC : s.Canon) :
    (State.tdec s e fail p d).Canon := by
  unfold State.tdec
  repeat' first | (with_reducible first | assumption | apply State.enqueue_canon | apply State.homeWr_canon | apply State.envSetState_canon) | dsimp only | split

theorem State.faulted_canon {s : State} (launch : Nat) (hC : s.Canon) :
    (State.faulted s launch).Canon := by
  unfold State.faulted
  repeat' first | (with_reducible first | assumption | apply State.Canon.allWgs | apply State.Canon.allCores | apply State.modLaunch_canon) | dsimp only | (simp only [State.canon_lit]; refine State.CanonLit.of _ ?_ ?_ ?_) | split

theorem State.succSkipped_canon {s : State} (p launch : Nat) (succ : DWord) (hC : s.Canon) :
    (State.succSkipped s p launch succ).Canon := by
  unfold State.succSkipped
  repeat' first | (with_reducible first | assumption | apply State.logSet_canon | apply State.faulted_canon) | dsimp only | split

theorem State.taskComplete_canon {s : State} (e : Env) (fail : Bool) (p d launch : Nat) (ctxt : Nat) (hC : s.Canon) :
    (State.taskComplete s e fail p d launch ctxt).Canon := by
  unfold State.taskComplete
  repeat' first | (with_reducible first | assumption | apply State.Canon.allWgs | apply State.Canon.allCores | refine fst_canon (by assumption) ?_ | apply State.markRead_canon | apply State.modLaunch_canon | apply State.sysXlate_canon | apply State.envSetState_canon | apply State.tdec_canon | apply State.succSkipped_canon | apply foldl_canon) | intro _ | dsimp only | split | dsimp only | (simp only [State.canon_lit]; refine State.CanonLit.of _ ?_ ?_ ?_)

theorem State.groupTaskDone_canon {s : State} (key : Nat) (g : Group) (fail : Bool) (hC : s.Canon) :
    (State.groupTaskDone s key g fail).Canon := by
  unfold State.groupTaskDone
  repeat' first | (with_reducible first | assumption | apply State.Canon.allWgs | apply State.Canon.allCores | refine fst_canon (by assumption) ?_ | apply State.modLaunch_canon | apply State.sysXlate_canon | apply State.taskComplete_canon) | dsimp only | split | dsimp only | (simp only [State.canon_lit]; refine State.CanonLit.of _ ?_ ?_ ?_)

theorem State.drained_canon {s : State} (key : Nat) (hC : s.Canon) :
    (State.drained s key).Canon := by
  unfold State.drained
  repeat' first | (with_reducible first | assumption | apply State.modGroup_canon | apply State.groupTaskDone_canon | apply State.Canon.allWgs | apply State.Canon.allCores) | dsimp only | split | (simp only [State.canon_lit]; refine State.CanonLit.of _ ?_ ?_ ?_)

theorem State.retireGroup_canon {s : State} (key : Nat) (hC : s.Canon) :
    (State.retireGroup s key).Canon := by
  unfold State.retireGroup
  repeat' first | (with_reducible first | assumption | apply State.setGroup_canon | apply State.barDropAll_canon | apply State.Canon.allWgs | apply State.Canon.allCores) | dsimp only | split | (simp only [State.canon_lit]; refine State.CanonLit.of _ ?_ ?_ ?_)

theorem State.settle_canon {s : State} (key : Nat) (n : Nat) (hC : s.Canon) :
    (State.settle s key n).Canon := by
  unfold State.settle
  repeat' first | (with_reducible first | assumption | apply foldl_canon | apply foldl_canon | apply State.Canon.allWgs | apply State.Canon.allCores | apply State.modGroup_canon | apply State.barSplitEnds_canon | apply State.retireGroup_canon) | dsimp only | split | dsimp only | (simp only [State.canon_lit]; refine State.CanonLit.of _ ?_ ?_ ?_) | intro _

theorem State.endGroup_canon {s : State} (key : Nat) (sets : List (List ErrRec)) (hC : s.Canon) :
    (State.endGroup s key sets).Canon := by
  unfold State.endGroup
  repeat' first | (with_reducible first | assumption | apply State.modGroup_canon | apply State.drained_canon | apply State.Canon.allWgs | apply State.Canon.allCores | apply State.logSet_canon | apply State.faulted_canon | apply State.groupTaskDone_canon | apply State.retireGroup_canon | apply foldl_canon) | intro _ | dsimp only | split | dsimp only | (simp only [State.canon_lit]; refine State.CanonLit.of _ ?_ ?_ ?_)

theorem State.route_canon {s : State} (x : Iss) (cause : Nat) (hC : s.Canon) :
    (State.route s x cause).1.Canon := by
  unfold State.route
  repeat' first | (with_reducible first | assumption | refine fst_canon (by assumption) ?_ | apply State.markRead_canon | apply State.gx_canon) | dsimp only | split

theorem State.frameWrite_canon {s : State} (x : Iss) (off : Nat) (bs : List Byte) (hC : s.Canon) :
    (State.frameWrite s x off bs).1.Canon := by
  unfold State.frameWrite
  repeat' first | (with_reducible first | assumption | apply State.aside_canon | refine fst_canon (by assumption) ?_ | apply State.wr_canon | apply State.storeLine_canon | apply State.gx_canon) | split | dsimp only

theorem State.frameRead_canon {s : State} (x : Iss) (hC : s.Canon) :
    (State.frameRead s x).1.Canon := by
  unfold State.frameRead
  repeat' first | (with_reducible first | assumption | refine fst_canon (by assumption) ?_ | apply State.markRead_canon | apply State.gx_canon) | split | dsimp only

theorem State.frameTimeout_canon {s : State} (x : Iss) (r : TrapRec) (hC : s.Canon) :
    (State.frameTimeout s x r).Canon := by
  unfold State.frameTimeout
  repeat' first | (with_reducible first | assumption | apply State.bartimeout_canon | apply State.frameWrite_canon | apply foldl_canon) | intro _ | split | dsimp only

theorem State.deliver_canon {s : State} (w : Who) (r : TrapRec) (hC : s.Canon) :
    (State.deliver s w r).Canon := by
  unfold State.deliver
  repeat' first | (with_reducible first | assumption | apply State.Canon.allWgs | apply State.Canon.allCores | refine fst_canon (by assumption) ?_ | apply State.logSet_canon | apply State.setGroup_canon | apply State.modGroup_canon | apply State.modSplit_canon | apply State.logData_canon | apply State.endGroup_canon | apply State.route_canon | apply State.frameWrite_canon | apply State.frameTimeout_canon) | dsimp only | split | dsimp only | (simp only [State.canon_lit]; refine State.CanonLit.of _ ?_ ?_ ?_)

theorem State.rte_canon {s : State} (x : Iss) (hC : s.Canon) :
    (State.rte s x).Canon := by
  unfold State.rte
  repeat' first | (with_reducible first | assumption | apply State.aside_canon | apply State.modSplit_canon | apply State.Canon.allWgs | apply State.Canon.allCores | refine fst_canon (by assumption) ?_ | apply State.setGroup_canon | apply State.endGroup_canon | apply State.frameRead_canon | apply State.deliver_canon) | dsimp only | split | dsimp only | (simp only [State.canon_lit]; refine State.CanonLit.of _ ?_ ?_ ?_)

theorem State.raise_canon {s : State} (x : Iss) (b : Bad) (lanes : List Nat) (hC : s.Canon) :
    (State.raise s x b lanes).Canon := by
  unfold State.raise
  repeat' first | (with_reducible first | assumption | apply State.stall_canon | apply State.deliver_canon) | split | dsimp only

theorem State.raiseAll_canon {s : State} (x : Iss) (b : Bad) (hC : s.Canon) :
    (State.raiseAll s x b).Canon := by
  unfold State.raiseAll
  repeat' first | (with_reducible first | assumption | apply State.raise_canon) | dsimp only | split

theorem splitScope_canon (o : Op) {s : State} (k : Iss → State) (hC : s.Canon) (hk : ∀ x0, (k x0).Canon) :
    Out.Canon (splitScope o s k) := by
  unfold splitScope
  repeat' first | (with_reducible first | assumption | apply hk | apply issue_canon | apply State.done_canon) | intro _ | split | dsimp only

end Sys2Proof.Machine
end

