-- ==== Sys2Proof/Laws/CanonRun.lean ====
section
/-! SUPPORT. The canonical form of every memory is kept by the instructions of the lanes: arithmetic, control and cross-lane. -/
namespace Sys2Proof.Machine

theorem State.payFpe_canon {s : State} (w : Who) (sp : Split) (pc : BitVec 50) (own : Option TrapRec) (hC : s.Canon) :
    (State.payFpe s w sp pc own).Canon := by
  unfold State.payFpe
  repeat' first | (with_reducible first | assumption | apply State.deliver_canon | apply State.modSplit_canon | apply State.Canon.allWgs | apply State.Canon.allCores) | dsimp only | split | (simp only [State.canon_lit]; refine State.CanonLit.of _ ?_ ?_ ?_)

theorem State.doneFlags_canon {s : State} (i : Iss) (x : Op) (all : Flags) (raised : List Nat) (pair : Bool) (hC : s.Canon) :
    (State.doneFlags s i x all raised pair).Canon := by
  unfold State.doneFlags
  repeat' first | (with_reducible first | assumption | apply State.payFpe_canon | apply State.Canon.allWgs | apply State.Canon.allCores | apply State.modSplit_canon | apply State.done_canon | apply State.deliver_canon) | dsimp only | split | dsimp only | (simp only [State.canon_lit]; refine State.CanonLit.of _ ?_ ?_ ?_)

theorem State.gatherAt_canon {s : State} (core : Nat) (slot : BitVec 6) (ctxt va : Nat) (hC : s.Canon) :
    (State.gatherAt s core slot ctxt va).1.Canon := by
  unfold State.gatherAt
  repeat' first | (with_reducible first | assumption | apply State.gather_canon | apply State.Canon.allWgs | apply State.Canon.allCores | refine fst_canon (by assumption) ?_ | apply State.markRead_canon | apply State.loadLine_canon | apply State.translate_canon) | dsimp only | split | dsimp only | (simp only [State.canon_lit]; refine State.CanonLit.of _ ?_ ?_ ?_)

theorem State.gatherAgain_canon {s : State} (i : Iss) (e : GEntry) (hC : s.Canon) :
    (State.gatherAgain s i e).1.Canon := by
  unfold State.gatherAgain
  repeat' first | (with_reducible first | assumption | refine fst_canon (by assumption) ?_ | apply State.gatherAt_canon) | dsimp only | split

theorem State.regather_canon {s : State} (i : Iss) (pops : List Nat) (ls : List Nat) (hC : s.Canon) :
    (State.regather s i pops ls).Canon := by
  unfold State.regather
  repeat' first | (with_reducible first | assumption | apply State.gatherAgain_canon | apply State.Canon.allWgs | apply State.Canon.allCores | refine fst_canon (by assumption) ?_ | apply State.markRead_canon | apply State.loadLine_canon | apply State.modGroup_canon | apply State.gx_canon | apply foldl_canon | apply foldl_fst_canon) | intro _ | dsimp only | split | dsimp only | (simp only [State.canon_lit]; refine State.CanonLit.of _ ?_ ?_ ?_)

theorem aluLanes_canon (o : Opc) (x : Op) {s : State} (i : Iss) (hC : s.Canon) :
    (aluLanes o x s i).Canon := by
  unfold aluLanes
  repeat' first | (with_reducible first | assumption | apply State.faulted_canon | apply State.Canon.allWgs | apply State.Canon.allCores | apply State.setGroup_canon | apply State.modSplit_canon | apply State.stall_canon | apply State.raise_canon | apply State.doneFlags_canon | apply State.regather_canon) | dsimp only | split | dsimp only | (simp only [State.canon_lit]; refine State.CanonLit.of _ ?_ ?_ ?_)

theorem aluScalar_canon (o : Opc) (x : Op) {s : State} (i : Iss) (hC : s.Canon) :
    (aluScalar o x s i).Canon := by
  unfold aluScalar
  repeat' first | (with_reducible first | assumption | apply State.Canon.allWgs | apply State.Canon.allCores | apply State.modGroup_canon | apply State.modSplit_canon | apply State.done_canon | apply State.stall_canon | apply State.raiseAll_canon | apply State.doneFlags_canon) | dsimp only | split | dsimp only | (simp only [State.canon_lit]; refine State.CanonLit.of _ ?_ ?_ ?_)

theorem runAlu_canon (o : Opc) (x : Op) {s : State} (hC : s.Canon) :
    Out.Canon (runAlu o x s) := by
  unfold runAlu
  repeat' first | (with_reducible first | assumption | apply issue_canon | apply aluLanes_canon | apply aluScalar_canon) | intro _ | split | dsimp only

theorem State.sfuIssue_canon {s : State} (o : Opc) (x : Op) (i : Iss) (scalar : Bool) (outs : List (Nat × LaneOut)) (lanes : List Nat) (hC : s.Canon) :
    (State.sfuIssue s o x i scalar outs lanes).Canon := by
  unfold State.sfuIssue
  repeat' first | (with_reducible first | assumption | apply State.payFpe_canon | apply State.budget_canon | apply State.modGroup_canon | apply State.modSplit_canon | apply State.done_canon | apply State.Canon.allWgs | apply State.Canon.allCores) | dsimp only | split | (simp only [State.canon_lit]; refine State.CanonLit.of _ ?_ ?_ ?_)

theorem runSfu_canon (o : Opc) (x : Op) {s : State} (hC : s.Canon) :
    Out.Canon (runSfu o x s) := by
  unfold runSfu
  repeat' first | (with_reducible first | assumption | apply State.payFpe_canon | apply State.faulted_canon | apply foldl_canon | apply State.modSplit_canon | apply foldl_canon | apply State.setGroup_canon | apply State.modGroup_canon | apply issue_canon | apply State.done_canon | apply State.stall_canon | apply State.raise_canon | apply State.regather_canon | apply State.sfuIssue_canon | apply State.Canon.allWgs | apply State.Canon.allCores) | intro _ | dsimp only | split | (simp only [State.canon_lit]; refine State.CanonLit.of _ ?_ ?_ ?_)

theorem State.sfuReturn_canon {s : State} (key id : Nat) (hC : s.Canon) :
    (State.sfuReturn s key id).Canon := by
  unfold State.sfuReturn
  repeat' first | (with_reducible first | assumption | apply State.modGroup_canon | apply State.drained_canon | apply State.payFpe_canon | apply State.Canon.allWgs | apply State.Canon.allCores | apply State.setGroup_canon | apply State.modSplit_canon | apply State.deliver_canon) | dsimp only | split | dsimp only | (simp only [State.canon_lit]; refine State.CanonLit.of _ ?_ ?_ ?_)

theorem runPair_canon (xo : Opc) (x : Op) (yo : Opc) (y : Op) {s : State} (hC : s.Canon) :
    Out.Canon (runPair xo x yo y s) := by
  unfold runPair
  repeat' first | (with_reducible first | assumption | refine fst_canon (by assumption) ?_ | apply State.gx_canon | apply foldl_canon | apply State.modSplit_canon | apply foldl_canon | apply State.Canon.allWgs | apply State.Canon.allCores | apply State.setGroup_canon | apply issue_canon | apply State.stall_canon | apply State.raise_canon | apply State.doneFlags_canon) | intro _ | dsimp only | split | dsimp only | (simp only [State.canon_lit]; refine State.CanonLit.of _ ?_ ?_ ?_)

theorem State.fetch_canon {s : State} (i : Iss) (block : Nat) (hC : s.Canon) :
    (State.fetch s i block).1.Canon := by
  unfold State.fetch
  repeat' first | (with_reducible first | assumption | refine fst_canon (by assumption) ?_ | apply State.poisonGran_canon | apply State.enterCode_canon | apply State.gx_canon) | dsimp only | split

theorem State.reach_canon {s : State} (i : Iss) (hC : s.Canon) :
    (State.reach s i).1.Canon := by
  unfold State.reach
  repeat' first | (with_reducible first | assumption | refine fst_canon (by assumption) ?_ | apply State.fetch_canon) | split | dsimp only

theorem State.passOver_canon {s : State} (i : Iss) (units : Nat) (hC : s.Canon) :
    (State.passOver s i units).Canon := by
  unfold State.passOver
  repeat' first | (with_reducible first | assumption | apply State.Canon.allWgs | apply State.Canon.allCores | apply State.modSplit_canon) | dsimp only | (simp only [State.canon_lit]; refine State.CanonLit.of _ ?_ ?_ ?_) | split

theorem State.countIssue_canon {s : State} (key : Nat) (forced : Bool) (hC : s.Canon) :
    (State.countIssue s key forced).Canon := by
  unfold State.countIssue
  repeat' first | (with_reducible first | assumption | apply State.Canon.allWgs | apply State.Canon.allCores | apply State.modCore_canon) | (rename_i hx; exact ⟨hx.1, hx.2, hx.3⟩) | intro _ | dsimp only | (simp only [State.canon_lit]; refine State.CanonLit.of _ ?_ ?_ ?_) | split

theorem State.dispense_canon {s : State} (wg : Nat) (first : DWord) (h : s.Canon) : ∀ p, s.dispense wg first = some p → p.2.Canon := by
  have give : ∀ (l : Launch) (w : Workgroup) (c : Bool) (p : DWord × State), w.Canon →
      (if c then some (BitVec.ofNat 64 w.next, ({ s with launches := s.launches.put w.launch l, wgs := s.wgs.put wg { w with next := w.next + 1 } } : State))
        else none) = some p → p.2.Canon := by
    intro l w c p hw e
    cases c with
    | false => cases e
    | true => cases e; exact State.Canon.mk' s h (h.wgs.put (Workgroup.Canon.lit w hw)) h.cores
  intro p e
  unfold State.dispense at e
  dsimp only at e
  split at e
  · cases e
  · rename_i w ew
    have hw : w.Canon := h.wgs.of_get ew
    split at e
    · cases e
    · split at e
      · exact give _ _ _ p hw e
      · split at e
        · cases e
        · split at e
          · cases e
          · exact give _ _ _ p (Workgroup.Canon.lit w hw) e

theorem State.refillLanes_canon (key wg : Nat) (p : Params) (first : DWord) (range : Option (Nat × Nat)) (ls : List Nat) :
    ∀ {s : State}, s.Canon → (s.refillLanes key wg p first range ls).Canon := by
  induction ls with
  | nil => intro _ h; exact h
  | cons l ls ih =>
    intro s h
    unfold State.refillLanes
    split
    · exact h
    · rename_i e
      exact ih (State.modGroup_canon _ _ (State.dispense_canon _ _ h _ e))

theorem State.goto_canon {s : State} (i : Iss) (pc : BitVec 50) (hC : s.Canon) :
    (State.goto s i pc).Canon := by
  unfold State.goto
  repeat' first | (with_reducible first | assumption | apply State.modSplit_canon) | dsimp only | split

theorem execNop_canon (o : Op) {s : State} (hC : s.Canon) :
    Out.Canon (execNop o s) := by
  unfold execNop
  repeat' first | (with_reducible first | assumption | apply State.done_canon | apply splitScope_canon) | intro _ | dsimp only | split

theorem execBr_canon (o : Op) {s : State} (hC : s.Canon) :
    Out.Canon (execBr o s) := by
  unfold execBr
  repeat' first | (with_reducible first | assumption | apply splitScope_canon | apply State.goto_canon) | intro _ | dsimp only | split

theorem execBru_canon (o : Op) {s : State} (hC : s.Canon) :
    Out.Canon (execBru o s) := by
  unfold execBru
  repeat' first | (with_reducible first | assumption | apply State.done_canon | apply splitScope_canon | apply State.goto_canon) | intro _ | split | dsimp only

theorem execCall_canon (o : Op) {s : State} (hC : s.Canon) :
    Out.Canon (execCall o s) := by
  unfold execCall
  repeat' first | (with_reducible first | assumption | apply State.modSplit_canon | apply splitScope_canon | apply State.goto_canon) | intro _ | dsimp only | split

theorem State.tableRead_canon {s : State} (i : Iss) (a n : Nat) (hC : s.Canon) :
    (State.tableRead s i a n).1.Canon := by
  unfold State.tableRead
  repeat' first | (with_reducible first | assumption | refine fst_canon (by assumption) ?_ | apply State.markRead_canon | apply State.gx_canon) | split | dsimp only

theorem State.target_canon {s : State} (i : Iss) (idx : Nat) (hC : s.Canon) :
    (State.target s i idx).1.Canon := by
  unfold State.target
  repeat' first | (with_reducible first | assumption | refine fst_canon (by assumption) ?_ | apply State.tableRead_canon) | dsimp only | split

theorem execBrx_canon (o : Op) {s : State} (hC : s.Canon) :
    Out.Canon (execBrx o s) := by
  unfold execBrx
  repeat' first | (with_reducible first | assumption | refine fst_canon (by assumption) ?_ | apply State.raiseAll_canon | apply splitScope_canon | apply State.goto_canon | apply State.target_canon) | intro _ | split | dsimp only

theorem execCallx_canon (o : Op) {s : State} (hC : s.Canon) :
    Out.Canon (execCallx o s) := by
  unfold execCallx
  repeat' first | (with_reducible first | assumption | refine fst_canon (by assumption) ?_ | apply State.modSplit_canon | apply State.raiseAll_canon | apply splitScope_canon | apply State.goto_canon | apply State.target_canon) | intro _ | split | dsimp only

theorem execRet_canon (o : Op) {s : State} (hC : s.Canon) :
    Out.Canon (execRet o s) := by
  unfold execRet
  repeat' first | (with_reducible first | assumption | apply State.raiseAll_canon | apply splitScope_canon | apply State.goto_canon) | intro _ | dsimp only | split

theorem execBrc_canon (o : Op) {s : State} (hC : s.Canon) :
    Out.Canon (execBrc o s) := by
  unfold execBrc
  repeat' first | (with_reducible first | assumption | refine fst_canon (by assumption) ?_ | apply State.target_canon | apply State.setGroup_canon | apply issue_canon | apply State.done_canon | apply State.raiseAll_canon | apply State.goto_canon) | intro _ | dsimp only | split

theorem execRcv_canon (o : Op) {s : State} (hC : s.Canon) :
    Out.Canon (execRcv o s) := by
  unfold execRcv
  repeat' first | (with_reducible first | assumption | apply State.Canon.allWgs | apply State.Canon.allCores | apply State.setGroup_canon | apply State.modSplit_canon | apply State.done_canon | apply splitScope_canon | apply State.goto_canon) | intro _ | dsimp only | split | dsimp only | (simp only [State.canon_lit]; refine State.CanonLit.of _ ?_ ?_ ?_)

theorem execExit_canon (o : Op) {s : State} (hC : s.Canon) :
    Out.Canon (execExit o s) := by
  unfold execExit
  repeat' first | (with_reducible first | assumption | apply State.Canon.allWgs | apply State.Canon.allCores | apply State.modGroup_canon | apply issue_canon | apply State.done_canon | apply State.settle_canon) | intro _ | dsimp only | (simp only [State.canon_lit]; refine State.CanonLit.of _ ?_ ?_ ?_) | split

theorem execYield_canon (o : Op) {s : State} (hC : s.Canon) :
    Out.Canon (execYield o s) := by
  unfold execYield
  repeat' first | (with_reducible first | assumption | apply State.Canon.allWgs | apply State.Canon.allCores | apply State.modSplit_canon | apply State.done_canon | apply splitScope_canon) | intro _ | dsimp only | (simp only [State.canon_lit]; refine State.CanonLit.of _ ?_ ?_ ?_) | split

theorem execRegang_canon (o : Op) {s : State} (hC : s.Canon) :
    Out.Canon (execRegang o s) := by
  unfold execRegang
  repeat' first | (with_reducible first | assumption | apply State.setGroup_canon | apply State.raiseAll_canon | apply splitScope_canon) | intro _ | split | dsimp only

theorem execRefill_canon (o : Op) {s : State} (hC : s.Canon) :
    Out.Canon (execRefill o s) := by
  unfold execRefill
  repeat' first | (with_reducible first | assumption | apply State.setGroup_canon | apply issue_canon | apply State.done_canon | apply State.raiseAll_canon | apply State.refillLanes_canon) | intro _ | dsimp only | split

theorem execPad_canon {s : State} (hC : s.Canon) :
    Out.Canon (execPad s) := by
  unfold execPad
  repeat' first | (with_reducible first | assumption | apply State.Canon.allWgs | apply State.Canon.allCores | apply State.modSplit_canon | apply issue_canon) | intro _ | dsimp only | (simp only [State.canon_lit]; refine State.CanonLit.of _ ?_ ?_ ?_) | split

theorem execUnassignedOpcode_canon (_opc : BitVec 8) {s : State} (hC : s.Canon) :
    Out.Canon (execUnassignedOpcode _opc s) := by
  unfold execUnassignedOpcode
  repeat' first | (with_reducible first | assumption | apply issue_canon | apply State.raiseAll_canon) | intro _ | dsimp only | split

theorem execInstructionFetch_canon {s : State} (hC : s.Canon) :
    Out.Canon (execInstructionFetch s) := by
  unfold execInstructionFetch
  repeat' first | (with_reducible first | assumption | apply State.stall_canon | refine fst_canon (by assumption) ?_ | apply issue_canon | apply State.raiseAll_canon | apply State.fetch_canon) | intro _ | split | dsimp only

theorem execIadd_canon (o : Op) {s : State} (hC : s.Canon) :
    Out.Canon (execIadd o s) := by
  unfold execIadd
  repeat' first | (with_reducible first | assumption | apply runAlu_canon) | intro _ | dsimp only | split

theorem execIsub_canon (o : Op) {s : State} (hC : s.Canon) :
    Out.Canon (execIsub o s) := by
  unfold execIsub
  repeat' first | (with_reducible first | assumption | apply runAlu_canon) | intro _ | dsimp only | split

theorem execImul_canon (o : Op) {s : State} (hC : s.Canon) :
    Out.Canon (execImul o s) := by
  unfold execImul
  repeat' first | (with_reducible first | assumption | apply runAlu_canon) | intro _ | dsimp only | split

theorem execImulh_canon (o : Op) {s : State} (hC : s.Canon) :
    Out.Canon (execImulh o s) := by
  unfold execImulh
  repeat' first | (with_reducible first | assumption | apply runAlu_canon) | intro _ | dsimp only | split

theorem execImad_canon (o : Op) {s : State} (hC : s.Canon) :
    Out.Canon (execImad o s) := by
  unfold execImad
  repeat' first | (with_reducible first | assumption | apply runAlu_canon) | intro _ | dsimp only | split

theorem execImadw_canon (o : Op) {s : State} (hC : s.Canon) :
    Out.Canon (execImadw o s) := by
  unfold execImadw
  repeat' first | (with_reducible first | assumption | apply runAlu_canon) | intro _ | dsimp only | split

theorem execIabs_canon (o : Op) {s : State} (hC : s.Canon) :
    Out.Canon (execIabs o s) := by
  unfold execIabs
  repeat' first | (with_reducible first | assumption | apply runAlu_canon) | intro _ | dsimp only | split

theorem execIneg_canon (o : Op) {s : State} (hC : s.Canon) :
    Out.Canon (execIneg o s) := by
  unfold execIneg
  repeat' first | (with_reducible first | assumption | apply runAlu_canon) | intro _ | dsimp only | split

theorem execImin_canon (o : Op) {s : State} (hC : s.Canon) :
    Out.Canon (execImin o s) := by
  unfold execImin
  repeat' first | (with_reducible first | assumption | apply runAlu_canon) | intro _ | dsimp only | split

theorem execImax_canon (o : Op) {s : State} (hC : s.Canon) :
    Out.Canon (execImax o s) := by
  unfold execImax
  repeat' first | (with_reducible first | assumption | apply runAlu_canon) | intro _ | dsimp only | split

theorem execIsad_canon (o : Op) {s : State} (hC : s.Canon) :
    Out.Canon (execIsad o s) := by
  unfold execIsad
  repeat' first | (with_reducible first | assumption | apply runAlu_canon) | intro _ | dsimp only | split

theorem execIaddc_canon (o : Op) {s : State} (hC : s.Canon) :
    Out.Canon (execIaddc o s) := by
  unfold execIaddc
  repeat' first | (with_reducible first | assumption | apply runAlu_canon) | intro _ | dsimp only | split

theorem execIsubb_canon (o : Op) {s : State} (hC : s.Canon) :
    Out.Canon (execIsubb o s) := by
  unfold execIsubb
  repeat' first | (with_reducible first | assumption | apply runAlu_canon) | intro _ | dsimp only | split

theorem execIadds_canon (o : Op) {s : State} (hC : s.Canon) :
    Out.Canon (execIadds o s) := by
  unfold execIadds
  repeat' first | (with_reducible first | assumption | apply runAlu_canon) | intro _ | dsimp only | split

theorem execIsubs_canon (o : Op) {s : State} (hC : s.Canon) :
    Out.Canon (execIsubs o s) := by
  unfold execIsubs
  repeat' first | (with_reducible first | assumption | apply runAlu_canon) | intro _ | dsimp only | split

theorem execAnd_canon (o : Op) {s : State} (hC : s.Canon) :
    Out.Canon (execAnd o s) := by
  unfold execAnd
  repeat' first | (with_reducible first | assumption | apply runAlu_canon) | intro _ | dsimp only | split

theorem execOr_canon (o : Op) {s : State} (hC : s.Canon) :
    Out.Canon (execOr o s) := by
  unfold execOr
  repeat' first | (with_reducible first | assumption | apply runAlu_canon) | intro _ | dsimp only | split

theorem execXor_canon (o : Op) {s : State} (hC : s.Canon) :
    Out.Canon (execXor o s) := by
  unfold execXor
  repeat' first | (with_reducible first | assumption | apply runAlu_canon) | intro _ | dsimp only | split

theorem execLop3_canon (o : Op) {s : State} (hC : s.Canon) :
    Out.Canon (execLop3 o s) := by
  unfold execLop3
  repeat' first | (with_reducible first | assumption | apply runAlu_canon) | intro _ | dsimp only | split

theorem execShl_canon (o : Op) {s : State} (hC : s.Canon) :
    Out.Canon (execShl o s) := by
  unfold execShl
  repeat' first | (with_reducible first | assumption | apply runAlu_canon) | intro _ | dsimp only | split

theorem execShr_canon (o : Op) {s : State} (hC : s.Canon) :
    Out.Canon (execShr o s) := by
  unfold execShr
  repeat' first | (with_reducible first | assumption | apply runAlu_canon) | intro _ | dsimp only | split

theorem execRot_canon (o : Op) {s : State} (hC : s.Canon) :
    Out.Canon (execRot o s) := by
  unfold execRot
  repeat' first | (with_reducible first | assumption | apply runAlu_canon) | intro _ | dsimp only | split

theorem execFunl_canon (o : Op) {s : State} (hC : s.Canon) :
    Out.Canon (execFunl o s) := by
  unfold execFunl
  repeat' first | (with_reducible first | assumption | apply runAlu_canon) | intro _ | dsimp only | split

theorem execBfx_canon (o : Op) {s : State} (hC : s.Canon) :
    Out.Canon (execBfx o s) := by
  unfold execBfx
  repeat' first | (with_reducible first | assumption | apply runAlu_canon) | intro _ | dsimp only | split

theorem execBfi_canon (o : Op) {s : State} (hC : s.Canon) :
    Out.Canon (execBfi o s) := by
  unfold execBfi
  repeat' first | (with_reducible first | assumption | apply runAlu_canon) | intro _ | dsimp only | split

theorem execPopc_canon (o : Op) {s : State} (hC : s.Canon) :
    Out.Canon (execPopc o s) := by
  unfold execPopc
  repeat' first | (with_reducible first | assumption | apply runAlu_canon) | intro _ | dsimp only | split

theorem execClz_canon (o : Op) {s : State} (hC : s.Canon) :
    Out.Canon (execClz o s) := by
  unfold execClz
  repeat' first | (with_reducible first | assumption | apply runAlu_canon) | intro _ | dsimp only | split

theorem execBrev_canon (o : Op) {s : State} (hC : s.Canon) :
    Out.Canon (execBrev o s) := by
  unfold execBrev
  repeat' first | (with_reducible first | assumption | apply runAlu_canon) | intro _ | dsimp only | split

theorem execSel_canon (o : Op) {s : State} (hC : s.Canon) :
    Out.Canon (execSel o s) := by
  unfold execSel
  repeat' first | (with_reducible first | assumption | apply runAlu_canon) | intro _ | dsimp only | split

theorem execMov_canon (o : Op) {s : State} (hC : s.Canon) :
    Out.Canon (execMov o s) := by
  unfold execMov
  repeat' first | (with_reducible first | assumption | apply runAlu_canon) | intro _ | dsimp only | split

theorem execMovi_canon (o : Op) {s : State} (hC : s.Canon) :
    Out.Canon (execMovi o s) := by
  unfold execMovi
  repeat' first | (with_reducible first | assumption | apply runAlu_canon) | intro _ | dsimp only | split

theorem execIcmp_canon (o : Op) {s : State} (hC : s.Canon) :
    Out.Canon (execIcmp o s) := by
  unfold execIcmp
  repeat' first | (with_reducible first | assumption | apply runAlu_canon) | intro _ | dsimp only | split

theorem execIset_canon (o : Op) {s : State} (hC : s.Canon) :
    Out.Canon (execIset o s) := by
  unfold execIset
  repeat' first | (with_reducible first | assumption | apply runAlu_canon) | intro _ | dsimp only | split

theorem execPlop_canon (o : Op) {s : State} (hC : s.Canon) :
    Out.Canon (execPlop o s) := by
  unfold execPlop
  repeat' first | (with_reducible first | assumption | apply runAlu_canon) | intro _ | dsimp only | split

theorem execP2s_canon (o : Op) {s : State} (hC : s.Canon) :
    Out.Canon (execP2s o s) := by
  unfold execP2s
  repeat' first | (with_reducible first | assumption | apply runAlu_canon) | intro _ | dsimp only | split

theorem execS2p_canon (o : Op) {s : State} (hC : s.Canon) :
    Out.Canon (execS2p o s) := by
  unfold execS2p
  repeat' first | (with_reducible first | assumption | apply runAlu_canon) | intro _ | dsimp only | split

theorem execLea_canon (o : Op) {s : State} (hC : s.Canon) :
    Out.Canon (execLea o s) := by
  unfold execLea
  repeat' first | (with_reducible first | assumption | apply runAlu_canon) | intro _ | dsimp only | split

theorem execIadd64_canon (o : Op) {s : State} (hC : s.Canon) :
    Out.Canon (execIadd64 o s) := by
  unfold execIadd64
  repeat' first | (with_reducible first | assumption | apply runAlu_canon) | intro _ | dsimp only | split

theorem execImul64_canon (o : Op) {s : State} (hC : s.Canon) :
    Out.Canon (execImul64 o s) := by
  unfold execImul64
  repeat' first | (with_reducible first | assumption | apply runAlu_canon) | intro _ | dsimp only | split

theorem execI2i_canon (o : Op) {s : State} (hC : s.Canon) :
    Out.Canon (execI2i o s) := by
  unfold execI2i
  repeat' first | (with_reducible first | assumption | apply runAlu_canon) | intro _ | dsimp only | split

theorem execPair_canon (xo : Opc) (x : Op) (yo : Opc) (y : Op) {s : State} (hC : s.Canon) :
    Out.Canon (execPair xo x yo y s) := by
  unfold execPair
  repeat' first | (with_reducible first | assumption | apply runPair_canon) | intro _ | dsimp only | split

theorem execFadd_canon (o : Op) {s : State} (hC : s.Canon) :
    Out.Canon (execFadd o s) := by
  unfold execFadd
  repeat' first | (with_reducible first | assumption | apply runAlu_canon) | intro _ | dsimp only | split

theorem execFsub_canon (o : Op) {s : State} (hC : s.Canon) :
    Out.Canon (execFsub o s) := by
  unfold execFsub
  repeat' first | (with_reducible first | assumption | apply runAlu_canon) | intro _ | dsimp only | split

theorem execFmul_canon (o : Op) {s : State} (hC : s.Canon) :
    Out.Canon (execFmul o s) := by
  unfold execFmul
  repeat' first | (with_reducible first | assumption | apply runAlu_canon) | intro _ | dsimp only | split

theorem execFfma_canon (o : Op) {s : State} (hC : s.Canon) :
    Out.Canon (execFfma o s) := by
  unfold execFfma
  repeat' first | (with_reducible first | assumption | apply runAlu_canon) | intro _ | dsimp only | split

theorem execFmin_canon (o : Op) {s : State} (hC : s.Canon) :
    Out.Canon (execFmin o s) := by
  unfold execFmin
  repeat' first | (with_reducible first | assumption | apply runAlu_canon) | intro _ | dsimp only | split

theorem execFmax_canon (o : Op) {s : State} (hC : s.Canon) :
    Out.Canon (execFmax o s) := by
  unfold execFmax
  repeat' first | (with_reducible first | assumption | apply runAlu_canon) | intro _ | dsimp only | split

theorem execFcmp_canon (o : Op) {s : State} (hC : s.Canon) :
    Out.Canon (execFcmp o s) := by
  unfold execFcmp
  repeat' first | (with_reducible first | assumption | apply runAlu_canon) | intro _ | dsimp only | split

theorem execFset_canon (o : Op) {s : State} (hC : s.Canon) :
    Out.Canon (execFset o s) := by
  unfold execFset
  repeat' first | (with_reducible first | assumption | apply runAlu_canon) | intro _ | dsimp only | split

theorem execFclass_canon (o : Op) {s : State} (hC : s.Canon) :
    Out.Canon (execFclass o s) := by
  unfold execFclass
  repeat' first | (with_reducible first | assumption | apply runAlu_canon) | intro _ | dsimp only | split

theorem execFscale_canon (o : Op) {s : State} (hC : s.Canon) :
    Out.Canon (execFscale o s) := by
  unfold execFscale
  repeat' first | (with_reducible first | assumption | apply runAlu_canon) | intro _ | dsimp only | split

theorem execFrnd_canon (o : Op) {s : State} (hC : s.Canon) :
    Out.Canon (execFrnd o s) := by
  unfold execFrnd
  repeat' first | (with_reducible first | assumption | apply runAlu_canon) | intro _ | dsimp only | split

theorem execFdot2_canon (o : Op) {s : State} (hC : s.Canon) :
    Out.Canon (execFdot2 o s) := by
  unfold execFdot2
  repeat' first | (with_reducible first | assumption | apply runAlu_canon) | intro _ | dsimp only | split

theorem execFdot4_canon (o : Op) {s : State} (hC : s.Canon) :
    Out.Canon (execFdot4 o s) := by
  unfold execFdot4
  repeat' first | (with_reducible first | assumption | apply runAlu_canon) | intro _ | dsimp only | split

theorem execFsign_canon (o : Op) {s : State} (hC : s.Canon) :
    Out.Canon (execFsign o s) := by
  unfold execFsign
  repeat' first | (with_reducible first | assumption | apply runAlu_canon) | intro _ | dsimp only | split

theorem execFmed3_canon (o : Op) {s : State} (hC : s.Canon) :
    Out.Canon (execFmed3 o s) := by
  unfold execFmed3
  repeat' first | (with_reducible first | assumption | apply runAlu_canon) | intro _ | dsimp only | split

theorem execCvt_canon (o : Op) {s : State} (hC : s.Canon) :
    Out.Canon (execCvt o s) := by
  unfold execCvt
  repeat' first | (with_reducible first | assumption | apply runAlu_canon) | intro _ | dsimp only | split

theorem execF2i_canon (o : Op) {s : State} (hC : s.Canon) :
    Out.Canon (execF2i o s) := by
  unfold execF2i
  repeat' first | (with_reducible first | assumption | apply runAlu_canon) | intro _ | dsimp only | split

theorem execI2f_canon (o : Op) {s : State} (hC : s.Canon) :
    Out.Canon (execI2f o s) := by
  unfold execI2f
  repeat' first | (with_reducible first | assumption | apply runAlu_canon) | intro _ | dsimp only | split

theorem execPack_canon (o : Op) {s : State} (hC : s.Canon) :
    Out.Canon (execPack o s) := by
  unfold execPack
  repeat' first | (with_reducible first | assumption | apply runAlu_canon) | intro _ | dsimp only | split

theorem execUnpack_canon (o : Op) {s : State} (hC : s.Canon) :
    Out.Canon (execUnpack o s) := by
  unfold execUnpack
  repeat' first | (with_reducible first | assumption | apply runAlu_canon) | intro _ | dsimp only | split

theorem execBscale_canon (o : Op) {s : State} (hC : s.Canon) :
    Out.Canon (execBscale o s) := by
  unfold execBscale
  repeat' first | (with_reducible first | assumption | apply runAlu_canon) | intro _ | dsimp only | split

theorem execIdiv_canon (o : Op) {s : State} (hC : s.Canon) :
    Out.Canon (execIdiv o s) := by
  unfold execIdiv
  repeat' first | (with_reducible first | assumption | apply runSfu_canon) | intro _ | dsimp only | split

theorem execFdiv_canon (o : Op) {s : State} (hC : s.Canon) :
    Out.Canon (execFdiv o s) := by
  unfold execFdiv
  repeat' first | (with_reducible first | assumption | apply runSfu_canon) | intro _ | dsimp only | split

theorem execFsqrt_canon (o : Op) {s : State} (hC : s.Canon) :
    Out.Canon (execFsqrt o s) := by
  unfold execFsqrt
  repeat' first | (with_reducible first | assumption | apply runSfu_canon) | intro _ | dsimp only | split

theorem execRcp_canon (o : Op) {s : State} (hC : s.Canon) :
    Out.Canon (execRcp o s) := by
  unfold execRcp
  repeat' first | (with_reducible first | assumption | apply runSfu_canon) | intro _ | dsimp only | split

theorem execRsq_canon (o : Op) {s : State} (hC : s.Canon) :
    Out.Canon (execRsq o s) := by
  unfold execRsq
  repeat' first | (with_reducible first | assumption | apply runSfu_canon) | intro _ | dsimp only | split

theorem execExp2_canon (o : Op) {s : State} (hC : s.Canon) :
    Out.Canon (execExp2 o s) := by
  unfold execExp2
  repeat' first | (with_reducible first | assumption | apply runSfu_canon) | intro _ | dsimp only | split

theorem execLog2_canon (o : Op) {s : State} (hC : s.Canon) :
    Out.Canon (execLog2 o s) := by
  unfold execLog2
  repeat' first | (with_reducible first | assumption | apply runSfu_canon) | intro _ | dsimp only | split

theorem execSin_canon (o : Op) {s : State} (hC : s.Canon) :
    Out.Canon (execSin o s) := by
  unfold execSin
  repeat' first | (with_reducible first | assumption | apply runSfu_canon) | intro _ | dsimp only | split

theorem execCos_canon (o : Op) {s : State} (hC : s.Canon) :
    Out.Canon (execCos o s) := by
  unfold execCos
  repeat' first | (with_reducible first | assumption | apply runSfu_canon) | intro _ | dsimp only | split

theorem execTanh_canon (o : Op) {s : State} (hC : s.Canon) :
    Out.Canon (execTanh o s) := by
  unfold execTanh
  repeat' first | (with_reducible first | assumption | apply runSfu_canon) | intro _ | dsimp only | split

theorem execSpecialFunctionResult_canon (key id : Nat) {s : State} (hC : s.Canon) :
    Out.Canon (execSpecialFunctionResult key id s) := by
  unfold execSpecialFunctionResult
  repeat' first | (with_reducible first | assumption | apply State.sfuReturn_canon | apply Out.canon_next) | intro _ | dsimp only | split

theorem State.crossDone_canon {s : State} (o : Opc) (x : Op) (i : Iss) (ls : List Nat) (val : Nat → Nat) (pred : Nat → Bool) (fl : Flags) (hC : s.Canon) :
    (State.crossDone s o x i ls val pred fl).Canon := by
  unfold State.crossDone
  repeat' first | (with_reducible first | assumption | apply State.modGroup_canon | apply State.modSplit_canon | apply State.stall_canon | apply State.doneFlags_canon) | dsimp only | split

theorem crossLane_canon (x : Op) {s : State} (k : Iss → List Nat → State) (hC : s.Canon) (hk : ∀ x0 x1, (k x0 x1).Canon) :
    Out.Canon (crossLane x s k) := by
  unfold crossLane
  repeat' first | (with_reducible first | assumption | apply hk | apply issue_canon | apply State.done_canon) | intro _ | dsimp only | split

theorem execShfl_canon (o : Op) {s : State} (hC : s.Canon) :
    Out.Canon (execShfl o s) := by
  unfold execShfl
  repeat' first | (with_reducible first | assumption | apply State.crossDone_canon | apply crossLane_canon) | intro _ | dsimp only | split

theorem execBcast_canon (o : Op) {s : State} (hC : s.Canon) :
    Out.Canon (execBcast o s) := by
  unfold execBcast
  repeat' first | (with_reducible first | assumption | apply State.crossDone_canon | apply crossLane_canon) | intro _ | dsimp only | split

theorem execVote_canon (o : Op) {s : State} (hC : s.Canon) :
    Out.Canon (execVote o s) := by
  unfold execVote
  repeat' first | (with_reducible first | assumption | apply State.crossDone_canon | apply crossLane_canon) | intro _ | dsimp only | split

theorem execBallot_canon (o : Op) {s : State} (hC : s.Canon) :
    Out.Canon (execBallot o s) := by
  unfold execBallot
  repeat' first | (with_reducible first | assumption | apply State.crossDone_canon | apply crossLane_canon) | intro _ | dsimp only | split

theorem execCompact_canon (o : Op) {s : State} (hC : s.Canon) :
    Out.Canon (execCompact o s) := by
  unfold execCompact
  repeat' first | (with_reducible first | assumption | apply State.crossDone_canon | apply crossLane_canon) | intro _ | dsimp only | split

theorem execReduce_canon (o : Op) {s : State} (hC : s.Canon) :
    Out.Canon (execReduce o s) := by
  unfold execReduce
  repeat' first | (with_reducible first | assumption | apply foldl_canon | apply foldl_canon | apply State.crossDone_canon | apply crossLane_canon) | intro _ | dsimp only | split

theorem execScan_canon (o : Op) {s : State} (hC : s.Canon) :
    Out.Canon (execScan o s) := by
  unfold execScan
  repeat' first | (with_reducible first | assumption | apply foldl_canon | apply foldl_canon | apply State.crossDone_canon | apply crossLane_canon) | intro _ | dsimp only | split

theorem execMatchKeys_canon (o : Op) {s : State} (hC : s.Canon) :
    Out.Canon (execMatchKeys o s) := by
  unfold execMatchKeys
  repeat' first | (with_reducible first | assumption | apply State.crossDone_canon | apply crossLane_canon) | intro _ | dsimp only | split

theorem execAgemask_canon (o : Op) {s : State} (hC : s.Canon) :
    Out.Canon (execAgemask o s) := by
  unfold execAgemask
  repeat' first | (with_reducible first | assumption | apply State.raise_canon | apply State.crossDone_canon | apply crossLane_canon) | intro _ | dsimp only | split

end Sys2Proof.Machine
end

