-- ==== Sys2Proof/Laws/CanonMem.lean ====
section
/-! SUPPORT. The canonical form of every memory is kept by the memory instructions, sink groups, futures and copies. -/
namespace Sys2Proof.Machine

theorem State.mx_canon {s : State} (i : Iss) (acc : Acc) (claim : Bool) (va : Nat) (hC : s.Canon) :
    (State.mx s i acc claim va).1.Canon := by
  unfold State.mx
  repeat' first | (with_reducible first | assumption | refine fst_canon (by assumption) ?_ | apply State.gx_canon | apply State.claim_canon) | dsimp only | split

theorem State.aimParts_canon (i : Iss) (o : Opc) (x : Op) (ps : List (Nat × Nat)) : ∀ (off : Nat) {s : State}, s.Canon →
    (s.aimParts i o x off ps).1.Canon := by
  induction ps with
  | nil => intro _ _ h; exact h
  | cons p ps ih =>
    intro off s h
    unfold State.aimParts
    repeat' first | (with_reducible first | assumption | refine fst_canon (by assumption) ?_ | apply ih | apply State.mx_canon) | split

theorem State.aim_canon {s : State} (i : Iss) (o : Opc) (x : Op) (l : Nat) (hC : s.Canon) :
    (State.aim s i o x l).1.Canon := by
  unfold State.aim
  repeat' first | (with_reducible first | assumption | refine fst_canon (by assumption) ?_ | apply State.aimParts_canon) | split | dsimp only

theorem Workgroup.lsPoisonGran_canon {w : Workgroup} (gr : Nat) (h : w.Canon) : (w.lsPoisonGran gr).Canon :=
  ⟨h.1, Store.set_wf gr 1 h.2, Store.clear_wf (gr * 32) 32 h.3⟩

theorem Workgroup.lsWritten_canon {w : Workgroup} (gr : Nat) (full : Bool) (h : w.Canon) : (w.lsWritten gr full).Canon := by
  unfold Workgroup.lsWritten
  cases full with
  | true =>
    refine ⟨h.1, Store.set_wf _ _ h.2, ?_⟩
    show Store.wf (if w.lsBad == [] then [] else w.lsBad.clear (gr * 32) 32) = true
    split
    · rfl
    · exact Store.clear_wf _ _ h.3
  | false =>
    show Workgroup.Canon (if w.lsGran gr == .uncorrectable then w.lsPoisonGran gr else w)
    split
    · exact Workgroup.lsPoisonGran_canon gr h
    · exact h

theorem State.readBad_canon {s : State} (i : Iss) (loc : Bool) (place : Nat) (hC : s.Canon) :
    (State.readBad s i loc place).Canon := by
  unfold State.readBad
  repeat' first | (with_reducible first | assumption | apply State.markRead_canon | apply State.modWg_canon | apply Workgroup.lsPoisonGran_canon) | intro _ | split | (rename_i hx; exact ⟨hx.1, hx.2, hx.3⟩) | dsimp only

theorem State.loadParts_canon {s : State} (i : Iss) (na : Bool) (ps : List Piece) (hC : s.Canon) :
    (State.loadParts s i na ps).Canon := by
  unfold State.loadParts
  repeat' first | (with_reducible first | assumption | apply State.loadLine_canon | apply foldl_canon) | intro _ | dsimp only | split

theorem State.readElem_canon {s : State} (i : Iss) (o : Opc) (x : Op) (l : Nat) (hC : s.Canon) :
    (State.readElem s i o x l).1.Canon := by
  unfold State.readElem
  repeat' first | (with_reducible first | assumption | refine fst_canon (by assumption) ?_ | apply State.aim_canon | apply State.readBad_canon | apply State.loadParts_canon) | dsimp only | split

theorem State.loadLane_canon {s : State} (i : Iss) (o : Opc) (x : Op) (l : Nat) (hC : s.Canon) :
    (State.loadLane s i o x l).1.Canon := by
  unfold State.loadLane
  repeat' first | (with_reducible first | assumption | refine fst_canon (by assumption) ?_ | apply State.modGroup_canon | apply State.readElem_canon) | split | dsimp only

theorem State.eachLane_canon {f : State → Nat → State × Option Bad} (hf : ∀ s l, s.Canon → (f s l).1.Canon) (ls : List Nat) :
    ∀ {s : State}, s.Canon → (State.eachLane f s ls).1.Canon := by
  induction ls with
  | nil => intro _ h; exact h
  | cons l ls ih => intro s h; exact ih (hf s l h)

theorem State.loadScalar_canon {s : State} (i : Iss) (x : Op) (lanes : List Nat) (hC : s.Canon) :
    (State.loadScalar s i x lanes).1.Canon := by
  unfold State.loadScalar
  repeat' first | (with_reducible first | assumption | refine fst_canon (by assumption) ?_ | apply State.modSplit_canon | apply State.readElem_canon) | split | dsimp only

theorem State.storeLane_canon {s : State} (i : Iss) (o : Opc) (x : Op) (l : Nat) (hC : s.Canon) :
    (State.storeLane s i o x l).1.Canon := by
  unfold State.storeLane
  repeat' first | (with_reducible first | assumption | refine fst_canon (by assumption) ?_ | apply State.aim_canon) | dsimp only | split

theorem State.storeLanes_canon (i : Iss) (o : Opc) (x : Op) (ls : List Nat) : ∀ {s : State}, s.Canon → (s.storeLanes i o x ls).1.Canon := by
  induction ls with
  | nil => intro _ h; exact h
  | cons l ls ih =>
    intro s h
    unfold State.storeLanes
    repeat' first | (with_reducible first | assumption | refine fst_canon (by assumption) ?_ | apply ih | apply State.storeLane_canon) | dsimp only | split

theorem State.storeGran_canon {s : State} (i : Iss) (loc na : Bool) (ws : List LaneWr) (gr : Nat) (hC : s.Canon) :
    (State.storeGran s i loc na ws gr).Canon := by
  unfold State.storeGran
  repeat' first | (with_reducible first | assumption | apply State.aside_canon | apply State.granWritten_canon | apply State.storeLine_canon | apply State.modWg_canon | apply State.dataEvent_canon | apply Workgroup.lsWritten_canon) | intro _ | dsimp only | split | (rename_i hx; exact ⟨hx.1, hx.2, hx.3⟩)

theorem State.putWr_canon {s : State} (i : Iss) (loc : Bool) (w : LaneWr) (hC : s.Canon) :
    (State.putWr s i loc w).Canon := by
  unfold State.putWr
  repeat' first | (with_reducible first | assumption | apply State.Canon.allWgs | apply State.Canon.allCores | apply State.setBytes_canon | apply State.modWg_canon) | (rename_i hx; exact ⟨Store.setList_wf _ _ hx.1, hx.2, hx.3⟩) | intro _ | split | dsimp only | (simp only [State.canon_lit]; refine State.CanonLit.of _ ?_ ?_ ?_)

theorem State.storeAll_canon {s : State} (i : Iss) (loc na : Bool) (ws : List LaneWr) (hC : s.Canon) :
    (State.storeAll s i loc na ws).Canon := by
  unfold State.storeAll
  repeat' first | (with_reducible first | assumption | apply State.storeGran_canon | apply State.putWr_canon | apply foldl_canon) | intro _ | dsimp only | split

theorem State.levelTouch_canon {s : State} (i : Iss) (path : Path) (level sector : Nat) (writes : Bool) (hC : s.Canon) :
    (State.levelTouch s i path level sector writes).Canon := by
  unfold State.levelTouch
  repeat' first | (with_reducible first | assumption | apply State.dramAsk_canon | apply State.syncDir_canon | apply State.takeBack_canon | apply State.dropCopies_canon | apply State.l2Fill_canon | apply State.recallOthers_canon | apply State.storeLine_canon) | dsimp only | split

theorem State.anchorMiss_canon {s : State} (i : Iss) (sector : Nat) (hC : s.Canon) :
    (State.anchorMiss s i sector).Canon := by
  unfold State.anchorMiss
  repeat' first | (with_reducible first | assumption | apply State.modCore_canon | apply Core.countMiss_canon) | (rename_i hx; exact ⟨hx.1, hx.2, hx.3⟩) | dsimp only | split | intro _

theorem State.atomLane_canon {s : State} (i : Iss) (o : Opc) (x : Op) (l : Nat) (hC : s.Canon) :
    (State.atomLane s i o x l).1.Canon := by
  unfold State.atomLane
  repeat' first | (with_reducible first | assumption | apply State.mx_canon | apply State.anchorMiss_canon | apply State.aside_canon | apply State.Canon.allWgs | apply State.Canon.allCores | refine fst_canon (by assumption) ?_ | apply State.markRead_canon | apply State.wrN_canon | apply State.modGroup_canon | apply State.modSplit_canon | apply State.gx_canon | apply State.dataEvent_canon | apply State.levelTouch_canon) | dsimp only | split | dsimp only | (simp only [State.canon_lit]; refine State.CanonLit.of _ ?_ ?_ ?_)

theorem State.atomlLane_canon {s : State} (i : Iss) (x : Op) (l : Nat) (hC : s.Canon) :
    (State.atomlLane s i x l).1.Canon := by
  unfold State.atomlLane
  repeat' first | (with_reducible first | assumption | apply State.Canon.allWgs | apply State.Canon.allCores | refine fst_canon (by assumption) ?_ | apply State.modGroup_canon | apply State.modSplit_canon | apply State.modWg_canon | apply State.aim_canon | apply State.readBad_canon) | (rename_i hx; exact ⟨Store.setList_wf _ _ hx.1, hx.2, hx.3⟩) | intro _ | dsimp only | split | dsimp only | (simp only [State.canon_lit]; refine State.CanonLit.of _ ?_ ?_ ?_)

theorem State.publishPages_canon (i : Iss) (ea : Nat) (ps : List Nat) : ∀ {s : State}, s.Canon → (s.publishPages i ea ps).1.Canon := by
  induction ps with
  | nil => intro _ h; exact h
  | cons p ps ih =>
    intro s h
    unfold State.publishPages
    repeat' first | (with_reducible first | assumption | refine fst_canon (by assumption) ?_ | apply ih | apply State.gx_canon) | dsimp only | split

theorem State.publish_canon {s : State} (i : Iss) (x : Op) (lanes : List Nat) (h : s.Canon) : (s.publish i x lanes).1.Canon := by
  have hp : ∀ (t : State) (p : Nat × BitVec 1 → Bool) (o : Table OldSector), t.Canon →
      ({ t with staged := t.staged.filter p, older := o } : State).Canon := fun _ p _ ht =>
    ⟨ht.mem, ht.hostMem, ht.poison, Store.filter_wf p ht.staged, ht.bad, ht.wgs, ht.cores⟩
  unfold State.publish
  dsimp only
  repeat' first | (with_reducible first | assumption | refine fst_canon (by assumption) ?_ | apply hp | apply State.publishPages_canon) | split

theorem State.takeMisses_canon {s : State} (i : Iss) (o : Opc) (x : Op) (ls : List Nat) (hC : s.Canon) :
    (State.takeMisses s i o x ls).Canon := by
  unfold State.takeMisses
  repeat' first | (with_reducible first | assumption | apply State.modCore_canon | apply State.Canon.allWgs | apply State.Canon.allCores) | (rename_i hx; exact ⟨hx.1, hx.2, hx.3⟩) | dsimp only | split | (simp only [State.canon_lit]; refine State.CanonLit.of _ ?_ ?_ ?_) | intro _

theorem State.freeMisses_canon {s : State} (w : Who) (hC : s.Canon) :
    (State.freeMisses s w).Canon := by
  unfold State.freeMisses
  repeat' first | (with_reducible first | assumption | apply State.modCore_canon | apply State.Canon.allWgs | apply State.Canon.allCores) | (rename_i hx; exact ⟨hx.1, hx.2, hx.3⟩) | dsimp only | split | (simp only [State.canon_lit]; refine State.CanonLit.of _ ?_ ?_ ?_) | intro _

theorem State.takeEntries_canon {s : State} (i : Iss) (sectors : List (Nat × Nat)) (hC : s.Canon) :
    (State.takeEntries s i sectors).Canon := by
  unfold State.takeEntries
  repeat' first | (with_reducible first | assumption | apply State.Canon.allWgs | apply State.Canon.allCores | apply State.modCore_canon) | (rename_i hx; exact ⟨hx.1, hx.2, hx.3⟩) | intro _ | dsimp only | (simp only [State.canon_lit]; refine State.CanonLit.of _ ?_ ?_ ?_) | split

theorem State.freeEntries_canon {s : State} (key : Nat) (ls : List Nat) (hC : s.Canon) :
    (State.freeEntries s key ls).Canon := by
  unfold State.freeEntries
  repeat' first | (with_reducible first | assumption | apply State.Canon.allWgs | apply State.Canon.allCores | apply State.modCore_canon) | (rename_i hx; exact ⟨hx.1, hx.2, hx.3⟩) | intro _ | split | dsimp only | (simp only [State.canon_lit]; refine State.CanonLit.of _ ?_ ?_ ?_)

theorem State.pending_canon {s : State} (i : Iss) (x : Op) (p : Pend) (hC : s.Canon) :
    (State.pending s i x p).Canon := by
  unfold State.pending
  repeat' first | (with_reducible first | assumption | apply State.Canon.allWgs | apply State.Canon.allCores | apply State.modSplit_canon | apply State.done_canon) | dsimp only | (simp only [State.canon_lit]; refine State.CanonLit.of _ ?_ ?_ ?_) | split

theorem memIssue_canon (o : Opc) (x : Op) {s : State} (hC : s.Canon) :
    Out.Canon (memIssue o x s) := by
  unfold memIssue
  repeat' first | (with_reducible first | assumption | apply State.takeMisses_canon | apply issue_canon | apply State.done_canon | apply State.stall_canon | apply State.takeEntries_canon | apply State.pending_canon) | intro _ | dsimp only | split

theorem State.perform_canon {s : State} (i : Iss) (o : Opc) (x : Op) (ls : List Nat) (hC : s.Canon) :
    (State.perform s i o x ls).1.Canon := by
  unfold State.perform
  repeat' first | (with_reducible first | assumption | apply State.loadLane_canon | apply State.eachLane_canon | apply State.loadScalar_canon | apply State.storeLanes_canon | apply State.storeAll_canon | apply State.atomLane_canon | apply State.atomlLane_canon | apply State.publish_canon | apply State.freeEntries_canon) | intro _ | dsimp only | split

theorem State.faultPoint_canon {s : State} (w : Who) (p : Pend) (bad : List (Nat × Bad)) (more : Word) (hC : s.Canon) :
    (State.faultPoint s w p bad more).Canon := by
  unfold State.faultPoint
  repeat' first | (with_reducible first | assumption | apply State.freeMisses_canon | apply State.drained_canon | apply State.Canon.allWgs | apply State.Canon.allCores | apply State.setGroup_canon | apply State.modSplit_canon | apply State.deliver_canon) | dsimp only | split | dsimp only | (simp only [State.canon_lit]; refine State.CanonLit.of _ ?_ ?_ ?_)

theorem State.memComplete_canon {s : State} (w : Who) (hC : s.Canon) :
    (State.memComplete s w).Canon := by
  unfold State.memComplete
  repeat' first | (with_reducible first | assumption | apply State.modSplit_canon | apply State.Canon.allWgs | apply State.Canon.allCores | apply State.perform_canon | apply State.faultPoint_canon) | dsimp only | split | dsimp only | (simp only [State.canon_lit]; refine State.CanonLit.of _ ?_ ?_ ?_)

theorem execMemoryAccessCompletion_canon (key split : Nat) {s : State} (hC : s.Canon) :
    Out.Canon (execMemoryAccessCompletion key split s) := by
  unfold execMemoryAccessCompletion
  repeat' first | (with_reducible first | assumption | apply State.memComplete_canon | apply Out.canon_next) | intro _ | dsimp only | split

theorem execLd_canon (o : Op) {s : State} (hC : s.Canon) :
    Out.Canon (execLd o s) := by
  unfold execLd
  repeat' first | (with_reducible first | assumption | apply memIssue_canon) | intro _ | dsimp only | split

theorem execSt_canon (o : Op) {s : State} (hC : s.Canon) :
    Out.Canon (execSt o s) := by
  unfold execSt
  repeat' first | (with_reducible first | assumption | apply memIssue_canon) | intro _ | dsimp only | split

theorem execLdl_canon (o : Op) {s : State} (hC : s.Canon) :
    Out.Canon (execLdl o s) := by
  unfold execLdl
  repeat' first | (with_reducible first | assumption | apply memIssue_canon) | intro _ | dsimp only | split

theorem execStl_canon (o : Op) {s : State} (hC : s.Canon) :
    Out.Canon (execStl o s) := by
  unfold execStl
  repeat' first | (with_reducible first | assumption | apply memIssue_canon) | intro _ | dsimp only | split

theorem execLdp_canon (o : Op) {s : State} (hC : s.Canon) :
    Out.Canon (execLdp o s) := by
  unfold execLdp
  repeat' first | (with_reducible first | assumption | apply memIssue_canon) | intro _ | dsimp only | split

theorem execStp_canon (o : Op) {s : State} (hC : s.Canon) :
    Out.Canon (execStp o s) := by
  unfold execStp
  repeat' first | (with_reducible first | assumption | apply memIssue_canon) | intro _ | dsimp only | split

theorem execAtom_canon (o : Op) {s : State} (hC : s.Canon) :
    Out.Canon (execAtom o s) := by
  unfold execAtom
  repeat' first | (with_reducible first | assumption | apply memIssue_canon) | intro _ | dsimp only | split

theorem execAtomnr_canon (o : Op) {s : State} (hC : s.Canon) :
    Out.Canon (execAtomnr o s) := by
  unfold execAtomnr
  repeat' first | (with_reducible first | assumption | apply memIssue_canon) | intro _ | dsimp only | split

theorem execCas_canon (o : Op) {s : State} (hC : s.Canon) :
    Out.Canon (execCas o s) := by
  unfold execCas
  repeat' first | (with_reducible first | assumption | apply memIssue_canon) | intro _ | dsimp only | split

theorem execFatom_canon (o : Op) {s : State} (hC : s.Canon) :
    Out.Canon (execFatom o s) := by
  unfold execFatom
  repeat' first | (with_reducible first | assumption | apply memIssue_canon) | intro _ | dsimp only | split

theorem execFatomnr_canon (o : Op) {s : State} (hC : s.Canon) :
    Out.Canon (execFatomnr o s) := by
  unfold execFatomnr
  repeat' first | (with_reducible first | assumption | apply memIssue_canon) | intro _ | dsimp only | split

theorem execAtoml_canon (o : Op) {s : State} (hC : s.Canon) :
    Out.Canon (execAtoml o s) := by
  unfold execAtoml
  repeat' first | (with_reducible first | assumption | apply memIssue_canon) | intro _ | dsimp only | split

theorem execLdc_canon (o : Op) {s : State} (hC : s.Canon) :
    Out.Canon (execLdc o s) := by
  unfold execLdc
  repeat' first | (with_reducible first | assumption | apply State.takeMisses_canon | apply State.stall_canon | apply splitScope_canon | apply State.pending_canon) | intro _ | split | dsimp only

theorem execPublish_canon (o : Op) {s : State} (hC : s.Canon) :
    Out.Canon (execPublish o s) := by
  unfold execPublish
  repeat' first | (with_reducible first | assumption | refine fst_canon (by assumption) ?_ | apply State.publish_canon | apply splitScope_canon | apply State.pending_canon) | intro _ | dsimp only | split

theorem execFence_canon (o : Op) {s : State} (hC : s.Canon) :
    Out.Canon (execFence o s) := by
  unfold execFence
  repeat' first | (with_reducible first | assumption | apply State.Canon.allWgs | apply State.Canon.allCores | apply State.modSplit_canon | apply State.done_canon | apply splitScope_canon) | intro _ | dsimp only | split | dsimp only | (simp only [State.canon_lit]; refine State.CanonLit.of _ ?_ ?_ ?_)

theorem State.prefLane_canon {s : State} (i : Iss) (x : Op) (l : Nat) (hC : s.Canon) :
    (State.prefLane s i x l).Canon := by
  unfold State.prefLane
  repeat' first | (with_reducible first | assumption | apply State.l2Fill_canon | apply State.loadLine_canon) | dsimp only | split

theorem execPref_canon (o : Op) {s : State} (hC : s.Canon) :
    Out.Canon (execPref o s) := by
  unfold execPref
  repeat' first | (with_reducible first | assumption | apply issue_canon | apply State.done_canon | apply State.prefLane_canon | apply foldl_canon) | intro _ | dsimp only | split

theorem execFlush_canon (o : Op) {s : State} (hC : s.Canon) :
    Out.Canon (execFlush o s) := by
  unfold execFlush
  repeat' first | (with_reducible first | assumption | apply State.cleanLine_canon | apply State.done_canon | apply splitScope_canon | apply foldl_canon) | intro _ | dsimp only | split

theorem State.readBody_canon (i : Iss) (n : Nat) (fuel : Nat) : ∀ (b : BodyScan) {s : State}, s.Canon → (s.readBody i n fuel b).1.Canon := by
  induction fuel with
  | zero => intro _ _ h; exact h
  | succ fuel ih =>
    intro b s h
    unfold State.readBody
    repeat' first | (with_reducible first | assumption | refine fst_canon (by assumption) ?_ | apply ih | apply State.fetch_canon) | dsimp only | split

theorem State.anchorAt_canon {s : State} (i : Iss) (b : List (Opc × Op)) (l : Nat) (hC : s.Canon) :
    (State.anchorAt s i b l).1.Canon := by
  unfold State.anchorAt
  repeat' first | (with_reducible first | assumption | refine fst_canon (by assumption) ?_ | apply State.gx_canon) | dsimp only | split

theorem State.sinkLane_canon {s : State} (i : Iss) (x : Op) (b : List (Opc × Op)) (l : Nat) (hC : s.Canon) :
    (State.sinkLane s i x b l).1.Canon := by
  unfold State.sinkLane
  repeat' first | (with_reducible first | assumption | apply State.Canon.allWgs | apply State.Canon.allCores | refine fst_canon (by assumption) ?_ | apply State.gx_canon | apply State.anchorAt_canon) | dsimp only | split | dsimp only | (simp only [State.canon_lit]; refine State.CanonLit.of _ ?_ ?_ ?_)

theorem State.sinkLanes_canon (i : Iss) (x : Op) (b : List (Opc × Op)) (ls : List Nat) : ∀  {s : State}, s.Canon → (s.sinkLanes i x b ls).1.Canon := by
  induction ls with
  | nil => intro  _ h; exact h
  | cons a ls ih =>
    intro  s h
    unfold State.sinkLanes
    repeat' (with_reducible first | assumption | apply ih | apply State.sinkLane_canon)

theorem State.sinkPoint_canon {s : State} (w : Who) (hC : s.Canon) :
    (State.sinkPoint s w).Canon := by
  unfold State.sinkPoint
  repeat' first | (with_reducible first | assumption | apply State.Canon.allWgs | apply State.Canon.allCores | apply State.freeEntries_canon | apply State.faultPoint_canon) | split | dsimp only | (simp only [State.canon_lit]; refine State.CanonLit.of _ ?_ ?_ ?_)

theorem State.sinkIssue_canon {s : State} (i : Iss) (o : Op) (b : BodyScan) (anchor : Op) (ls : List Nat) (past : State → State)
    (hp : ∀ u : State, u.Canon → (past u).Canon) (hC : s.Canon) : (State.sinkIssue s i o b anchor ls past).Canon := by
  unfold State.sinkIssue
  repeat' first | (with_reducible first | assumption | apply State.Canon.allWgs | apply State.Canon.allCores | apply State.stall_canon | apply State.sinkPoint_canon | apply State.modSplit_canon | apply hp | apply State.takeEntries_canon | apply State.sinkLanes_canon) | dsimp only | split | dsimp only | (simp only [State.canon_lit]; refine State.CanonLit.of _ ?_ ?_ ?_)

theorem execSink_canon (o : Op) {s : State} (hC : s.Canon) :
    Out.Canon (execSink o s) := by
  unfold execSink
  repeat' first | (with_reducible first | assumption | apply State.sinkIssue_canon | apply State.Canon.allWgs | apply State.Canon.allCores | refine fst_canon (by assumption) ?_ | apply State.modSplit_canon | apply issue_canon | apply State.done_canon | apply State.stall_canon | apply State.raiseAll_canon | apply State.takeEntries_canon | apply State.readBody_canon | apply State.sinkLanes_canon | apply State.sinkPoint_canon) | intro _ | dsimp only | split | dsimp only | (simp only [State.canon_lit]; refine State.CanonLit.of _ ?_ ?_ ?_)

theorem State.bodyXlate_canon {s : State} (i : Iss) (level line : Nat) (acc : Acc) (va : Nat) (hC : s.Canon) :
    (State.bodyXlate s i level line acc va).1.Canon := by
  unfold State.bodyXlate
  repeat' first | (with_reducible first | assumption | apply State.translate_canon) | dsimp only | split

theorem State.bodyRecall_canon {s : State} (i : Iss) (level anchor place : Nat) (hC : s.Canon) : OptCanon (State.bodyRecall s i level anchor place) := by
  refine ⟨fun t e => ?_⟩
  unfold State.bodyRecall at e
  split at e
  · cases e
  · cases h : s.privOwner (s.ctxOf i.core) (place / 32) with
    | none => rw [h] at e; cases e
    | some c => rw [h] at e; cases e; exact State.dropSectors_canon _ _ _ _ hC

theorem State.bodyStep_canon {s : State} (i : Iss) (level anchor : Nat) (o : Opc) (x : Op) (b : BodyRun) (hC : s.Canon) :
    (State.bodyStep s i level anchor o x b).1.Canon := by
  unfold State.bodyStep
  repeat' first | (with_reducible first | assumption | apply State.bodyRecall_canon | apply State.wr_canon | apply State.Canon.allWgs | apply State.Canon.allCores | refine fst_canon (by assumption) ?_ | apply State.markRead_canon | apply State.loadLine_canon | apply State.bodyXlate_canon) | (refine OptCanon.of (by assumption) (State.bodyRecall_canon _ _ _ _ ?_)) | dsimp only | split | dsimp only | (simp only [State.canon_lit]; refine State.CanonLit.of _ ?_ ?_ ?_)

theorem State.bodyRun_canon (i : Iss) (level line : Nat) (os : List (Opc × Op)) : ∀ (k : Nat) (b : BodyRun) {s : State}, s.Canon → (s.bodyRun i level line k os b).1.Canon := by
  induction os with
  | nil => intro _ _ _ h; exact h
  | cons a os ih =>
    intro k b s h
    unfold State.bodyRun
    repeat' first | (with_reducible first | assumption | refine fst_canon (by assumption) ?_ | apply ih | apply State.bodyStep_canon) | split

theorem State.bodyWrite_canon {s : State} (i : Iss) (l level sector : Nat) (path : Path) (w : Option LaneWr) (hC : s.Canon) :
    (s.bodyWrite i l level sector path w).Canon := by
  cases w with
  | none => exact State.levelTouch_canon _ _ _ _ _ hC
  | some w =>
    unfold State.bodyWrite
    repeat' first | (with_reducible first | assumption | apply State.setBytes_canon | apply State.granWritten_canon | apply State.storeLine_canon | apply State.dataEvent_canon | apply State.levelTouch_canon | apply State.aside_canon) | dsimp only | split

theorem State.sinkRun_canon {s : State} (i : Iss) (p : Pend) (a : Aim) (level : Nat) (hC : s.Canon) :
    (State.sinkRun s i p a level).1.Canon := by
  unfold State.sinkRun
  repeat' first | (with_reducible first | assumption | apply State.wr_canon | apply State.done_canon | apply State.Canon.allWgs | apply State.Canon.allCores | refine fst_canon (by assumption) ?_ | apply State.markRead_canon | apply State.levelTouch_canon | apply State.anchorAt_canon | apply State.bodyRun_canon | apply State.bodyWrite_canon) | dsimp only | split | dsimp only | (simp only [State.canon_lit]; refine State.CanonLit.of _ ?_ ?_ ?_)

theorem State.setEntry_canon {s : State} (w : Who) (l : Nat) (st : EntrySt) (hC : s.Canon) :
    (State.setEntry s w l st).Canon := by
  unfold State.setEntry
  repeat' first | (with_reducible first | assumption | apply State.modCore_canon | apply State.Canon.allWgs | apply State.Canon.allCores) | (rename_i hx; exact ⟨hx.1, hx.2, hx.3⟩) | dsimp only | split | (simp only [State.canon_lit]; refine State.CanonLit.of _ ?_ ?_ ?_) | intro _

theorem State.sinkRuns_canon (w : Who) (i : Iss) (p : Pend) (level : Nat) : ∀ (l : List Aim) {s : State}, s.Canon → (s.sinkRuns w i p level l).Canon := by
  intro l
  induction l with
  | nil => exact fun h => h
  | cons a rest ih =>
    intro s hC
    unfold State.sinkRuns
    have h := State.modSplit_canon (s := (s.sinkRun i p a level).1) w (fun y => { y with pend := y.pend.map (·.setSink a.lane (s.sinkRun i p a level).2) })
      (State.sinkRun_canon i p a level hC)
    dsimp only
    split
    · split
      · exact h
      · exact State.setEntry_canon _ _ _ h
    · exact ih (State.setEntry_canon _ _ _ h)
    · exact ih h

theorem State.forward_canon {s : State} (line : Nat) (ctx : BitVec 16) (hC : s.Canon) :
    (State.forward s line ctx).Canon := by
  unfold State.forward
  repeat' first | (with_reducible first | assumption | apply State.Canon.allWgs | apply State.Canon.allCores) | dsimp only | split | (simp only [State.canon_lit]; refine State.CanonLit.of _ ?_ ?_ ?_)

theorem State.passedBack_canon {s : State} (line : Nat) (ctx : BitVec 16) (hC : s.Canon) :
    (State.passedBack s line ctx).Canon := by
  unfold State.passedBack
  repeat' first | (with_reducible first | assumption | apply State.dramAsk_canon | apply State.Canon.allWgs | apply State.Canon.allCores) | dsimp only | split | (simp only [State.canon_lit]; refine State.CanonLit.of _ ?_ ?_ ?_)

theorem State.sinkExecute_canon {s : State} (w : Who) (l : Nat) (hC : s.Canon) :
    (State.sinkExecute s w l).Canon := by
  unfold State.sinkExecute
  repeat' first | (with_reducible first | assumption | apply State.anchorMiss_canon | apply State.forward_canon | apply State.sinkRuns_canon | apply State.passedBack_canon | apply State.modCore_canon | apply State.modSplit_canon | apply State.sinkPoint_canon | apply State.sinkRun_canon) | (rename_i hx; exact ⟨hx.1, hx.2, hx.3⟩) | intro _ | dsimp only | split

theorem execSinkGroupExecution_canon (key split : Nat) (lane : Nat) {s : State} (hC : s.Canon) :
    Out.Canon (execSinkGroupExecution key split lane s) := by
  unfold execSinkGroupExecution
  repeat' first | (with_reducible first | assumption | apply State.sinkExecute_canon | apply Out.canon_next) | intro _ | dsimp only | split

theorem State.writeReceipt_canon {s : State} (i : Iss) (p : Pend) (l level unit : Nat) (hC : s.Canon) :
    (State.writeReceipt s i p l level unit).Canon := by
  unfold State.writeReceipt
  repeat' first | (with_reducible first | assumption | refine fst_canon (by assumption) ?_ | apply State.gx_canon | apply State.storeAll_canon) | dsimp only | split

theorem State.receipt_canon {s : State} (w : Who) (i : Iss) (p : Pend) (l : Nat) (level : BitVec 2) (unit : Nat) (hC : s.Canon) :
    (State.receipt s w i p l level unit).Canon := by
  unfold State.receipt
  repeat' first | (with_reducible first | assumption | apply State.modSplit_canon | apply State.writeReceipt_canon | apply State.Canon.allWgs | apply State.Canon.allCores) | dsimp only | split | (simp only [State.canon_lit]; refine State.CanonLit.of _ ?_ ?_ ?_)

theorem State.sinkReturn_canon {s : State} (w : Who) (l : Nat) (hC : s.Canon) :
    (State.sinkReturn s w l).Canon := by
  unfold State.sinkReturn
  repeat' first | (with_reducible first | assumption | apply State.done_canon | apply State.receipt_canon | apply State.Canon.allWgs | apply State.Canon.allCores | apply State.modGroup_canon | apply State.modSplit_canon | apply State.freeEntries_canon | apply State.sinkPoint_canon | apply State.writeReceipt_canon) | dsimp only | split | dsimp only | (simp only [State.canon_lit]; refine State.CanonLit.of _ ?_ ?_ ?_)

theorem execSinkGroupReturn_canon (key split : Nat) (lane : Nat) {s : State} (hC : s.Canon) :
    Out.Canon (execSinkGroupReturn key split lane s) := by
  unfold execSinkGroupReturn
  repeat' first | (with_reducible first | assumption | apply State.sinkReturn_canon | apply Out.canon_next) | intro _ | dsimp only | split

theorem execSret_canon (_o : Op) {s : State} (hC : s.Canon) :
    Out.Canon (execSret _o s) := by
  unfold execSret
  repeat' first | (with_reducible first | assumption | apply issue_canon | apply State.raiseAll_canon) | intro _ | dsimp only | split

theorem execSld_canon (_o : Op) {s : State} (hC : s.Canon) :
    Out.Canon (execSld _o s) := by
  unfold execSld
  repeat' first | (with_reducible first | assumption | apply issue_canon | apply State.raiseAll_canon) | intro _ | dsimp only | split

theorem execSst_canon (_o : Op) {s : State} (hC : s.Canon) :
    Out.Canon (execSst _o s) := by
  unfold execSst
  repeat' first | (with_reducible first | assumption | apply issue_canon | apply State.raiseAll_canon) | intro _ | dsimp only | split

theorem State.futureDone_canon {s : State} (kind id : Nat) (st : BitVec 2) (hC : s.Canon) :
    (State.futureDone s kind id st).Canon := by
  unfold State.futureDone
  repeat' first | (with_reducible first | assumption | apply State.Canon.allWgs | apply State.Canon.allCores) | dsimp only | (simp only [State.canon_lit]; refine State.CanonLit.of _ ?_ ?_ ?_) | split

theorem State.futureTake_canon {s : State} (key h kind id : Nat) (hC : s.Canon) :
    (State.futureTake s key h kind id).Canon := by
  unfold State.futureTake
  repeat' first | (with_reducible first | assumption | apply State.modGroup_canon) | dsimp only | split

theorem execQtest_canon (o : Op) {s : State} (hC : s.Canon) :
    Out.Canon (execQtest o s) := by
  unfold execQtest
  repeat' first | (with_reducible first | assumption | apply State.modSplit_canon | apply State.done_canon | apply splitScope_canon) | intro _ | dsimp only | split

theorem execFwait_canon (o : Op) {s : State} (hC : s.Canon) :
    Out.Canon (execFwait o s) := by
  unfold execFwait
  repeat' first | (with_reducible first | assumption | apply State.Canon.allWgs | apply State.Canon.allCores | apply State.modSplit_canon | apply State.done_canon | apply State.raiseAll_canon | apply splitScope_canon) | intro _ | dsimp only | split | dsimp only | (simp only [State.canon_lit]; refine State.CanonLit.of _ ?_ ?_ ?_)

theorem execFtest_canon (o : Op) {s : State} (hC : s.Canon) :
    Out.Canon (execFtest o s) := by
  unfold execFtest
  repeat' first | (with_reducible first | assumption | apply State.modSplit_canon | apply State.done_canon | apply splitScope_canon) | intro _ | dsimp only | split

theorem State.cancel_canon {s : State} (h : Handle) (hC : s.Canon) :
    (State.cancel s h).Canon := by
  unfold State.cancel
  repeat' first | (with_reducible first | assumption | apply State.Canon.allWgs | apply State.Canon.allCores) | split | (simp only [State.canon_lit]; refine State.CanonLit.of _ ?_ ?_ ?_) | dsimp only

theorem execFcancel_canon (o : Op) {s : State} (hC : s.Canon) :
    Out.Canon (execFcancel o s) := by
  unfold execFcancel
  repeat' first | (with_reducible first | assumption | apply State.done_canon | apply State.raiseAll_canon | apply splitScope_canon | apply State.cancel_canon) | intro _ | dsimp only | split

theorem execFmov_canon (o : Op) {s : State} (hC : s.Canon) :
    Out.Canon (execFmov o s) := by
  unfold execFmov
  repeat' first | (with_reducible first | assumption | apply State.modGroup_canon | apply State.done_canon | apply State.raiseAll_canon | apply splitScope_canon) | intro _ | dsimp only | split

theorem execFrel_canon (o : Op) {s : State} (hC : s.Canon) :
    Out.Canon (execFrel o s) := by
  unfold execFrel
  repeat' first | (with_reducible first | assumption | apply State.modGroup_canon | apply State.done_canon | apply splitScope_canon) | intro _ | dsimp only | split

theorem State.gather_canon {s : State} (key l : Nat) (hC : s.Canon) :
    (State.gather s key l).Canon := by
  unfold State.gather
  repeat' first | (with_reducible first | assumption | apply State.Canon.allWgs | apply State.Canon.allCores | apply State.modGroup_canon | apply State.gatherAt_canon) | dsimp only | split | dsimp only | (simp only [State.canon_lit]; refine State.CanonLit.of _ ?_ ?_ ?_)

theorem execGather_canon (key lane : Nat) {s : State} (hC : s.Canon) :
    Out.Canon (execGather key lane s) := by
  unfold execGather
  repeat' first | (with_reducible first | assumption | apply State.gather_canon | apply Out.canon_next) | intro _ | dsimp only | split

theorem execTierpf_canon (o : Op) {s : State} (hC : s.Canon) :
    Out.Canon (execTierpf o s) := by
  unfold execTierpf
  repeat' first | (with_reducible first | assumption | apply State.done_canon | apply State.raiseAll_canon | apply splitScope_canon | apply State.futureTake_canon | apply State.Canon.allWgs | apply State.Canon.allCores) | intro _ | dsimp only | split | (simp only [State.canon_lit]; refine State.CanonLit.of _ ?_ ?_ ?_)

theorem State.tierBarrier_canon {s : State} (t : TierOp) (hC : s.Canon) :
    (State.tierBarrier s t).Canon := by
  unfold State.tierBarrier
  repeat' first | (with_reducible first | assumption | apply State.barChange_canon) | split | dsimp only

theorem State.tierArrive_canon {s : State} (t : TierOp) (hC : s.Canon) :
    (State.tierArrive s t).1.Canon := by
  unfold State.tierArrive
  repeat' first | (with_reducible first | assumption | apply State.l2Fill_canon | apply State.Canon.allWgs | apply State.Canon.allCores | apply foldl_canon) | intro _ | dsimp only | split | (simp only [State.canon_lit]; refine State.CanonLit.of _ ?_ ?_ ?_)

theorem State.copyPages_canon (i : Iss) (vs : List Nat) : ∀  {s : State}, s.Canon → (s.copyPages i vs).1.Canon := by
  induction vs with
  | nil => intro  _ h; exact h
  | cons a vs ih =>
    intro  s h
    unfold State.copyPages
    repeat' first | (with_reducible first | assumption | refine fst_canon (by assumption) ?_ | apply ih | apply State.gx_canon) | dsimp only | split

theorem State.sourceCheck_canon {s : State} (i : Iss) (o : Opc) (h : CopyShape) (hC : s.Canon) :
    (State.sourceCheck s i o h).1.Canon := by
  unfold State.sourceCheck
  repeat' first | (with_reducible first | assumption | apply State.Canon.allWgs | apply State.Canon.allCores | apply State.copyPages_canon) | dsimp only | split | dsimp only | (simp only [State.canon_lit]; refine State.CanonLit.of _ ?_ ?_ ?_)

theorem State.copyIssue_canon {s : State} (i : Iss) (o : Opc) (x : Op) (h : CopyShape) (lanes : List Nat) (hC : s.Canon) :
    (State.copyIssue s i o x h lanes).Canon := by
  unfold State.copyIssue
  repeat' first | (with_reducible first | assumption | apply State.raiseAll_canon | refine fst_canon (by assumption) ?_ | apply State.done_canon | apply State.stall_canon | apply State.raise_canon | apply State.futureTake_canon | apply State.sourceCheck_canon | apply State.Canon.allWgs | apply State.Canon.allCores) | dsimp only | split | (simp only [State.canon_lit]; refine State.CanonLit.of _ ?_ ?_ ?_)

theorem blockCopy_canon (o : Opc) (x : Op) {s : State} (hC : s.Canon) :
    Out.Canon (blockCopy o x s) := by
  unfold blockCopy
  repeat' first | (with_reducible first | assumption | apply splitScope_canon | apply State.copyIssue_canon) | intro _ | dsimp only | split

theorem execCpy_canon (o : Op) {s : State} (hC : s.Canon) :
    Out.Canon (execCpy o s) := by
  unfold execCpy
  repeat' first | (with_reducible first | assumption | apply blockCopy_canon) | intro _ | dsimp only | split

theorem execCpyb_canon (o : Op) {s : State} (hC : s.Canon) :
    Out.Canon (execCpyb o s) := by
  unfold execCpyb
  repeat' first | (with_reducible first | assumption | apply blockCopy_canon) | intro _ | dsimp only | split

theorem execCpyo_canon (o : Op) {s : State} (hC : s.Canon) :
    Out.Canon (execCpyo o s) := by
  unfold execCpyo
  repeat' first | (with_reducible first | assumption | apply blockCopy_canon) | intro _ | dsimp only | split

theorem execCpyg_canon (o : Op) {s : State} (hC : s.Canon) :
    Out.Canon (execCpyg o s) := by
  unfold execCpyg
  repeat' first | (with_reducible first | assumption | apply issue_canon | apply State.done_canon | apply State.copyIssue_canon) | intro _ | dsimp only | split

theorem Core.bufPoisonGran_canon {k : Core} (gr : Nat) (hC : k.Canon) : (k.bufPoisonGran gr).Canon :=
  ⟨hC.1, Store.set_wf gr 1 hC.2, Store.clear_wf (gr * 32) 32 hC.3⟩

theorem Core.bufWritten_canon {k : Core} (gr : Nat) (full : Bool) (hC : k.Canon) : (k.bufWritten gr full).Canon := by
  unfold Core.bufWritten
  cases full with
  | true =>
    refine ⟨hC.1, Store.set_wf _ _ hC.2, ?_⟩
    show Store.wf (if k.bufBad == [] then [] else k.bufBad.clear (gr * 32) 32) = true
    split
    · rfl
    · exact Store.clear_wf _ _ hC.3
  | false =>
    show Core.Canon (if k.bufGran gr == .uncorrectable then k.bufPoisonGran gr else k)
    split
    · exact Core.bufPoisonGran_canon gr hC
    · exact hC

theorem State.copyEvent_canon {s : State} (c : CopyOp) (lane code addr : Nat) (hC : s.Canon) :
    (State.copyEvent s c lane code addr).Canon := by
  unfold State.copyEvent
  repeat' first | (with_reducible first | assumption | apply State.logData_canon | apply State.dataEvent_canon) | split | dsimp only

theorem State.copySources_canon {s : State} (c : CopyOp) (us : List CopyUnit) (hC : s.Canon) :
    (State.copySources s c us).Canon := by
  unfold State.copySources
  repeat' first | (with_reducible first | assumption | apply State.markRead_canon | apply State.copyEvent_canon | apply foldl_canon) | intro _ | split | dsimp only

theorem State.copyReads_canon {s : State} (c : CopyOp) (hC : s.Canon) :
    (State.copyReads s c).Canon := by
  unfold State.copyReads
  repeat' first | (with_reducible first | assumption | apply State.loadLine_canon | apply State.translate_canon | apply foldl_canon) | intro _ | dsimp only | split

theorem State.destGran_canon {s : State} (c : CopyOp) (fw : Workgroup → Workgroup) (fk : Core → Core) (hC : s.Canon) (hfw : ∀ x, x.Canon → (fw x).Canon) (hfk : ∀ x, x.Canon → (fk x).Canon) :
    (State.destGran s c fw fk).Canon := by
  unfold State.destGran
  repeat' first | (with_reducible first | assumption | apply State.modCore_canon | apply State.modWg_canon) | split | (rename_i hx; exact ⟨hx.1, hx.2, hx.3⟩) | intro _ | dsimp only

theorem State.copyMove_canon {s : State} (c : CopyOp) (hC : s.Canon) : (s.copyMove c).Canon := by
  unfold State.copyMove
  split
  · exact hC
  · refine foldl_canon (fun t g ht => ?_) _ (foldl_canon (fun t u ht => ?_) _ (foldl_canon (fun t g ht => ?_) _
      (State.copyReads_canon _ (State.copySources_canon _ _ hC))))
    · apply State.destGran_canon _ _ _ ht
      · exact fun _ hw => Workgroup.lsPoisonGran_canon _ hw
      · exact fun _ hk => Core.bufPoisonGran_canon _ hk
    · apply State.destGran_canon _ _ _ ht
      · exact fun _ hw => ⟨Store.setList_wf _ _ hw.1, hw.2, hw.3⟩
      · exact fun _ hk => ⟨Store.setList_wf _ _ hk.1, hk.2, hk.3⟩
    · dsimp only
      apply State.destGran_canon
      · repeat' first | exact ht | exact State.copyEvent_canon _ _ _ _ ht | split
      · exact fun _ hw => Workgroup.lsWritten_canon _ _ hw
      · exact fun _ hk => Core.bufWritten_canon _ _ hk

theorem State.copyArrive_canon {s : State} (id : Nat) (hC : s.Canon) :
    (State.copyArrive s id).Canon := by
  unfold State.copyArrive
  repeat' first | (with_reducible first | assumption | apply State.barChange_canon | apply State.futureDone_canon | apply State.copyMove_canon | apply State.Canon.allWgs | apply State.Canon.allCores) | dsimp only | split | (simp only [State.canon_lit]; refine State.CanonLit.of _ ?_ ?_ ?_)

theorem execCopyArrival_canon (id : Nat) {s : State} (hC : s.Canon) :
    Out.Canon (execCopyArrival id s) := by
  unfold execCopyArrival
  repeat' first | (with_reducible first | assumption | apply State.copyArrive_canon | apply Out.canon_next) | intro _ | dsimp only | split

theorem execSeal_canon (o : Op) {s : State} (hC : s.Canon) :
    Out.Canon (execSeal o s) := by
  unfold execSeal
  repeat' first | (with_reducible first | assumption | apply State.modGroup_canon | apply State.modSplit_canon | apply State.done_canon | apply splitScope_canon | apply State.Canon.allWgs | apply State.Canon.allCores) | intro _ | dsimp only | (simp only [State.canon_lit]; refine State.CanonLit.of _ ?_ ?_ ?_) | split

theorem execWaitb_canon (o : Op) {s : State} (hC : s.Canon) :
    Out.Canon (execWaitb o s) := by
  unfold execWaitb
  repeat' first | (with_reducible first | assumption | apply State.done_canon | apply State.stall_canon | apply State.raiseAll_canon | apply splitScope_canon) | intro _ | dsimp only | split

end Sys2Proof.Machine
end

