-- ==== Sys2Proof/Laws/CanonUnits.lean ====
section
/-! SUPPORT. The canonical form of every memory is kept by the matrix engine, counters, system registers and tasks. -/
namespace Sys2Proof.Machine

theorem State.askPreempt_canon {s : State} (wg : Nat) (p : Preempt) (hC : s.Canon) :
    (State.askPreempt s wg p).Canon := by
  unfold State.askPreempt
  repeat' first | (with_reducible first | assumption | apply State.Canon.allWgs | apply State.Canon.allCores | apply State.modWg_canon) | (refine Workgroup.Canon.lit _ ?_; first | assumption | exact State.Canon.wgOf (by assumption) _ | exact Table.All.of_get (State.Canon.wgs (by assumption)) (by assumption)) | intro _ | split | dsimp only | (simp only [State.canon_lit]; refine State.CanonLit.of _ ?_ ?_ ?_) | (rename_i hx; exact ⟨hx.1, hx.2, hx.3⟩)

theorem State.evacuate_canon  (ws : List (Nat × Workgroup)) : ∀ (addr : Nat) {s : State}, s.Canon → (s.evacuate  addr ws).Canon := by
  induction ws with
  | nil => intro _ _ h; exact h
  | cons a ws ih =>
    intro addr s h
    unfold State.evacuate
    repeat' (with_reducible first | assumption | apply ih | apply State.askPreempt_canon)

theorem State.retireCore_canon {s : State} (core addr : Nat) (hC : s.Canon) :
    (State.retireCore s core addr).Canon := by
  unfold State.retireCore
  repeat' first | (with_reducible first | assumption | apply State.evacuate_canon | apply State.logSet_canon | apply State.modCore_canon | apply State.Canon.allWgs | apply State.Canon.allCores) | (rename_i hx; exact ⟨hx.1, hx.2, hx.3⟩) | intro _ | dsimp only | split | (simp only [State.canon_lit]; refine State.CanonLit.of _ ?_ ?_ ?_)

theorem State.matAdd_canon {s : State} (i : Iss) (m : MatOp) (hC : s.Canon) :
    (State.matAdd s i m).Canon := by
  unfold State.matAdd
  repeat' first | (with_reducible first | assumption | apply State.modGroup_canon | apply State.Canon.allWgs | apply State.Canon.allCores) | dsimp only | (simp only [State.canon_lit]; refine State.CanonLit.of _ ?_ ?_ ?_) | split

theorem mmaIssue_canon (z : Bool) (x : Op) {s : State} (hC : s.Canon) :
    Out.Canon (mmaIssue z x s) := by
  unfold mmaIssue
  repeat' first | (with_reducible first | assumption | apply foldl_canon | apply foldl_canon | apply State.modGroup_canon | apply issue_canon | apply State.done_canon | apply State.raise_canon | apply State.futureTake_canon | apply State.matAdd_canon) | intro _ | dsimp only | split

theorem execMma_canon (o : Op) {s : State} (hC : s.Canon) :
    Out.Canon (execMma o s) := by
  unfold execMma
  repeat' first | (with_reducible first | assumption | apply mmaIssue_canon) | intro _ | dsimp only | split

theorem execMmaz_canon (o : Op) {s : State} (hC : s.Canon) :
    Out.Canon (execMmaz o s) := by
  unfold execMmaz
  repeat' first | (with_reducible first | assumption | apply mmaIssue_canon) | intro _ | dsimp only | split

theorem State.matMark_canon {s : State} (g : Group) (w : Workgroup) (src : MatSrc) (off : Nat) (hC : s.Canon) :
    (State.matMark s g w src off).Canon := by
  unfold State.matMark
  repeat' first | (with_reducible first | assumption | apply State.modCore_canon | apply State.modWg_canon | apply Workgroup.lsPoisonGran_canon | apply Core.bufPoisonGran_canon) | intro _ | dsimp only | split | (rename_i hx; exact ⟨hx.1, hx.2, hx.3⟩)

theorem State.mmaPoison_canon {s : State} (key : Nat) (g : Group) (m : MatOp) (ls : List Nat) (hC : s.Canon) :
    (State.mmaPoison s key g m ls).Canon := by
  unfold State.mmaPoison
  repeat' first | (with_reducible first | assumption | apply State.modGroup_canon | apply State.dataEvent_canon | apply State.matMark_canon | apply foldl_canon) | intro _ | dsimp only | split

theorem State.matDone_canon {s : State} (key id : Nat) (hC : s.Canon) :
    (State.matDone s key id).Canon := by
  unfold State.matDone
  repeat' first | (with_reducible first | assumption | apply State.drained_canon | apply State.Canon.allWgs | apply State.Canon.allCores | apply State.modGroup_canon | apply State.futureDone_canon) | dsimp only | (simp only [State.canon_lit]; refine State.CanonLit.of _ ?_ ?_ ?_) | split

theorem State.mmaPerform_canon {s : State} (key : Nat) (g : Group) (m : MatOp) (hC : s.Canon) :
    (State.mmaPerform s key g m).Canon := by
  unfold State.mmaPerform
  repeat' first | (with_reducible first | assumption | apply State.Canon.allWgs | apply State.Canon.allCores | apply State.setGroup_canon | apply State.mmaPoison_canon | apply State.matDone_canon) | dsimp only | (simp only [State.canon_lit]; refine State.CanonLit.of _ ?_ ?_ ?_) | split

theorem State.subTransient_canon {s : State} (core sub : Nat) (hC : s.Canon) :
    (State.subTransient s core sub).Canon := by
  unfold State.subTransient
  repeat' first | (with_reducible first | assumption | apply State.Canon.allWgs | apply State.Canon.allCores | apply State.logSet_canon | apply State.modCore_canon) | (rename_i hx; exact ⟨hx.1, hx.2, hx.3⟩) | intro _ | dsimp only | (simp only [State.canon_lit]; refine State.CanonLit.of _ ?_ ?_ ?_) | split

theorem State.subFence_canon {s : State} (core sub addr : Nat) (hC : s.Canon) :
    (State.subFence s core sub addr).Canon := by
  unfold State.subFence
  repeat' first | (with_reducible first | assumption | apply State.logSet_canon | apply State.modCore_canon | apply State.retireCore_canon | apply State.Canon.allWgs | apply State.Canon.allCores) | (rename_i hx; exact ⟨hx.1, hx.2, hx.3⟩) | intro _ | dsimp only | split | (simp only [State.canon_lit]; refine State.CanonLit.of _ ?_ ?_ ?_)

theorem State.patternFails_canon {s : State} (core sub : Nat) (hC : s.Canon) :
    (State.patternFails s core sub).Canon := by
  unfold State.patternFails
  repeat' first | (with_reducible first | assumption | apply State.subFence_canon | apply State.Canon.allWgs | apply State.Canon.allCores) | dsimp only | split | (simp only [State.canon_lit]; refine State.CanonLit.of _ ?_ ?_ ?_)

theorem State.matFails_canon {s : State} (key : Nat) (m : MatOp) (sub : Nat) (hC : s.Canon) :
    (State.matFails s key m sub).Canon := by
  unfold State.matFails
  repeat' first | (with_reducible first | assumption | apply State.modCore_canon | apply State.modGroup_canon | apply State.Canon.allWgs | apply State.Canon.allCores) | (rename_i hx; exact ⟨hx.1, hx.2, hx.3⟩) | dsimp only | split | (simp only [State.canon_lit]; refine State.CanonLit.of _ ?_ ?_ ?_) | intro _

theorem State.matComplete_canon {s : State} (key id sub : Nat) (res : Residue) (hC : s.Canon) :
    (State.matComplete s key id sub res).Canon := by
  unfold State.matComplete
  repeat' first | (with_reducible first | assumption | apply State.matFails_canon | apply State.patternFails_canon | apply State.Canon.allWgs | apply State.Canon.allCores | apply State.modCore_canon | apply State.mmaPerform_canon | apply State.subTransient_canon | apply State.subFence_canon) | (rename_i hx; exact ⟨hx.1, hx.2, hx.3⟩) | intro _ | dsimp only | split | dsimp only | (simp only [State.canon_lit]; refine State.CanonLit.of _ ?_ ?_ ?_)

theorem execMatrixOperationCompletion_canon (key id sub : Nat) (res : Residue) {s : State} (hC : s.Canon) :
    Out.Canon (execMatrixOperationCompletion key id sub res s) := by
  unfold execMatrixOperationCompletion
  repeat' first | (with_reducible first | assumption | apply State.matComplete_canon | apply Out.canon_next) | intro _ | dsimp only | split

theorem execSubarraySelfTest_canon (core sub : Nat) (passes : Bool) {s : State} (hC : s.Canon) :
    Out.Canon (execSubarraySelfTest core sub passes s) := by
  unfold execSubarraySelfTest
  repeat' first | (with_reducible first | assumption | apply State.patternFails_canon | apply State.Canon.allWgs | apply State.Canon.allCores | apply State.modCore_canon | apply State.subFence_canon | apply Out.canon_next) | (rename_i hx; exact ⟨hx.1, hx.2, hx.3⟩) | intro _ | dsimp only | split | dsimp only | (simp only [State.canon_lit]; refine State.CanonLit.of _ ?_ ?_ ?_)

theorem State.drainEvent_canon {s : State} (key : Nat) (g : Group) (ws : List LaneWr) (gr : Nat) (hC : s.Canon) :
    (State.drainEvent s key g ws gr).Canon := by
  unfold State.drainEvent
  repeat' first | (with_reducible first | assumption | apply State.dataEvent_canon) | dsimp only | split

theorem State.drainLs_canon {s : State} (key : Nat) (g : Group) (m : MatOp) (hC : s.Canon) :
    (State.drainLs s key g m).Canon := by
  unfold State.drainLs
  repeat' first | (with_reducible first | apply foldl_wg_canon | assumption | apply State.drainEvent_canon | apply State.Canon.allWgs | apply State.Canon.allCores | apply State.modGroup_canon | apply State.modWg_canon | apply State.dataEvent_canon | apply Workgroup.lsPoisonGran_canon | apply Workgroup.lsWritten_canon | apply foldl_canon) | (rename_i hx; exact ⟨Store.setList_wf _ _ hx.1, hx.2, hx.3⟩) | intro _ | dsimp only | split | dsimp only | (simp only [State.canon_lit]; refine State.CanonLit.of _ ?_ ?_ ?_)

theorem State.fillLs_canon {s : State} (key : Nat) (g : Group) (m : MatOp) (hC : s.Canon) :
    (State.fillLs s key g m).Canon := by
  unfold State.fillLs
  repeat' first | (with_reducible first | assumption | apply State.modGroup_canon | apply State.dataEvent_canon | apply State.matMark_canon | apply foldl_canon) | intro _ | dsimp only | split

theorem State.drainPoint_canon {s : State} (key : Nat) (g : Group) (m : MatOp) (hC : s.Canon) :
    (State.drainPoint s key g m).1.Canon := by
  unfold State.drainPoint
  repeat' first | (with_reducible first | assumption | apply State.Canon.allWgs | apply State.Canon.allCores | apply State.modGroup_canon | apply State.faultPoint_canon) | dsimp only | split | dsimp only | (simp only [State.canon_lit]; refine State.CanonLit.of _ ?_ ?_ ?_)

theorem State.matTransfer_canon {s : State} (key id : Nat) (hC : s.Canon) :
    (State.matTransfer s key id).Canon := by
  unfold State.matTransfer
  repeat' first | (with_reducible first | assumption | apply State.setGroup_canon | apply State.modGroup_canon | apply State.matDone_canon | apply State.drainLs_canon | apply State.fillLs_canon | apply State.drainPoint_canon) | dsimp only | split

theorem execAccumulatorTransferCompletion_canon (key id : Nat) {s : State} (hC : s.Canon) :
    Out.Canon (execAccumulatorTransferCompletion key id s) := by
  unfold execAccumulatorTransferCompletion
  repeat' first | (with_reducible first | assumption | apply State.matTransfer_canon | apply Out.canon_next) | intro _ | dsimp only | split

theorem execMdrain_canon (o : Op) {s : State} (hC : s.Canon) :
    Out.Canon (execMdrain o s) := by
  unfold execMdrain
  repeat' first | (with_reducible first | assumption | apply State.Canon.allWgs | apply State.Canon.allCores | apply State.raiseAll_canon | apply splitScope_canon | apply State.pending_canon | apply State.futureTake_canon | apply State.matAdd_canon) | intro _ | dsimp only | split | dsimp only | (simp only [State.canon_lit]; refine State.CanonLit.of _ ?_ ?_ ?_)

theorem execMfill_canon (o : Op) {s : State} (hC : s.Canon) :
    Out.Canon (execMfill o s) := by
  unfold execMfill
  repeat' first | (with_reducible first | assumption | apply foldl_canon | apply foldl_canon | apply State.modGroup_canon | apply State.done_canon | apply State.raiseAll_canon | apply splitScope_canon | apply State.matAdd_canon) | intro _ | dsimp only | split

theorem execMselfStat_canon (o : Op) {s : State} (hC : s.Canon) :
    Out.Canon (execMselfStat o s) := by
  unfold execMselfStat
  repeat' first | (with_reducible first | assumption | apply State.modSplit_canon | apply State.done_canon | apply splitScope_canon) | intro _ | dsimp only | split

theorem State.selfTests_canon (core : Nat) (ks : List Nat) : ∀ {s : State}, s.Canon → (s.selfTests core ks).Canon := by
  induction ks with
  | nil => intro _ h; exact h
  | cons a ks ih =>
    intro s h
    unfold State.selfTests
    repeat' first | (with_reducible first | assumption | apply ih | apply State.patternFails_canon | apply State.modCore_canon) | (rename_i hx; exact ⟨hx.1, hx.2, hx.3⟩) | intro _ | dsimp only | split | (simp only [State.canon_lit]; refine State.CanonLit.of _ ?_ (State.Canon.allWgs ?_) (State.Canon.allCores ?_))

theorem execMselfRun_canon (o : Op) {s : State} (hC : s.Canon) :
    Out.Canon (execMselfRun o s) := by
  unfold execMselfRun
  repeat' first | (with_reducible first | assumption | apply State.modSplit_canon | apply State.done_canon | apply State.stall_canon | apply State.raiseAll_canon | apply splitScope_canon | apply State.selfTests_canon) | intro _ | dsimp only | split

theorem execMselfInj_canon (o : Op) {s : State} (hC : s.Canon) :
    Out.Canon (execMselfInj o s) := by
  unfold execMselfInj
  repeat' first | (with_reducible first | assumption | apply State.Canon.allWgs | apply State.Canon.allCores | apply State.modCore_canon | apply State.done_canon | apply State.raiseAll_canon | apply splitScope_canon) | (rename_i hx; exact ⟨hx.1, hx.2, hx.3⟩) | intro _ | dsimp only | split | dsimp only | (simp only [State.canon_lit]; refine State.CanonLit.of _ ?_ ?_ ?_)

theorem execBinit_canon (o : Op) {s : State} (hC : s.Canon) :
    Out.Canon (execBinit o s) := by
  unfold execBinit
  repeat' first | (with_reducible first | assumption | apply State.barClose_canon | apply State.done_canon | apply State.barSet_canon | apply State.raiseAll_canon | apply splitScope_canon) | intro _ | dsimp only | split

theorem State.barArrive_canon {s : State} (i : Iss) (n : Nat) (hC : s.Canon) :
    (State.barArrive s i n).Canon := by
  unfold State.barArrive
  repeat' first | (with_reducible first | assumption | apply State.Canon.allWgs | apply State.Canon.allCores | apply State.modSplit_canon | apply State.barChange_canon | apply State.barSet_canon) | dsimp only | split | dsimp only | (simp only [State.canon_lit]; refine State.CanonLit.of _ ?_ ?_ ?_)

theorem State.barWait_canon {s : State} (i : Iss) (o : Op) (n : Nat) (p : BitVec 16) (hC : s.Canon) :
    (State.barWait s i o n p).Canon := by
  unfold State.barWait
  repeat' first | (with_reducible first | assumption | apply State.Canon.allWgs | apply State.Canon.allCores | apply State.modSplit_canon | apply State.done_canon) | dsimp only | split | dsimp only | (simp only [State.canon_lit]; refine State.CanonLit.of _ ?_ ?_ ?_)

theorem execBarv_canon (o : Op) {s : State} (hC : s.Canon) :
    Out.Canon (execBarv o s) := by
  unfold execBarv
  repeat' first | (with_reducible first | assumption | apply State.done_canon | apply State.raiseAll_canon | apply splitScope_canon | apply State.barArrive_canon) | intro _ | dsimp only | split

theorem execBarw_canon (o : Op) {s : State} (hC : s.Canon) :
    Out.Canon (execBarw o s) := by
  unfold execBarw
  repeat' first | (with_reducible first | assumption | apply State.raiseAll_canon | apply splitScope_canon | apply State.barArrive_canon | apply State.barWait_canon) | intro _ | dsimp only | split

theorem execBwait_canon (o : Op) {s : State} (hC : s.Canon) :
    Out.Canon (execBwait o s) := by
  unfold execBwait
  repeat' first | (with_reducible first | assumption | apply splitScope_canon | apply State.barWait_canon) | intro _ | dsimp only | split

theorem execBexp_canon (o : Op) {s : State} (hC : s.Canon) :
    Out.Canon (execBexp o s) := by
  unfold execBexp
  repeat' first | (with_reducible first | assumption | apply State.barClose_canon | apply State.Canon.allWgs | apply State.Canon.allCores | apply State.done_canon | apply State.barSet_canon | apply State.raiseAll_canon | apply splitScope_canon) | intro _ | dsimp only | split | dsimp only | (simp only [State.canon_lit]; refine State.CanonLit.of _ ?_ ?_ ?_)

theorem execBread_canon (o : Op) {s : State} (hC : s.Canon) :
    Out.Canon (execBread o s) := by
  unfold execBread
  repeat' first | (with_reducible first | assumption | apply State.barClose_canon | apply State.modSplit_canon | apply State.done_canon | apply splitScope_canon) | intro _ | dsimp only | split

theorem execPmread_canon (o : Op) {s : State} (hC : s.Canon) :
    Out.Canon (execPmread o s) := by
  unfold execPmread
  repeat' first | (with_reducible first | assumption | apply State.barClose_canon | apply State.modSplit_canon | apply State.done_canon | apply State.raiseAll_canon | apply splitScope_canon) | intro _ | dsimp only | split

theorem execCntrd_canon (o : Op) {s : State} (hC : s.Canon) :
    Out.Canon (execCntrd o s) := by
  unfold execCntrd
  repeat' first | (with_reducible first | assumption | apply State.modSplit_canon | apply State.done_canon | apply State.raiseAll_canon | apply splitScope_canon) | intro _ | split | dsimp only

theorem State.setCntcfg_canon {s : State} (v : Nat) (hC : s.Canon) :
    (State.setCntcfg s v).Canon := by
  unfold State.setCntcfg
  repeat' first | (with_reducible first | assumption | apply State.Canon.allWgs | apply State.Canon.allCores) | split | (simp only [State.canon_lit]; refine State.CanonLit.of _ ?_ ?_ ?_) | dsimp only

theorem cntcfgRun_canon (o : Op) {s : State} (hC : s.Canon) :
    Out.Canon (cntcfgRun o s) := by
  unfold cntcfgRun
  repeat' first | (with_reducible first | assumption | apply State.done_canon | apply State.raiseAll_canon | apply splitScope_canon | apply State.setCntcfg_canon) | intro _ | split | dsimp only

theorem execCntcfg_canon (o : Op) {s : State} (hC : s.Canon) :
    Out.Canon (execCntcfg o s) := by
  unfold execCntcfg
  repeat' first | (with_reducible first | assumption | apply cntcfgRun_canon) | intro _ | dsimp only | split

theorem execCntcfgClear_canon (o : Op) {s : State} (hC : s.Canon) :
    Out.Canon (execCntcfgClear o s) := by
  unfold execCntcfgClear
  repeat' first | (with_reducible first | assumption | apply cntcfgRun_canon) | intro _ | dsimp only | split

theorem State.dbarAt_canon {s : State} (i : Iss) (acc : Acc) (a : Nat) (hC : s.Canon) :
    (State.dbarAt s i acc a).1.Canon := by
  unfold State.dbarAt
  repeat' first | (with_reducible first | assumption | refine fst_canon (by assumption) ?_ | apply State.markRead_canon | apply State.gx_canon) | split | dsimp only

theorem State.lagDetect_canon {s : State} (launch : Nat) (b : DevBar) (hC : s.Canon) :
    (State.lagDetect s launch b).Canon := by
  unfold State.lagDetect
  repeat' first | (with_reducible first | assumption | apply State.Canon.allWgs | apply State.Canon.allCores | apply State.modLaunch_canon) | dsimp only | (simp only [State.canon_lit]; refine State.CanonLit.of _ ?_ ?_ ?_) | split

theorem execDbarv_canon (o : Op) {s : State} (hC : s.Canon) :
    Out.Canon (execDbarv o s) := by
  unfold execDbarv
  repeat' first | (with_reducible first | assumption | refine fst_canon (by assumption) ?_ | apply State.wr_canon | apply State.modSplit_canon | apply State.done_canon | apply State.stall_canon | apply State.raiseAll_canon | apply splitScope_canon | apply State.levelTouch_canon | apply State.dbarAt_canon | apply State.lagDetect_canon) | intro _ | dsimp only | split

theorem execDbwait_canon (o : Op) {s : State} (hC : s.Canon) :
    Out.Canon (execDbwait o s) := by
  unfold execDbwait
  repeat' first | (with_reducible first | assumption | apply State.Canon.allWgs | apply State.Canon.allCores | refine fst_canon (by assumption) ?_ | apply State.modSplit_canon | apply State.done_canon | apply State.stall_canon | apply State.raiseAll_canon | apply splitScope_canon | apply State.levelTouch_canon | apply State.dbarAt_canon) | intro _ | dsimp only | split | dsimp only | (simp only [State.canon_lit]; refine State.CanonLit.of _ ?_ ?_ ?_)

theorem State.dbwaitReread_canon {s : State} (w : Who) (hC : s.Canon) :
    (State.dbwaitReread s w).Canon := by
  unfold State.dbwaitReread
  repeat' first | (with_reducible first | assumption | refine fst_canon (by assumption) ?_ | apply State.modSplit_canon | apply State.raiseAll_canon | apply State.levelTouch_canon | apply State.dbarAt_canon) | dsimp only | split

theorem execDbwaitReread_canon (key split : Nat) {s : State} (hC : s.Canon) :
    Out.Canon (execDbwaitReread key split s) := by
  unfold execDbwaitReread
  repeat' first | (with_reducible first | assumption | apply State.dbwaitReread_canon | apply Out.canon_next) | intro _ | dsimp only | split

theorem State.waitSettled_canon {s : State} (w : Who) (hC : s.Canon) :
    (State.waitSettled s w).Canon := by
  unfold State.waitSettled
  repeat' first | (with_reducible first | assumption | apply State.barClose_canon) | dsimp only | split

theorem State.bartimeout_canon {s : State} (w : Who) (hC : s.Canon) :
    (State.bartimeout s w).Canon := by
  unfold State.bartimeout
  repeat' first | (with_reducible first | assumption | apply State.waitSettled_canon | apply State.Canon.allWgs | apply State.Canon.allCores | apply State.modSplit_canon | apply State.deliver_canon) | split | dsimp only | (simp only [State.canon_lit]; refine State.CanonLit.of _ ?_ ?_ ?_)

theorem execBartimeout_canon (key split : Nat) {s : State} (hC : s.Canon) :
    Out.Canon (execBartimeout key split s) := by
  unfold execBartimeout
  repeat' first | (with_reducible first | assumption | apply State.bartimeout_canon | apply Out.canon_next) | intro _ | dsimp only | split

theorem State.gatherTimeout_canon {s : State} (key : Nat) (pc : BitVec 50) (hC : s.Canon) :
    (State.gatherTimeout s key pc).Canon := by
  unfold State.gatherTimeout
  repeat' first | (with_reducible first | assumption | refine fst_canon (by assumption) ?_ | apply State.reach_canon | apply State.bartimeout_canon | apply foldl_canon | apply State.gather_canon | apply foldl_canon | apply State.Canon.allWgs | apply State.Canon.allCores | apply State.modGroup_canon | apply State.deliver_canon) | dsimp only | split | dsimp only | (simp only [State.canon_lit]; refine State.CanonLit.of _ ?_ ?_ ?_) | intro _

theorem execGatherTimeout_canon (key : Nat) (pc : BitVec 50) {s : State} (hC : s.Canon) :
    Out.Canon (execGatherTimeout key pc s) := by
  unfold execGatherTimeout
  repeat' first | (with_reducible first | assumption | apply State.gatherTimeout_canon | apply Out.canon_next) | intro _ | dsimp only | split

theorem State.throttleEpoch_canon {s : State} (core sched : Nat) (hC : s.Canon) :
    (State.throttleEpoch s core sched).Canon := by
  unfold State.throttleEpoch
  repeat' first | (with_reducible first | assumption | apply foldl_canon | apply foldl_canon | apply State.Canon.allWgs | apply State.Canon.allCores | apply State.modCore_canon) | exact Core.Canon.lit _ (by assumption) | intro _ | dsimp only | split | dsimp only | (simp only [State.canon_lit]; refine State.CanonLit.of _ ?_ ?_ ?_) | (rename_i hx; exact ⟨hx.1, hx.2, hx.3⟩)

theorem execThrottleEpoch_canon (core sched : Nat) {s : State} (hC : s.Canon) :
    Out.Canon (execThrottleEpoch core sched s) := by
  unfold execThrottleEpoch
  repeat' first | (with_reducible first | assumption | apply State.throttleEpoch_canon | apply Out.canon_next) | intro _ | dsimp only | split

theorem execFmtset_canon (o : Op) {s : State} (hC : s.Canon) :
    Out.Canon (execFmtset o s) := by
  unfold execFmtset
  repeat' first | (with_reducible first | assumption | apply State.Canon.allWgs | apply State.Canon.allCores | apply State.modSplit_canon | apply State.done_canon | apply State.raiseAll_canon | apply splitScope_canon) | intro _ | split | dsimp only | (simp only [State.canon_lit]; refine State.CanonLit.of _ ?_ ?_ ?_)

theorem execFmtget_canon (o : Op) {s : State} (hC : s.Canon) :
    Out.Canon (execFmtget o s) := by
  unfold execFmtget
  repeat' first | (with_reducible first | assumption | apply State.modSplit_canon | apply State.done_canon | apply splitScope_canon) | intro _ | dsimp only | split

theorem State.clockRead_canon {s : State} (i : Iss) (v : Nat) (hC : s.Canon) :
    (State.clockRead s i v).Canon := by
  unfold State.clockRead
  repeat' first | (with_reducible first | assumption | apply State.modSplit_canon | apply State.Canon.allWgs | apply State.Canon.allCores) | dsimp only | (simp only [State.canon_lit]; refine State.CanonLit.of _ ?_ ?_ ?_) | split

theorem State.sysWriteD_canon {s : State} (i : Iss) (x : Op) (ls : List Nat) (v : Nat → Nat) (hC : s.Canon) :
    (State.sysWriteD s i x ls v).Canon := by
  unfold State.sysWriteD
  repeat' first | (with_reducible first | assumption | apply State.modGroup_canon | apply State.modSplit_canon) | split | dsimp only

theorem execSysrd_canon (o : Op) {s : State} (hC : s.Canon) :
    Out.Canon (execSysrd o s) := by
  unfold execSysrd
  repeat' first | (with_reducible first | assumption | apply issue_canon | apply State.done_canon | apply State.stall_canon | apply State.raise_canon | apply State.clockRead_canon | apply State.sysWriteD_canon) | intro _ | dsimp only | split

theorem sysWrite_canon (o : Op) {s : State} (f : Iss → SysReg → Nat → Option State) (hC : s.Canon) (hf : ∀ x0 x1 x2, OptCanon (f x0 x1 x2)) :
    Out.Canon (sysWrite o s f) := by
  unfold sysWrite
  repeat' first | (with_reducible first | assumption | apply hf | apply State.done_canon | apply State.raiseAll_canon | apply splitScope_canon | refine OptCanon.of (by assumption) ?_) | intro _ | split | dsimp only

theorem State.setGroupReg_canon {s : State} (i : Iss) (r : SysReg) (v : Nat) (hC : s.Canon) :
    OptCanon (State.setGroupReg s i r v) := by
  unfold State.setGroupReg
  repeat' first | (with_reducible first | assumption | apply State.Canon.allWgs | apply State.Canon.allCores | apply State.modGroup_canon | apply State.modSplit_canon | apply optCanon_none | apply optCanon_some) | dsimp only | split | dsimp only | (simp only [State.canon_lit]; refine State.CanonLit.of _ ?_ ?_ ?_)

theorem Core.askCarve_canon {k : Core} (l1 : Nat) (hC : k.Canon) :
    (Core.askCarve k l1).Canon := by
  unfold Core.askCarve
  repeat' exact ⟨hC.1, hC.2, hC.3⟩

theorem State.setCarve_canon {s : State} (i : Iss) (v : Nat) (hC : s.Canon) :
    OptCanon (State.setCarve s i v) := by
  unfold State.setCarve
  repeat' first | (with_reducible first | assumption | apply State.modCore_canon | apply Core.askCarve_canon | apply optCanon_none | apply optCanon_some) | intro _ | dsimp only | split | (rename_i hx; exact ⟨hx.1, hx.2, hx.3⟩)

theorem Core.setThrottle_canon {k : Core} (v : Nat) (hC : k.Canon) :
    OptCore (Core.setThrottle k v) := by
  unfold Core.setThrottle
  repeat' first | exact ⟨hC.1, hC.2, hC.3⟩ | apply optCore_none | apply optCore_some | split | dsimp only

theorem Core.setCarvelim_canon {k : Core} (v : Nat) (hC : k.Canon) : OptCore (k.setCarvelim v) := by
  unfold Core.setCarvelim
  dsimp only
  split
  · exact optCore_none
  · apply optCore_some
    split
    · exact ⟨hC.1, hC.2, hC.3⟩
    · split <;> exact ⟨hC.1, hC.2, hC.3⟩

theorem State.setCtxid_canon {s : State} (core v : Nat) (hC : s.Canon) :
    OptCanon (State.setCtxid s core v) := by
  unfold State.setCtxid
  repeat' first | (with_reducible first | assumption | apply State.Canon.allWgs | apply State.Canon.allCores | apply State.modCore_canon | apply optCanon_none | apply optCanon_some) | (rename_i hx; exact ⟨hx.1, hx.2, hx.3⟩) | intro _ | dsimp only | split | dsimp only | (simp only [State.canon_lit]; refine State.CanonLit.of _ ?_ ?_ ?_)

theorem execSyswr_canon (o : Op) {s : State} (hC : s.Canon) :
    Out.Canon (execSyswr o s) := by
  unfold execSyswr
  repeat' first | (with_reducible first | assumption | apply State.modCore_canon | apply sysWrite_canon | apply State.setGroupReg_canon | apply State.setCarve_canon | apply Core.setThrottle_canon | apply Core.setCarvelim_canon | apply State.setCtxid_canon | apply optCore_map | apply State.Canon.core) | intro _ | split | (rename_i hx; exact ⟨hx.1, hx.2, hx.3⟩) | dsimp only

theorem execCarveWrite_canon (o : Op) {s : State} (hC : s.Canon) :
    Out.Canon (execCarveWrite o s) := by
  unfold execCarveWrite
  repeat' first | (with_reducible first | assumption | apply sysWrite_canon | apply State.setGroupReg_canon | apply State.setCarve_canon) | intro _ | split | dsimp only

theorem execThrottleWrite_canon (o : Op) {s : State} (hC : s.Canon) :
    Out.Canon (execThrottleWrite o s) := by
  unfold execThrottleWrite
  repeat' first | (with_reducible first | assumption | apply State.modCore_canon | apply sysWrite_canon | apply State.setGroupReg_canon | apply Core.setThrottle_canon | apply optCore_map | apply State.Canon.core) | intro _ | split | (rename_i hx; exact ⟨hx.1, hx.2, hx.3⟩) | dsimp only

theorem execCarvelimWrite_canon (o : Op) {s : State} (hC : s.Canon) :
    Out.Canon (execCarvelimWrite o s) := by
  unfold execCarvelimWrite
  repeat' first | (with_reducible first | assumption | apply State.modCore_canon | apply sysWrite_canon | apply State.setGroupReg_canon | apply Core.setCarvelim_canon | apply optCore_map | apply State.Canon.core) | intro _ | split | (rename_i hx; exact ⟨hx.1, hx.2, hx.3⟩) | dsimp only

theorem execCtxidWrite_canon (o : Op) {s : State} (hC : s.Canon) :
    Out.Canon (execCtxidWrite o s) := by
  unfold execCtxidWrite
  repeat' first | (with_reducible first | assumption | apply sysWrite_canon | apply State.setGroupReg_canon | apply State.setCtxid_canon) | intro _ | split | dsimp only

theorem State.takeTrap_canon {s : State} (i : Iss) (c : Cause) (pc : BitVec 50) (aux : Nat) (hC : s.Canon) :
    (State.takeTrap s i c pc aux).Canon := by
  unfold State.takeTrap
  repeat' first | (with_reducible first | assumption | apply State.stall_canon | apply State.deliver_canon) | split | dsimp only

theorem execTrap_canon (o : Op) {s : State} (hC : s.Canon) :
    Out.Canon (execTrap o s) := by
  unfold execTrap
  repeat' first | (with_reducible first | assumption | apply splitScope_canon | apply State.takeTrap_canon) | intro _ | dsimp only | split

theorem execBrk_canon (o : Op) {s : State} (hC : s.Canon) :
    Out.Canon (execBrk o s) := by
  unfold execBrk
  repeat' first | (with_reducible first | assumption | apply splitScope_canon | apply State.takeTrap_canon) | intro _ | dsimp only | split

theorem execRte_canon (o : Op) {s : State} (hC : s.Canon) :
    Out.Canon (execRte o s) := by
  unfold execRte
  repeat' first | (with_reducible first | assumption | apply State.rte_canon | apply State.raiseAll_canon | apply splitScope_canon) | intro _ | split | dsimp only

theorem execClk_canon (o : Op) {s : State} (hC : s.Canon) :
    Out.Canon (execClk o s) := by
  unfold execClk
  repeat' first | (with_reducible first | assumption | apply State.modSplit_canon | apply State.done_canon | apply State.stall_canon | apply splitScope_canon | apply State.clockRead_canon) | intro _ | dsimp only | split

theorem execExmset_canon (o : Op) {s : State} (hC : s.Canon) :
    Out.Canon (execExmset o s) := by
  unfold execExmset
  repeat' first | (with_reducible first | assumption | apply State.Canon.allWgs | apply State.Canon.allCores | apply State.modGroup_canon | apply State.done_canon | apply splitScope_canon) | intro _ | dsimp only | (simp only [State.canon_lit]; refine State.CanonLit.of _ ?_ ?_ ?_) | split

theorem execExmget_canon (o : Op) {s : State} (hC : s.Canon) :
    Out.Canon (execExmget o s) := by
  unfold execExmget
  repeat' first | (with_reducible first | assumption | apply State.modSplit_canon | apply State.done_canon | apply splitScope_canon) | intro _ | dsimp only | split

theorem tlbinv_canon (o : Op) {s : State} (level : Nat) (bad : Split → Bool) (ctxs : Iss → BitVec 16 → Bool) (p : Iss → BitVec 16 → Nat → Nat → Bool) (hC : s.Canon) :
    Out.Canon (tlbinv o s level bad ctxs p) := by
  unfold tlbinv
  repeat' first | (with_reducible first | assumption | apply State.dropTlb_canon | apply State.done_canon | apply State.stall_canon | apply State.raiseAll_canon | apply splitScope_canon) | intro _ | split | dsimp only

theorem execTlbinvVa_canon (o : Op) {s : State} (hC : s.Canon) :
    Out.Canon (execTlbinvVa o s) := by
  unfold execTlbinvVa
  repeat' first | (with_reducible first | assumption | apply tlbinv_canon) | intro _ | dsimp only | split

theorem execTlbinvRange_canon (o : Op) {s : State} (hC : s.Canon) :
    Out.Canon (execTlbinvRange o s) := by
  unfold execTlbinvRange
  repeat' first | (with_reducible first | assumption | apply tlbinv_canon) | intro _ | dsimp only | split

theorem execTlbinvCtx_canon (o : Op) {s : State} (hC : s.Canon) :
    Out.Canon (execTlbinvCtx o s) := by
  unfold execTlbinvCtx
  repeat' first | (with_reducible first | assumption | apply tlbinv_canon) | intro _ | dsimp only | split

theorem execTlbinvId_canon (o : Op) {s : State} (hC : s.Canon) :
    Out.Canon (execTlbinvId o s) := by
  unfold execTlbinvId
  repeat' first | (with_reducible first | assumption | apply tlbinv_canon) | intro _ | dsimp only | split

theorem State.envAt_canon {s : State} (i : Iss) (a : Nat) (hC : s.Canon) :
    (State.envAt s i a).1.Canon := by
  unfold State.envAt
  repeat' first | (with_reducible first | assumption | refine fst_canon (by assumption) ?_ | apply State.markRead_canon | apply State.gx_canon) | split | dsimp only

theorem State.envOwn_canon {s : State} (e : Env) (launch : Nat) (hC : s.Canon) :
    (State.envOwn s e launch).Canon := by
  unfold State.envOwn
  repeat' first | (with_reducible first | assumption | apply State.Canon.allWgs | apply State.Canon.allCores | apply State.modLaunch_canon | apply State.homeWr_canon) | dsimp only | (simp only [State.canon_lit]; refine State.CanonLit.of _ ?_ ?_ ?_) | split

theorem State.envReady_canon {s : State} (e : Env) (part die launch : Nat) (deadline : DWord) (hC : s.Canon) :
    (State.envReady s e part die launch deadline).Canon := by
  unfold State.envReady
  repeat' first | (with_reducible first | assumption | apply State.enqueue_canon | apply State.envSetState_canon) | dsimp only | split

theorem State.orWait_canon {s : State} (i : Iss) (after : State) (hC : s.Canon) (hafter : after.Canon) : (State.orWait s i after).Canon := by
  unfold State.orWait
  repeat' first | (with_reducible first | assumption | apply State.stall_canon) | split | dsimp only

theorem armTask_canon (o : Op) {s : State} (k : State → Iss → Env → State) (hC : s.Canon) (hk : ∀ x x0 x1, x.Canon → (k x x0 x1).Canon) :
    Out.Canon (armTask o s k) := by
  unfold armTask
  repeat' first | (with_reducible first | assumption | apply State.Canon.allWgs | apply State.Canon.allCores | refine fst_canon (by assumption) ?_ | apply hk | apply State.raiseAll_canon | apply splitScope_canon | apply State.envAt_canon) | intro _ | dsimp only | split | dsimp only | (simp only [State.canon_lit]; refine State.CanonLit.of _ ?_ ?_ ?_)

theorem execTspawn_canon (o : Op) {s : State} (hC : s.Canon) :
    Out.Canon (execTspawn o s) := by
  unfold execTspawn
  repeat' first | (with_reducible first | assumption | apply State.Canon.allWgs | apply State.Canon.allCores | apply State.done_canon | apply State.raiseAll_canon | apply State.envOwn_canon | apply State.envReady_canon | apply State.orWait_canon | apply armTask_canon) | intro _ | dsimp only | split | dsimp only | (simp only [State.canon_lit]; refine State.CanonLit.of _ ?_ ?_ ?_)

theorem execTarm_canon (o : Op) {s : State} (hC : s.Canon) :
    Out.Canon (execTarm o s) := by
  unfold execTarm
  repeat' first | (with_reducible first | assumption | apply State.done_canon | apply State.envSetState_canon | apply State.envOwn_canon | apply State.envReady_canon | apply State.orWait_canon | apply armTask_canon) | intro _ | dsimp only | split

theorem execTdec_canon (o : Op) {s : State} (hC : s.Canon) :
    Out.Canon (execTdec o s) := by
  unfold execTdec
  repeat' first | (with_reducible first | assumption | refine fst_canon (by assumption) ?_ | apply State.done_canon | apply State.tdec_canon | apply State.raiseAll_canon | apply splitScope_canon | apply State.envAt_canon | apply State.orWait_canon) | intro _ | split | dsimp only

theorem endTask_canon (o : Op) {s : State} (k : State → Iss → Env → State) (hC : s.Canon) (hk : ∀ x x0 x1, x.Canon → (k x x0 x1).Canon) :
    Out.Canon (endTask o s k) := by
  unfold endTask
  repeat' first | (with_reducible first | assumption | refine fst_canon (by assumption) ?_ | apply hk | apply State.stall_canon | apply State.retireGroup_canon | apply State.raiseAll_canon | apply splitScope_canon | apply State.envAt_canon | apply State.orWait_canon) | intro _ | split | dsimp only

theorem execTdone_canon (o : Op) {s : State} (hC : s.Canon) :
    Out.Canon (execTdone o s) := by
  unfold execTdone
  repeat' first | (with_reducible first | assumption | apply State.taskComplete_canon | apply endTask_canon) | intro _ | dsimp only | split

theorem execTyield_canon (o : Op) {s : State} (hC : s.Canon) :
    Out.Canon (execTyield o s) := by
  unfold execTyield
  repeat' first | (with_reducible first | assumption | apply State.homeWr_canon | apply State.envReady_canon | apply endTask_canon) | intro _ | split | dsimp only

end Sys2Proof.Machine
end

