-- ==== Sys2Proof/Laws/CanonDevice.lean ====
section
/-! SUPPORT. The canonical form of every memory is kept by launches, admission, saving, the controllers and the device. -/
namespace Sys2Proof.Machine

theorem State.donePlace_canon {s : State} (p a : Nat) (hC : s.Canon) :
    (State.donePlace s p a).1.Canon := by
  unfold State.donePlace
  repeat' first | (with_reducible first | assumption | refine fst_canon (by assumption) ?_ | apply State.sysXlate_canon) | split | dsimp only

theorem State.complete_canon {s : State} (p status reason : Nat) (faults : Word) (seq : Nat) (doneaddr : DWord) (child : Bool) (hC : s.Canon) :
    (State.complete s p status reason faults seq doneaddr child).Canon := by
  unfold State.complete
  repeat' first | (with_reducible first | assumption | apply State.Canon.allWgs | apply State.Canon.allCores | refine fst_canon (by assumption) ?_ | apply State.logSet_canon | apply State.modPart_canon | apply State.homeWr_canon | apply State.donePlace_canon) | dsimp only | split | dsimp only | (simp only [State.canon_lit]; refine State.CanonLit.of _ ?_ ?_ ?_)

theorem State.acceptRecord_canon {s : State} (p : Nat) (hC : s.Canon) :
    (State.acceptRecord s p).Canon := by
  unfold State.acceptRecord
  repeat' first | (with_reducible first | assumption | apply State.modPart_canon | apply State.complete_canon | apply State.Canon.allWgs | apply State.Canon.allCores) | dsimp only | split | (simp only [State.canon_lit]; refine State.CanonLit.of _ ?_ ?_ ?_)

theorem execLaunchRecordAccept_canon (part : Nat) {s : State} (hC : s.Canon) :
    Out.Canon (execLaunchRecordAccept part s) := by
  unfold execLaunchRecordAccept
  repeat' first | (with_reducible first | assumption | apply State.acceptRecord_canon | apply Out.canon_next) | intro _ | dsimp only | split

theorem State.forwardRecord_canon {s : State} (p : Nat) (seq : BitVec 56) (r : List Byte) (hC : s.Canon) :
    (State.forwardRecord s p seq r).Canon := by
  unfold State.forwardRecord
  repeat' first | (with_reducible first | assumption | apply State.Canon.allWgs | apply State.Canon.allCores) | dsimp only | split | (simp only [State.canon_lit]; refine State.CanonLit.of _ ?_ ?_ ?_)

theorem execFabricLaunchForward_canon (part : Nat) (seq : BitVec 56) (record : List Byte) {s : State} (hC : s.Canon) :
    Out.Canon (execFabricLaunchForward part seq record s) := by
  unfold execFabricLaunchForward
  repeat' first | (with_reducible first | assumption | apply State.forwardRecord_canon | apply Out.canon_next) | intro _ | dsimp only | split

theorem State.shareDone_canon {s : State} (launch : Nat) (hC : s.Canon) :
    (State.shareDone s launch).Canon := by
  unfold State.shareDone
  repeat' first | (with_reducible first | assumption | apply State.Canon.allWgs | apply State.Canon.allCores | apply State.modLaunch_canon) | dsimp only | (simp only [State.canon_lit]; refine State.CanonLit.of _ ?_ ?_ ?_) | split

theorem execFabricShareCompletion_canon (launch : Nat) {s : State} (hC : s.Canon) :
    Out.Canon (execFabricShareCompletion launch s) := by
  unfold execFabricShareCompletion
  repeat' first | (with_reducible first | assumption | apply State.shareDone_canon | apply Out.canon_next) | intro _ | dsimp only | split

theorem State.launchDone_canon {s : State} (key : Nat) (hC : s.Canon) :
    (State.launchDone s key).Canon := by
  unfold State.launchDone
  repeat' first | (with_reducible first | assumption | apply State.futureDone_canon | apply State.complete_canon | apply State.Canon.allWgs | apply State.Canon.allCores) | dsimp only | split | (simp only [State.canon_lit]; refine State.CanonLit.of _ ?_ ?_ ?_)

theorem execLaunchCompletion_canon (launch : Nat) {s : State} (hC : s.Canon) :
    Out.Canon (execLaunchCompletion launch s) := by
  unfold execLaunchCompletion
  repeat' first | (with_reducible first | assumption | apply State.launchDone_canon | apply Out.canon_next) | intro _ | dsimp only | split

theorem execLaunch_canon (o : Op) {s : State} (hC : s.Canon) :
    Out.Canon (execLaunch o s) := by
  unfold execLaunch
  repeat' first | (with_reducible first | assumption | apply foldl_canon | apply foldl_canon | refine fst_canon (by assumption) ?_ | apply State.markRead_canon | apply State.modGroup_canon | apply State.done_canon | apply State.stall_canon | apply State.gx_canon | apply State.raiseAll_canon | apply splitScope_canon | apply State.futureTake_canon | apply State.complete_canon | apply State.Canon.allWgs | apply State.Canon.allCores) | intro _ | dsimp only | split | (simp only [State.canon_lit]; refine State.CanonLit.of _ ?_ ?_ ?_)

theorem State.seedFails_canon {s : State} (key : Nat) (l : Launch) (hC : s.Canon) :
    (State.seedFails s key l).Canon := by
  unfold State.seedFails
  repeat' first | (with_reducible first | assumption | apply State.Canon.allWgs | apply State.Canon.allCores | apply State.logSet_canon | apply State.modLaunch_canon) | dsimp only | (simp only [State.canon_lit]; refine State.CanonLit.of _ ?_ ?_ ?_) | split

theorem State.taskSeed_canon {s : State} (key : Nat) (hC : s.Canon) :
    (State.taskSeed s key).Canon := by
  unfold State.taskSeed
  repeat' first | (with_reducible first | assumption | apply State.Canon.allWgs | apply State.Canon.allCores | refine fst_canon (by assumption) ?_ | apply State.markRead_canon | apply State.modLaunch_canon | apply State.sysXlate_canon | apply State.envOwn_canon | apply State.envReady_canon | apply State.seedFails_canon) | dsimp only | split | dsimp only | (simp only [State.canon_lit]; refine State.CanonLit.of _ ?_ ?_ ?_)

theorem execTaskSeed_canon (launch : Nat) {s : State} (hC : s.Canon) :
    Out.Canon (execTaskSeed launch s) := by
  unfold execTaskSeed
  repeat' first | (with_reducible first | assumption | apply State.taskSeed_canon | apply Out.canon_next) | intro _ | dsimp only | split

theorem State.startGroups_canon {s : State} (wg : Nat) (w : Workgroup) (first stop : Nat) (hC : s.Canon) (hw : w.Canon) :
    (s.startGroups wg w first stop).Canon := by
  unfold State.startGroups
  refine foldl_canon (fun t e ht => ?_) _ (State.Canon.mk' s hC (hC.wgs.put (Workgroup.Canon.lit w hw)) hC.cores)
  split
  · exact State.retireGroup_canon _ ht
  · exact ht

theorem Core.prepare_canon {k : Core} (slots : List Nat) (bufset : Option Nat) (hC : k.Canon) : (k.prepare slots bufset).Canon := by
  unfold Core.prepare
  cases bufset with
  | none => exact ⟨hC.1, hC.2, hC.3⟩
  | some b => exact ⟨Store.clear_wf (131072 * b) 131072 hC.1, Store.clear_wf (4096 * b) 4096 hC.2, Store.clear_wf (131072 * b) 131072 hC.3⟩

theorem State.reserve_canon (s : State) (core part launch : Nat) (p : Params) : (s.reserve core part launch p).Canon :=
  Workgroup.canon_of rfl rfl rfl

theorem State.admitWg_canon {s : State} (part die launch : Nat) (hC : s.Canon) :
    (State.admitWg s part die launch).Canon := by
  unfold State.admitWg
  repeat' first | (with_reducible first | exact Workgroup.Canon.lit _ (State.reserve_canon _ _ _ _ _) | apply Core.prepare_canon | assumption | apply State.reserve_canon | apply State.modCore_canon | apply State.startGroups_canon | apply State.Canon.allWgs | apply State.Canon.allCores) | intro _ | dsimp only | split | (simp only [State.canon_lit]; refine State.CanonLit.of _ ?_ ?_ ?_) | (rename_i hx; exact ⟨hx.1, hx.2, hx.3⟩)

theorem State.admitHead_canon {s : State} (part die : Nat) (hC : s.Canon) :
    (State.admitHead s part die).Canon := by
  unfold State.admitHead
  repeat' first | (with_reducible first | assumption | apply State.admitWg_canon) | split | dsimp only

theorem execWorkgroupAdmission_canon (part die : Nat) {s : State} (hC : s.Canon) :
    Out.Canon (execWorkgroupAdmission part die s) := by
  unfold execWorkgroupAdmission
  repeat' first | (with_reducible first | assumption | apply State.admitHead_canon | apply Out.canon_next) | split | intro _ | dsimp only

theorem State.dequeue_canon {s : State} (die : Nat) (r : TaskRef) (hC : s.Canon) :
    (State.dequeue s die r).Canon := by
  unfold State.dequeue
  repeat' first | (with_reducible first | assumption | apply State.Canon.allWgs | apply State.Canon.allCores) | (simp only [State.canon_lit]; refine State.CanonLit.of _ ?_ ?_ ?_) | dsimp only | split

theorem State.startTask_canon {s : State} (part core : Nat) (r : TaskRef) (l : Launch) (e : Env) (hC : s.Canon) :
    (s.startTask part core r l e).Canon := by
  have h1 := State.envSetState_canon e
    (withSt ((s.modCore core (·.prepare (s.reserve core part r.launch (l.par.forTask (s.rd e.place 8) (s.rd (e.place + 8) 8))).slots
      (s.reserve core part r.launch (l.par.forTask (s.rd e.place 8) (s.rd (e.place + 8) 8))).bufset)).envState e) 3)
    (State.modCore_canon core (·.prepare (s.reserve core part r.launch (l.par.forTask (s.rd e.place 8) (s.rd (e.place + 8) 8))).slots
      (s.reserve core part r.launch (l.par.forTask (s.rd e.place 8) (s.rd (e.place + 8) 8))).bufset) hC
      fun _ hk => Core.prepare_canon _ _ hk)
  exact State.Canon.mk' _ h1 (h1.wgs.put (Workgroup.Canon.lit _ (State.reserve_canon s _ _ _ _))) h1.cores

theorem State.runTask_canon {s : State} (part die : Nat) (r : TaskRef) (hC : s.Canon) :
    (State.runTask s part die r).Canon := by
  unfold State.runTask
  repeat' first | (with_reducible first | assumption | apply State.Canon.allWgs | apply State.Canon.allCores | refine fst_canon (by assumption) ?_ | apply State.modLaunch_canon | apply State.sysXlate_canon | apply State.taskComplete_canon | apply State.dequeue_canon | apply State.startTask_canon) | dsimp only | split | dsimp only | (simp only [State.canon_lit]; refine State.CanonLit.of _ ?_ ?_ ?_)

theorem execTaskDispatch_canon (part die : Nat) {s : State} (hC : s.Canon) :
    Out.Canon (execTaskDispatch part die s) := by
  unfold execTaskDispatch
  repeat' first | (with_reducible first | assumption | apply State.admitHead_canon | apply State.runTask_canon | apply Out.canon_next) | split | intro _ | dsimp only

theorem State.startBlock_canon {s : State} (key : Nat) (hC : s.Canon) :
    (State.startBlock s key).Canon := by
  unfold State.startBlock
  repeat' first | (with_reducible first | assumption | apply State.modSplit_canon | apply State.Canon.allWgs | apply State.Canon.allCores | refine fst_canon (by assumption) ?_ | apply State.markRead_canon | apply State.loadLine_canon | apply State.setGroup_canon | apply State.gx_canon | apply State.endGroup_canon) | dsimp only | split | dsimp only | (simp only [State.canon_lit]; refine State.CanonLit.of _ ?_ ?_ ?_)

theorem execStartBlockRead_canon (key : Nat) {s : State} (hC : s.Canon) :
    Out.Canon (execStartBlockRead key s) := by
  unfold execStartBlockRead
  repeat' first | (with_reducible first | assumption | apply State.startBlock_canon | apply Out.canon_next) | intro _ | dsimp only | split

theorem State.tilesDone_canon {s : State} (launch : Nat) (hC : s.Canon) :
    (State.tilesDone s launch).Canon := by
  unfold State.tilesDone
  repeat' first | (with_reducible first | assumption | apply State.done_canon | apply State.Canon.allWgs | apply State.Canon.allCores | apply State.modLaunch_canon) | dsimp only | (simp only [State.canon_lit]; refine State.CanonLit.of _ ?_ ?_ ?_) | split

theorem State.dropWg_canon {s : State} (wg : Nat) (hC : s.Canon) :
    (State.dropWg s wg).Canon := by
  unfold State.dropWg
  repeat' first | (with_reducible first | assumption | apply State.Canon.allWgs | apply State.Canon.allCores | apply Table.All.erase) | (simp only [State.canon_lit]; refine State.CanonLit.of _ ?_ ?_ ?_) | dsimp only | split

theorem State.retireWg_canon {s : State} (wg : Nat) (hC : s.Canon) :
    (State.retireWg s wg).Canon := by
  unfold State.retireWg
  repeat' first | (with_reducible first | assumption | apply State.barFlush_canon | apply State.tilesDone_canon | apply State.dropWg_canon) | split | dsimp only

theorem execWorkgroupRetirement_canon (wg : Nat) {s : State} (hC : s.Canon) :
    Out.Canon (execWorkgroupRetirement wg s) := by
  unfold execWorkgroupRetirement
  repeat' first | (with_reducible first | assumption | apply State.retireWg_canon | apply Out.canon_next) | intro _ | dsimp only | split

theorem State.restartWg_canon {s : State} (wg : Nat) (hC : s.Canon) :
    (State.restartWg s wg).Canon := by
  unfold State.restartWg
  repeat' first | (with_reducible first | assumption | apply State.barFlush_canon | apply State.startGroups_canon | apply State.Canon.allWgs | apply State.Canon.allCores) | (refine Workgroup.Canon.lit _ ?_; first | assumption | exact State.Canon.wgOf (by assumption) _ | exact Table.All.of_get (State.Canon.wgs (by assumption)) (by assumption)) | dsimp only | split | (simp only [State.canon_lit]; refine State.CanonLit.of _ ?_ ?_ ?_)

theorem execWorkgroupRestart_canon (wg : Nat) {s : State} (hC : s.Canon) :
    Out.Canon (execWorkgroupRestart wg s) := by
  unfold execWorkgroupRestart
  repeat' first | (with_reducible first | assumption | apply State.restartWg_canon | apply Out.canon_next) | intro _ | dsimp only | split

theorem State.budget_canon {s : State} (key : Nat) (hC : s.Canon) :
    (State.budget s key).Canon := by
  unfold State.budget
  repeat' first | (with_reducible first | assumption | apply State.waitSettled_canon | apply State.Canon.allWgs | apply State.Canon.allCores | apply State.modGroup_canon | apply State.modSplit_canon | apply State.deliver_canon) | dsimp only | split | dsimp only | (simp only [State.canon_lit]; refine State.CanonLit.of _ ?_ ?_ ?_)

theorem execBudget_canon (key : Nat) {s : State} (hC : s.Canon) :
    Out.Canon (execBudget key s) := by
  unfold execBudget
  repeat' first | (with_reducible first | assumption | apply State.budget_canon | apply Out.canon_next) | intro _ | dsimp only | split

theorem State.tileClaim_canon {s : State} (key die : Nat) (hC : s.Canon) :
    (State.tileClaim s key die).Canon := by
  unfold State.tileClaim
  repeat' first | (with_reducible first | assumption | refine fst_canon (by assumption) ?_ | apply State.claim_canon | apply State.Canon.allWgs | apply State.Canon.allCores) | dsimp only | split | (simp only [State.canon_lit]; refine State.CanonLit.of _ ?_ ?_ ?_)

theorem execTileClaim_canon (launch die : Nat) {s : State} (hC : s.Canon) :
    Out.Canon (execTileClaim launch die s) := by
  unfold execTileClaim
  repeat' first | (with_reducible first | assumption | apply State.tileClaim_canon | apply Out.canon_next) | intro _ | dsimp only | split

theorem State.areaWrite_canon (ctx : BitVec 16) (pages : List (Nat × Nat)) (gs : List (List Byte × Bool)) : ∀ (off : Nat) {s : State}, s.Canon → (s.areaWrite ctx pages off gs).Canon := by
  induction gs with
  | nil => intro _ _ h; exact h
  | cons a gs ih =>
    intro off s h
    unfold State.areaWrite
    repeat' first | (with_reducible first | assumption | apply ih | apply State.homeWr_canon | apply State.poisonGran_canon) | split

theorem State.areaFault_canon (i : Iss) (acc : Acc) (area : Nat) (ks : List Nat) : ∀  {s : State}, s.Canon → (s.areaFault i acc area ks).1.Canon := by
  induction ks with
  | nil => intro  _ h; exact h
  | cons a ks ih =>
    intro  s h
    unfold State.areaFault
    repeat' first | (with_reducible first | assumption | refine fst_canon (by assumption) ?_ | apply ih | apply State.gx_canon) | split

theorem execCtxsave_canon (o : Op) {s : State} (hC : s.Canon) :
    Out.Canon (execCtxsave o s) := by
  unfold execCtxsave
  repeat' first | (with_reducible first | assumption | apply State.Canon.allWgs | apply State.Canon.allCores | refine fst_canon (by assumption) ?_ | apply State.done_canon | apply State.raiseAll_canon | apply splitScope_canon | apply State.askPreempt_canon | apply State.areaFault_canon) | intro _ | dsimp only | split | dsimp only | (simp only [State.canon_lit]; refine State.CanonLit.of _ ?_ ?_ ?_)

theorem execPreemption_canon (wg : Nat) (area : DWord) {s : State} (hC : s.Canon) :
    Out.Canon (execPreemption wg area s) := by
  unfold execPreemption
  repeat' first | (with_reducible first | assumption | apply State.askPreempt_canon | apply Out.canon_next) | intro _ | dsimp only | split

theorem State.privGrans_canon {s : State} (w : Workgroup) (key : Nat) (hC : s.Canon) : (s.privGrans w key).1.Canon := by
  refine foldl_fst_canon (fun p k hp => ?_) _ hC
  have hx := State.sysXlate_canon (p.1.ctxOf w.core) (p.1.part w.part).ctxtbase.toNat .read (p.1.poolWord w key w.par.width 0 k) hp
  revert hx
  generalize p.1.sysXlate (p.1.ctxOf w.core) (p.1.part w.part).ctxtbase.toNat .read (p.1.poolWord w key w.par.width 0 k) = q
  obtain ⟨u, r⟩ := q
  intro hx
  cases r with
  | error e => exact hx
  | ok x => exact foldl_canon (fun _ _ hu => State.cleanLine_canon _ _ hu) _ hx

theorem State.allPriv_canon {s : State} (w : Workgroup) (hC : s.Canon) :
    (State.allPriv s w).1.Canon := by
  unfold State.allPriv
  repeat' first | (with_reducible first | assumption | apply foldl_canon | apply foldl_canon | apply State.privGrans_canon | apply foldl_fst_canon) | intro _ | dsimp only | split

theorem State.saveArea_canon {s : State} (wg : Nat) (hC : s.Canon) : (s.saveArea wg).Canon := by
  have fin : ∀ (t : State) (n : Nat) (im : Image), t.Canon → ({ t.dropWg wg with images := t.images.put t.nextId im, nextId := n } : State).Canon := by
    intro t n im ht
    have h := State.dropWg_canon wg ht
    exact State.Canon.mk' _ h h.wgs h.cores
  unfold State.saveArea
  extract_lets u
  have hu : u.Canon := by
    show (if _ then _ else _ : State).Canon
    split
    · exact State.barFlush_canon wg hC
    · exact hC
  clear_value u
  split
  · exact hu
  · split
    · exact hu
    · split
      · exact hu
      · dsimp only
        split
        · exact hu
        · exact fin _ _ _ (State.areaWrite_canon _ _ _ _ (State.allPriv_canon _ hu))

theorem execSaveAreaWrite_canon (wg : Nat) {s : State} (hC : s.Canon) :
    Out.Canon (execSaveAreaWrite wg s) := by
  unfold execSaveAreaWrite
  repeat' first | (with_reducible first | assumption | apply State.saveArea_canon | apply Out.canon_next) | intro _ | dsimp only | split

theorem execCtxload_canon (o : Op) {s : State} (hC : s.Canon) :
    Out.Canon (execCtxload o s) := by
  unfold execCtxload
  repeat' first | (with_reducible first | assumption | refine fst_canon (by assumption) ?_ | apply State.markRead_canon | apply State.done_canon | apply State.gx_canon | apply State.homeWr_canon | apply State.raiseAll_canon | apply splitScope_canon | apply State.futureTake_canon | apply State.areaFault_canon | apply State.Canon.allWgs | apply State.Canon.allCores) | intro _ | dsimp only | split | (simp only [State.canon_lit]; refine State.CanonLit.of _ ?_ ?_ ?_)

theorem State.restoreWords_canon {s : State} (w : Workgroup) (pages : List (Nat × Nat)) (g : Nat) (hC : s.Canon) :
    (State.restoreWords s w pages g).Canon := by
  unfold State.restoreWords
  repeat' first | (with_reducible first | assumption | refine fst_canon (by assumption) ?_ | apply State.poisonGran_canon | apply State.sysXlate_canon | apply State.homeWr_canon | apply foldl_canon) | intro _ | dsimp only | split

theorem Core.loadBufs_canon {k : Core} (set : Nat) (bs : List Byte) (bad : List Nat) (hC : k.Canon) : (k.loadBufs set bs bad).Canon := by
  have fold : ∀ (l : List Nat) (k : Core), k.Canon → (l.foldl (fun k g => k.bufPoisonGran (4096 * set + g)) k).Canon := by
    intro l
    induction l with
    | nil => intro _ h; exact h
    | cons g l ih => intro k h; exact ih _ (Core.bufPoisonGran_canon _ h)
  exact fold bad _ ⟨Store.setList_wf _ _ hC.1, hC.2, hC.3⟩

theorem State.loadImage_canon {s : State} (n : Nat) (im : Image) (core : Nat) (pages : List (Nat × Nat)) (hC : s.Canon) :
    (s.loadImage n im core pages).Canon := by
  unfold State.loadImage
  dsimp only
  refine State.futureDone_canon _ _ _ ?_
  have hw : ∀ (w0 w : Workgroup) (bad : List Nat), w0.Canon → w.ls.wf = true → w.lsPoison = w0.lsPoison → w.lsBad = w0.lsBad →
      (bad.foldl (fun (w : Workgroup) g => w.lsPoisonGran g) w).Canon := fun w0 w bad h0 h1 h2 h3 =>
    foldl_wg_canon (fun _ _ h => Workgroup.lsPoisonGran_canon _ h) bad ⟨h1, h2 ▸ h0.2, h3 ▸ h0.3⟩
  have hs : ∀ (w : Workgroup) (l : List Nat) (f : Core → Core), (∀ k, k.Canon → (f k).Canon) →
      (l.foldl (fun s g => s.restoreWords w pages g) (s.modCore core f)).Canon := fun w l f hf =>
    foldl_canon (fun _ _ h => State.restoreWords_canon _ _ _ h) l (State.modCore_canon _ _ hC hf)
  refine State.Canon.mk' _ (hs _ _ _ ?_) (Table.All.put (hs _ _ _ ?_).wgs ?_) (hs _ _ _ ?_).cores
  · intro k hk
    split
    · exact Core.prepare_canon _ _ hk
    · exact Core.loadBufs_canon _ _ _ (Core.prepare_canon _ _ hk)
  · intro k hk
    split
    · exact Core.prepare_canon _ _ hk
    · exact Core.loadBufs_canon _ _ _ (Core.prepare_canon _ _ hk)
  · exact hw _ _ _ (State.reserve_canon s core im.part im.launch (s.imageParams im)) (Store.setList_wf _ _ rfl) rfl rfl
  · intro k hk
    split
    · exact Core.prepare_canon _ _ hk
    · exact Core.loadBufs_canon _ _ _ (Core.prepare_canon _ _ hk)

theorem State.admitImage_canon {s : State} (n : Nat) (hC : s.Canon) :
    (State.admitImage s n).Canon := by
  unfold State.admitImage
  repeat' first | (with_reducible first | assumption | apply State.loadImage_canon) | split | dsimp only

theorem execImageAdmission_canon (area : Nat) {s : State} (hC : s.Canon) :
    Out.Canon (execImageAdmission area s) := by
  unfold execImageAdmission
  repeat' first | (with_reducible first | assumption | apply State.admitImage_canon | apply Out.canon_next) | intro _ | dsimp only | split

theorem State.tierDone_canon {s : State} (id : Nat) (hC : s.Canon) :
    (State.tierDone s id).Canon := by
  unfold State.tierDone
  repeat' first | (with_reducible first | assumption | apply State.futureDone_canon | apply State.tierBarrier_canon | apply State.tierArrive_canon | apply State.Canon.allWgs | apply State.Canon.allCores) | dsimp only | split | (simp only [State.canon_lit]; refine State.CanonLit.of _ ?_ ?_ ?_)

theorem execTierpfCompletion_canon (id : Nat) {s : State} (hC : s.Canon) :
    Out.Canon (execTierpfCompletion id s) := by
  unfold execTierpfCompletion
  repeat' first | (with_reducible first | assumption | apply State.tierDone_canon | apply Out.canon_next) | intro _ | dsimp only | split

theorem State.areaPut_canon {s : State} (im : Image) (pages : List (Nat × Nat)) (off : Nat) (bs : List Byte) (hC : s.Canon) :
    (State.areaPut s im pages off bs).Canon := by
  unfold State.areaPut
  repeat' first | (with_reducible first | assumption | apply State.homeWr_canon) | dsimp only | split

theorem State.imageArrive_canon {s : State} (im : Image) (pages : List (Nat × Nat)) (n : Nat) (hC : s.Canon) :
    (State.imageArrive s im pages n).Canon := by
  unfold State.imageArrive
  repeat' first | (with_reducible first | assumption | apply State.areaPut_canon | apply foldl_canon) | intro _ | dsimp only | split

theorem State.imageComplete_canon {s : State} (n : Nat) (im : Image) (pages : List (Nat × Nat)) (o : SavedOp) (st : BitVec 2) (hC : s.Canon) :
    (State.imageComplete s n im pages o st).Canon := by
  unfold State.imageComplete
  repeat' first | (with_reducible first | assumption | apply State.areaPut_canon | apply State.imageArrive_canon | apply State.Canon.allWgs | apply State.Canon.allCores) | split | (simp only [State.canon_lit]; refine State.CanonLit.of _ ?_ ?_ ?_) | dsimp only

theorem State.savedComplete_canon {s : State} (id : Nat) (hC : s.Canon) : (s.savedComplete id).Canon := by
  have fin : ∀ (t : TierOp) n im pages o,
      ({ (s.tierArrive t).1 with tierOps := (s.tierArrive t).1.tierOps.filter fun (y : TierOp) => y.id != id }.imageComplete n im pages o
        (s.tierArrive t).2).Canon := by
    intro t n im pages o
    have h := State.tierArrive_canon t hC
    generalize s.tierArrive t = q at h ⊢
    exact State.imageComplete_canon _ _ _ _ _ (State.Canon.mk' _ h h.wgs h.cores)
  unfold State.savedComplete
  split
  · exact hC
  · split
    · split
      · exact hC
      · split
        · exact State.imageComplete_canon _ _ _ _ _ hC
        · exact fin _ _ _ _ _
    · exact hC

theorem execSavedCompletion_canon (id : Nat) {s : State} (hC : s.Canon) :
    Out.Canon (execSavedCompletion id s) := by
  unfold execSavedCompletion
  repeat' first | (with_reducible first | assumption | apply State.savedComplete_canon | apply Out.canon_next) | intro _ | dsimp only | split

theorem State.abortGroup_canon {s : State} (key : Nat) (hC : s.Canon) :
    (State.abortGroup s key).Canon := by
  unfold State.abortGroup
  repeat' first | (with_reducible first | assumption | apply State.setGroup_canon | apply State.drained_canon | apply State.Canon.allWgs | apply State.Canon.allCores | apply State.modLaunch_canon | apply State.groupTaskDone_canon | apply State.retireGroup_canon) | dsimp only | split | dsimp only | (simp only [State.canon_lit]; refine State.CanonLit.of _ ?_ ?_ ?_)

theorem State.abortGroups_canon {s : State} (launch : Nat) (hC : s.Canon) :
    (State.abortGroups s launch).Canon := by
  unfold State.abortGroups
  repeat' first | (with_reducible first | assumption | apply foldl_canon | apply State.abortGroup_canon | apply foldl_canon) | dsimp only | split | intro _

theorem State.abort_canon {s : State} (part : Nat) (seq : BitVec 56) (hC : s.Canon) :
    (State.abort s part seq).Canon := by
  unfold State.abort
  repeat' first | (with_reducible first | assumption | apply State.abortGroups_canon | apply State.futureDone_canon | apply State.abortGroup_canon | apply State.Canon.allWgs | apply State.Canon.allCores | apply foldl_canon | apply Table.All.map) | (refine Workgroup.Canon.lit _ ?_; first | assumption | exact State.Canon.wgOf (by assumption) _ | exact Table.All.of_get (State.Canon.wgs (by assumption)) (by assumption)) | intro _ | dsimp only | split | (simp only [State.canon_lit]; refine State.CanonLit.of _ ?_ ?_ ?_)

theorem execAbort_canon (part : Nat) (seq : BitVec 56) {s : State} (hC : s.Canon) :
    Out.Canon (execAbort part seq s) := by
  unfold execAbort
  repeat' first | (with_reducible first | assumption | apply State.abort_canon | apply Out.canon_next) | intro _ | dsimp only | split

theorem State.walkStep_canon {s : State} (core : Nat) (va : Nat) (claim : Bool) (hC : s.Canon) :
    (State.walkStep s core va claim).Canon := by
  unfold State.walkStep
  repeat' first | (with_reducible first | assumption | refine fst_canon (by assumption) ?_ | apply State.modCore_canon | apply State.walk_canon | apply State.claim_canon | apply State.Canon.allWgs | apply State.Canon.allCores) | (rename_i hx; exact ⟨hx.1, hx.2, hx.3⟩) | intro _ | dsimp only | split | (simp only [State.canon_lit]; refine State.CanonLit.of _ ?_ ?_ ?_)

theorem execTranslationWalk_canon (core : Nat) (va : DWord) (claim : Bool) {s : State} (hC : s.Canon) :
    Out.Canon (execTranslationWalk core va claim s) := by
  unfold execTranslationWalk
  repeat' first | (with_reducible first | assumption | refine fst_canon (by assumption) ?_ | apply State.claim_canon | apply State.walkStep_canon | apply Out.canon_next) | intro _ | dsimp only | split

theorem State.reclassify_canon {s : State} (core : Nat) (va : Nat) (hC : s.Canon) :
    (State.reclassify s core va).Canon := by
  unfold State.reclassify
  repeat' first | (with_reducible first | assumption | refine fst_canon (by assumption) ?_ | apply State.walk_canon | apply State.claim_canon) | dsimp only | split

theorem execFlushAndReclassify_canon (core : Nat) (va : DWord) {s : State} (hC : s.Canon) :
    Out.Canon (execFlushAndReclassify core va s) := by
  unfold execFlushAndReclassify
  repeat' first | (with_reducible first | assumption | apply State.reclassify_canon | apply Out.canon_next) | intro _ | dsimp only | split

theorem State.recallSectors_canon {s : State} (line : Nat) (mask : BitVec 4) (hC : s.Canon) :
    (State.recallSectors s line mask).Canon := by
  unfold State.recallSectors
  repeat' first | (with_reducible first | assumption | apply foldl_canon | apply State.recallOthers_canon | apply State.syncDir_canon | apply foldl_canon) | dsimp only | split | intro _

theorem State.recallLine_canon {s : State} (line : Nat) (hC : s.Canon) :
    (State.recallLine s line).Canon := by
  unfold State.recallLine
  repeat' first | (with_reducible first | assumption | apply State.recallSectors_canon) | dsimp only | split

theorem execRecall_canon (line : Nat) {s : State} (hC : s.Canon) :
    Out.Canon (execRecall line s) := by
  unfold execRecall
  repeat' first | (with_reducible first | assumption | apply State.recallLine_canon | apply Out.canon_next) | intro _ | dsimp only | split

theorem State.applyCarve_canon {s : State} (core : Nat) (hC : s.Canon) :
    (State.applyCarve s core).Canon := by
  unfold State.applyCarve
  repeat' first | (with_reducible first | assumption | apply State.Canon.allWgs | apply State.Canon.allCores | apply State.modCore_canon | apply State.syncDir_canon | apply State.dropL1_canon | apply foldl_canon) | (rename_i hx; exact ⟨hx.1, hx.2, hx.3⟩) | intro _ | dsimp only | split | dsimp only | (simp only [State.canon_lit]; refine State.CanonLit.of _ ?_ ?_ ?_)

theorem execCarveApply_canon (core : Nat) {s : State} (hC : s.Canon) :
    Out.Canon (execCarveApply core s) := by
  unfold execCarveApply
  repeat' first | (with_reducible first | assumption | apply State.applyCarve_canon | apply Out.canon_next) | intro _ | dsimp only | split

theorem State.countChan_canon {s : State} (key n : Nat) (hC : s.Canon) :
    (State.countChan s key n).Canon := by
  unfold State.countChan
  repeat' first | (with_reducible first | assumption | apply State.Canon.allWgs | apply State.Canon.allCores) | split | (simp only [State.canon_lit]; refine State.CanonLit.of _ ?_ ?_ ?_) | dsimp only

theorem State.dramServe_canon {s : State} (sector : Nat) (write conflict : Bool) (stall : Nat) (hC : s.Canon) :
    (State.dramServe s sector write conflict stall).Canon := by
  unfold State.dramServe
  repeat' first | (with_reducible first | assumption | apply State.stall_canon | apply State.countChan_canon | apply State.Canon.allWgs | apply State.Canon.allCores) | dsimp only | split | (simp only [State.canon_lit]; refine State.CanonLit.of _ ?_ ?_ ?_)

theorem execDramRequest_canon (sector : Nat) (write : Bool) (conflict : Bool) (stall : Nat) {s : State} (hC : s.Canon) :
    Out.Canon (execDramRequest sector write conflict stall s) := by
  unfold execDramRequest
  repeat' first | (with_reducible first | assumption | apply State.stall_canon | apply State.dramServe_canon | apply Out.canon_next) | intro _ | dsimp only | split

theorem State.refresh_canon {s : State} (group : Nat) (hC : s.Canon) :
    (State.refresh s group).Canon := by
  unfold State.refresh
  repeat' first | (with_reducible first | assumption | apply State.countChan_canon | apply State.Canon.allWgs | apply State.Canon.allCores) | dsimp only | split | (simp only [State.canon_lit]; refine State.CanonLit.of _ ?_ ?_ ?_)

theorem execRefreshSlot_canon (group : Nat) {s : State} (hC : s.Canon) :
    Out.Canon (execRefreshSlot group s) := by
  unfold execRefreshSlot
  repeat' first | (with_reducible first | assumption | apply State.refresh_canon | apply Out.canon_next) | intro _ | dsimp only | split

theorem State.enterSelfRefresh_canon {s : State} (stack : Nat) (hC : s.Canon) :
    (State.enterSelfRefresh s stack).Canon := by
  unfold State.enterSelfRefresh
  repeat' first | (with_reducible first | assumption | apply State.Canon.allWgs | apply State.Canon.allCores) | dsimp only | split | (simp only [State.canon_lit]; refine State.CanonLit.of _ ?_ ?_ ?_)

theorem execSelfRefreshEntry_canon (stack : Nat) {s : State} (hC : s.Canon) :
    Out.Canon (execSelfRefreshEntry stack s) := by
  unfold execSelfRefreshEntry
  repeat' first | (with_reducible first | assumption | apply State.enterSelfRefresh_canon | apply Out.canon_next) | intro _ | dsimp only | split

theorem State.leaveSelfRefresh_canon {s : State} (stack : Nat) (hC : s.Canon) :
    (State.leaveSelfRefresh s stack).Canon := by
  unfold State.leaveSelfRefresh
  repeat' first | (with_reducible first | assumption | apply State.Canon.allWgs | apply State.Canon.allCores) | dsimp only | split | (simp only [State.canon_lit]; refine State.CanonLit.of _ ?_ ?_ ?_)

theorem execSelfRefreshExit_canon (stack : Nat) {s : State} (hC : s.Canon) :
    Out.Canon (execSelfRefreshExit stack s) := by
  unfold execSelfRefreshExit
  repeat' first | (with_reducible first | assumption | apply State.leaveSelfRefresh_canon | apply Out.canon_next) | intro _ | dsimp only | split

theorem State.setHot_canon {s : State} (stack : Nat) (high : Bool) (hC : s.Canon) :
    (State.setHot s stack high).Canon := by
  unfold State.setHot
  repeat' first | (with_reducible first | assumption | apply State.Canon.allWgs | apply State.Canon.allCores) | split | (simp only [State.canon_lit]; refine State.CanonLit.of _ ?_ ?_ ?_) | dsimp only

theorem execTrefwChange_canon (stack : Nat) (high : Bool) {s : State} (hC : s.Canon) :
    Out.Canon (execTrefwChange stack high s) := by
  unfold execTrefwChange
  repeat' first | (with_reducible first | assumption | apply State.setHot_canon | apply Out.canon_next) | intro _ | dsimp only | split

theorem State.takeSectors_canon {s : State} (line : Nat) (mask : BitVec 4) (hC : s.Canon) :
    (State.takeSectors s line mask).Canon := by
  unfold State.takeSectors
  repeat' first | (with_reducible first | assumption | apply foldl_canon | apply State.dropCopies_canon | apply State.recallSectors_canon | apply foldl_canon) | dsimp only | split | intro _

theorem State.hostDevWrite_canon {s : State} (by' : Outside) (addr : Nat) (bs : List Byte) (hC : s.Canon) :
    (State.hostDevWrite s by' addr bs).Canon := by
  unfold State.hostDevWrite
  repeat' first | (with_reducible first | assumption | apply State.takeSectors_canon | apply State.dramAsk_canon | apply State.wr_canon | apply State.cleanLine_canon | apply foldl_canon) | intro _ | dsimp only | split

theorem State.hostWrite_canon {s : State} (by' : Outside) (addr : Nat) (bs : List Byte) (hC : s.Canon) :
    (State.hostWrite s by' addr bs).Canon := by
  unfold State.hostWrite
  repeat' first | (with_reducible first | assumption | apply State.Canon.allWgs | apply State.Canon.allCores | apply State.hostWr_canon | apply State.hostDevWrite_canon) | split | dsimp only | dsimp only | (simp only [State.canon_lit]; refine State.CanonLit.of _ ?_ ?_ ?_)

theorem execHostMemWrite_canon (by' : Outside) (addr : Nat) (bytes : List Byte) {s : State} (hC : s.Canon) :
    Out.Canon (execHostMemWrite by' addr bytes s) := by
  unfold execHostMemWrite
  repeat' first | (with_reducible first | assumption | apply State.hostWrite_canon | apply Out.canon_next) | intro _ | dsimp only | split

theorem State.hostRead_canon {s : State} (by' : Outside) (addr len : Nat) (hC : s.Canon) :
    (State.hostRead s by' addr len).Canon := by
  unfold State.hostRead
  repeat' first | (with_reducible first | assumption | apply State.recallSectors_canon | apply State.dramAsk_canon | apply State.markRead_canon | apply State.cleanLine_canon | apply foldl_canon) | intro _ | dsimp only | split

theorem execHostMemRead_canon (src : OutsideAt) (len : Nat) {s : State} (hC : s.Canon) :
    Out.Canon (execHostMemRead src len s) := by
  unfold execHostMemRead
  repeat' first | (with_reducible first | assumption | apply State.hostRead_canon | apply Out.canon_next) | intro _ | dsimp only | split

theorem State.cleanCtx_canon {s : State} (ctx : BitVec 16) (hC : s.Canon) :
    (State.cleanCtx s ctx).Canon := by
  unfold State.cleanCtx
  repeat' first | (with_reducible first | assumption | apply State.Canon.allWgs | apply State.Canon.allCores | apply State.modCore_canon | apply State.l2Put_canon | apply Core.l1Put_canon | apply State.dramAsk_canon | apply State.takeBack_canon | apply foldl_canon) | intro _ | dsimp only | (simp only [State.canon_lit]; refine State.CanonLit.of _ ?_ ?_ ?_) | (rename_i hx; exact ⟨hx.1, hx.2, hx.3⟩) | split

theorem State.purge_canon {s : State} (id : Nat) (hC : s.Canon) :
    (State.purge s id).Canon := by
  unfold State.purge
  repeat' first | (with_reducible first | assumption | apply State.dropL1_canon | apply State.evictL2_canon | apply State.dropTlb_canon | apply State.Canon.allWgs | apply State.Canon.allCores | apply foldl_canon | apply Table.All.map) | (rename_i hx; exact ⟨hx.1, hx.2, hx.3⟩) | intro _ | dsimp only | (simp only [State.canon_lit]; refine State.CanonLit.of _ ?_ ?_ ?_) | split

theorem State.setCtxret_canon {s : State} (part : Nat) (v : Word) (hC : s.Canon) :
    (State.setCtxret s part v).Canon := by
  unfold State.setCtxret
  repeat' first | (with_reducible first | assumption | apply State.modPart_canon | apply State.Canon.allWgs | apply State.Canon.allCores) | dsimp only | split | (simp only [State.canon_lit]; refine State.CanonLit.of _ ?_ ?_ ?_)

theorem execCtxretWrite_canon (part : Nat) (val : Word) {s : State} (hC : s.Canon) :
    Out.Canon (execCtxretWrite part val s) := by
  unfold execCtxretWrite
  repeat' first | (with_reducible first | assumption | apply State.setCtxret_canon | apply Out.canon_next) | intro _ | dsimp only | split

theorem State.retireDone_canon {s : State} (hC : s.Canon) :
    (State.retireDone s).Canon := by
  unfold State.retireDone
  repeat' first | (with_reducible first | assumption | apply State.modPart_canon | apply State.cleanCtx_canon | apply State.purge_canon | apply State.Canon.allWgs | apply State.Canon.allCores) | dsimp only | split | (simp only [State.canon_lit]; refine State.CanonLit.of _ ?_ ?_ ?_)

theorem execRetireCommandCompletion_canon {s : State} (hC : s.Canon) :
    Out.Canon (execRetireCommandCompletion s) := by
  unfold execRetireCommandCompletion
  repeat' first | (with_reducible first | assumption | apply State.retireDone_canon | apply Out.canon_next) | intro _ | dsimp only | split

theorem State.givePctx_canon {s : State} (p : Partition) (hC : s.Canon) : (State.givePctx s p).Canon := by
  unfold State.givePctx
  refine foldl_canon (fun t c ht => ?_) _ hC
  have h := State.setCtxid_canon c p.pctx.toNat ht
  revert h
  cases t.setCtxid c p.pctx.toNat with
  | none => exact fun _ => ht
  | some u => exact fun h => h.all u rfl

theorem State.writeSetting_canon {s : State} (part : Nat) (off : BitVec 12) (v : BitVec 192) (written : BitVec 12) (val : Nat) (hC : s.Canon) :
    (State.writeSetting s part off v written val).Canon := by
  unfold State.writeSetting
  repeat' first | (with_reducible first | assumption | apply State.givePctx_canon | apply State.logSet_canon | apply State.Canon.allWgs | apply State.Canon.allCores) | split | (simp only [State.canon_lit]; refine State.CanonLit.of _ ?_ ?_ ?_) | dsimp only

theorem execPartitionSettingWrite_canon (part : Nat) (off : BitVec 12) (val : BitVec 192) {s : State} (hC : s.Canon) :
    Out.Canon (execPartitionSettingWrite part off val s) := by
  unfold execPartitionSettingWrite
  repeat' first | (with_reducible first | assumption | apply State.writeSetting_canon | apply Out.canon_next) | intro _ | dsimp only | split

theorem State.moveCore_canon {s : State} (core : Nat) (carvelim : BitVec 8) (ctxid : BitVec 16) (throttle : BitVec 17) (hC : s.Canon) :
    (s.moveCore core carvelim ctxid throttle).Canon := by
  have h1 : ∀ (u : State) (o : Option Core), u.Canon → OptCore o →
      (match o with
        | some k => u.modCore core fun _ => k
        | none => u : State).Canon := by
    intro u o hu ho
    cases o with
    | none => exact hu
    | some k => exact State.modCore_canon _ _ hu fun _ _ => ho.all k rfl
  have h2 : ∀ (u : State) (o : Option State) (b : Bool), u.Canon → OptCanon o → (if b then o.getD u else u : State).Canon := by
    intro u o b hu ho
    cases b with
    | false => exact hu
    | true => cases o with
      | none => exact hu
      | some t => exact ho.all t rfl
  have hm : ∀ m, (s.modCore core fun k => { k with moving := m }).Canon := fun m =>
    State.modCore_canon _ _ hC fun k hk => ⟨hk.1, hk.2, hk.3⟩
  unfold State.moveCore
  split
  · exact hm _
  · have a := h1 _ _ (hm none) (Core.setCarvelim_canon carvelim.toNat ((hm none).core core))
    have b := fun c => h2 _ _ c a (State.setCtxid_canon core ctxid.toNat a)
    exact h1 _ _ (b _) (Core.setThrottle_canon throttle.toNat ((b _).core core))

theorem execPartitionCoreMove_canon (core : Nat) (carvelim : BitVec 8) (ctxid : BitVec 16) (throttle : BitVec 17) {s : State} (hC : s.Canon) :
    Out.Canon (execPartitionCoreMove core carvelim ctxid throttle s) := by
  unfold execPartitionCoreMove
  repeat' first | (with_reducible first | assumption | apply State.moveCore_canon | apply Out.canon_next) | intro _ | dsimp only | split

theorem State.setXm_canon {s : State} (i : Nat) (v : BitVec 24) (hC : s.Canon) :
    (State.setXm s i v).Canon := by
  unfold State.setXm
  repeat' first | (with_reducible first | assumption | apply State.Canon.allWgs | apply State.Canon.allCores) | (simp only [State.canon_lit]; refine State.CanonLit.of _ ?_ ?_ ?_) | dsimp only | split

theorem execXmWrite_canon (i : Nat) (val : BitVec 24) {s : State} (hC : s.Canon) :
    Out.Canon (execXmWrite i val s) := by
  unfold execXmWrite
  repeat' first | (with_reducible first | assumption | apply State.setXm_canon | apply Out.canon_next) | intro _ | dsimp only | split

theorem State.judge_canon {s : State} (hC : s.Canon) :
    (State.judge s).Canon := by
  unfold State.judge
  repeat' first | (with_reducible first | assumption | apply State.Canon.allWgs | apply State.Canon.allCores) | dsimp only | split | (simp only [State.canon_lit]; refine State.CanonLit.of _ ?_ ?_ ?_)

theorem State.setGo_canon {s : State} (go : Bool) (hC : s.Canon) :
    (State.setGo s go).Canon := by
  unfold State.setGo
  repeat' first | (with_reducible first | assumption | apply State.judge_canon | apply State.Canon.allWgs | apply State.Canon.allCores) | (simp only [State.canon_lit]; refine State.CanonLit.of _ ?_ ?_ ?_) | dsimp only | split

theorem execAttachGo_canon {s : State} (hC : s.Canon) :
    Out.Canon (execAttachGo s) := by
  unfold execAttachGo
  repeat' first | (with_reducible first | assumption | apply State.setGo_canon | apply Out.canon_next) | intro _ | dsimp only | split

theorem State.writePage0_canon {s : State} (off : Nat) (v : DWord) (hC : s.Canon) :
    (State.writePage0 s off v).Canon := by
  unfold State.writePage0
  repeat' first | (with_reducible first | assumption | apply State.judge_canon | apply State.setXm_canon | apply State.setGo_canon | apply State.Canon.allWgs | apply State.Canon.allCores) | split | (simp only [State.canon_lit]; refine State.CanonLit.of _ ?_ ?_ ?_) | dsimp only

theorem State.writePartPage_canon {s : State} (part off : Nat) (v : DWord) (hC : s.Canon) :
    (State.writePartPage s part off v).Canon := by
  unfold State.writePartPage
  repeat' first | (with_reducible first | assumption | apply State.Canon.allWgs | apply State.Canon.allCores | apply State.modPart_canon | apply State.setCtxret_canon | apply State.writeSetting_canon) | dsimp only | split | dsimp only | (simp only [State.canon_lit]; refine State.CanonLit.of _ ?_ ?_ ?_)

theorem State.windowWrite_canon {s : State} (page : Nat) (off : BitVec 12) (v : DWord) (hC : s.Canon) :
    (State.windowWrite s page off v).Canon := by
  unfold State.windowWrite
  repeat' first | (with_reducible first | assumption | apply State.writePage0_canon | apply State.writePartPage_canon) | split | dsimp only

theorem execManagementWindowWrite_canon (page : Nat) (off : BitVec 12) (val : DWord) {s : State} (hC : s.Canon) :
    Out.Canon (execManagementWindowWrite page off val s) := by
  unfold execManagementWindowWrite
  repeat' first | (with_reducible first | assumption | apply State.windowWrite_canon | apply Out.canon_next) | intro _ | dsimp only | split

theorem State.allCores_canon {s : State} (f : Core → Core) (hC : s.Canon) (hf : ∀ x, x.Canon → (f x).Canon) :
    (State.allCores s f).Canon := by
  unfold State.allCores
  repeat' first | (with_reducible first | assumption | apply State.modCore_canon | apply foldl_canon) | intro _ | (rename_i hx; exact ⟨hx.1, hx.2, hx.3⟩) | dsimp only | split

theorem State.verified_canon {s : State} (header body sig : List Byte) (hC : s.Canon) :
    (State.verified s header body sig).Canon := by
  have h0 : ({ s with mem := [], poison := [], staged := [], bad := [] } : State).Canon := ⟨rfl, hC.hostMem, rfl, rfl, rfl, hC.wgs, hC.cores⟩
  have h1 : ∀ u : State, u.Canon → (u.allCores fun k => { k with stopped := false }).Canon := fun u hu =>
    State.allCores_canon _ hu fun _ hk => Core.Canon.lit _ hk
  unfold State.verified
  split
  · exact State.Canon.mk' s hC hC.wgs hC.cores
  · dsimp only
    refine State.judge_canon ?_
    split
    · exact State.Canon.mk' _ (h1 _ h0) (h1 _ h0).wgs (h1 _ h0).cores
    · exact State.Canon.mk' _ (h1 _ hC) (h1 _ hC).wgs (h1 _ hC).cores

theorem State.loadFirmware_canon {s : State} (header body sig : List Byte) (hC : s.Canon) : (s.loadFirmware header body sig).Canon := by
  unfold State.loadFirmware
  split
  · exact hC
  · split
    · exact State.Canon.mk' s hC hC.wgs hC.cores
    · split
      · exact State.verified_canon _ _ _ (State.Canon.mk' s hC hC.wgs hC.cores)
      · exact hC

theorem execFirmwareImage_canon (header body sig : List Byte) {s : State} (hC : s.Canon) :
    Out.Canon (execFirmwareImage header body sig s) := by
  unfold execFirmwareImage
  repeat' first | (with_reducible first | assumption | apply State.loadFirmware_canon | apply Out.canon_next) | intro _ | dsimp only | split

theorem State.firmwareFails_canon {s : State} (hC : s.Canon) :
    (State.firmwareFails s).Canon := by
  unfold State.firmwareFails
  repeat' first | (with_reducible first | assumption | apply State.logSet_canon | apply State.allCores_canon | apply State.Canon.allCores | apply Table.All.nil) | exact Core.Canon.lit _ (by assumption) | intro _ | dsimp only | split | (simp only [State.canon_lit]; refine State.CanonLit.of _ ?_ ?_ ?_)

theorem execFirmwareFailure_canon {s : State} (hC : s.Canon) :
    Out.Canon (execFirmwareFailure s) := by
  unfold execFirmwareFailure
  repeat' first | (with_reducible first | assumption | apply State.firmwareFails_canon | apply Out.canon_next) | intro _ | dsimp only | split

theorem State.unitFails_canon {s : State} (kind : UnitKind) (unit addr : Nat) (lasting : Bool) (hC : s.Canon) :
    (State.unitFails s kind unit addr lasting).Canon := by
  unfold State.unitFails
  repeat' first | (with_reducible first | assumption | apply State.modGroup_canon | apply State.poisonGran_canon | apply State.logSet_canon | apply State.subTransient_canon | apply State.retireCore_canon | apply State.subFence_canon | apply State.evacuate_canon | apply State.Canon.allWgs | apply State.Canon.allCores) | dsimp only | split | (simp only [State.canon_lit]; refine State.CanonLit.of _ ?_ ?_ ?_)

theorem execUnitFailure_canon (kind : UnitKind) (unit : Nat) (addr : Nat) (lasting : Bool) {s : State} (hC : s.Canon) :
    Out.Canon (execUnitFailure kind unit addr lasting s) := by
  unfold execUnitFailure
  repeat' first | (with_reducible first | assumption | apply State.unitFails_canon | apply Out.canon_next) | intro _ | dsimp only | split

theorem State.forgetCore_canon {s : State} (core : Nat) (hC : s.Canon) :
    (State.forgetCore s core).Canon := by
  unfold State.forgetCore
  repeat' first | (with_reducible first | assumption | apply State.modCore_canon | apply State.syncDir_canon | apply State.Canon.allWgs | apply State.Canon.allCores | apply foldl_canon) | (rename_i hx; exact ⟨hx.1, hx.2, hx.3⟩) | intro _ | (simp only [State.canon_lit]; refine State.CanonLit.of _ ?_ ?_ ?_) | dsimp only | split

theorem State.agentFails_canon {s : State} (a : Agent) (hC : s.Canon) :
    (State.agentFails s a).Canon := by
  unfold State.agentFails
  repeat' first | (with_reducible first | assumption | apply State.poisonGran_canon | apply State.forgetCore_canon | apply State.Canon.allWgs | apply State.Canon.allCores | apply foldl_canon) | intro _ | dsimp only | split | (simp only [State.canon_lit]; refine State.CanonLit.of _ ?_ ?_ ?_)

theorem execAgentFailure_canon (agent : Agent) {s : State} (hC : s.Canon) :
    Out.Canon (execAgentFailure agent s) := by
  unfold execAgentFailure
  repeat' first | (with_reducible first | assumption | apply State.agentFails_canon | apply Out.canon_next) | intro _ | dsimp only | split

theorem State.agentJoins_canon {s : State} (a : Agent) (hC : s.Canon) :
    (State.agentJoins s a).Canon := by
  unfold State.agentJoins
  repeat' first | (with_reducible first | assumption | refine fst_canon (by assumption) ?_ | apply State.walk_canon | apply State.modCore_canon | apply State.forgetCore_canon | apply State.Canon.allWgs | apply State.Canon.allCores) | (rename_i hx; exact ⟨hx.1, hx.2, hx.3⟩) | intro _ | dsimp only | split | (simp only [State.canon_lit]; refine State.CanonLit.of _ ?_ ?_ ?_)

theorem execAgentRejoin_canon (agent : Agent) {s : State} (hC : s.Canon) :
    Out.Canon (execAgentRejoin agent s) := by
  unfold execAgentRejoin
  repeat' first | (with_reducible first | assumption | apply State.agentJoins_canon | apply Out.canon_next) | intro _ | dsimp only | split

theorem execThermalThrottle_canon (on : Bool) {s : State} (hC : s.Canon) :
    Out.Canon (execThermalThrottle on s) := by
  unfold execThermalThrottle
  repeat' first | (with_reducible first | assumption | apply State.Canon.allWgs | apply State.Canon.allCores | apply Out.canon_next) | (simp only [State.canon_lit]; refine State.CanonLit.of _ ?_ ?_ ?_) | intro _ | dsimp only | split

theorem State.overheats_canon {s : State} (hC : s.Canon) :
    (State.overheats s).Canon := by
  unfold State.overheats
  repeat' first | (with_reducible first | assumption | apply State.Canon.allWgs | apply State.Canon.allCores | apply State.logSet_canon | apply State.allCores_canon) | exact Core.Canon.lit _ (by assumption) | intro _ | dsimp only | (simp only [State.canon_lit]; refine State.CanonLit.of _ ?_ ?_ ?_) | split

theorem execThermalShutdown_canon {s : State} (hC : s.Canon) :
    Out.Canon (execThermalShutdown s) := by
  unfold execThermalShutdown
  repeat' first | (with_reducible first | assumption | apply State.overheats_canon | apply Out.canon_next) | intro _ | dsimp only | split

theorem execLinkReset_canon {s : State} (hC : s.Canon) :
    Out.Canon (execLinkReset s) := by
  unfold execLinkReset
  repeat' first | (with_reducible first | assumption | apply Out.canon_next) | intro _ | dsimp only | split

theorem State.powerLost_canon {s : State} (hC : s.Canon) : s.powerLost.Canon :=
  ⟨rfl, hC.hostMem, rfl, rfl, rfl, Table.All.nil, Table.All.nil⟩

theorem execPowerOff_canon {s : State} (hC : s.Canon) :
    Out.Canon (execPowerOff s) := by
  unfold execPowerOff
  repeat' first | (with_reducible first | assumption | apply State.powerLost_canon | apply Out.canon_next) | intro _ | dsimp only | split

theorem State.powerOn_canon {s : State} (hC : s.Canon) :
    (State.powerOn s).Canon := by
  unfold State.powerOn
  repeat' first | (with_reducible first | assumption | apply State.Canon.allWgs | apply State.Canon.allCores) | split | (simp only [State.canon_lit]; refine State.CanonLit.of _ ?_ ?_ ?_) | dsimp only

theorem execPowerUp_canon {s : State} (hC : s.Canon) :
    Out.Canon (execPowerUp s) := by
  unfold execPowerUp
  repeat' first | (with_reducible first | assumption | apply State.powerOn_canon | apply Out.canon_next) | intro _ | dsimp only | split

theorem State.sleeps_canon {s : State} (core : Bool) (unit : Nat) (hC : s.Canon) :
    (State.sleeps s core unit).Canon := by
  unfold State.sleeps
  repeat' first | (with_reducible first | assumption | apply State.modCore_canon | apply State.Canon.allWgs | apply State.Canon.allCores) | (rename_i hx; exact ⟨hx.1, hx.2, hx.3⟩) | intro _ | split | (simp only [State.canon_lit]; refine State.CanonLit.of _ ?_ ?_ ?_) | dsimp only

theorem execRetentionSleepEntry_canon (core : Bool) (unit : Nat) {s : State} (hC : s.Canon) :
    Out.Canon (execRetentionSleepEntry core unit s) := by
  unfold execRetentionSleepEntry
  repeat' first | (with_reducible first | assumption | apply State.sleeps_canon | apply Out.canon_next) | intro _ | dsimp only | split

theorem State.attest_canon {s : State} (index : Nat) (hC : s.Canon) :
    (State.attest s index).Canon := by
  unfold State.attest
  repeat' first | (with_reducible first | assumption | apply State.Canon.allWgs | apply State.Canon.allCores) | split | (simp only [State.canon_lit]; refine State.CanonLit.of _ ?_ ?_ ?_) | dsimp only

theorem execSpdmRequest_canon (index : Nat) {s : State} (hC : s.Canon) :
    Out.Canon (execSpdmRequest index s) := by
  unfold execSpdmRequest
  repeat' first | (with_reducible first | assumption | apply State.attest_canon | apply Out.canon_next) | intro _ | dsimp only | split

theorem State.ahead_canon {s : State} (i : Iss) (hC : s.Canon) :
    (State.ahead s i).1.Canon := by
  unfold State.ahead
  repeat' first | (with_reducible first | assumption | refine fst_canon (by assumption) ?_ | apply State.reach_canon | apply State.Canon.allWgs | apply State.Canon.allCores) | dsimp only | split | (simp only [State.canon_lit]; refine State.CanonLit.of _ ?_ ?_ ?_)

theorem State.countHeld_canon {s : State} (dt : Nat) (c k : Nat) (hC : s.Canon) :
    (State.countHeld s dt c k).Canon := by
  unfold State.countHeld
  repeat' first | (with_reducible first | assumption | apply State.Canon.allWgs | apply State.Canon.allCores | apply State.modCore_canon) | (rename_i hx; exact ⟨hx.1, hx.2, hx.3⟩) | intro _ | dsimp only | (simp only [State.canon_lit]; refine State.CanonLit.of _ ?_ ?_ ?_) | split

theorem State.countBusy_canon {s : State} (key n : Nat) (hC : s.Canon) :
    (State.countBusy s key n).Canon := by
  unfold State.countBusy
  repeat' first | (with_reducible first | assumption | apply State.modCore_canon | apply State.Canon.allWgs | apply State.Canon.allCores) | (rename_i hx; exact ⟨hx.1, hx.2, hx.3⟩) | dsimp only | split | (simp only [State.canon_lit]; refine State.CanonLit.of _ ?_ ?_ ?_) | intro _

theorem State.tick_canon {s : State} (dt : Nat) (hC : s.Canon) :
    (State.tick s dt).Canon := by
  unfold State.tick
  repeat' first | (with_reducible first | assumption | apply State.barCycles_canon | apply State.countBusy_canon | apply State.countHeld_canon | apply State.Canon.allWgs | apply State.Canon.allCores | apply foldl_canon) | intro _ | dsimp only | split | (simp only [State.canon_lit]; refine State.CanonLit.of _ ?_ ?_ ?_)

end Sys2Proof.Machine
end

