-- ==== Sys2Proof/Laws/Quiet.lean ====
section
/-! SUPPORT. The operations of caches and of translation write no byte of memory and no register. -/
namespace Sys2Proof.Machine

theorem Quiet.refl (s : State) : Quiet s s := ⟨rfl, fun _ => rfl⟩

theorem Quiet.trans {s t u : State} (h : Quiet s t) (k : Quiet t u) : Quiet s u := by
  refine ⟨?_, fun c => ?_⟩
  · have e := k.rest
    rw [h.rest] at e
    exact e
  · have e := k.core c
    rw [h.core c] at e
    exact e

theorem Quiet.mem {s t : State} (h : Quiet s t) : t.mem = s.mem := by rw [h.rest]
theorem Quiet.groups {s t : State} (h : Quiet s t) : t.groups = s.groups := by rw [h.rest]
theorem Quiet.cur {s t : State} (h : Quiet s t) : t.cur = s.cur := by rw [h.rest]
theorem Quiet.wgs {s t : State} (h : Quiet s t) : t.wgs = s.wgs := by rw [h.rest]
theorem Quiet.iss {s t : State} (h : Quiet s t) : t.iss? = s.iss? := by unfold State.iss?; rw [h.cur, h.groups]

/-- A change of a core's caches alone. -/
theorem Quiet.modCore (s : State) (c : Nat) (f : Core → Core)
    (hf : ∀ k, f k = { k with tlb := (f k).tlb, walk := (f k).walk, l1 := (f k).l1, icache := (f k).icache, vta := (f k).vta, lls := (f k).lls,
                              xmiss := (f k).xmiss }) :
    Quiet s (s.modCore c f) := by
  refine ⟨rfl, fun d => ?_⟩
  by_cases e : d = c
  · subst e
    have : (s.modCore d f).core d = f (s.core d) := by simp [State.core, State.modCore, Table.getD, Table.get?_put_same]
    rw [this]; exact hf _
  · have : (s.modCore c f).core d = s.core d := by simp [State.core, State.modCore, Table.getD, Table.get?_put_other _ e]
    rw [this]

theorem Quiet.foldl {α : Type} (f : State → α → State) (hf : ∀ s a, Quiet s (f s a)) : ∀ (l : List α) (s : State), Quiet s (l.foldl f s) := by
  intro l
  induction l with
  | nil => exact fun s => Quiet.refl s
  | cons a l ih => exact fun s => (hf s a).trans (ih _)

theorem dramAsk_quiet (s : State) (line : Nat) (mask : BitVec 4) (w : Bool) : Quiet s (s.dramAsk line mask w) := ⟨rfl, fun _ => rfl⟩

theorem l2Put_quiet (s : State) (x : L2Line) : Quiet s (s.l2Put x) := by
  unfold State.l2Put; split <;> exact ⟨rfl, fun _ => rfl⟩

theorem syncDir_quiet (s : State) (line : Nat) (ctx : BitVec 16) : Quiet s (s.syncDir line ctx) := by
  unfold State.syncDir
  split
  · exact Quiet.refl s
  · split
    · exact Quiet.refl s
    · exact l2Put_quiet _ _

/-- Dropping a block from the instruction caches changes nothing else of a core. -/
theorem dropBlock_core (line sector c : Nat) (t : Table Core) :
    (dropBlock line sector t).getD c {} = { t.getD c {} with icache := ((dropBlock line sector t).getD c {}).icache } := by
  induction t with
  | nil => rfl
  | cons e t ih =>
    unfold dropBlock at ih ⊢
    unfold Table.getD at ih ⊢
    rw [List.map_cons, Table.get?, Table.get?]
    split
    · rfl
    · exact ih

theorem dropBlocks_quiet (s : State) (line : Nat) (older : Table OldSector) (l : List (Nat × OldSector)) :
    Quiet s { s with older := older, cores := l.foldl (fun t e => dropBlock line (e.1 % 4) t) s.cores } := by
  have main : ∀ (l : List (Nat × OldSector)) (t : Table Core) (c : Nat), (l.foldl (fun t e => dropBlock line (e.1 % 4) t) t).getD c {} =
      { t.getD c {} with icache := ((l.foldl (fun t e => dropBlock line (e.1 % 4) t) t).getD c {}).icache } := by
    intro l
    induction l with
    | nil => exact fun _ _ => rfl
    | cons e l ih =>
      intro t c
      rw [List.foldl_cons]
      have h := ih (dropBlock line (e.1 % 4) t) c
      rw [dropBlock_core] at h
      exact h
  refine ⟨rfl, fun c => ?_⟩
  have h := main l s.cores c
  unfold State.core
  dsimp only
  rw [h]

theorem syncLine_quiet (s : State) (line : Nat) : Quiet s (s.syncLine line) := Quiet.foldl _ (fun _ _ => syncDir_quiet _ _ _) _ _

theorem l2Dirty_quiet (s : State) (line : Nat) (ctx : BitVec 16) (mask : BitVec 4) : Quiet s (s.l2Dirty line ctx mask) := by
  unfold State.l2Dirty
  split
  · exact l2Put_quiet _ _
  · exact dramAsk_quiet _ _ _ _

theorem takeBack_quiet (s : State) (line : Nat) (ctx : BitVec 16) (mask : BitVec 4) : Quiet s (s.takeBack line ctx mask) := by
  unfold State.takeBack
  split
  · exact Quiet.refl s
  · exact ((dropBlocks_quiet s line _ _).trans (l2Dirty_quiet _ _ _ _)).trans (syncLine_quiet _ _)

theorem dropL1_quiet (s : State) (c line : Nat) (ctx : BitVec 16) : Quiet s (s.dropL1 c line ctx) := by
  unfold State.dropL1
  split
  · exact Quiet.refl s
  · exact (takeBack_quiet _ _ _ _).trans (Quiet.modCore _ _ _ fun _ => rfl)

theorem l1Put_caches (x : L1Line) (k : Core) : k.l1Put x =
    { k with tlb := (k.l1Put x).tlb, walk := (k.l1Put x).walk, l1 := (k.l1Put x).l1,
             icache := (k.l1Put x).icache, vta := (k.l1Put x).vta, lls := (k.l1Put x).lls,
             xmiss := (k.l1Put x).xmiss } := by
  unfold Core.l1Put; split <;> rfl

theorem dropSectors_quiet (s : State) (c line : Nat) (ctx : BitVec 16) (mask : BitVec 4) : Quiet s (s.dropSectors c line ctx mask) := by
  unfold State.dropSectors
  split
  · exact Quiet.refl s
  · split
    · exact dropL1_quiet _ _ _ _
    · exact (takeBack_quiet _ _ _ _).trans (Quiet.modCore _ _ _ (l1Put_caches _))

theorem dropCopies_quiet (s : State) (line : Nat) (ctx : BitVec 16) (mask : BitVec 4) (p : Nat → Bool) : Quiet s (s.dropCopies line ctx mask p) := by
  unfold State.dropCopies
  refine Quiet.trans (Quiet.foldl _ (fun s e => Quiet.trans ?_ (Quiet.modCore _ _ _ fun _ => rfl)) _ _) (syncLine_quiet _ _)
  dsimp only
  split
  · split
    · exact dropSectors_quiet _ _ _ _ _
    · exact dropL1_quiet _ _ _ _
  · exact Quiet.refl s

theorem evictL2_quiet (s : State) (x : L2Line) : Quiet s (s.evictL2 x) := by
  unfold State.evictL2
  dsimp only
  refine Quiet.trans (dropCopies_quiet s x.line x.ctx 0xF#4 fun _ => true) ?_
  split
  · exact (dramAsk_quiet _ _ _ _).trans ⟨rfl, fun _ => rfl⟩
  · exact ⟨rfl, fun _ => rfl⟩

theorem freeCtr_quiet (s : State) (n : Nat) : Quiet s { s with freeCtr := n } := ⟨rfl, fun _ => rfl⟩

theorem roomL2_quiet (s : State) (line : Nat) : Quiet s (s.roomL2 line) := by
  unfold State.roomL2
  split
  · exact Quiet.refl s
  · dsimp only
    split
    · exact Quiet.refl s
    · split
      · exact (freeCtr_quiet _ _).trans (evictL2_quiet _ _)
      · exact Quiet.refl s

theorem l2Fill_quiet (s : State) (line : Nat) (ctx : BitVec 16) (priv : Option Nat) (mask : BitVec 4) (fill : Bool) :
    Quiet s (s.l2Fill line ctx priv mask fill) := by
  unfold State.l2Fill
  dsimp only
  refine Quiet.trans (t := if (s.l2At line ctx).isSome = true then s else s.roomL2 line) ?_ ?_
  · split
    · exact Quiet.refl s
    · exact roomL2_quiet _ _
  · generalize (if (s.l2At line ctx).isSome = true then s else s.roomL2 line) = u
    refine Quiet.trans ?_ (l2Put_quiet _ _)
    split
    · exact dramAsk_quiet _ _ _ _
    · exact Quiet.refl _

theorem l2Share_quiet (s : State) (line : Nat) (ctx : BitVec 16) : Quiet s (s.l2Share line ctx) := by
  unfold State.l2Share
  split
  · split
    · exact l2Put_quiet _ _
    · exact Quiet.refl s
  · exact Quiet.refl s

theorem countMiss_caches (line : Nat) (slot : BitVec 6) (k : Core) : k.countMiss line slot =
    { k with tlb := (k.countMiss line slot).tlb, walk := (k.countMiss line slot).walk, l1 := (k.countMiss line slot).l1,
             icache := (k.countMiss line slot).icache, vta := (k.countMiss line slot).vta, lls := (k.countMiss line slot).lls,
             xmiss := (k.countMiss line slot).xmiss } := by
  unfold Core.countMiss; split <;> rfl

theorem roomL1_quiet (s : State) (c line : Nat) : Quiet s (s.roomL1 c line) := by
  unfold State.roomL1
  dsimp only
  split
  · exact Quiet.refl s
  · split
    · exact Quiet.refl s
    · split
      · exact (freeCtr_quiet _ _).trans ((dropL1_quiet _ _ _ _).trans ((Quiet.modCore _ _ _ fun _ => rfl).trans (syncDir_quiet _ _ _)))
      · exact Quiet.refl s

theorem enterL1_quiet (s : State) (c : Nat) (x : L1Line) : Quiet s (s.enterL1 c x) := by
  unfold State.enterL1
  dsimp only
  refine Quiet.trans (t := if s.liveCtx x.ctx = true then s else s.dropL1 c x.line x.ctx) ?_ ?_
  · split
    · exact Quiet.refl s
    · exact dropL1_quiet _ _ _ _
  · generalize (if s.liveCtx x.ctx = true then s else s.dropL1 c x.line x.ctx) = u
    refine Quiet.trans ?_ (Quiet.modCore _ _ _ (l1Put_caches x))
    split
    · exact Quiet.refl u
    · exact roomL1_quiet _ _ _

theorem recallOthers_quiet (s : State) (c line : Nat) (ctx : BitVec 16) (mask : BitVec 4) : Quiet s (s.recallOthers c line ctx mask) := by
  unfold State.recallOthers
  apply Quiet.foldl
  intro s e
  split
  · exact Quiet.refl s
  · split
    · exact (takeBack_quiet _ _ _ _).trans (Quiet.modCore _ _ _ (l1Put_caches _))
    · exact dropSectors_quiet _ _ _ _ _
    · exact Quiet.refl s

theorem miss_quiet (s : State) (c line : Nat) (slot : BitVec 6) : Quiet s (s.modCore c (Core.countMiss · line slot)) :=
  Quiet.modCore _ _ _ (countMiss_caches line slot)

theorem Quiet.ite {s t u : State} {p : Prop} [Decidable p] (h : Quiet s t) (k : Quiet s u) : Quiet s (if p then t else u) := by
  split <;> assumption

/-- A load reaches the caches. -/
theorem loadLine_quiet (s : State) (c : Nat) (slot : BitVec 6) (ctx : BitVec 16) (path : Path) (na : Bool) (sector : Nat) :
    Quiet s (s.loadLine c slot ctx path na sector) := by
  unfold State.loadLine
  cases path with
  | priv =>
    refine Quiet.ite (Quiet.refl s) (Quiet.trans ?_ (Quiet.ite (Quiet.refl _) (enterL1_quiet _ _ _)))
    exact (miss_quiet _ _ _ _).trans (l2Fill_quiet _ _ _ _ _ _)
  | shared =>
    refine Quiet.ite (Quiet.refl s) (Quiet.trans (Quiet.trans ?_ (Quiet.ite (Quiet.refl _) (enterL1_quiet _ _ _))) (syncDir_quiet _ _ _))
    exact (((miss_quiet _ _ _ _).trans (recallOthers_quiet _ _ _ _ _)).trans (l2Fill_quiet _ _ _ _ _ _)).trans (l2Share_quiet _ _ _)
  | home => exact ((recallOthers_quiet _ _ _ _ _).trans (l2Fill_quiet _ _ _ _ _ _)).trans (syncDir_quiet _ _ _)

theorem storeHome_quiet (s : State) (c line : Nat) (ctx : BitVec 16) (bit : BitVec 4) (full : Bool) (p : Nat → Bool) :
    Quiet s (s.storeHome c line ctx bit full p) :=
  ((((recallOthers_quiet _ _ _ _ _).trans (l2Fill_quiet _ _ _ _ _ _)).trans (dropCopies_quiet _ _ _ _ _)).trans (takeBack_quiet _ _ _ _)).trans
    (syncDir_quiet _ _ _)

/-- A store reaches the caches. -/
theorem storeLine_quiet (s : State) (c : Nat) (slot : BitVec 6) (ctx : BitVec 16) (path : Path) (full : Bool) (sector : Nat) (na : Bool) :
    Quiet s (s.storeLine c slot ctx path full sector na) := by
  unfold State.storeLine
  cases path with
  | priv =>
    refine Quiet.trans ?_ (Quiet.ite (takeBack_quiet _ _ _ _) (enterL1_quiet _ _ _))
    exact Quiet.ite (Quiet.refl s) ((miss_quiet _ _ _ _).trans (l2Fill_quiet _ _ _ _ _ _))
  | shared =>
    dsimp only
    split
    · refine Quiet.ite (Quiet.modCore _ _ _ (l1Put_caches _)) (Quiet.ite ?_ (storeHome_quiet _ _ _ _ _ _ _))
      exact (Quiet.modCore _ _ _ (l1Put_caches _)).trans (syncDir_quiet _ _ _)
    · refine Quiet.trans (miss_quiet _ _ _ _) (Quiet.ite ?_ (storeHome_quiet _ _ _ _ _ _ _))
      exact (((l2Fill_quiet _ _ _ _ _ _).trans (l2Share_quiet _ _ _)).trans (enterL1_quiet _ _ _)).trans (syncDir_quiet _ _ _)
  | home => exact storeHome_quiet _ _ _ _ _ _ _

/-- A line's dirty data go back to DRAM. -/
theorem cleanLine_quiet (s : State) (line : Nat) (inv : Bool) : Quiet s (s.cleanLine line inv) := by
  unfold State.cleanLine
  dsimp only
  refine Quiet.trans ?_ (Quiet.foldl _ ?_ _ _)
  · apply Quiet.foldl
    intro s e
    apply Quiet.foldl
    intro s l
    exact (takeBack_quiet _ _ _ _).trans (Quiet.modCore _ _ _ (l1Put_caches _))
  · intro s t
    split
    · exact Quiet.refl s
    · split
      · exact ((dramAsk_quiet _ _ _ _).trans (l2Put_quiet _ _)).trans (evictL2_quiet _ _)
      · exact (dramAsk_quiet _ _ _ _).trans (l2Put_quiet _ _)

/-- A block enters an instruction cache. -/
theorem enterCode_quiet (s : State) (c : Nat) (ctx : BitVec 16) (sector : Nat) : Quiet s (s.enterCode c ctx sector) := by
  unfold State.enterCode
  extract_lets line bit u k same drop v w
  have hu : Quiet s u := (recallOthers_quiet _ _ _ _ _).trans (l2Fill_quiet _ _ _ _ _ _)
  have hw : Quiet s w := (hu.trans (Quiet.ite (Quiet.refl _) (freeCtr_quiet _ _))).trans (Quiet.modCore v c _ fun _ => rfl)
  clear_value w v drop same k u
  refine Quiet.trans (Quiet.ite (hu.trans (Quiet.modCore _ _ _ fun _ => rfl)) ?_) (syncDir_quiet _ _ _)
  cases drop with
  | some l => exact hw.trans (syncDir_quiet _ _ _)
  | none => exact hw

theorem poisonGran_quiet (s : State) (g : Nat) : Quiet s (s.poisonGran g) := ⟨rfl, fun _ => rfl⟩

theorem markRead_quiet (s : State) (p n : Nat) : Quiet s (s.markRead p n) := by
  unfold State.markRead
  apply Quiet.foldl
  intro s g
  split
  · exact poisonGran_quiet _ _
  · exact Quiet.refl s

theorem setTlb_quiet (s : State) (t : Tc) (l : List TlbEntry) : Quiet s (s.setTlb t l) := by
  cases t
  · rename_i c
    exact Quiet.modCore s c (fun k => { k with tlb := l }) fun _ => rfl
  · exact ⟨rfl, fun _ => rfl⟩
  · exact ⟨rfl, fun _ => rfl⟩

theorem readEntry_quiet (s : State) (ctx : BitVec 16) (acc : Acc) (va pa : Nat) : Quiet s (s.readEntry ctx acc va pa).1 := by
  unfold State.readEntry
  dsimp only
  have h := l2Fill_quiet s (s.place pa 0 / 128) ctx none (1#4 <<< (s.place pa 0 / 32 % 4)) true
  split
  · exact h
  · exact h.trans (markRead_quiet _ _ _)

theorem walkFails_quiet (s : State) (c va : Nat) (b : Bad) : Quiet s (s.walkFails c va b) := by
  unfold State.walkFails
  split
  · exact Quiet.refl s
  · exact Quiet.modCore _ _ _ fun _ => rfl

theorem walkFrom_quiet (ctx : BitVec 16) (acc : Acc) (va : Nat) : ∀ (levs : List Nat) (t : Nat) (s : State), Quiet s (walkFrom ctx acc va levs t s).1 := by
  intro levs
  induction levs with
  | nil => exact fun _ s => Quiet.refl s
  | cons lev rest ih =>
    intro t s
    unfold walkFrom
    have h := readEntry_quiet s ctx acc va (t + 8 * walkIndex va lev)
    dsimp only
    split
    · rename_i e; rw [e] at h; exact h
    · rename_i e; rw [e] at h
      split
      · exact h
      · split
        · exact h
        · exact h.trans (ih _ _)

/-- A walk changes caches alone. -/
theorem walk_quiet (s : State) (core : Option Nat) (ctx : BitVec 16) (ctxt : Nat) (acc : Acc) (va : Nat) : Quiet s (s.walk core ctx ctxt acc va).1 := by
  unfold State.walk
  dsimp only
  have main : ∀ (r : State × Except Bad Walked × List (Nat × Nat)), Quiet s r.1 → Quiet s (match r.2.1, core with
      | .error b, some c => (r.1.walkFails c va b, Except.error b)
      | .ok w, some c => (r.2.2.foldl (fun (s : State) (p : Nat × Nat) => { s.modCore c fun k => { k with
          walk := putCache 256 (Config.victim s.freeCtr) k.walk ⟨ctx, va / 2 ^ pageBits p.1, p.1, p.2⟩ } with freeCtr := s.freeCtr + 1 }) r.1, Except.ok w)
      | x, _ => (r.1, x)).1 := by
    intro r hr
    split
    · exact hr.trans (walkFails_quiet _ _ _ _)
    · refine hr.trans (Quiet.foldl _ ?_ _ _)
      intro s p
      exact (Quiet.modCore s _ (fun k => { k with walk := putCache 256 (Config.victim s.freeCtr) k.walk ⟨ctx, va / 2 ^ pageBits p.1, p.1, p.2⟩ }) fun _ => rfl).trans
        (freeCtr_quiet _ _)
    · exact hr
  apply main
  split
  · exact walkFrom_quiet _ _ _ _ _ _
  · have h := readEntry_quiet s ctx acc va (ctxt + 8 * (ctx.toNat % 4096))
    split
    · rename_i e; rw [e] at h; exact h
    · rename_i e; rw [e] at h
      split
      · exact h
      · exact h.trans (walkFrom_quiet _ _ _ _ _ _)

/-- Translation without a claim changes caches alone. -/
theorem translate_quiet (s : State) (t : Tc) (ctx : BitVec 16) (ctxt : Nat) (acc : Acc) (va : Nat) : Quiet s (s.translate t ctx ctxt acc false va).1 := by
  unfold State.translate
  dsimp only
  split
  · exact Quiet.refl s
  · split
    · split <;> exact Quiet.refl s
    · have h := walk_quiet s t.coreNum ctx ctxt acc va
      split
      · rename_i e; rw [e] at h; exact h
      · rename_i e; rw [e] at h
        split
        · exact h
        · split
          · exact h.trans (setTlb_quiet _ _ _)
          · exact h.trans ((setTlb_quiet _ _ _).trans (freeCtr_quiet _ _))

theorem gx_quiet (s : State) (x : Iss) (acc : Acc) (va : Nat) : Quiet s (s.gx x acc false va).1 := translate_quiet _ _ _ _ _ _

/-- A group's execution at its level reaches the caches. -/
theorem flushPage_quiet (s : State) (ctx : BitVec 16) (leaf : DWord) (level owner page : Nat) : Quiet s (s.flushPage ctx leaf level owner page) := by
  unfold State.flushPage
  dsimp only
  exact ((Quiet.foldl _ (fun _ _ => dropL1_quiet _ _ _ _) _ _).trans (Quiet.modCore _ _ _ fun _ => rfl)).trans ⟨rfl, fun _ => rfl⟩

end Sys2Proof.Machine
end

