-- ==== Sys2Proof/Laws/Held.lean ====
section
/-! SUPPORT. An access that the translation cache holds changes nothing to be translated. -/
namespace Sys2Proof.Machine

/-- A held access is translated without a walk and without a claim. -/
theorem gx_held {s : State} {i : Iss} {acc : Acc} {claim : Bool} {va : Nat} {t : Xl} (h : s.held i acc claim va = some t) :
    s.gx i acc claim va = (s, .ok t) := by
  unfold State.held at h
  unfold State.gx State.translate
  dsimp only
  split at h
  · cases h
  · rename_i hv
    rw [if_neg hv]
    split at h
    · cases h
    · rename_i e he
      split at h
      · cases h
      · rename_i hc
        simp only [Bool.or_eq_true, Option.isSome_iff_ne_none, Bool.and_eq_true, not_or, ne_eq, Decidable.not_not, not_and, Bool.not_eq_true] at hc
        obtain ⟨h1, h2⟩ := hc
        simp only [he, Tc.coreNum, Option.getD_some]
        have h3 : (claim && claimActs i.core e.leaf) = false := by cases claim <;> simp_all
        simp only [h3, Bool.false_eq_true, ↓reduceIte, h1]
        cases h; rfl

theorem aimParts_held {s : State} {i : Iss} {o : Opc} {x : Op} : ∀ {parts : List (Nat × Nat)} {off : Nat} {ps : List Piece},
    s.heldParts i o x off parts = some ps → s.aimParts i o x off parts = (s, .ok ps) := by
  intro parts
  induction parts with
  | nil => intro off ps h; cases h; rfl
  | cons p rest ih =>
    intro off ps h
    obtain ⟨va, n⟩ := p
    unfold State.heldParts at h
    unfold State.aimParts
    split at h
    · rename_i t ps' h0 h1 h2
      cases h
      simp only [State.mx, h0, gx_held h1, ih h2]
    · cases h

/-- A held access aims at its pieces and changes nothing. -/
theorem aim_held {s : State} {i : Iss} {o : Opc} {x : Op} {l : Nat} {t : Target} (h : s.heldTarget i o x l = some t) :
    s.aim i o x l = (s, .ok t) := by
  unfold State.heldTarget at h
  unfold State.aim
  split at h
  · cases h
  · rename_i a parts ha
    try rw [ha]
    try dsimp only
    split at h
    · rename_i hl; cases h; rw [if_pos hl]
    · rename_i hl
      rw [if_neg hl]
      cases hp : s.heldParts i o x 0 parts with
      | none => rw [hp] at h; cases h
      | some ps => rw [hp] at h; cases h; rw [aimParts_held hp]

end Sys2Proof.Machine
end

