-- ==== Sys2Proof/Laws/State.lean ====
section
/-! SUPPORT. What each update of the state leaves alone, a lemma for each field, so that no proof unfolds a record update. -/
namespace Sys2Proof.Machine

@[simp] theorem State.setGroup_clock (s : State) (k : Nat) (g : Group) : (s.setGroup k g).clock = s.clock := rfl
@[simp] theorem State.setGroup_powered (s : State) (k : Nat) (g : Group) : (s.setGroup k g).powered = s.powered := rfl
@[simp] theorem State.setGroup_verMin (s : State) (k : Nat) (g : Group) : (s.setGroup k g).verMin = s.verMin := rfl
@[simp] theorem State.setGroup_verMax (s : State) (k : Nat) (g : Group) : (s.setGroup k g).verMax = s.verMax := rfl
@[simp] theorem State.setGroup_versel (s : State) (k : Nat) (g : Group) : (s.setGroup k g).versel = s.versel := rfl
@[simp] theorem State.setGroup_go (s : State) (k : Nat) (g : Group) : (s.setGroup k g).go = s.go := rfl
@[simp] theorem State.setGroup_err (s : State) (k : Nat) (g : Group) : (s.setGroup k g).err = s.err := rfl
@[simp] theorem State.setGroup_fwstat (s : State) (k : Nat) (g : Group) : (s.setGroup k g).fwstat = s.fwstat := rfl
@[simp] theorem State.setGroup_fwImage (s : State) (k : Nat) (g : Group) : (s.setGroup k g).fwImage = s.fwImage := rfl
@[simp] theorem State.setGroup_devnum (s : State) (k : Nat) (g : Group) : (s.setGroup k g).devnum = s.devnum := rfl
@[simp] theorem State.setGroup_xm (s : State) (k : Nat) (g : Group) : (s.setGroup k g).xm = s.xm := rfl
@[simp] theorem State.setGroup_errHead (s : State) (k : Nat) (g : Group) : (s.setGroup k g).errHead = s.errHead := rfl
@[simp] theorem State.setGroup_errTail (s : State) (k : Nat) (g : Group) : (s.setGroup k g).errTail = s.errTail := rfl
@[simp] theorem State.setGroup_errBase (s : State) (k : Nat) (g : Group) : (s.setGroup k g).errBase = s.errBase := rfl
@[simp] theorem State.setGroup_hdm (s : State) (k : Nat) (g : Group) : (s.setGroup k g).hdm = s.hdm := rfl
@[simp] theorem State.setGroup_fabric (s : State) (k : Nat) (g : Group) : (s.setGroup k g).fabric = s.fabric := rfl
@[simp] theorem State.setGroup_parts (s : State) (k : Nat) (g : Group) : (s.setGroup k g).parts = s.parts := rfl
@[simp] theorem State.setGroup_cores (s : State) (k : Nat) (g : Group) : (s.setGroup k g).cores = s.cores := rfl
@[simp] theorem State.setGroup_wgs (s : State) (k : Nat) (g : Group) : (s.setGroup k g).wgs = s.wgs := rfl
@[simp] theorem State.setGroup_launches (s : State) (k : Nat) (g : Group) : (s.setGroup k g).launches = s.launches := rfl
@[simp] theorem State.setGroup_taskq (s : State) (k : Nat) (g : Group) : (s.setGroup k g).taskq = s.taskq := rfl
@[simp] theorem State.setGroup_taskNum (s : State) (k : Nat) (g : Group) : (s.setGroup k g).taskNum = s.taskNum := rfl
@[simp] theorem State.setGroup_mem (s : State) (k : Nat) (g : Group) : (s.setGroup k g).mem = s.mem := rfl
@[simp] theorem State.setGroup_poison (s : State) (k : Nat) (g : Group) : (s.setGroup k g).poison = s.poison := rfl
@[simp] theorem State.setGroup_staged (s : State) (k : Nat) (g : Group) : (s.setGroup k g).staged = s.staged := rfl
@[simp] theorem State.setGroup_bad (s : State) (k : Nat) (g : Group) : (s.setGroup k g).bad = s.bad := rfl
@[simp] theorem State.setGroup_hostMem (s : State) (k : Nat) (g : Group) : (s.setGroup k g).hostMem = s.hostMem := rfl
@[simp] theorem State.setGroup_older (s : State) (k : Nat) (g : Group) : (s.setGroup k g).older = s.older := rfl
@[simp] theorem State.setGroup_xmHeld (s : State) (k : Nat) (g : Group) : (s.setGroup k g).xmHeld = s.xmHeld := rfl
@[simp] theorem State.setGroup_l2 (s : State) (k : Nat) (g : Group) : (s.setGroup k g).l2 = s.l2 := rfl
@[simp] theorem State.setGroup_sliceTlb (s : State) (k : Nat) (g : Group) : (s.setGroup k g).sliceTlb = s.sliceTlb := rfl
@[simp] theorem State.setGroup_execTlb (s : State) (k : Nat) (g : Group) : (s.setGroup k g).execTlb = s.execTlb := rfl
@[simp] theorem State.setGroup_gens (s : State) (k : Nat) (g : Group) : (s.setGroup k g).gens = s.gens := rfl
@[simp] theorem State.setGroup_retire (s : State) (k : Nat) (g : Group) : (s.setGroup k g).retire = s.retire := rfl
@[simp] theorem State.setGroup_rows (s : State) (k : Nat) (g : Group) : (s.setGroup k g).rows = s.rows := rfl
@[simp] theorem State.setGroup_trefwHigh (s : State) (k : Nat) (g : Group) : (s.setGroup k g).trefwHigh = s.trefwHigh := rfl
@[simp] theorem State.setGroup_selfRefresh (s : State) (k : Nat) (g : Group) : (s.setGroup k g).selfRefresh = s.selfRefresh := rfl
@[simp] theorem State.setGroup_chan (s : State) (k : Nat) (g : Group) : (s.setGroup k g).chan = s.chan := rfl
@[simp] theorem State.setGroup_ulock (s : State) (k : Nat) (g : Group) : (s.setGroup k g).ulock = s.ulock := rfl
@[simp] theorem State.setGroup_freeze (s : State) (k : Nat) (g : Group) : (s.setGroup k g).freeze = s.freeze := rfl
@[simp] theorem State.setGroup_copies (s : State) (k : Nat) (g : Group) : (s.setGroup k g).copies = s.copies := rfl
@[simp] theorem State.setGroup_tierOps (s : State) (k : Nat) (g : Group) : (s.setGroup k g).tierOps = s.tierOps := rfl
@[simp] theorem State.setGroup_images (s : State) (k : Nat) (g : Group) : (s.setGroup k g).images = s.images := rfl
@[simp] theorem State.setGroup_retiredUnits (s : State) (k : Nat) (g : Group) : (s.setGroup k g).retiredUnits = s.retiredUnits := rfl
@[simp] theorem State.setGroup_spare (s : State) (k : Nat) (g : Group) : (s.setGroup k g).spare = s.spare := rfl
@[simp] theorem State.setGroup_links (s : State) (k : Nat) (g : Group) : (s.setGroup k g).links = s.links := rfl
@[simp] theorem State.setGroup_sliceAsleep (s : State) (k : Nat) (g : Group) : (s.setGroup k g).sliceAsleep = s.sliceAsleep := rfl
@[simp] theorem State.setGroup_hostEpoch (s : State) (k : Nat) (g : Group) : (s.setGroup k g).hostEpoch = s.hostEpoch := rfl
@[simp] theorem State.setGroup_hostFailed (s : State) (k : Nat) (g : Group) : (s.setGroup k g).hostFailed = s.hostFailed := rfl
@[simp] theorem State.setGroup_peerEpoch (s : State) (k : Nat) (g : Group) : (s.setGroup k g).peerEpoch = s.peerEpoch := rfl
@[simp] theorem State.setGroup_peerFailed (s : State) (k : Nat) (g : Group) : (s.setGroup k g).peerFailed = s.peerFailed := rfl
@[simp] theorem State.setGroup_coreFailed (s : State) (k : Nat) (g : Group) : (s.setGroup k g).coreFailed = s.coreFailed := rfl
@[simp] theorem State.setGroup_throttled (s : State) (k : Nat) (g : Group) : (s.setGroup k g).throttled = s.throttled := rfl
@[simp] theorem State.setGroup_fwHash (s : State) (k : Nat) (g : Group) : (s.setGroup k g).fwHash = s.fwHash := rfl
@[simp] theorem State.setGroup_fwVersion (s : State) (k : Nat) (g : Group) : (s.setGroup k g).fwVersion = s.fwVersion := rfl
@[simp] theorem State.setGroup_spdm (s : State) (k : Nat) (g : Group) : (s.setGroup k g).spdm = s.spdm := rfl
@[simp] theorem State.setGroup_cur (s : State) (k : Nat) (g : Group) : (s.setGroup k g).cur = s.cur := rfl
@[simp] theorem State.setGroup_agenda (s : State) (k : Nat) (g : Group) : (s.setGroup k g).agenda = s.agenda := rfl
@[simp] theorem State.setGroup_issued (s : State) (k : Nat) (g : Group) : (s.setGroup k g).issued = s.issued := rfl
@[simp] theorem State.setGroup_cyc (s : State) (k : Nat) (g : Group) : (s.setGroup k g).cyc = s.cyc := rfl
@[simp] theorem State.setGroup_nextId (s : State) (k : Nat) (g : Group) : (s.setGroup k g).nextId = s.nextId := rfl
@[simp] theorem State.setGroup_dram (s : State) (k : Nat) (g : Group) : (s.setGroup k g).dram = s.dram := rfl
@[simp] theorem State.setGroup_freeCtr (s : State) (k : Nat) (g : Group) : (s.setGroup k g).freeCtr = s.freeCtr := rfl

@[simp] theorem State.modCore_clock (s : State) (c : Nat) (f : Core → Core) : (s.modCore c f).clock = s.clock := rfl
@[simp] theorem State.modCore_powered (s : State) (c : Nat) (f : Core → Core) : (s.modCore c f).powered = s.powered := rfl
@[simp] theorem State.modCore_verMin (s : State) (c : Nat) (f : Core → Core) : (s.modCore c f).verMin = s.verMin := rfl
@[simp] theorem State.modCore_verMax (s : State) (c : Nat) (f : Core → Core) : (s.modCore c f).verMax = s.verMax := rfl
@[simp] theorem State.modCore_versel (s : State) (c : Nat) (f : Core → Core) : (s.modCore c f).versel = s.versel := rfl
@[simp] theorem State.modCore_go (s : State) (c : Nat) (f : Core → Core) : (s.modCore c f).go = s.go := rfl
@[simp] theorem State.modCore_err (s : State) (c : Nat) (f : Core → Core) : (s.modCore c f).err = s.err := rfl
@[simp] theorem State.modCore_fwstat (s : State) (c : Nat) (f : Core → Core) : (s.modCore c f).fwstat = s.fwstat := rfl
@[simp] theorem State.modCore_fwImage (s : State) (c : Nat) (f : Core → Core) : (s.modCore c f).fwImage = s.fwImage := rfl
@[simp] theorem State.modCore_devnum (s : State) (c : Nat) (f : Core → Core) : (s.modCore c f).devnum = s.devnum := rfl
@[simp] theorem State.modCore_xm (s : State) (c : Nat) (f : Core → Core) : (s.modCore c f).xm = s.xm := rfl
@[simp] theorem State.modCore_errHead (s : State) (c : Nat) (f : Core → Core) : (s.modCore c f).errHead = s.errHead := rfl
@[simp] theorem State.modCore_errTail (s : State) (c : Nat) (f : Core → Core) : (s.modCore c f).errTail = s.errTail := rfl
@[simp] theorem State.modCore_errBase (s : State) (c : Nat) (f : Core → Core) : (s.modCore c f).errBase = s.errBase := rfl
@[simp] theorem State.modCore_hdm (s : State) (c : Nat) (f : Core → Core) : (s.modCore c f).hdm = s.hdm := rfl
@[simp] theorem State.modCore_fabric (s : State) (c : Nat) (f : Core → Core) : (s.modCore c f).fabric = s.fabric := rfl
@[simp] theorem State.modCore_parts (s : State) (c : Nat) (f : Core → Core) : (s.modCore c f).parts = s.parts := rfl
@[simp] theorem State.modCore_groups (s : State) (c : Nat) (f : Core → Core) : (s.modCore c f).groups = s.groups := rfl
@[simp] theorem State.modCore_wgs (s : State) (c : Nat) (f : Core → Core) : (s.modCore c f).wgs = s.wgs := rfl
@[simp] theorem State.modCore_launches (s : State) (c : Nat) (f : Core → Core) : (s.modCore c f).launches = s.launches := rfl
@[simp] theorem State.modCore_taskq (s : State) (c : Nat) (f : Core → Core) : (s.modCore c f).taskq = s.taskq := rfl
@[simp] theorem State.modCore_taskNum (s : State) (c : Nat) (f : Core → Core) : (s.modCore c f).taskNum = s.taskNum := rfl
@[simp] theorem State.modCore_mem (s : State) (c : Nat) (f : Core → Core) : (s.modCore c f).mem = s.mem := rfl
@[simp] theorem State.modCore_poison (s : State) (c : Nat) (f : Core → Core) : (s.modCore c f).poison = s.poison := rfl
@[simp] theorem State.modCore_staged (s : State) (c : Nat) (f : Core → Core) : (s.modCore c f).staged = s.staged := rfl
@[simp] theorem State.modCore_bad (s : State) (c : Nat) (f : Core → Core) : (s.modCore c f).bad = s.bad := rfl
@[simp] theorem State.modCore_hostMem (s : State) (c : Nat) (f : Core → Core) : (s.modCore c f).hostMem = s.hostMem := rfl
@[simp] theorem State.modCore_older (s : State) (c : Nat) (f : Core → Core) : (s.modCore c f).older = s.older := rfl
@[simp] theorem State.modCore_xmHeld (s : State) (c : Nat) (f : Core → Core) : (s.modCore c f).xmHeld = s.xmHeld := rfl
@[simp] theorem State.modCore_l2 (s : State) (c : Nat) (f : Core → Core) : (s.modCore c f).l2 = s.l2 := rfl
@[simp] theorem State.modCore_sliceTlb (s : State) (c : Nat) (f : Core → Core) : (s.modCore c f).sliceTlb = s.sliceTlb := rfl
@[simp] theorem State.modCore_execTlb (s : State) (c : Nat) (f : Core → Core) : (s.modCore c f).execTlb = s.execTlb := rfl
@[simp] theorem State.modCore_gens (s : State) (c : Nat) (f : Core → Core) : (s.modCore c f).gens = s.gens := rfl
@[simp] theorem State.modCore_retire (s : State) (c : Nat) (f : Core → Core) : (s.modCore c f).retire = s.retire := rfl
@[simp] theorem State.modCore_rows (s : State) (c : Nat) (f : Core → Core) : (s.modCore c f).rows = s.rows := rfl
@[simp] theorem State.modCore_trefwHigh (s : State) (c : Nat) (f : Core → Core) : (s.modCore c f).trefwHigh = s.trefwHigh := rfl
@[simp] theorem State.modCore_selfRefresh (s : State) (c : Nat) (f : Core → Core) : (s.modCore c f).selfRefresh = s.selfRefresh := rfl
@[simp] theorem State.modCore_chan (s : State) (c : Nat) (f : Core → Core) : (s.modCore c f).chan = s.chan := rfl
@[simp] theorem State.modCore_ulock (s : State) (c : Nat) (f : Core → Core) : (s.modCore c f).ulock = s.ulock := rfl
@[simp] theorem State.modCore_freeze (s : State) (c : Nat) (f : Core → Core) : (s.modCore c f).freeze = s.freeze := rfl
@[simp] theorem State.modCore_copies (s : State) (c : Nat) (f : Core → Core) : (s.modCore c f).copies = s.copies := rfl
@[simp] theorem State.modCore_tierOps (s : State) (c : Nat) (f : Core → Core) : (s.modCore c f).tierOps = s.tierOps := rfl
@[simp] theorem State.modCore_images (s : State) (c : Nat) (f : Core → Core) : (s.modCore c f).images = s.images := rfl
@[simp] theorem State.modCore_retiredUnits (s : State) (c : Nat) (f : Core → Core) : (s.modCore c f).retiredUnits = s.retiredUnits := rfl
@[simp] theorem State.modCore_spare (s : State) (c : Nat) (f : Core → Core) : (s.modCore c f).spare = s.spare := rfl
@[simp] theorem State.modCore_links (s : State) (c : Nat) (f : Core → Core) : (s.modCore c f).links = s.links := rfl
@[simp] theorem State.modCore_sliceAsleep (s : State) (c : Nat) (f : Core → Core) : (s.modCore c f).sliceAsleep = s.sliceAsleep := rfl
@[simp] theorem State.modCore_hostEpoch (s : State) (c : Nat) (f : Core → Core) : (s.modCore c f).hostEpoch = s.hostEpoch := rfl
@[simp] theorem State.modCore_hostFailed (s : State) (c : Nat) (f : Core → Core) : (s.modCore c f).hostFailed = s.hostFailed := rfl
@[simp] theorem State.modCore_peerEpoch (s : State) (c : Nat) (f : Core → Core) : (s.modCore c f).peerEpoch = s.peerEpoch := rfl
@[simp] theorem State.modCore_peerFailed (s : State) (c : Nat) (f : Core → Core) : (s.modCore c f).peerFailed = s.peerFailed := rfl
@[simp] theorem State.modCore_coreFailed (s : State) (c : Nat) (f : Core → Core) : (s.modCore c f).coreFailed = s.coreFailed := rfl
@[simp] theorem State.modCore_throttled (s : State) (c : Nat) (f : Core → Core) : (s.modCore c f).throttled = s.throttled := rfl
@[simp] theorem State.modCore_fwHash (s : State) (c : Nat) (f : Core → Core) : (s.modCore c f).fwHash = s.fwHash := rfl
@[simp] theorem State.modCore_fwVersion (s : State) (c : Nat) (f : Core → Core) : (s.modCore c f).fwVersion = s.fwVersion := rfl
@[simp] theorem State.modCore_spdm (s : State) (c : Nat) (f : Core → Core) : (s.modCore c f).spdm = s.spdm := rfl
@[simp] theorem State.modCore_cur (s : State) (c : Nat) (f : Core → Core) : (s.modCore c f).cur = s.cur := rfl
@[simp] theorem State.modCore_agenda (s : State) (c : Nat) (f : Core → Core) : (s.modCore c f).agenda = s.agenda := rfl
@[simp] theorem State.modCore_issued (s : State) (c : Nat) (f : Core → Core) : (s.modCore c f).issued = s.issued := rfl
@[simp] theorem State.modCore_cyc (s : State) (c : Nat) (f : Core → Core) : (s.modCore c f).cyc = s.cyc := rfl
@[simp] theorem State.modCore_nextId (s : State) (c : Nat) (f : Core → Core) : (s.modCore c f).nextId = s.nextId := rfl
@[simp] theorem State.modCore_dram (s : State) (c : Nat) (f : Core → Core) : (s.modCore c f).dram = s.dram := rfl
@[simp] theorem State.modCore_freeCtr (s : State) (c : Nat) (f : Core → Core) : (s.modCore c f).freeCtr = s.freeCtr := rfl

@[simp] theorem State.modPart_clock (s : State) (p : Nat) (f : Partition → Partition) : (s.modPart p f).clock = s.clock := rfl
@[simp] theorem State.modPart_powered (s : State) (p : Nat) (f : Partition → Partition) : (s.modPart p f).powered = s.powered := rfl
@[simp] theorem State.modPart_verMin (s : State) (p : Nat) (f : Partition → Partition) : (s.modPart p f).verMin = s.verMin := rfl
@[simp] theorem State.modPart_verMax (s : State) (p : Nat) (f : Partition → Partition) : (s.modPart p f).verMax = s.verMax := rfl
@[simp] theorem State.modPart_versel (s : State) (p : Nat) (f : Partition → Partition) : (s.modPart p f).versel = s.versel := rfl
@[simp] theorem State.modPart_go (s : State) (p : Nat) (f : Partition → Partition) : (s.modPart p f).go = s.go := rfl
@[simp] theorem State.modPart_err (s : State) (p : Nat) (f : Partition → Partition) : (s.modPart p f).err = s.err := rfl
@[simp] theorem State.modPart_fwstat (s : State) (p : Nat) (f : Partition → Partition) : (s.modPart p f).fwstat = s.fwstat := rfl
@[simp] theorem State.modPart_fwImage (s : State) (p : Nat) (f : Partition → Partition) : (s.modPart p f).fwImage = s.fwImage := rfl
@[simp] theorem State.modPart_devnum (s : State) (p : Nat) (f : Partition → Partition) : (s.modPart p f).devnum = s.devnum := rfl
@[simp] theorem State.modPart_xm (s : State) (p : Nat) (f : Partition → Partition) : (s.modPart p f).xm = s.xm := rfl
@[simp] theorem State.modPart_errHead (s : State) (p : Nat) (f : Partition → Partition) : (s.modPart p f).errHead = s.errHead := rfl
@[simp] theorem State.modPart_errTail (s : State) (p : Nat) (f : Partition → Partition) : (s.modPart p f).errTail = s.errTail := rfl
@[simp] theorem State.modPart_errBase (s : State) (p : Nat) (f : Partition → Partition) : (s.modPart p f).errBase = s.errBase := rfl
@[simp] theorem State.modPart_hdm (s : State) (p : Nat) (f : Partition → Partition) : (s.modPart p f).hdm = s.hdm := rfl
@[simp] theorem State.modPart_fabric (s : State) (p : Nat) (f : Partition → Partition) : (s.modPart p f).fabric = s.fabric := rfl
@[simp] theorem State.modPart_cores (s : State) (p : Nat) (f : Partition → Partition) : (s.modPart p f).cores = s.cores := rfl
@[simp] theorem State.modPart_groups (s : State) (p : Nat) (f : Partition → Partition) : (s.modPart p f).groups = s.groups := rfl
@[simp] theorem State.modPart_wgs (s : State) (p : Nat) (f : Partition → Partition) : (s.modPart p f).wgs = s.wgs := rfl
@[simp] theorem State.modPart_launches (s : State) (p : Nat) (f : Partition → Partition) : (s.modPart p f).launches = s.launches := rfl
@[simp] theorem State.modPart_taskq (s : State) (p : Nat) (f : Partition → Partition) : (s.modPart p f).taskq = s.taskq := rfl
@[simp] theorem State.modPart_taskNum (s : State) (p : Nat) (f : Partition → Partition) : (s.modPart p f).taskNum = s.taskNum := rfl
@[simp] theorem State.modPart_mem (s : State) (p : Nat) (f : Partition → Partition) : (s.modPart p f).mem = s.mem := rfl
@[simp] theorem State.modPart_poison (s : State) (p : Nat) (f : Partition → Partition) : (s.modPart p f).poison = s.poison := rfl
@[simp] theorem State.modPart_staged (s : State) (p : Nat) (f : Partition → Partition) : (s.modPart p f).staged = s.staged := rfl
@[simp] theorem State.modPart_bad (s : State) (p : Nat) (f : Partition → Partition) : (s.modPart p f).bad = s.bad := rfl
@[simp] theorem State.modPart_hostMem (s : State) (p : Nat) (f : Partition → Partition) : (s.modPart p f).hostMem = s.hostMem := rfl
@[simp] theorem State.modPart_older (s : State) (p : Nat) (f : Partition → Partition) : (s.modPart p f).older = s.older := rfl
@[simp] theorem State.modPart_xmHeld (s : State) (p : Nat) (f : Partition → Partition) : (s.modPart p f).xmHeld = s.xmHeld := rfl
@[simp] theorem State.modPart_l2 (s : State) (p : Nat) (f : Partition → Partition) : (s.modPart p f).l2 = s.l2 := rfl
@[simp] theorem State.modPart_sliceTlb (s : State) (p : Nat) (f : Partition → Partition) : (s.modPart p f).sliceTlb = s.sliceTlb := rfl
@[simp] theorem State.modPart_execTlb (s : State) (p : Nat) (f : Partition → Partition) : (s.modPart p f).execTlb = s.execTlb := rfl
@[simp] theorem State.modPart_gens (s : State) (p : Nat) (f : Partition → Partition) : (s.modPart p f).gens = s.gens := rfl
@[simp] theorem State.modPart_retire (s : State) (p : Nat) (f : Partition → Partition) : (s.modPart p f).retire = s.retire := rfl
@[simp] theorem State.modPart_rows (s : State) (p : Nat) (f : Partition → Partition) : (s.modPart p f).rows = s.rows := rfl
@[simp] theorem State.modPart_trefwHigh (s : State) (p : Nat) (f : Partition → Partition) : (s.modPart p f).trefwHigh = s.trefwHigh := rfl
@[simp] theorem State.modPart_selfRefresh (s : State) (p : Nat) (f : Partition → Partition) : (s.modPart p f).selfRefresh = s.selfRefresh := rfl
@[simp] theorem State.modPart_chan (s : State) (p : Nat) (f : Partition → Partition) : (s.modPart p f).chan = s.chan := rfl
@[simp] theorem State.modPart_ulock (s : State) (p : Nat) (f : Partition → Partition) : (s.modPart p f).ulock = s.ulock := rfl
@[simp] theorem State.modPart_freeze (s : State) (p : Nat) (f : Partition → Partition) : (s.modPart p f).freeze = s.freeze := rfl
@[simp] theorem State.modPart_copies (s : State) (p : Nat) (f : Partition → Partition) : (s.modPart p f).copies = s.copies := rfl
@[simp] theorem State.modPart_tierOps (s : State) (p : Nat) (f : Partition → Partition) : (s.modPart p f).tierOps = s.tierOps := rfl
@[simp] theorem State.modPart_images (s : State) (p : Nat) (f : Partition → Partition) : (s.modPart p f).images = s.images := rfl
@[simp] theorem State.modPart_retiredUnits (s : State) (p : Nat) (f : Partition → Partition) : (s.modPart p f).retiredUnits = s.retiredUnits := rfl
@[simp] theorem State.modPart_spare (s : State) (p : Nat) (f : Partition → Partition) : (s.modPart p f).spare = s.spare := rfl
@[simp] theorem State.modPart_links (s : State) (p : Nat) (f : Partition → Partition) : (s.modPart p f).links = s.links := rfl
@[simp] theorem State.modPart_sliceAsleep (s : State) (p : Nat) (f : Partition → Partition) : (s.modPart p f).sliceAsleep = s.sliceAsleep := rfl
@[simp] theorem State.modPart_hostEpoch (s : State) (p : Nat) (f : Partition → Partition) : (s.modPart p f).hostEpoch = s.hostEpoch := rfl
@[simp] theorem State.modPart_hostFailed (s : State) (p : Nat) (f : Partition → Partition) : (s.modPart p f).hostFailed = s.hostFailed := rfl
@[simp] theorem State.modPart_peerEpoch (s : State) (p : Nat) (f : Partition → Partition) : (s.modPart p f).peerEpoch = s.peerEpoch := rfl
@[simp] theorem State.modPart_peerFailed (s : State) (p : Nat) (f : Partition → Partition) : (s.modPart p f).peerFailed = s.peerFailed := rfl
@[simp] theorem State.modPart_coreFailed (s : State) (p : Nat) (f : Partition → Partition) : (s.modPart p f).coreFailed = s.coreFailed := rfl
@[simp] theorem State.modPart_throttled (s : State) (p : Nat) (f : Partition → Partition) : (s.modPart p f).throttled = s.throttled := rfl
@[simp] theorem State.modPart_fwHash (s : State) (p : Nat) (f : Partition → Partition) : (s.modPart p f).fwHash = s.fwHash := rfl
@[simp] theorem State.modPart_fwVersion (s : State) (p : Nat) (f : Partition → Partition) : (s.modPart p f).fwVersion = s.fwVersion := rfl
@[simp] theorem State.modPart_spdm (s : State) (p : Nat) (f : Partition → Partition) : (s.modPart p f).spdm = s.spdm := rfl
@[simp] theorem State.modPart_cur (s : State) (p : Nat) (f : Partition → Partition) : (s.modPart p f).cur = s.cur := rfl
@[simp] theorem State.modPart_agenda (s : State) (p : Nat) (f : Partition → Partition) : (s.modPart p f).agenda = s.agenda := rfl
@[simp] theorem State.modPart_issued (s : State) (p : Nat) (f : Partition → Partition) : (s.modPart p f).issued = s.issued := rfl
@[simp] theorem State.modPart_cyc (s : State) (p : Nat) (f : Partition → Partition) : (s.modPart p f).cyc = s.cyc := rfl
@[simp] theorem State.modPart_nextId (s : State) (p : Nat) (f : Partition → Partition) : (s.modPart p f).nextId = s.nextId := rfl
@[simp] theorem State.modPart_dram (s : State) (p : Nat) (f : Partition → Partition) : (s.modPart p f).dram = s.dram := rfl
@[simp] theorem State.modPart_freeCtr (s : State) (p : Nat) (f : Partition → Partition) : (s.modPart p f).freeCtr = s.freeCtr := rfl

@[simp] theorem State.setBytes_clock (s : State) (p : Nat) (bs : List Byte) : (s.setBytes p bs).clock = s.clock := rfl
@[simp] theorem State.setBytes_powered (s : State) (p : Nat) (bs : List Byte) : (s.setBytes p bs).powered = s.powered := rfl
@[simp] theorem State.setBytes_verMin (s : State) (p : Nat) (bs : List Byte) : (s.setBytes p bs).verMin = s.verMin := rfl
@[simp] theorem State.setBytes_verMax (s : State) (p : Nat) (bs : List Byte) : (s.setBytes p bs).verMax = s.verMax := rfl
@[simp] theorem State.setBytes_versel (s : State) (p : Nat) (bs : List Byte) : (s.setBytes p bs).versel = s.versel := rfl
@[simp] theorem State.setBytes_go (s : State) (p : Nat) (bs : List Byte) : (s.setBytes p bs).go = s.go := rfl
@[simp] theorem State.setBytes_err (s : State) (p : Nat) (bs : List Byte) : (s.setBytes p bs).err = s.err := rfl
@[simp] theorem State.setBytes_fwstat (s : State) (p : Nat) (bs : List Byte) : (s.setBytes p bs).fwstat = s.fwstat := rfl
@[simp] theorem State.setBytes_fwImage (s : State) (p : Nat) (bs : List Byte) : (s.setBytes p bs).fwImage = s.fwImage := rfl
@[simp] theorem State.setBytes_devnum (s : State) (p : Nat) (bs : List Byte) : (s.setBytes p bs).devnum = s.devnum := rfl
@[simp] theorem State.setBytes_xm (s : State) (p : Nat) (bs : List Byte) : (s.setBytes p bs).xm = s.xm := rfl
@[simp] theorem State.setBytes_errHead (s : State) (p : Nat) (bs : List Byte) : (s.setBytes p bs).errHead = s.errHead := rfl
@[simp] theorem State.setBytes_errTail (s : State) (p : Nat) (bs : List Byte) : (s.setBytes p bs).errTail = s.errTail := rfl
@[simp] theorem State.setBytes_errBase (s : State) (p : Nat) (bs : List Byte) : (s.setBytes p bs).errBase = s.errBase := rfl
@[simp] theorem State.setBytes_hdm (s : State) (p : Nat) (bs : List Byte) : (s.setBytes p bs).hdm = s.hdm := rfl
@[simp] theorem State.setBytes_fabric (s : State) (p : Nat) (bs : List Byte) : (s.setBytes p bs).fabric = s.fabric := rfl
@[simp] theorem State.setBytes_parts (s : State) (p : Nat) (bs : List Byte) : (s.setBytes p bs).parts = s.parts := rfl
@[simp] theorem State.setBytes_cores (s : State) (p : Nat) (bs : List Byte) : (s.setBytes p bs).cores = s.cores := rfl
@[simp] theorem State.setBytes_groups (s : State) (p : Nat) (bs : List Byte) : (s.setBytes p bs).groups = s.groups := rfl
@[simp] theorem State.setBytes_wgs (s : State) (p : Nat) (bs : List Byte) : (s.setBytes p bs).wgs = s.wgs := rfl
@[simp] theorem State.setBytes_launches (s : State) (p : Nat) (bs : List Byte) : (s.setBytes p bs).launches = s.launches := rfl
@[simp] theorem State.setBytes_taskq (s : State) (p : Nat) (bs : List Byte) : (s.setBytes p bs).taskq = s.taskq := rfl
@[simp] theorem State.setBytes_taskNum (s : State) (p : Nat) (bs : List Byte) : (s.setBytes p bs).taskNum = s.taskNum := rfl
@[simp] theorem State.setBytes_poison (s : State) (p : Nat) (bs : List Byte) : (s.setBytes p bs).poison = s.poison := rfl
@[simp] theorem State.setBytes_staged (s : State) (p : Nat) (bs : List Byte) : (s.setBytes p bs).staged = s.staged := rfl
@[simp] theorem State.setBytes_bad (s : State) (p : Nat) (bs : List Byte) : (s.setBytes p bs).bad = s.bad := rfl
@[simp] theorem State.setBytes_hostMem (s : State) (p : Nat) (bs : List Byte) : (s.setBytes p bs).hostMem = s.hostMem := rfl
@[simp] theorem State.setBytes_older (s : State) (p : Nat) (bs : List Byte) : (s.setBytes p bs).older = s.older := rfl
@[simp] theorem State.setBytes_xmHeld (s : State) (p : Nat) (bs : List Byte) : (s.setBytes p bs).xmHeld = s.xmHeld := rfl
@[simp] theorem State.setBytes_l2 (s : State) (p : Nat) (bs : List Byte) : (s.setBytes p bs).l2 = s.l2 := rfl
@[simp] theorem State.setBytes_sliceTlb (s : State) (p : Nat) (bs : List Byte) : (s.setBytes p bs).sliceTlb = s.sliceTlb := rfl
@[simp] theorem State.setBytes_execTlb (s : State) (p : Nat) (bs : List Byte) : (s.setBytes p bs).execTlb = s.execTlb := rfl
@[simp] theorem State.setBytes_gens (s : State) (p : Nat) (bs : List Byte) : (s.setBytes p bs).gens = s.gens := rfl
@[simp] theorem State.setBytes_retire (s : State) (p : Nat) (bs : List Byte) : (s.setBytes p bs).retire = s.retire := rfl
@[simp] theorem State.setBytes_rows (s : State) (p : Nat) (bs : List Byte) : (s.setBytes p bs).rows = s.rows := rfl
@[simp] theorem State.setBytes_trefwHigh (s : State) (p : Nat) (bs : List Byte) : (s.setBytes p bs).trefwHigh = s.trefwHigh := rfl
@[simp] theorem State.setBytes_selfRefresh (s : State) (p : Nat) (bs : List Byte) : (s.setBytes p bs).selfRefresh = s.selfRefresh := rfl
@[simp] theorem State.setBytes_chan (s : State) (p : Nat) (bs : List Byte) : (s.setBytes p bs).chan = s.chan := rfl
@[simp] theorem State.setBytes_ulock (s : State) (p : Nat) (bs : List Byte) : (s.setBytes p bs).ulock = s.ulock := rfl
@[simp] theorem State.setBytes_freeze (s : State) (p : Nat) (bs : List Byte) : (s.setBytes p bs).freeze = s.freeze := rfl
@[simp] theorem State.setBytes_copies (s : State) (p : Nat) (bs : List Byte) : (s.setBytes p bs).copies = s.copies := rfl
@[simp] theorem State.setBytes_tierOps (s : State) (p : Nat) (bs : List Byte) : (s.setBytes p bs).tierOps = s.tierOps := rfl
@[simp] theorem State.setBytes_images (s : State) (p : Nat) (bs : List Byte) : (s.setBytes p bs).images = s.images := rfl
@[simp] theorem State.setBytes_retiredUnits (s : State) (p : Nat) (bs : List Byte) : (s.setBytes p bs).retiredUnits = s.retiredUnits := rfl
@[simp] theorem State.setBytes_spare (s : State) (p : Nat) (bs : List Byte) : (s.setBytes p bs).spare = s.spare := rfl
@[simp] theorem State.setBytes_links (s : State) (p : Nat) (bs : List Byte) : (s.setBytes p bs).links = s.links := rfl
@[simp] theorem State.setBytes_sliceAsleep (s : State) (p : Nat) (bs : List Byte) : (s.setBytes p bs).sliceAsleep = s.sliceAsleep := rfl
@[simp] theorem State.setBytes_hostEpoch (s : State) (p : Nat) (bs : List Byte) : (s.setBytes p bs).hostEpoch = s.hostEpoch := rfl
@[simp] theorem State.setBytes_hostFailed (s : State) (p : Nat) (bs : List Byte) : (s.setBytes p bs).hostFailed = s.hostFailed := rfl
@[simp] theorem State.setBytes_peerEpoch (s : State) (p : Nat) (bs : List Byte) : (s.setBytes p bs).peerEpoch = s.peerEpoch := rfl
@[simp] theorem State.setBytes_peerFailed (s : State) (p : Nat) (bs : List Byte) : (s.setBytes p bs).peerFailed = s.peerFailed := rfl
@[simp] theorem State.setBytes_coreFailed (s : State) (p : Nat) (bs : List Byte) : (s.setBytes p bs).coreFailed = s.coreFailed := rfl
@[simp] theorem State.setBytes_throttled (s : State) (p : Nat) (bs : List Byte) : (s.setBytes p bs).throttled = s.throttled := rfl
@[simp] theorem State.setBytes_fwHash (s : State) (p : Nat) (bs : List Byte) : (s.setBytes p bs).fwHash = s.fwHash := rfl
@[simp] theorem State.setBytes_fwVersion (s : State) (p : Nat) (bs : List Byte) : (s.setBytes p bs).fwVersion = s.fwVersion := rfl
@[simp] theorem State.setBytes_spdm (s : State) (p : Nat) (bs : List Byte) : (s.setBytes p bs).spdm = s.spdm := rfl
@[simp] theorem State.setBytes_cur (s : State) (p : Nat) (bs : List Byte) : (s.setBytes p bs).cur = s.cur := rfl
@[simp] theorem State.setBytes_agenda (s : State) (p : Nat) (bs : List Byte) : (s.setBytes p bs).agenda = s.agenda := rfl
@[simp] theorem State.setBytes_issued (s : State) (p : Nat) (bs : List Byte) : (s.setBytes p bs).issued = s.issued := rfl
@[simp] theorem State.setBytes_cyc (s : State) (p : Nat) (bs : List Byte) : (s.setBytes p bs).cyc = s.cyc := rfl
@[simp] theorem State.setBytes_nextId (s : State) (p : Nat) (bs : List Byte) : (s.setBytes p bs).nextId = s.nextId := rfl
@[simp] theorem State.setBytes_dram (s : State) (p : Nat) (bs : List Byte) : (s.setBytes p bs).dram = s.dram := rfl
@[simp] theorem State.setBytes_freeCtr (s : State) (p : Nat) (bs : List Byte) : (s.setBytes p bs).freeCtr = s.freeCtr := rfl

@[simp] theorem State.hostWr_clock (s : State) (a : Nat) (bs : List Byte) : (s.hostWr a bs).clock = s.clock := rfl
@[simp] theorem State.hostWr_powered (s : State) (a : Nat) (bs : List Byte) : (s.hostWr a bs).powered = s.powered := rfl
@[simp] theorem State.hostWr_verMin (s : State) (a : Nat) (bs : List Byte) : (s.hostWr a bs).verMin = s.verMin := rfl
@[simp] theorem State.hostWr_verMax (s : State) (a : Nat) (bs : List Byte) : (s.hostWr a bs).verMax = s.verMax := rfl
@[simp] theorem State.hostWr_versel (s : State) (a : Nat) (bs : List Byte) : (s.hostWr a bs).versel = s.versel := rfl
@[simp] theorem State.hostWr_go (s : State) (a : Nat) (bs : List Byte) : (s.hostWr a bs).go = s.go := rfl
@[simp] theorem State.hostWr_err (s : State) (a : Nat) (bs : List Byte) : (s.hostWr a bs).err = s.err := rfl
@[simp] theorem State.hostWr_fwstat (s : State) (a : Nat) (bs : List Byte) : (s.hostWr a bs).fwstat = s.fwstat := rfl
@[simp] theorem State.hostWr_fwImage (s : State) (a : Nat) (bs : List Byte) : (s.hostWr a bs).fwImage = s.fwImage := rfl
@[simp] theorem State.hostWr_devnum (s : State) (a : Nat) (bs : List Byte) : (s.hostWr a bs).devnum = s.devnum := rfl
@[simp] theorem State.hostWr_xm (s : State) (a : Nat) (bs : List Byte) : (s.hostWr a bs).xm = s.xm := rfl
@[simp] theorem State.hostWr_errHead (s : State) (a : Nat) (bs : List Byte) : (s.hostWr a bs).errHead = s.errHead := rfl
@[simp] theorem State.hostWr_errTail (s : State) (a : Nat) (bs : List Byte) : (s.hostWr a bs).errTail = s.errTail := rfl
@[simp] theorem State.hostWr_errBase (s : State) (a : Nat) (bs : List Byte) : (s.hostWr a bs).errBase = s.errBase := rfl
@[simp] theorem State.hostWr_hdm (s : State) (a : Nat) (bs : List Byte) : (s.hostWr a bs).hdm = s.hdm := rfl
@[simp] theorem State.hostWr_fabric (s : State) (a : Nat) (bs : List Byte) : (s.hostWr a bs).fabric = s.fabric := rfl
@[simp] theorem State.hostWr_parts (s : State) (a : Nat) (bs : List Byte) : (s.hostWr a bs).parts = s.parts := rfl
@[simp] theorem State.hostWr_cores (s : State) (a : Nat) (bs : List Byte) : (s.hostWr a bs).cores = s.cores := rfl
@[simp] theorem State.hostWr_groups (s : State) (a : Nat) (bs : List Byte) : (s.hostWr a bs).groups = s.groups := rfl
@[simp] theorem State.hostWr_wgs (s : State) (a : Nat) (bs : List Byte) : (s.hostWr a bs).wgs = s.wgs := rfl
@[simp] theorem State.hostWr_launches (s : State) (a : Nat) (bs : List Byte) : (s.hostWr a bs).launches = s.launches := rfl
@[simp] theorem State.hostWr_taskq (s : State) (a : Nat) (bs : List Byte) : (s.hostWr a bs).taskq = s.taskq := rfl
@[simp] theorem State.hostWr_taskNum (s : State) (a : Nat) (bs : List Byte) : (s.hostWr a bs).taskNum = s.taskNum := rfl
@[simp] theorem State.hostWr_mem (s : State) (a : Nat) (bs : List Byte) : (s.hostWr a bs).mem = s.mem := rfl
@[simp] theorem State.hostWr_poison (s : State) (a : Nat) (bs : List Byte) : (s.hostWr a bs).poison = s.poison := rfl
@[simp] theorem State.hostWr_staged (s : State) (a : Nat) (bs : List Byte) : (s.hostWr a bs).staged = s.staged := rfl
@[simp] theorem State.hostWr_bad (s : State) (a : Nat) (bs : List Byte) : (s.hostWr a bs).bad = s.bad := rfl
@[simp] theorem State.hostWr_older (s : State) (a : Nat) (bs : List Byte) : (s.hostWr a bs).older = s.older := rfl
@[simp] theorem State.hostWr_xmHeld (s : State) (a : Nat) (bs : List Byte) : (s.hostWr a bs).xmHeld = s.xmHeld := rfl
@[simp] theorem State.hostWr_l2 (s : State) (a : Nat) (bs : List Byte) : (s.hostWr a bs).l2 = s.l2 := rfl
@[simp] theorem State.hostWr_sliceTlb (s : State) (a : Nat) (bs : List Byte) : (s.hostWr a bs).sliceTlb = s.sliceTlb := rfl
@[simp] theorem State.hostWr_execTlb (s : State) (a : Nat) (bs : List Byte) : (s.hostWr a bs).execTlb = s.execTlb := rfl
@[simp] theorem State.hostWr_gens (s : State) (a : Nat) (bs : List Byte) : (s.hostWr a bs).gens = s.gens := rfl
@[simp] theorem State.hostWr_retire (s : State) (a : Nat) (bs : List Byte) : (s.hostWr a bs).retire = s.retire := rfl
@[simp] theorem State.hostWr_rows (s : State) (a : Nat) (bs : List Byte) : (s.hostWr a bs).rows = s.rows := rfl
@[simp] theorem State.hostWr_trefwHigh (s : State) (a : Nat) (bs : List Byte) : (s.hostWr a bs).trefwHigh = s.trefwHigh := rfl
@[simp] theorem State.hostWr_selfRefresh (s : State) (a : Nat) (bs : List Byte) : (s.hostWr a bs).selfRefresh = s.selfRefresh := rfl
@[simp] theorem State.hostWr_chan (s : State) (a : Nat) (bs : List Byte) : (s.hostWr a bs).chan = s.chan := rfl
@[simp] theorem State.hostWr_ulock (s : State) (a : Nat) (bs : List Byte) : (s.hostWr a bs).ulock = s.ulock := rfl
@[simp] theorem State.hostWr_freeze (s : State) (a : Nat) (bs : List Byte) : (s.hostWr a bs).freeze = s.freeze := rfl
@[simp] theorem State.hostWr_copies (s : State) (a : Nat) (bs : List Byte) : (s.hostWr a bs).copies = s.copies := rfl
@[simp] theorem State.hostWr_tierOps (s : State) (a : Nat) (bs : List Byte) : (s.hostWr a bs).tierOps = s.tierOps := rfl
@[simp] theorem State.hostWr_images (s : State) (a : Nat) (bs : List Byte) : (s.hostWr a bs).images = s.images := rfl
@[simp] theorem State.hostWr_retiredUnits (s : State) (a : Nat) (bs : List Byte) : (s.hostWr a bs).retiredUnits = s.retiredUnits := rfl
@[simp] theorem State.hostWr_spare (s : State) (a : Nat) (bs : List Byte) : (s.hostWr a bs).spare = s.spare := rfl
@[simp] theorem State.hostWr_links (s : State) (a : Nat) (bs : List Byte) : (s.hostWr a bs).links = s.links := rfl
@[simp] theorem State.hostWr_sliceAsleep (s : State) (a : Nat) (bs : List Byte) : (s.hostWr a bs).sliceAsleep = s.sliceAsleep := rfl
@[simp] theorem State.hostWr_hostEpoch (s : State) (a : Nat) (bs : List Byte) : (s.hostWr a bs).hostEpoch = s.hostEpoch := rfl
@[simp] theorem State.hostWr_hostFailed (s : State) (a : Nat) (bs : List Byte) : (s.hostWr a bs).hostFailed = s.hostFailed := rfl
@[simp] theorem State.hostWr_peerEpoch (s : State) (a : Nat) (bs : List Byte) : (s.hostWr a bs).peerEpoch = s.peerEpoch := rfl
@[simp] theorem State.hostWr_peerFailed (s : State) (a : Nat) (bs : List Byte) : (s.hostWr a bs).peerFailed = s.peerFailed := rfl
@[simp] theorem State.hostWr_coreFailed (s : State) (a : Nat) (bs : List Byte) : (s.hostWr a bs).coreFailed = s.coreFailed := rfl
@[simp] theorem State.hostWr_throttled (s : State) (a : Nat) (bs : List Byte) : (s.hostWr a bs).throttled = s.throttled := rfl
@[simp] theorem State.hostWr_fwHash (s : State) (a : Nat) (bs : List Byte) : (s.hostWr a bs).fwHash = s.fwHash := rfl
@[simp] theorem State.hostWr_fwVersion (s : State) (a : Nat) (bs : List Byte) : (s.hostWr a bs).fwVersion = s.fwVersion := rfl
@[simp] theorem State.hostWr_spdm (s : State) (a : Nat) (bs : List Byte) : (s.hostWr a bs).spdm = s.spdm := rfl
@[simp] theorem State.hostWr_cur (s : State) (a : Nat) (bs : List Byte) : (s.hostWr a bs).cur = s.cur := rfl
@[simp] theorem State.hostWr_agenda (s : State) (a : Nat) (bs : List Byte) : (s.hostWr a bs).agenda = s.agenda := rfl
@[simp] theorem State.hostWr_issued (s : State) (a : Nat) (bs : List Byte) : (s.hostWr a bs).issued = s.issued := rfl
@[simp] theorem State.hostWr_cyc (s : State) (a : Nat) (bs : List Byte) : (s.hostWr a bs).cyc = s.cyc := rfl
@[simp] theorem State.hostWr_nextId (s : State) (a : Nat) (bs : List Byte) : (s.hostWr a bs).nextId = s.nextId := rfl
@[simp] theorem State.hostWr_dram (s : State) (a : Nat) (bs : List Byte) : (s.hostWr a bs).dram = s.dram := rfl
@[simp] theorem State.hostWr_freeCtr (s : State) (a : Nat) (bs : List Byte) : (s.hostWr a bs).freeCtr = s.freeCtr := rfl

@[simp] theorem State.modGroup_clock (s : State) (k : Nat) (f : Group → Group) : (s.modGroup k f).clock = s.clock := by unfold State.modGroup; split <;> rfl
@[simp] theorem State.modGroup_powered (s : State) (k : Nat) (f : Group → Group) : (s.modGroup k f).powered = s.powered := by unfold State.modGroup; split <;> rfl
@[simp] theorem State.modGroup_verMin (s : State) (k : Nat) (f : Group → Group) : (s.modGroup k f).verMin = s.verMin := by unfold State.modGroup; split <;> rfl
@[simp] theorem State.modGroup_verMax (s : State) (k : Nat) (f : Group → Group) : (s.modGroup k f).verMax = s.verMax := by unfold State.modGroup; split <;> rfl
@[simp] theorem State.modGroup_versel (s : State) (k : Nat) (f : Group → Group) : (s.modGroup k f).versel = s.versel := by unfold State.modGroup; split <;> rfl
@[simp] theorem State.modGroup_go (s : State) (k : Nat) (f : Group → Group) : (s.modGroup k f).go = s.go := by unfold State.modGroup; split <;> rfl
@[simp] theorem State.modGroup_err (s : State) (k : Nat) (f : Group → Group) : (s.modGroup k f).err = s.err := by unfold State.modGroup; split <;> rfl
@[simp] theorem State.modGroup_fwstat (s : State) (k : Nat) (f : Group → Group) : (s.modGroup k f).fwstat = s.fwstat := by unfold State.modGroup; split <;> rfl
@[simp] theorem State.modGroup_fwImage (s : State) (k : Nat) (f : Group → Group) : (s.modGroup k f).fwImage = s.fwImage := by unfold State.modGroup; split <;> rfl
@[simp] theorem State.modGroup_devnum (s : State) (k : Nat) (f : Group → Group) : (s.modGroup k f).devnum = s.devnum := by unfold State.modGroup; split <;> rfl
@[simp] theorem State.modGroup_xm (s : State) (k : Nat) (f : Group → Group) : (s.modGroup k f).xm = s.xm := by unfold State.modGroup; split <;> rfl
@[simp] theorem State.modGroup_errHead (s : State) (k : Nat) (f : Group → Group) : (s.modGroup k f).errHead = s.errHead := by unfold State.modGroup; split <;> rfl
@[simp] theorem State.modGroup_errTail (s : State) (k : Nat) (f : Group → Group) : (s.modGroup k f).errTail = s.errTail := by unfold State.modGroup; split <;> rfl
@[simp] theorem State.modGroup_errBase (s : State) (k : Nat) (f : Group → Group) : (s.modGroup k f).errBase = s.errBase := by unfold State.modGroup; split <;> rfl
@[simp] theorem State.modGroup_hdm (s : State) (k : Nat) (f : Group → Group) : (s.modGroup k f).hdm = s.hdm := by unfold State.modGroup; split <;> rfl
@[simp] theorem State.modGroup_fabric (s : State) (k : Nat) (f : Group → Group) : (s.modGroup k f).fabric = s.fabric := by unfold State.modGroup; split <;> rfl
@[simp] theorem State.modGroup_parts (s : State) (k : Nat) (f : Group → Group) : (s.modGroup k f).parts = s.parts := by unfold State.modGroup; split <;> rfl
@[simp] theorem State.modGroup_cores (s : State) (k : Nat) (f : Group → Group) : (s.modGroup k f).cores = s.cores := by unfold State.modGroup; split <;> rfl
@[simp] theorem State.modGroup_wgs (s : State) (k : Nat) (f : Group → Group) : (s.modGroup k f).wgs = s.wgs := by unfold State.modGroup; split <;> rfl
@[simp] theorem State.modGroup_launches (s : State) (k : Nat) (f : Group → Group) : (s.modGroup k f).launches = s.launches := by unfold State.modGroup; split <;> rfl
@[simp] theorem State.modGroup_taskq (s : State) (k : Nat) (f : Group → Group) : (s.modGroup k f).taskq = s.taskq := by unfold State.modGroup; split <;> rfl
@[simp] theorem State.modGroup_taskNum (s : State) (k : Nat) (f : Group → Group) : (s.modGroup k f).taskNum = s.taskNum := by unfold State.modGroup; split <;> rfl
@[simp] theorem State.modGroup_mem (s : State) (k : Nat) (f : Group → Group) : (s.modGroup k f).mem = s.mem := by unfold State.modGroup; split <;> rfl
@[simp] theorem State.modGroup_poison (s : State) (k : Nat) (f : Group → Group) : (s.modGroup k f).poison = s.poison := by unfold State.modGroup; split <;> rfl
@[simp] theorem State.modGroup_staged (s : State) (k : Nat) (f : Group → Group) : (s.modGroup k f).staged = s.staged := by unfold State.modGroup; split <;> rfl
@[simp] theorem State.modGroup_bad (s : State) (k : Nat) (f : Group → Group) : (s.modGroup k f).bad = s.bad := by unfold State.modGroup; split <;> rfl
@[simp] theorem State.modGroup_hostMem (s : State) (k : Nat) (f : Group → Group) : (s.modGroup k f).hostMem = s.hostMem := by unfold State.modGroup; split <;> rfl
@[simp] theorem State.modGroup_older (s : State) (k : Nat) (f : Group → Group) : (s.modGroup k f).older = s.older := by unfold State.modGroup; split <;> rfl
@[simp] theorem State.modGroup_xmHeld (s : State) (k : Nat) (f : Group → Group) : (s.modGroup k f).xmHeld = s.xmHeld := by unfold State.modGroup; split <;> rfl
@[simp] theorem State.modGroup_l2 (s : State) (k : Nat) (f : Group → Group) : (s.modGroup k f).l2 = s.l2 := by unfold State.modGroup; split <;> rfl
@[simp] theorem State.modGroup_sliceTlb (s : State) (k : Nat) (f : Group → Group) : (s.modGroup k f).sliceTlb = s.sliceTlb := by unfold State.modGroup; split <;> rfl
@[simp] theorem State.modGroup_execTlb (s : State) (k : Nat) (f : Group → Group) : (s.modGroup k f).execTlb = s.execTlb := by unfold State.modGroup; split <;> rfl
@[simp] theorem State.modGroup_gens (s : State) (k : Nat) (f : Group → Group) : (s.modGroup k f).gens = s.gens := by unfold State.modGroup; split <;> rfl
@[simp] theorem State.modGroup_retire (s : State) (k : Nat) (f : Group → Group) : (s.modGroup k f).retire = s.retire := by unfold State.modGroup; split <;> rfl
@[simp] theorem State.modGroup_rows (s : State) (k : Nat) (f : Group → Group) : (s.modGroup k f).rows = s.rows := by unfold State.modGroup; split <;> rfl
@[simp] theorem State.modGroup_trefwHigh (s : State) (k : Nat) (f : Group → Group) : (s.modGroup k f).trefwHigh = s.trefwHigh := by unfold State.modGroup; split <;> rfl
@[simp] theorem State.modGroup_selfRefresh (s : State) (k : Nat) (f : Group → Group) : (s.modGroup k f).selfRefresh = s.selfRefresh := by unfold State.modGroup; split <;> rfl
@[simp] theorem State.modGroup_chan (s : State) (k : Nat) (f : Group → Group) : (s.modGroup k f).chan = s.chan := by unfold State.modGroup; split <;> rfl
@[simp] theorem State.modGroup_ulock (s : State) (k : Nat) (f : Group → Group) : (s.modGroup k f).ulock = s.ulock := by unfold State.modGroup; split <;> rfl
@[simp] theorem State.modGroup_freeze (s : State) (k : Nat) (f : Group → Group) : (s.modGroup k f).freeze = s.freeze := by unfold State.modGroup; split <;> rfl
@[simp] theorem State.modGroup_copies (s : State) (k : Nat) (f : Group → Group) : (s.modGroup k f).copies = s.copies := by unfold State.modGroup; split <;> rfl
@[simp] theorem State.modGroup_tierOps (s : State) (k : Nat) (f : Group → Group) : (s.modGroup k f).tierOps = s.tierOps := by unfold State.modGroup; split <;> rfl
@[simp] theorem State.modGroup_images (s : State) (k : Nat) (f : Group → Group) : (s.modGroup k f).images = s.images := by unfold State.modGroup; split <;> rfl
@[simp] theorem State.modGroup_retiredUnits (s : State) (k : Nat) (f : Group → Group) : (s.modGroup k f).retiredUnits = s.retiredUnits := by unfold State.modGroup; split <;> rfl
@[simp] theorem State.modGroup_spare (s : State) (k : Nat) (f : Group → Group) : (s.modGroup k f).spare = s.spare := by unfold State.modGroup; split <;> rfl
@[simp] theorem State.modGroup_links (s : State) (k : Nat) (f : Group → Group) : (s.modGroup k f).links = s.links := by unfold State.modGroup; split <;> rfl
@[simp] theorem State.modGroup_sliceAsleep (s : State) (k : Nat) (f : Group → Group) : (s.modGroup k f).sliceAsleep = s.sliceAsleep := by unfold State.modGroup; split <;> rfl
@[simp] theorem State.modGroup_hostEpoch (s : State) (k : Nat) (f : Group → Group) : (s.modGroup k f).hostEpoch = s.hostEpoch := by unfold State.modGroup; split <;> rfl
@[simp] theorem State.modGroup_hostFailed (s : State) (k : Nat) (f : Group → Group) : (s.modGroup k f).hostFailed = s.hostFailed := by unfold State.modGroup; split <;> rfl
@[simp] theorem State.modGroup_peerEpoch (s : State) (k : Nat) (f : Group → Group) : (s.modGroup k f).peerEpoch = s.peerEpoch := by unfold State.modGroup; split <;> rfl
@[simp] theorem State.modGroup_peerFailed (s : State) (k : Nat) (f : Group → Group) : (s.modGroup k f).peerFailed = s.peerFailed := by unfold State.modGroup; split <;> rfl
@[simp] theorem State.modGroup_coreFailed (s : State) (k : Nat) (f : Group → Group) : (s.modGroup k f).coreFailed = s.coreFailed := by unfold State.modGroup; split <;> rfl
@[simp] theorem State.modGroup_throttled (s : State) (k : Nat) (f : Group → Group) : (s.modGroup k f).throttled = s.throttled := by unfold State.modGroup; split <;> rfl
@[simp] theorem State.modGroup_fwHash (s : State) (k : Nat) (f : Group → Group) : (s.modGroup k f).fwHash = s.fwHash := by unfold State.modGroup; split <;> rfl
@[simp] theorem State.modGroup_fwVersion (s : State) (k : Nat) (f : Group → Group) : (s.modGroup k f).fwVersion = s.fwVersion := by unfold State.modGroup; split <;> rfl
@[simp] theorem State.modGroup_spdm (s : State) (k : Nat) (f : Group → Group) : (s.modGroup k f).spdm = s.spdm := by unfold State.modGroup; split <;> rfl
@[simp] theorem State.modGroup_cur (s : State) (k : Nat) (f : Group → Group) : (s.modGroup k f).cur = s.cur := by unfold State.modGroup; split <;> rfl
@[simp] theorem State.modGroup_agenda (s : State) (k : Nat) (f : Group → Group) : (s.modGroup k f).agenda = s.agenda := by unfold State.modGroup; split <;> rfl
@[simp] theorem State.modGroup_issued (s : State) (k : Nat) (f : Group → Group) : (s.modGroup k f).issued = s.issued := by unfold State.modGroup; split <;> rfl
@[simp] theorem State.modGroup_cyc (s : State) (k : Nat) (f : Group → Group) : (s.modGroup k f).cyc = s.cyc := by unfold State.modGroup; split <;> rfl
@[simp] theorem State.modGroup_nextId (s : State) (k : Nat) (f : Group → Group) : (s.modGroup k f).nextId = s.nextId := by unfold State.modGroup; split <;> rfl
@[simp] theorem State.modGroup_dram (s : State) (k : Nat) (f : Group → Group) : (s.modGroup k f).dram = s.dram := by unfold State.modGroup; split <;> rfl
@[simp] theorem State.modGroup_freeCtr (s : State) (k : Nat) (f : Group → Group) : (s.modGroup k f).freeCtr = s.freeCtr := by unfold State.modGroup; split <;> rfl

@[simp] theorem State.modWg_clock (s : State) (n : Nat) (f : Workgroup → Workgroup) : (s.modWg n f).clock = s.clock := by unfold State.modWg; split <;> rfl
@[simp] theorem State.modWg_powered (s : State) (n : Nat) (f : Workgroup → Workgroup) : (s.modWg n f).powered = s.powered := by unfold State.modWg; split <;> rfl
@[simp] theorem State.modWg_verMin (s : State) (n : Nat) (f : Workgroup → Workgroup) : (s.modWg n f).verMin = s.verMin := by unfold State.modWg; split <;> rfl
@[simp] theorem State.modWg_verMax (s : State) (n : Nat) (f : Workgroup → Workgroup) : (s.modWg n f).verMax = s.verMax := by unfold State.modWg; split <;> rfl
@[simp] theorem State.modWg_versel (s : State) (n : Nat) (f : Workgroup → Workgroup) : (s.modWg n f).versel = s.versel := by unfold State.modWg; split <;> rfl
@[simp] theorem State.modWg_go (s : State) (n : Nat) (f : Workgroup → Workgroup) : (s.modWg n f).go = s.go := by unfold State.modWg; split <;> rfl
@[simp] theorem State.modWg_err (s : State) (n : Nat) (f : Workgroup → Workgroup) : (s.modWg n f).err = s.err := by unfold State.modWg; split <;> rfl
@[simp] theorem State.modWg_fwstat (s : State) (n : Nat) (f : Workgroup → Workgroup) : (s.modWg n f).fwstat = s.fwstat := by unfold State.modWg; split <;> rfl
@[simp] theorem State.modWg_fwImage (s : State) (n : Nat) (f : Workgroup → Workgroup) : (s.modWg n f).fwImage = s.fwImage := by unfold State.modWg; split <;> rfl
@[simp] theorem State.modWg_devnum (s : State) (n : Nat) (f : Workgroup → Workgroup) : (s.modWg n f).devnum = s.devnum := by unfold State.modWg; split <;> rfl
@[simp] theorem State.modWg_xm (s : State) (n : Nat) (f : Workgroup → Workgroup) : (s.modWg n f).xm = s.xm := by unfold State.modWg; split <;> rfl
@[simp] theorem State.modWg_errHead (s : State) (n : Nat) (f : Workgroup → Workgroup) : (s.modWg n f).errHead = s.errHead := by unfold State.modWg; split <;> rfl
@[simp] theorem State.modWg_errTail (s : State) (n : Nat) (f : Workgroup → Workgroup) : (s.modWg n f).errTail = s.errTail := by unfold State.modWg; split <;> rfl
@[simp] theorem State.modWg_errBase (s : State) (n : Nat) (f : Workgroup → Workgroup) : (s.modWg n f).errBase = s.errBase := by unfold State.modWg; split <;> rfl
@[simp] theorem State.modWg_hdm (s : State) (n : Nat) (f : Workgroup → Workgroup) : (s.modWg n f).hdm = s.hdm := by unfold State.modWg; split <;> rfl
@[simp] theorem State.modWg_fabric (s : State) (n : Nat) (f : Workgroup → Workgroup) : (s.modWg n f).fabric = s.fabric := by unfold State.modWg; split <;> rfl
@[simp] theorem State.modWg_parts (s : State) (n : Nat) (f : Workgroup → Workgroup) : (s.modWg n f).parts = s.parts := by unfold State.modWg; split <;> rfl
@[simp] theorem State.modWg_cores (s : State) (n : Nat) (f : Workgroup → Workgroup) : (s.modWg n f).cores = s.cores := by unfold State.modWg; split <;> rfl
@[simp] theorem State.modWg_groups (s : State) (n : Nat) (f : Workgroup → Workgroup) : (s.modWg n f).groups = s.groups := by unfold State.modWg; split <;> rfl
@[simp] theorem State.modWg_launches (s : State) (n : Nat) (f : Workgroup → Workgroup) : (s.modWg n f).launches = s.launches := by unfold State.modWg; split <;> rfl
@[simp] theorem State.modWg_taskq (s : State) (n : Nat) (f : Workgroup → Workgroup) : (s.modWg n f).taskq = s.taskq := by unfold State.modWg; split <;> rfl
@[simp] theorem State.modWg_taskNum (s : State) (n : Nat) (f : Workgroup → Workgroup) : (s.modWg n f).taskNum = s.taskNum := by unfold State.modWg; split <;> rfl
@[simp] theorem State.modWg_mem (s : State) (n : Nat) (f : Workgroup → Workgroup) : (s.modWg n f).mem = s.mem := by unfold State.modWg; split <;> rfl
@[simp] theorem State.modWg_poison (s : State) (n : Nat) (f : Workgroup → Workgroup) : (s.modWg n f).poison = s.poison := by unfold State.modWg; split <;> rfl
@[simp] theorem State.modWg_staged (s : State) (n : Nat) (f : Workgroup → Workgroup) : (s.modWg n f).staged = s.staged := by unfold State.modWg; split <;> rfl
@[simp] theorem State.modWg_bad (s : State) (n : Nat) (f : Workgroup → Workgroup) : (s.modWg n f).bad = s.bad := by unfold State.modWg; split <;> rfl
@[simp] theorem State.modWg_hostMem (s : State) (n : Nat) (f : Workgroup → Workgroup) : (s.modWg n f).hostMem = s.hostMem := by unfold State.modWg; split <;> rfl
@[simp] theorem State.modWg_older (s : State) (n : Nat) (f : Workgroup → Workgroup) : (s.modWg n f).older = s.older := by unfold State.modWg; split <;> rfl
@[simp] theorem State.modWg_xmHeld (s : State) (n : Nat) (f : Workgroup → Workgroup) : (s.modWg n f).xmHeld = s.xmHeld := by unfold State.modWg; split <;> rfl
@[simp] theorem State.modWg_l2 (s : State) (n : Nat) (f : Workgroup → Workgroup) : (s.modWg n f).l2 = s.l2 := by unfold State.modWg; split <;> rfl
@[simp] theorem State.modWg_sliceTlb (s : State) (n : Nat) (f : Workgroup → Workgroup) : (s.modWg n f).sliceTlb = s.sliceTlb := by unfold State.modWg; split <;> rfl
@[simp] theorem State.modWg_execTlb (s : State) (n : Nat) (f : Workgroup → Workgroup) : (s.modWg n f).execTlb = s.execTlb := by unfold State.modWg; split <;> rfl
@[simp] theorem State.modWg_gens (s : State) (n : Nat) (f : Workgroup → Workgroup) : (s.modWg n f).gens = s.gens := by unfold State.modWg; split <;> rfl
@[simp] theorem State.modWg_retire (s : State) (n : Nat) (f : Workgroup → Workgroup) : (s.modWg n f).retire = s.retire := by unfold State.modWg; split <;> rfl
@[simp] theorem State.modWg_rows (s : State) (n : Nat) (f : Workgroup → Workgroup) : (s.modWg n f).rows = s.rows := by unfold State.modWg; split <;> rfl
@[simp] theorem State.modWg_trefwHigh (s : State) (n : Nat) (f : Workgroup → Workgroup) : (s.modWg n f).trefwHigh = s.trefwHigh := by unfold State.modWg; split <;> rfl
@[simp] theorem State.modWg_selfRefresh (s : State) (n : Nat) (f : Workgroup → Workgroup) : (s.modWg n f).selfRefresh = s.selfRefresh := by unfold State.modWg; split <;> rfl
@[simp] theorem State.modWg_chan (s : State) (n : Nat) (f : Workgroup → Workgroup) : (s.modWg n f).chan = s.chan := by unfold State.modWg; split <;> rfl
@[simp] theorem State.modWg_ulock (s : State) (n : Nat) (f : Workgroup → Workgroup) : (s.modWg n f).ulock = s.ulock := by unfold State.modWg; split <;> rfl
@[simp] theorem State.modWg_freeze (s : State) (n : Nat) (f : Workgroup → Workgroup) : (s.modWg n f).freeze = s.freeze := by unfold State.modWg; split <;> rfl
@[simp] theorem State.modWg_copies (s : State) (n : Nat) (f : Workgroup → Workgroup) : (s.modWg n f).copies = s.copies := by unfold State.modWg; split <;> rfl
@[simp] theorem State.modWg_tierOps (s : State) (n : Nat) (f : Workgroup → Workgroup) : (s.modWg n f).tierOps = s.tierOps := by unfold State.modWg; split <;> rfl
@[simp] theorem State.modWg_images (s : State) (n : Nat) (f : Workgroup → Workgroup) : (s.modWg n f).images = s.images := by unfold State.modWg; split <;> rfl
@[simp] theorem State.modWg_retiredUnits (s : State) (n : Nat) (f : Workgroup → Workgroup) : (s.modWg n f).retiredUnits = s.retiredUnits := by unfold State.modWg; split <;> rfl
@[simp] theorem State.modWg_spare (s : State) (n : Nat) (f : Workgroup → Workgroup) : (s.modWg n f).spare = s.spare := by unfold State.modWg; split <;> rfl
@[simp] theorem State.modWg_links (s : State) (n : Nat) (f : Workgroup → Workgroup) : (s.modWg n f).links = s.links := by unfold State.modWg; split <;> rfl
@[simp] theorem State.modWg_sliceAsleep (s : State) (n : Nat) (f : Workgroup → Workgroup) : (s.modWg n f).sliceAsleep = s.sliceAsleep := by unfold State.modWg; split <;> rfl
@[simp] theorem State.modWg_hostEpoch (s : State) (n : Nat) (f : Workgroup → Workgroup) : (s.modWg n f).hostEpoch = s.hostEpoch := by unfold State.modWg; split <;> rfl
@[simp] theorem State.modWg_hostFailed (s : State) (n : Nat) (f : Workgroup → Workgroup) : (s.modWg n f).hostFailed = s.hostFailed := by unfold State.modWg; split <;> rfl
@[simp] theorem State.modWg_peerEpoch (s : State) (n : Nat) (f : Workgroup → Workgroup) : (s.modWg n f).peerEpoch = s.peerEpoch := by unfold State.modWg; split <;> rfl
@[simp] theorem State.modWg_peerFailed (s : State) (n : Nat) (f : Workgroup → Workgroup) : (s.modWg n f).peerFailed = s.peerFailed := by unfold State.modWg; split <;> rfl
@[simp] theorem State.modWg_coreFailed (s : State) (n : Nat) (f : Workgroup → Workgroup) : (s.modWg n f).coreFailed = s.coreFailed := by unfold State.modWg; split <;> rfl
@[simp] theorem State.modWg_throttled (s : State) (n : Nat) (f : Workgroup → Workgroup) : (s.modWg n f).throttled = s.throttled := by unfold State.modWg; split <;> rfl
@[simp] theorem State.modWg_fwHash (s : State) (n : Nat) (f : Workgroup → Workgroup) : (s.modWg n f).fwHash = s.fwHash := by unfold State.modWg; split <;> rfl
@[simp] theorem State.modWg_fwVersion (s : State) (n : Nat) (f : Workgroup → Workgroup) : (s.modWg n f).fwVersion = s.fwVersion := by unfold State.modWg; split <;> rfl
@[simp] theorem State.modWg_spdm (s : State) (n : Nat) (f : Workgroup → Workgroup) : (s.modWg n f).spdm = s.spdm := by unfold State.modWg; split <;> rfl
@[simp] theorem State.modWg_cur (s : State) (n : Nat) (f : Workgroup → Workgroup) : (s.modWg n f).cur = s.cur := by unfold State.modWg; split <;> rfl
@[simp] theorem State.modWg_agenda (s : State) (n : Nat) (f : Workgroup → Workgroup) : (s.modWg n f).agenda = s.agenda := by unfold State.modWg; split <;> rfl
@[simp] theorem State.modWg_issued (s : State) (n : Nat) (f : Workgroup → Workgroup) : (s.modWg n f).issued = s.issued := by unfold State.modWg; split <;> rfl
@[simp] theorem State.modWg_cyc (s : State) (n : Nat) (f : Workgroup → Workgroup) : (s.modWg n f).cyc = s.cyc := by unfold State.modWg; split <;> rfl
@[simp] theorem State.modWg_nextId (s : State) (n : Nat) (f : Workgroup → Workgroup) : (s.modWg n f).nextId = s.nextId := by unfold State.modWg; split <;> rfl
@[simp] theorem State.modWg_dram (s : State) (n : Nat) (f : Workgroup → Workgroup) : (s.modWg n f).dram = s.dram := by unfold State.modWg; split <;> rfl
@[simp] theorem State.modWg_freeCtr (s : State) (n : Nat) (f : Workgroup → Workgroup) : (s.modWg n f).freeCtr = s.freeCtr := by unfold State.modWg; split <;> rfl

@[simp] theorem State.modLaunch_clock (s : State) (n : Nat) (f : Launch → Launch) : (s.modLaunch n f).clock = s.clock := by unfold State.modLaunch; split <;> rfl
@[simp] theorem State.modLaunch_powered (s : State) (n : Nat) (f : Launch → Launch) : (s.modLaunch n f).powered = s.powered := by unfold State.modLaunch; split <;> rfl
@[simp] theorem State.modLaunch_verMin (s : State) (n : Nat) (f : Launch → Launch) : (s.modLaunch n f).verMin = s.verMin := by unfold State.modLaunch; split <;> rfl
@[simp] theorem State.modLaunch_verMax (s : State) (n : Nat) (f : Launch → Launch) : (s.modLaunch n f).verMax = s.verMax := by unfold State.modLaunch; split <;> rfl
@[simp] theorem State.modLaunch_versel (s : State) (n : Nat) (f : Launch → Launch) : (s.modLaunch n f).versel = s.versel := by unfold State.modLaunch; split <;> rfl
@[simp] theorem State.modLaunch_go (s : State) (n : Nat) (f : Launch → Launch) : (s.modLaunch n f).go = s.go := by unfold State.modLaunch; split <;> rfl
@[simp] theorem State.modLaunch_err (s : State) (n : Nat) (f : Launch → Launch) : (s.modLaunch n f).err = s.err := by unfold State.modLaunch; split <;> rfl
@[simp] theorem State.modLaunch_fwstat (s : State) (n : Nat) (f : Launch → Launch) : (s.modLaunch n f).fwstat = s.fwstat := by unfold State.modLaunch; split <;> rfl
@[simp] theorem State.modLaunch_fwImage (s : State) (n : Nat) (f : Launch → Launch) : (s.modLaunch n f).fwImage = s.fwImage := by unfold State.modLaunch; split <;> rfl
@[simp] theorem State.modLaunch_devnum (s : State) (n : Nat) (f : Launch → Launch) : (s.modLaunch n f).devnum = s.devnum := by unfold State.modLaunch; split <;> rfl
@[simp] theorem State.modLaunch_xm (s : State) (n : Nat) (f : Launch → Launch) : (s.modLaunch n f).xm = s.xm := by unfold State.modLaunch; split <;> rfl
@[simp] theorem State.modLaunch_errHead (s : State) (n : Nat) (f : Launch → Launch) : (s.modLaunch n f).errHead = s.errHead := by unfold State.modLaunch; split <;> rfl
@[simp] theorem State.modLaunch_errTail (s : State) (n : Nat) (f : Launch → Launch) : (s.modLaunch n f).errTail = s.errTail := by unfold State.modLaunch; split <;> rfl
@[simp] theorem State.modLaunch_errBase (s : State) (n : Nat) (f : Launch → Launch) : (s.modLaunch n f).errBase = s.errBase := by unfold State.modLaunch; split <;> rfl
@[simp] theorem State.modLaunch_hdm (s : State) (n : Nat) (f : Launch → Launch) : (s.modLaunch n f).hdm = s.hdm := by unfold State.modLaunch; split <;> rfl
@[simp] theorem State.modLaunch_fabric (s : State) (n : Nat) (f : Launch → Launch) : (s.modLaunch n f).fabric = s.fabric := by unfold State.modLaunch; split <;> rfl
@[simp] theorem State.modLaunch_parts (s : State) (n : Nat) (f : Launch → Launch) : (s.modLaunch n f).parts = s.parts := by unfold State.modLaunch; split <;> rfl
@[simp] theorem State.modLaunch_cores (s : State) (n : Nat) (f : Launch → Launch) : (s.modLaunch n f).cores = s.cores := by unfold State.modLaunch; split <;> rfl
@[simp] theorem State.modLaunch_groups (s : State) (n : Nat) (f : Launch → Launch) : (s.modLaunch n f).groups = s.groups := by unfold State.modLaunch; split <;> rfl
@[simp] theorem State.modLaunch_wgs (s : State) (n : Nat) (f : Launch → Launch) : (s.modLaunch n f).wgs = s.wgs := by unfold State.modLaunch; split <;> rfl
@[simp] theorem State.modLaunch_taskq (s : State) (n : Nat) (f : Launch → Launch) : (s.modLaunch n f).taskq = s.taskq := by unfold State.modLaunch; split <;> rfl
@[simp] theorem State.modLaunch_taskNum (s : State) (n : Nat) (f : Launch → Launch) : (s.modLaunch n f).taskNum = s.taskNum := by unfold State.modLaunch; split <;> rfl
@[simp] theorem State.modLaunch_mem (s : State) (n : Nat) (f : Launch → Launch) : (s.modLaunch n f).mem = s.mem := by unfold State.modLaunch; split <;> rfl
@[simp] theorem State.modLaunch_poison (s : State) (n : Nat) (f : Launch → Launch) : (s.modLaunch n f).poison = s.poison := by unfold State.modLaunch; split <;> rfl
@[simp] theorem State.modLaunch_staged (s : State) (n : Nat) (f : Launch → Launch) : (s.modLaunch n f).staged = s.staged := by unfold State.modLaunch; split <;> rfl
@[simp] theorem State.modLaunch_bad (s : State) (n : Nat) (f : Launch → Launch) : (s.modLaunch n f).bad = s.bad := by unfold State.modLaunch; split <;> rfl
@[simp] theorem State.modLaunch_hostMem (s : State) (n : Nat) (f : Launch → Launch) : (s.modLaunch n f).hostMem = s.hostMem := by unfold State.modLaunch; split <;> rfl
@[simp] theorem State.modLaunch_older (s : State) (n : Nat) (f : Launch → Launch) : (s.modLaunch n f).older = s.older := by unfold State.modLaunch; split <;> rfl
@[simp] theorem State.modLaunch_xmHeld (s : State) (n : Nat) (f : Launch → Launch) : (s.modLaunch n f).xmHeld = s.xmHeld := by unfold State.modLaunch; split <;> rfl
@[simp] theorem State.modLaunch_l2 (s : State) (n : Nat) (f : Launch → Launch) : (s.modLaunch n f).l2 = s.l2 := by unfold State.modLaunch; split <;> rfl
@[simp] theorem State.modLaunch_sliceTlb (s : State) (n : Nat) (f : Launch → Launch) : (s.modLaunch n f).sliceTlb = s.sliceTlb := by unfold State.modLaunch; split <;> rfl
@[simp] theorem State.modLaunch_execTlb (s : State) (n : Nat) (f : Launch → Launch) : (s.modLaunch n f).execTlb = s.execTlb := by unfold State.modLaunch; split <;> rfl
@[simp] theorem State.modLaunch_gens (s : State) (n : Nat) (f : Launch → Launch) : (s.modLaunch n f).gens = s.gens := by unfold State.modLaunch; split <;> rfl
@[simp] theorem State.modLaunch_retire (s : State) (n : Nat) (f : Launch → Launch) : (s.modLaunch n f).retire = s.retire := by unfold State.modLaunch; split <;> rfl
@[simp] theorem State.modLaunch_rows (s : State) (n : Nat) (f : Launch → Launch) : (s.modLaunch n f).rows = s.rows := by unfold State.modLaunch; split <;> rfl
@[simp] theorem State.modLaunch_trefwHigh (s : State) (n : Nat) (f : Launch → Launch) : (s.modLaunch n f).trefwHigh = s.trefwHigh := by unfold State.modLaunch; split <;> rfl
@[simp] theorem State.modLaunch_selfRefresh (s : State) (n : Nat) (f : Launch → Launch) : (s.modLaunch n f).selfRefresh = s.selfRefresh := by unfold State.modLaunch; split <;> rfl
@[simp] theorem State.modLaunch_chan (s : State) (n : Nat) (f : Launch → Launch) : (s.modLaunch n f).chan = s.chan := by unfold State.modLaunch; split <;> rfl
@[simp] theorem State.modLaunch_ulock (s : State) (n : Nat) (f : Launch → Launch) : (s.modLaunch n f).ulock = s.ulock := by unfold State.modLaunch; split <;> rfl
@[simp] theorem State.modLaunch_freeze (s : State) (n : Nat) (f : Launch → Launch) : (s.modLaunch n f).freeze = s.freeze := by unfold State.modLaunch; split <;> rfl
@[simp] theorem State.modLaunch_copies (s : State) (n : Nat) (f : Launch → Launch) : (s.modLaunch n f).copies = s.copies := by unfold State.modLaunch; split <;> rfl
@[simp] theorem State.modLaunch_tierOps (s : State) (n : Nat) (f : Launch → Launch) : (s.modLaunch n f).tierOps = s.tierOps := by unfold State.modLaunch; split <;> rfl
@[simp] theorem State.modLaunch_images (s : State) (n : Nat) (f : Launch → Launch) : (s.modLaunch n f).images = s.images := by unfold State.modLaunch; split <;> rfl
@[simp] theorem State.modLaunch_retiredUnits (s : State) (n : Nat) (f : Launch → Launch) : (s.modLaunch n f).retiredUnits = s.retiredUnits := by unfold State.modLaunch; split <;> rfl
@[simp] theorem State.modLaunch_spare (s : State) (n : Nat) (f : Launch → Launch) : (s.modLaunch n f).spare = s.spare := by unfold State.modLaunch; split <;> rfl
@[simp] theorem State.modLaunch_links (s : State) (n : Nat) (f : Launch → Launch) : (s.modLaunch n f).links = s.links := by unfold State.modLaunch; split <;> rfl
@[simp] theorem State.modLaunch_sliceAsleep (s : State) (n : Nat) (f : Launch → Launch) : (s.modLaunch n f).sliceAsleep = s.sliceAsleep := by unfold State.modLaunch; split <;> rfl
@[simp] theorem State.modLaunch_hostEpoch (s : State) (n : Nat) (f : Launch → Launch) : (s.modLaunch n f).hostEpoch = s.hostEpoch := by unfold State.modLaunch; split <;> rfl
@[simp] theorem State.modLaunch_hostFailed (s : State) (n : Nat) (f : Launch → Launch) : (s.modLaunch n f).hostFailed = s.hostFailed := by unfold State.modLaunch; split <;> rfl
@[simp] theorem State.modLaunch_peerEpoch (s : State) (n : Nat) (f : Launch → Launch) : (s.modLaunch n f).peerEpoch = s.peerEpoch := by unfold State.modLaunch; split <;> rfl
@[simp] theorem State.modLaunch_peerFailed (s : State) (n : Nat) (f : Launch → Launch) : (s.modLaunch n f).peerFailed = s.peerFailed := by unfold State.modLaunch; split <;> rfl
@[simp] theorem State.modLaunch_coreFailed (s : State) (n : Nat) (f : Launch → Launch) : (s.modLaunch n f).coreFailed = s.coreFailed := by unfold State.modLaunch; split <;> rfl
@[simp] theorem State.modLaunch_throttled (s : State) (n : Nat) (f : Launch → Launch) : (s.modLaunch n f).throttled = s.throttled := by unfold State.modLaunch; split <;> rfl
@[simp] theorem State.modLaunch_fwHash (s : State) (n : Nat) (f : Launch → Launch) : (s.modLaunch n f).fwHash = s.fwHash := by unfold State.modLaunch; split <;> rfl
@[simp] theorem State.modLaunch_fwVersion (s : State) (n : Nat) (f : Launch → Launch) : (s.modLaunch n f).fwVersion = s.fwVersion := by unfold State.modLaunch; split <;> rfl
@[simp] theorem State.modLaunch_spdm (s : State) (n : Nat) (f : Launch → Launch) : (s.modLaunch n f).spdm = s.spdm := by unfold State.modLaunch; split <;> rfl
@[simp] theorem State.modLaunch_cur (s : State) (n : Nat) (f : Launch → Launch) : (s.modLaunch n f).cur = s.cur := by unfold State.modLaunch; split <;> rfl
@[simp] theorem State.modLaunch_agenda (s : State) (n : Nat) (f : Launch → Launch) : (s.modLaunch n f).agenda = s.agenda := by unfold State.modLaunch; split <;> rfl
@[simp] theorem State.modLaunch_issued (s : State) (n : Nat) (f : Launch → Launch) : (s.modLaunch n f).issued = s.issued := by unfold State.modLaunch; split <;> rfl
@[simp] theorem State.modLaunch_cyc (s : State) (n : Nat) (f : Launch → Launch) : (s.modLaunch n f).cyc = s.cyc := by unfold State.modLaunch; split <;> rfl
@[simp] theorem State.modLaunch_nextId (s : State) (n : Nat) (f : Launch → Launch) : (s.modLaunch n f).nextId = s.nextId := by unfold State.modLaunch; split <;> rfl
@[simp] theorem State.modLaunch_dram (s : State) (n : Nat) (f : Launch → Launch) : (s.modLaunch n f).dram = s.dram := by unfold State.modLaunch; split <;> rfl
@[simp] theorem State.modLaunch_freeCtr (s : State) (n : Nat) (f : Launch → Launch) : (s.modLaunch n f).freeCtr = s.freeCtr := by unfold State.modLaunch; split <;> rfl

@[simp] theorem State.modSplit_clock (s : State) (w : Who) (f : Split → Split) : (s.modSplit w f).clock = s.clock := State.modGroup_clock ..
@[simp] theorem State.modSplit_powered (s : State) (w : Who) (f : Split → Split) : (s.modSplit w f).powered = s.powered := State.modGroup_powered ..
@[simp] theorem State.modSplit_verMin (s : State) (w : Who) (f : Split → Split) : (s.modSplit w f).verMin = s.verMin := State.modGroup_verMin ..
@[simp] theorem State.modSplit_verMax (s : State) (w : Who) (f : Split → Split) : (s.modSplit w f).verMax = s.verMax := State.modGroup_verMax ..
@[simp] theorem State.modSplit_versel (s : State) (w : Who) (f : Split → Split) : (s.modSplit w f).versel = s.versel := State.modGroup_versel ..
@[simp] theorem State.modSplit_go (s : State) (w : Who) (f : Split → Split) : (s.modSplit w f).go = s.go := State.modGroup_go ..
@[simp] theorem State.modSplit_err (s : State) (w : Who) (f : Split → Split) : (s.modSplit w f).err = s.err := State.modGroup_err ..
@[simp] theorem State.modSplit_fwstat (s : State) (w : Who) (f : Split → Split) : (s.modSplit w f).fwstat = s.fwstat := State.modGroup_fwstat ..
@[simp] theorem State.modSplit_fwImage (s : State) (w : Who) (f : Split → Split) : (s.modSplit w f).fwImage = s.fwImage := State.modGroup_fwImage ..
@[simp] theorem State.modSplit_devnum (s : State) (w : Who) (f : Split → Split) : (s.modSplit w f).devnum = s.devnum := State.modGroup_devnum ..
@[simp] theorem State.modSplit_xm (s : State) (w : Who) (f : Split → Split) : (s.modSplit w f).xm = s.xm := State.modGroup_xm ..
@[simp] theorem State.modSplit_errHead (s : State) (w : Who) (f : Split → Split) : (s.modSplit w f).errHead = s.errHead := State.modGroup_errHead ..
@[simp] theorem State.modSplit_errTail (s : State) (w : Who) (f : Split → Split) : (s.modSplit w f).errTail = s.errTail := State.modGroup_errTail ..
@[simp] theorem State.modSplit_errBase (s : State) (w : Who) (f : Split → Split) : (s.modSplit w f).errBase = s.errBase := State.modGroup_errBase ..
@[simp] theorem State.modSplit_hdm (s : State) (w : Who) (f : Split → Split) : (s.modSplit w f).hdm = s.hdm := State.modGroup_hdm ..
@[simp] theorem State.modSplit_fabric (s : State) (w : Who) (f : Split → Split) : (s.modSplit w f).fabric = s.fabric := State.modGroup_fabric ..
@[simp] theorem State.modSplit_parts (s : State) (w : Who) (f : Split → Split) : (s.modSplit w f).parts = s.parts := State.modGroup_parts ..
@[simp] theorem State.modSplit_cores (s : State) (w : Who) (f : Split → Split) : (s.modSplit w f).cores = s.cores := State.modGroup_cores ..
@[simp] theorem State.modSplit_wgs (s : State) (w : Who) (f : Split → Split) : (s.modSplit w f).wgs = s.wgs := State.modGroup_wgs ..
@[simp] theorem State.modSplit_launches (s : State) (w : Who) (f : Split → Split) : (s.modSplit w f).launches = s.launches := State.modGroup_launches ..
@[simp] theorem State.modSplit_taskq (s : State) (w : Who) (f : Split → Split) : (s.modSplit w f).taskq = s.taskq := State.modGroup_taskq ..
@[simp] theorem State.modSplit_taskNum (s : State) (w : Who) (f : Split → Split) : (s.modSplit w f).taskNum = s.taskNum := State.modGroup_taskNum ..
@[simp] theorem State.modSplit_mem (s : State) (w : Who) (f : Split → Split) : (s.modSplit w f).mem = s.mem := State.modGroup_mem ..
@[simp] theorem State.modSplit_poison (s : State) (w : Who) (f : Split → Split) : (s.modSplit w f).poison = s.poison := State.modGroup_poison ..
@[simp] theorem State.modSplit_staged (s : State) (w : Who) (f : Split → Split) : (s.modSplit w f).staged = s.staged := State.modGroup_staged ..
@[simp] theorem State.modSplit_bad (s : State) (w : Who) (f : Split → Split) : (s.modSplit w f).bad = s.bad := State.modGroup_bad ..
@[simp] theorem State.modSplit_hostMem (s : State) (w : Who) (f : Split → Split) : (s.modSplit w f).hostMem = s.hostMem := State.modGroup_hostMem ..
@[simp] theorem State.modSplit_older (s : State) (w : Who) (f : Split → Split) : (s.modSplit w f).older = s.older := State.modGroup_older ..
@[simp] theorem State.modSplit_xmHeld (s : State) (w : Who) (f : Split → Split) : (s.modSplit w f).xmHeld = s.xmHeld := State.modGroup_xmHeld ..
@[simp] theorem State.modSplit_l2 (s : State) (w : Who) (f : Split → Split) : (s.modSplit w f).l2 = s.l2 := State.modGroup_l2 ..
@[simp] theorem State.modSplit_sliceTlb (s : State) (w : Who) (f : Split → Split) : (s.modSplit w f).sliceTlb = s.sliceTlb := State.modGroup_sliceTlb ..
@[simp] theorem State.modSplit_execTlb (s : State) (w : Who) (f : Split → Split) : (s.modSplit w f).execTlb = s.execTlb := State.modGroup_execTlb ..
@[simp] theorem State.modSplit_gens (s : State) (w : Who) (f : Split → Split) : (s.modSplit w f).gens = s.gens := State.modGroup_gens ..
@[simp] theorem State.modSplit_retire (s : State) (w : Who) (f : Split → Split) : (s.modSplit w f).retire = s.retire := State.modGroup_retire ..
@[simp] theorem State.modSplit_rows (s : State) (w : Who) (f : Split → Split) : (s.modSplit w f).rows = s.rows := State.modGroup_rows ..
@[simp] theorem State.modSplit_trefwHigh (s : State) (w : Who) (f : Split → Split) : (s.modSplit w f).trefwHigh = s.trefwHigh := State.modGroup_trefwHigh ..
@[simp] theorem State.modSplit_selfRefresh (s : State) (w : Who) (f : Split → Split) : (s.modSplit w f).selfRefresh = s.selfRefresh := State.modGroup_selfRefresh ..
@[simp] theorem State.modSplit_chan (s : State) (w : Who) (f : Split → Split) : (s.modSplit w f).chan = s.chan := State.modGroup_chan ..
@[simp] theorem State.modSplit_ulock (s : State) (w : Who) (f : Split → Split) : (s.modSplit w f).ulock = s.ulock := State.modGroup_ulock ..
@[simp] theorem State.modSplit_freeze (s : State) (w : Who) (f : Split → Split) : (s.modSplit w f).freeze = s.freeze := State.modGroup_freeze ..
@[simp] theorem State.modSplit_copies (s : State) (w : Who) (f : Split → Split) : (s.modSplit w f).copies = s.copies := State.modGroup_copies ..
@[simp] theorem State.modSplit_tierOps (s : State) (w : Who) (f : Split → Split) : (s.modSplit w f).tierOps = s.tierOps := State.modGroup_tierOps ..
@[simp] theorem State.modSplit_images (s : State) (w : Who) (f : Split → Split) : (s.modSplit w f).images = s.images := State.modGroup_images ..
@[simp] theorem State.modSplit_retiredUnits (s : State) (w : Who) (f : Split → Split) : (s.modSplit w f).retiredUnits = s.retiredUnits := State.modGroup_retiredUnits ..
@[simp] theorem State.modSplit_spare (s : State) (w : Who) (f : Split → Split) : (s.modSplit w f).spare = s.spare := State.modGroup_spare ..
@[simp] theorem State.modSplit_links (s : State) (w : Who) (f : Split → Split) : (s.modSplit w f).links = s.links := State.modGroup_links ..
@[simp] theorem State.modSplit_sliceAsleep (s : State) (w : Who) (f : Split → Split) : (s.modSplit w f).sliceAsleep = s.sliceAsleep := State.modGroup_sliceAsleep ..
@[simp] theorem State.modSplit_hostEpoch (s : State) (w : Who) (f : Split → Split) : (s.modSplit w f).hostEpoch = s.hostEpoch := State.modGroup_hostEpoch ..
@[simp] theorem State.modSplit_hostFailed (s : State) (w : Who) (f : Split → Split) : (s.modSplit w f).hostFailed = s.hostFailed := State.modGroup_hostFailed ..
@[simp] theorem State.modSplit_peerEpoch (s : State) (w : Who) (f : Split → Split) : (s.modSplit w f).peerEpoch = s.peerEpoch := State.modGroup_peerEpoch ..
@[simp] theorem State.modSplit_peerFailed (s : State) (w : Who) (f : Split → Split) : (s.modSplit w f).peerFailed = s.peerFailed := State.modGroup_peerFailed ..
@[simp] theorem State.modSplit_coreFailed (s : State) (w : Who) (f : Split → Split) : (s.modSplit w f).coreFailed = s.coreFailed := State.modGroup_coreFailed ..
@[simp] theorem State.modSplit_throttled (s : State) (w : Who) (f : Split → Split) : (s.modSplit w f).throttled = s.throttled := State.modGroup_throttled ..
@[simp] theorem State.modSplit_fwHash (s : State) (w : Who) (f : Split → Split) : (s.modSplit w f).fwHash = s.fwHash := State.modGroup_fwHash ..
@[simp] theorem State.modSplit_fwVersion (s : State) (w : Who) (f : Split → Split) : (s.modSplit w f).fwVersion = s.fwVersion := State.modGroup_fwVersion ..
@[simp] theorem State.modSplit_spdm (s : State) (w : Who) (f : Split → Split) : (s.modSplit w f).spdm = s.spdm := State.modGroup_spdm ..
@[simp] theorem State.modSplit_agenda (s : State) (w : Who) (f : Split → Split) : (s.modSplit w f).agenda = s.agenda := State.modGroup_agenda ..
@[simp] theorem State.modSplit_issued (s : State) (w : Who) (f : Split → Split) : (s.modSplit w f).issued = s.issued := State.modGroup_issued ..
@[simp] theorem State.modSplit_cyc (s : State) (w : Who) (f : Split → Split) : (s.modSplit w f).cyc = s.cyc := State.modGroup_cyc ..
@[simp] theorem State.modSplit_nextId (s : State) (w : Who) (f : Split → Split) : (s.modSplit w f).nextId = s.nextId := State.modGroup_nextId ..
@[simp] theorem State.modSplit_dram (s : State) (w : Who) (f : Split → Split) : (s.modSplit w f).dram = s.dram := State.modGroup_dram ..
@[simp] theorem State.modSplit_freeCtr (s : State) (w : Who) (f : Split → Split) : (s.modSplit w f).freeCtr = s.freeCtr := State.modGroup_freeCtr ..

@[simp] theorem State.part_modPart (s : State) (p : Nat) (f : Partition → Partition) : (s.modPart p f).part p = f (s.part p) := by
  simp [State.part, State.modPart, Table.getD, Table.get?_put_same]
theorem State.part_modPart_other (s : State) {p q : Nat} (h : q ≠ p) (f : Partition → Partition) : (s.modPart p f).part q = s.part q := by
  simp [State.part, State.modPart, Table.getD, Table.get?_put_other _ h]

end Sys2Proof.Machine
end

