-- ==== Sys2Proof/Laws/Turns.lean ====
section
/-! SUPPORT. How an instruction completes that changes its split, lanes, its group's own registers or its core's: one lemma for each shape. -/
namespace Sys2Proof.Machine

theorem Group.lane_eq (g : Group) (l : Nat) : g.lanes.getD l {} = g.lane l := rfl

/-- A change of the issuing split, then the instruction completes. -/
theorem Becomes.modSplit_done {s : State} {i : Iss} (h : s.iss? = some i) {f : Split → Split} (hid : ∀ y, (f y).id = y.id) (o : Op) :
    Becomes s ((s.modSplit i.who f).done i o) i ((f i.sp).adv (opUnits o)) i.g.lanes := by
  rw [State.done, State.modSplit_modSplit (State.iss?_some h).2.1 hid]
  exact Becomes.modSplit h (fun y => by simp [hid])

/-- A change of some lanes, then the instruction completes. -/
theorem Becomes.modLanes_done {s : State} {i : Iss} (h : s.iss? = some i) (f : Nat → Lane → Lane) {ls : List Nat} (nd : ls.Nodup)
    (_hl : ∀ l ∈ ls, l < i.g.lanes.length) (o : Op) :
    ∃ lanes, Becomes s ((s.modGroup i.who.key fun g => g.modLanes ls f).done i o) i (i.sp.adv (opUnits o)) lanes ∧
      lanes.length = i.g.lanes.length ∧
      ∀ l < i.g.lanes.length, lanes.getD l {} = if l ∈ ls then f l (i.g.lane l) else i.g.lane l := by
  obtain ⟨_, hg, hs⟩ := State.iss?_some h
  obtain ⟨e1, e2, e3, e4⟩ := Group.modLanes_spec i.g f ls nd
  have e5 : (i.g.modLanes ls f).splits = i.g.splits := by rw [e2]
  rw [State.modGroup_eq hg, State.setGroup_done']
  refine ⟨(i.g.modLanes ls f).lanes, ⟨OnlyGroup.setGroup _ _ _, (OnlyGroup.setGroup _ i.who.key _).sameMemory, _, State.setGroup_get _ _ _, ⟨?_, ?_⟩,
    Group.split?_modSplit_same (by rw [Group.split?_splits e5]; exact hs) fun _ => rfl, rfl⟩, e1, ?_⟩
  · simp only [Group.modSplit]; rw [e2]
  · intro m hm
    exact (Group.split?_modSplit_other hm (f := fun y => y.adv (opUnits o)) fun _ => rfl).trans (Group.split?_splits e5 m)
  · intro l hll
    split
    · exact e3 l ‹_› hll
    · exact e4 l hll ‹_›

/-- A change of the issuing group that leaves its splits, then the instruction completes. -/
theorem Turns.modGroup_done {s : State} {i : Iss} (h : s.iss? = some i) (f : Group → Group) (hsp : (f i.g).splits = i.g.splits) (o : Op) :
    Turns s ((s.modGroup i.who.key f).done i o) i (f i.g) (i.sp.adv (opUnits o)) := by
  obtain ⟨_, hg, hs⟩ := State.iss?_some h
  rw [State.modGroup_eq hg, State.setGroup_done']
  exact ⟨OnlyGroup.setGroup _ _ _, (OnlyGroup.setGroup _ i.who.key _).sameMemory, _, State.setGroup_get _ _ _,
    Group.OnlySplit.modSplit _ _ fun _ => rfl, Group.split?_modSplit_same (by rw [Group.split?_splits hsp]; exact hs) fun _ => rfl, rfl⟩

theorem Becomes.turns {s t : State} {i : Iss} {y : Split} (b : Becomes s t i y i.g.lanes) : Turns s t i i.g y := ⟨b.only, b.memory, b.group⟩

/-- Changing one core changes no other. -/
theorem State.core_modCore_same (s : State) (c : Nat) (f : Core → Core) : (s.modCore c f).core c = f (s.core c) := by
  simp [State.core, State.modCore, Table.getD, Table.get?_put_same]
theorem State.core_modCore_other (s : State) {c d : Nat} (f : Core → Core) (ne : d ≠ c) : (s.modCore c f).core d = s.core d := by
  simp [State.core, State.modCore, Table.getD, Table.get?_put_other _ ne]
theorem CoreBecomes.modCore (s : State) (c : Nat) (f : Core → Core) : CoreBecomes s (s.modCore c f) c (f (s.core c)) :=
  ⟨State.core_modCore_same s c f, fun _ ne => State.core_modCore_other s f ne⟩

@[simp] theorem State.done_cores (s : State) (i : Iss) (o : Op) : (s.done i o).cores = s.cores := by
  unfold State.done State.modSplit State.modGroup; split <;> rfl
@[simp] theorem State.core_done (s : State) (i : Iss) (o : Op) (c : Nat) : (s.done i o).core c = s.core c := by
  simp [State.core]

/-- A change of one core, then the instruction completes. -/
theorem core_done_becomes {s : State} {i : Iss} (h : s.iss? = some i) (c : Nat) (f : Core → Core) (o : Op) :
    CoreBecomes s ((s.modCore c f).done i o) c (f (s.core c)) ∧
    Turns { s with cores := ((s.modCore c f).done i o).cores } ((s.modCore c f).done i o) i i.g (i.sp.adv (opUnits o)) := by
  refine ⟨⟨by simp [State.core_modCore_same], fun d ne => by simp [State.core_modCore_other s f ne]⟩, ?_⟩
  have hb := State.done_becomes (s := s.modCore c f) (i := i) h o
  have he : ({ s with cores := ((s.modCore c f).done i o).cores } : State) = s.modCore c f := by rw [State.done_cores]; rfl
  rw [he]; exact hb.turns

end Sys2Proof.Machine
end

