-- ==== Sys2Proof/Tests/Slice0.lean ====
section
/-! SUPPORT. Tests: what well-formedness refuses, what words written out from the spec's encodings decode to, what one step does on small
states, and for every statement a state and operands that meet its hypotheses. -/
namespace Sys2Proof.Tests
set_option Elab.async false
open Sys2Proof Sys2Proof.Machine

/-! ## Ill-formed terms are refused: one for each check of WellFormed -/

def cx0 : DecCx := { vregs := 64, width := 32 }
def add1 : Op := { len := 1, ty := 0x01, d := .v 2, a := .v 0, b := .v 1 }
def mem0 : MemWord := ⟨0, 0, 0, 0, 0, 0, 0, 0⟩
def load1 : Op := { len := 2, d := .v 2, a := .s 0, b := .v 0, ext := .mem { mem0 with scale := 2, ixp := 1 } }
def ffma1 : Op := { len := 3, ty := 0x05, d := .v 8, a := .v 1, b := .v 2, c := .v 3 }
def yadd1 : Op := { len := 1, ty := 0x01, d := .v 9, a := .v 4, b := .v 5 }

theorem test_wf_accepts : (Instr.iadd add1).wf cx0 = true ∧ (Instr.ld load1).wf cx0 = true ∧
    (Instr.pair .ffma ffma1 .iadd yadd1).wf cx0 = true ∧ (Instr.pair .ffma { ffma1 with a := .v 0, b := .v 5 } .iadd yadd1).wf cx0 = true := by decide

theorem test_wf_fields : (Instr.iadd { add1 with len := 0 }).wf cx0 = false ∧ (Instr.fadd { add1 with fn := 6, ty := 0x05 }).wf cx0 = false ∧
    (Instr.iadd { add1 with ty := 0x3F }).wf cx0 = false ∧ (Instr.iadd { add1 with len := 3, ext := .rel 0 }).wf cx0 = false ∧
    (Instr.ld { load1 with ext := .none }).wf cx0 = false ∧ (Instr.ld { load1 with ext := .mem { mem0 with sub := 1 } }).wf cx0 = false ∧
    (Instr.br { len := 1, ext := .rel 0 }).wf cx0 = false ∧
    (Instr.atom { load1 with ty := 0x05, c := .v 4, ext := .mem { mem0 with aop := 9 } }).wf cx0 = false := by decide

theorem test_wf_operands : (Instr.iadd { add1 with d := .v 64 }).wf cx0 = false ∧ (Instr.iadd { add1 with a := .p 1 }).wf cx0 = false ∧
    (Instr.iadd64 { add1 with ty := 0x03, d := .v 3, a := .v 0, b := .v 4 }).wf cx0 = false ∧ (Instr.iadd { add1 with b := .l32 1 }).wf cx0 = false ∧
    (Instr.iadd { add1 with c := .v 1 }).wf cx0 = false ∧ (Instr.iadd { add1 with d := .q 0 }).wf cx0 = false ∧
    (Instr.iadd { add1 with a := .q 1 }).wf cx0 = false ∧ (Instr.fence { len := 1, ty := 0x03, a := .imm 64, b := .imm 1 }).wf cx0 = false := by decide

theorem test_wf_pairs : (Instr.pair .ffma { ffma1 with a := .imm 1 } .iadd yadd1).wf cx0 = false ∧
    (Instr.pair .ffma { ffma1 with ext := .rel 0 } .iadd yadd1).wf cx0 = false ∧ (Instr.pair .idiv ffma1 .iadd yadd1).wf cx0 = false ∧
    (Instr.pair .ffma ffma1 .iadd { yadd1 with d := .q 1 }).wf cx0 = false ∧ (Instr.pair .ffma ffma1 .iadd { yadd1 with len := 2 }).wf cx0 = false ∧
    (Instr.pair .ffma { ffma1 with a := .v 0, b := .v 4 } .iadd { yadd1 with a := .v 8 }).wf cx0 = false ∧
    (Instr.pair .ffma ffma1 .iadd { yadd1 with d := .v 12 }).wf cx0 = false ∧ (Instr.pair .ffma { ffma1 with fn := 8 } .iadd yadd1).wf cx0 = false := by decide

theorem test_wf_rows : (Instr.mselfStat { len := 1, fn := 1, d := .s 8 }).wf cx0 = false ∧
    (Instr.syswr { len := 2, a := .s 0, ext := .sys 0x030 0 }).wf cx0 = false ∧ (Instr.gather 0 0).wf cx0 = false ∧ Instr.pad.wf cx0 = false ∧
    (Instr.pair .pair ffma1 .iadd yadd1).wf cx0 = false := by decide

/-! ## Words written out from the spec's encodings decode to their instructions (more of them in DecodeWords) -/

theorem test_decode_control :
    decodeUnits cx0 [0x1000000E, 0x00100000, 0] = .ok (.bru { len := 2, a := .s 4, ext := .rel 0 }) 3 ∧
    decodeUnits cx0 [0x08000429, 0x0000000C] = .ok (.refill { len := 1, fn := 1, a := .v 2, b := .v 3 }) 2 ∧
    decodeUnits cx0 [0x10000361, 0x00100000] = .ok (.tspawn { len := 1, a := .s 4 }) 2 ∧
    decodeUnits cx0 [0x0000076D, 0x00000000] = .ok (.tdone { len := 1, fn := 1 }) 2 ∧
    decodeUnits cx0 [0x10000399, 0x00100000] = .ok (.ctxsave { len := 1, a := .s 4 }) 2 ∧
    decodeUnits cx0 [0x10280345, 0x00140000] = .ok (.dbarv { len := 1, d := .s 10, a := .s 4 }) 2 ∧
    decodeUnits cx0 [0x100003B1, 0x00100000] = .ok (.tlbinvVa { len := 1, a := .s 4 }) 2 := by decide

theorem test_decode_units : decodeUnits cx0 [0x10000685, 0x00000000] = .ok (.sret { len := 1, fn := 1, a := .v 4 }) 2 ∧
    decodeUnits cx0 [0x002002B1, 0x00040000] = .ok (.seal { len := 1, d := .s 8 }) 2 ∧
    decodeUnits cx0 [0x002002D5, 0x00040000] = .ok (.mselfStat { len := 1, d := .s 8 }) 2 ∧
    decodeUnits cx0 [0x000402A7, 0x015C1820, 0x00080040, 0x02000004] =
      .ok (.cpyb { len := 3, d := .bar 1, a := .s 0, b := .s 8, c := .s 6, ext := .copy ⟨0, 0, 2, 0, 0, 4, 8, 64⟩ }) 4 ∧
    decodeUnits cx0 [0x000002C7, 0x003C1000, 0x10002000, 0x80000800] =
      .ok (.mmaz { len := 3, d := .acc 0, a := .imm 0, c := .v 4, ext := .mat ⟨2, 0, 0, 0, 0, 32, 16, 2, 0, 0, 0⟩ }) 4 ∧
    decodeUnits cx0 [0x180805D9, 0x140C0000] = .ok (.matchKeys { len := 1, fn := 1, ty := 0x05, d := .p 2, a := .v 6 }) 2 := by decide

/-- Words of the spec's programs: private memory, sink groups, tasks, fences, a guarded FFMA and a forked branch. -/
theorem test_decode_memory : decodeUnits cx0 [0x14180211, 0] = .ok (.ldp { len := 1, d := .v 6, a := .v 5, ext := .mem mem0 }) 2 ∧
    decodeUnits cx0 [0x14000215, 0x00001800] = .ok (.stp { len := 1, a := .v 5, c := .v 6, ext := .mem mem0 }) 2 ∧
    decodeUnits cx0 [0x14000281, 0x00300000] = .ok (.sink { len := 1, a := .imm 5 }) 2 ∧
    decodeUnits cx0 [0x3018028A, 0x00100014, 0x00020000] = .ok (.sld { len := 2, d := .v 6, a := .s 12, b := .v 5, ext := .mem { mem0 with ixp := 1 } }) 3 ∧
    decodeUnits cx0 [0x10000A85, 0x00000018] = .ok (.sret { len := 1, fn := 2, a := .v 4, b := .v 6 }) 2 ∧
    decodeUnits cx0 [0x08000235, 0x00F00004] = .ok (.fence { len := 1, ty := 0x00, a := .imm 2, b := .imm 1 }) 2 := by decide

theorem test_decode_arithmetic : decodeUnits cx0 [0x1018410D, 0x1440185C] = .ok (.ffma { len := 1, pg := 1, ty := 0x05, d := .v 6, a := .v 4, b := .s 23, c := .v 6 }) 2 ∧
    decodeUnits cx0 [0x0808010A, 0x14C00000, 0x3FC00000] = .ok (.fmul { len := 2, ty := 0x05, d := .v 2, a := .v 2, b := .l32 0x3FC00000 }) 3 ∧
    decodeUnits cx0 [0x0400000A, 0, 9] = .ok (.brc { len := 2, a := .p 1, ext := .rel 9 }) 3 ∧ decodeUnits cx0 [6, 0, 5] = .ok (.br { len := 2, ext := .rel 5 }) 3 ∧
    decodeUnits cx0 [0x31, 0] = .ok (.rcv { len := 1 }) 2 ∧ decodeUnits cx0 [0x25, 0] = .ok (.exit { len := 1 }) 2 ∧
    decodeUnits cx0 [0x38000365, 0x00100000] = .ok (.tarm { len := 1, a := .s 14 }) 2 ∧ decodeUnits cx0 [0x20000369, 0x00100000] = .ok (.tdec { len := 1, a := .s 8 }) 2 := by decide


/-- The order of the checks (R64): AGEMASK with an undefined FN takes 64 bits alone (R179), S2P's D must be zero (R99),
and a pad of a broken run is no target (R42). -/
theorem test_decode_order : decodeUnits cx0 [0x00000DE2, 0, 0] = .bad (illop 3) ∧ decodeUnits cx0 [0x00000DE1, 0] = .bad (illop 4) ∧
    decodeUnits cx0 [0x000400D1, 0x00000004] = .bad (illop 6 0) ∧
    decodeBlock cx0 true [0, 0, 0, 5, 0, 0, 0, 0] 1 = .bad { cause := .illplace, aux := 3 } ∧ decodeBlock cx0 false [0, 0, 0, 5, 0, 0, 0, 0] 0 = .bad (illop 2) ∧
    decodeBlock cx0 false [0, 0, 0, 0, 0, 0, 0, 0] 0 = .pad := by decide

/-! ## Small states: one group of 16 lanes on core 0, of which some are live -/

/-- The machine with the placed group issuing. -/
def one : State := { State.reset.loaded with cur := some ⟨0, 0⟩ }
def base : Split := { slices := 0xF#16, pc := 0 }
/-- The placed group with the splits given. -/
def grp (xs : List Split) : Group := { placedGroup with splits := xs }
def live1 : Lane := { idle := false, exm := true }
/-- The group whose lanes begin with those given. -/
def lanesGrp (ls : List Lane) (xs : List Split) : Group := { grp xs with lanes := ls ++ List.replicate (16 - ls.length) {} }
def stOf (g : Group) : State := { one with groups := [(0, g)] }
/-- The issuing split of that group. -/
def iss (g : Group) (x : Split) : Iss := ⟨⟨0, 0⟩, g, x⟩
/-- A group issues with its first split x. -/
def issues (s : State) (g : Group) (x : Split) : Prop := s.iss? = some (iss g x)
/-- What a step leaves in the group, its first split and a lane. -/
def ran (i : Instr) (s : State) : State := match exec i s with
  | .next t => t
  | _ => {}
def splitOf (s : State) : Split := (((s.groups.get? 0).bind fun g => g.split? 0)).getD base
def laneOf (s : State) (l : Nat) : Lane := ((s.groups.get? 0).map fun g => g.lane l).getD {}
def op1 : Op := { len := 1 }

theorem one_issues : one.iss? = some (iss placedGroup base) ∧ splitGuard placedGroup base op1 = true := by decide

def regs01 : Split := { base with s := [(0, 1), (4, 8)] }
def far1 : Op := { len := 2, d := .s 62, ext := .rel 5 }
theorem witness_ControlTransfers : (stOf (grp [regs01])).iss? = some (iss (grp [regs01]) regs01) ∧ splitGuard (grp [regs01]) regs01 far1 = true ∧
    far1.ext = .rel 5 ∧ far1.d = .s 62 ∧ scalar32 regs01 (.s 0) ≠ 0 ∧ scalar32 regs01 (.s 1) = 0 ∧
    scalar64 regs01 (.s 4) % 4 = 0 ∧ scalar64 regs01 (.s 4) < 2 ^ 52 := by decide

theorem test_branches : (splitOf (ran (.br far1) (stOf (grp [regs01])))).pc = 5 ∧ (splitOf (ran (.bru { far1 with a := .s 0 }) (stOf (grp [regs01])))).pc = 5 ∧
    (splitOf (ran (.bru { far1 with a := .s 1 }) (stOf (grp [regs01])))).pc = 3 ∧ (splitOf (ran (.ret { op1 with a := .s 4 }) (stOf (grp [regs01])))).pc = 2 ∧
    (splitOf (ran (.call far1) { stOf (grp [regs01]) with mem := [(12, 1)] })).s.get 62 = 12 ∧ (splitOf (ran (.br { far1 with ext := .rel 0xFFFFFFFF#32 }) (stOf (grp [regs01])))).pc = -1#50 := by decide

def pOne : Lane := { live1 with p := 3 }
def forkG : Group := lanesGrp [pOne, {}, {}, {}, live1] [base]
def pushG (n : Nat) : Group := { lanesGrp [pOne, live1] [base] with rstacks := List.replicate 4 (List.replicate n ⟨false, 9, 1, 2, 3, 0⟩) }
def brc1 (fn : BitVec 4) (a : Opnd) : Op := { len := 2, fn := fn, a := a, ext := .rel 5 }
def takers (g : Group) (o : Op) : List Nat := (exmLanes g base).filter fun l => (g.lane l).guard o.pg o.pn && (readPred (g.lane l) o.a != (o.fn == 1))

theorem witness_BranchAndReconvergence : (stOf forkG).iss? = some (iss forkG base) ∧ exmLanes forkG base = [0, 4] ∧
    takers forkG (brc1 1 (.p 0)) = [] ∧ takers forkG (brc1 0 (.p 0)) = [0, 4] ∧ takers forkG (brc1 0 (.p 1)) = [0] ∧ slicesOf [0] &&& slicesOf [4] = 0 ∧
    (stOf (pushG 7)).iss? = some (iss (pushG 7) base) ∧ exmLanes (pushG 7) base = [0, 1] ∧ takers (pushG 7) (brc1 0 (.p 1)) = [0] ∧
    slicesOf [0] &&& slicesOf [1] ≠ 0 ∧ ((pushG 7).stack 0).length < 8 := by decide

theorem witness_BranchAndReconvergence_rcv : splitGuard placedGroup base op1 = true ∧ placedGroup.stack base.id = [] ∧
    splitGuard (pushG 1) base op1 = true ∧ (pushG 1).stack base.id = ⟨false, 9, 1, 2, 3, 0⟩ :: [] := by decide

theorem test_brc : ((ran (.brc (brc1 0 (.p 1))) (stOf forkG)).groups.get? 0).map (fun g => g.splits.map fun x => (x.slices, x.pc)) = some [(0xE, 3), (1, 5)] ∧
    (splitOf (ran (.brc (brc1 0 (.p 1))) (stOf (pushG 7)))).pc = 3 ∧ (laneOf (ran (.brc (brc1 0 (.p 1))) (stOf (pushG 7))) 0).exm = false ∧
    (splitOf (ran (.rcv op1) (stOf (pushG 1)))).pc = 9 := by decide

def guard1 : Op := { op1 with pg := 1 }
def gathered : Split := { slices := 0xE#16, pc := 0, wait := .gather (some 3) }
def late1 : Split := { slices := 0xE#16, pc := 4 }
def low1 : Split := { base with slices := 1 }
def full (xs : List Split) : Group := lanesGrp (List.replicate 16 live1) xs
def lastIdle : Group := lanesGrp (List.replicate 15 live1) [base]
def tenItems : State := { stOf lastIdle with wgs := [(0, { core := 0, part := 0, launch := 0, par := placedParams, slots := [0], next := 15, stop := 20 })] }

theorem witness_ExitAndRefill : (∃ l ∈ liveLanes (pushG 0) base, l ∉ activeLanes (pushG 0) base guard1) ∧
    (stOf (full [low1, gathered])).iss? = some (iss (full [low1, gathered]) low1) ∧ splitGuard (full [low1, gathered]) low1 op1 = true ∧
    (full [low1, gathered]).stack low1.id = [] ∧ (∀ y ∈ [low1, gathered], y.id = low1.id ∨ (y.pc = low1.pc ∧ ∃ c ∈ [some 3], y.wait = .gather c)) ∧
    (∀ l < 16, ((full [low1, gathered]).lane l).idle = false) ∧ (∃ y ∈ [low1, late1], y.id ≠ low1.id ∧ y.pc ≠ low1.pc) := by decide

theorem witness_ExitAndRefill_item : tenItems.iss? = some (iss lastIdle base) ∧ splitGuard lastIdle base op1 = true ∧ lastIdle.stack base.id = [] ∧
    lastIdle.splits = [base] ∧ ((List.range lastIdle.width).filter fun k => (lastIdle.lane k).idle) = [15] ∧ 15 < lastIdle.lanes.length ∧
    ((tenItems.setGroup 0 (lastIdle.merge base 2)).dispense lastIdle.wg lastIdle.first).map (·.1) = some 15 := by decide

theorem test_exit_refill : (laneOf (ran (.exit guard1) (stOf (pushG 0))) 0).idle = true ∧ (laneOf (ran (.exit guard1) (stOf (pushG 0))) 1).idle = false ∧
    (laneOf (ran (.refill op1) tenItems) 15).workid = 15 ∧ (laneOf (ran (.refill op1) tenItems) 15).age = 1 := by decide

def queues : Lane := { live1 with v := [(0, 5), (1, 7)], q0 := [9], q3 := [{ val := 4 }] }
def qG (l : Lane) (x : Split) : Group := lanesGrp [l] [x]
def traps : Split := { base with fmt := 0x1F0000#32 }
def add0 : Op := { len := 1, ty := 0x01, d := .v 2, a := .v 0, b := .v 1 }
/-- The hypotheses of ArithmeticCompletes. -/
def arithOk (g : Group) (x : Split) (o : Opc) (op : Op) : Bool :=
  shortAlu.contains o && !op.scalarD && decide (queueGate g (activeLanes g x op) op = .go) && (x.rerun.isNone || !(opPops op).contains 3) &&
  (activeLanes g x op).all fun l => (gatherBad (g.lane l) (opPops op)).isNone && ((iss g x).out o op l).flags &&& fmtTE x.fmt == 0 &&
    !aluRefuses o op.ty.toNat x.fmt (laneIn o op x (g.lane l) (takeEvts (iss g x) op (activeLanes g x op)).1)

theorem witness_ArithmeticCompletes : traps.owedAt traps.pc = none ∧ (stOf (qG queues traps)).iss? = some (iss (qG queues traps) traps) ∧ activeLanes (qG queues traps) traps add0 = [0] ∧
    (∀ a ∈ [.v 0, .q 0, .q 3, .q 4], ∀ d ∈ [.v 2, .q 1, .q 2, .q 4], arithOk (qG queues traps) traps .iadd { add0 with d := d, a := a } = true) ∧
    arithOk (qG queues traps) traps .fadd { add0 with ty := 0x05, a := .imm 0, b := .imm 0 } = true := by decide

theorem test_arith : (laneOf (ran (.iadd add0) (stOf (qG queues base))) 0).v.get 2 = 12 ∧ (laneOf (ran (.iadd { add0 with d := .q 1, a := .q 0 }) (stOf (qG queues base))) 0).q1 = [16] ∧
    (laneOf (ran (.iadd { add0 with d := .q 1, a := .q 0 }) (stOf (qG queues base))) 0).q0 = [] ∧ (laneOf (ran (.isub add0) (stOf (qG queues base))) 0).v.get 2 = 0xFFFFFFFE#32 := by decide

theorem witness_ScalarArithmeticCompletes : regs01.owedAt regs01.pc = none ∧ (stOf (grp [regs01])).iss? = some (iss (grp [regs01]) regs01) ∧
    (∀ e ∈ [(Opc.iadd, ({ add0 with d := .s 2, a := .s 0, b := .imm 3 } : Op)), (.fadd, { add0 with ty := 0x05, d := .s 2, a := .imm 0, b := .imm 0 })],
      e.1 ∈ shortAlu ∧ e.2.scalarD = true ∧ e.2.d = .s 2 ∧ splitGuard (grp [regs01]) regs01 e.2 = true ∧
      aluRefuses e.1 e.2.ty.toNat regs01.fmt (laneIn e.1 e.2 regs01 ((grp [regs01]).lane (lowLane (grp [regs01]) regs01)) []) = false ∧
      (evalScalar e.1 e.2 (iss (grp [regs01]) regs01)).flags &&& fmtTE regs01.fmt = 0) := by decide

theorem witness_GuardFalse : splitGuard placedGroup base guard1 = false ∧ ({ guard1 with d := .s 2 } : Op).scalarD = true ∧
    (refillRange guard1).any (fun r => r.2 < r.1) = false ∧ (refillRange { guard1 with fn := 1, a := .v 2, b := .v 2 }).any (fun r => r.2 < r.1) = false := by decide

theorem witness_PairCompletes : one.iss? = some (iss placedGroup base) ∧ base.owedAt base.pc = none ∧ (∀ y ∈ [({ add0 with d := .v 9, a := .v 4, b := .imm 1 } : Op), { add0 with d := .s 9, a := .s 4, b := .imm 1 }],
      ffma1.len = 3 ∧ ffma1.d.pairable = true ∧ y.d.pairable = true ∧ (∀ l ∈ activeLanes placedGroup base ffma1,
        ((iss placedGroup base).outX .ffma ffma1 l).flags &&& fmtTE base.fmt = 0 ∧ aluRefuses .ffma 5 base.fmt (laneIn .ffma ffma1 base (placedGroup.lane l) []) = false) ∧
      (∀ l ∈ activeLanes placedGroup base y, ((iss placedGroup base).outY .ffma ffma1 .iadd y l).flags &&& fmtTE base.fmt = 0)) ∧
    ({ add0 with d := .v 9 } : Op).scalarD = false ∧ ({ add0 with d := .s 9 } : Op).scalarD = true ∧ splitGuard placedGroup base add0 = true := by decide

/-- What an arithmetic opcode computes with FMT 0 and LFSR 1. -/
def alu (o : Opc) (fn ty : Nat) (x : LaneIn) : LaneOut := aluVal o fn ty 0 1 x

/-- The spec's table of divisions: 7, −7, the most negative number and 5 by 2, 2, −1 and 0 (R104). -/
theorem test_idiv : ([(7, 2), (0xFFFFFFF9, 2), (0x80000000, 0xFFFFFFFF), (5, 0)].map fun e => (alu .idiv 0 0x01 { a := e.1, b := e.2 }).val) =
      [3, 0xFFFFFFFD, 0x80000000, 0xFFFFFFFF] ∧
    ([(7, 2), (0xFFFFFFF9, 2), (0x80000000, 0xFFFFFFFF), (5, 0)].map fun e => (alu .idiv 0 0x21 { a := e.1, b := e.2 }).val) = [1, 0xFFFFFFFF, 0, 5] ∧
    ([3, 0xFFFFFFFD, 0x80000000, 0xFFFFFFFF].map fun a => (alu .i2i 8 0x12 { a := a }).val) = [3, 0xFFFFFFFD, 0xFFFF8000, 0xFFFFFFFF] := by decide

/-- The spec's width conversion of 0x12345 (R125). -/
theorem test_i2i : (alu .i2i 1 0x12 { a := 0x12345 }).val = 0x2345 ∧ (alu .i2i 9 0x12 { a := 0x12345 }).val = 0x7FFF := by decide

/-- IntegerValues and BitAndSelectValues bound only numbers. -/
theorem witness_BitAndSelectValues : (31 < 32 ∧ (alu .clz 0 0 { a := 1 }).val < 32) ∧ (1 ≤ 7 ∧ 7 < 8) ∧ 15 < 16 ∧ 7 < 8 ∧ 0x13 ∈ [0x01, 0x02, 0x03, 0x04, 0x10, 0x11, 0x12, 0x13] := by decide

def pair64 : Lane := { live1 with v := [(1, 1), (2, 0xFFFFFFFF#32)] }
def add64 : Op := { len := 1, ty := 0x03, d := .v 4, a := .v 0, b := .v 2 }
theorem witness_Iadd64Completes : (stOf (qG pair64 base)).iss? = some (iss (qG pair64 base) base) ∧ base.owedAt base.pc = none ∧ add64.ty = 0x03 ∧ opPops add64 = [] ∧ add64.d = .v 4 ∧
    activeLanes (qG pair64 base) base add64 = [0] ∧ splitGuard (qG pair64 base) base { add64 with d := .s 4, a := .s 0, b := .s 2 } = true ∧ (∀ r, Opnd.s 0 ≠ .v r ∧ Opnd.s 2 ≠ .v r) :=
  ⟨by decide, by decide, by decide, by decide, by decide, by decide, by decide, fun _ => ⟨nofun, nofun⟩⟩

theorem test_iadd64 : (laneOf (ran (.iadd64 add64) (stOf (qG pair64 base))) 0).v.get 4 = 0xFFFFFFFF#32 ∧
    (laneOf (ran (.iadd64 { add64 with fn := 1 }) (stOf (qG pair64 base))) 0).v.get 4 = 1 ∧
    (laneOf (ran (.iadd64 { add64 with fn := 1 }) (stOf (qG pair64 base))) 0).v.get 5 = 0 := by decide

def preds1 : Lane := { live1 with v := [(0, 0x0C), (1, 0x05)], p := 0x0B }
def s2p1 : Op := { len := 1, a := .v 0, b := .v 1 }
theorem witness_PredicatesSavedAndRestored : (stOf (qG preds1 base)).iss? = some (iss (qG preds1 base) base) ∧ base.owedAt base.pc = none ∧ activeLanes (qG preds1 base) base s2p1 = [0] ∧
    s2p1.d = .none ∧ s2p1.c = .none ∧ s2p1.scalarD = false ∧ queueGate (qG preds1 base) [0] s2p1 = .go ∧ base.rerun = none ∧
    gatherBad ((qG preds1 base).lane 0) (opPops s2p1) = none ∧ ({ op1 with d := .v 2 } : Op).scalarD = false := by decide

theorem test_preds : (laneOf (ran (.s2p s2p1) (stOf (qG preds1 base))) 0).p = 0x0F ∧ (laneOf (ran (.p2s { op1 with d := .v 2 }) (stOf (qG preds1 base))) 0).v.get 2 = 0x0B := by decide

def div1 : Op := { len := 1, ty := 0x01, d := .v 2, a := .v 0, b := .v 1 }
def sfu (traps : Bool) (d : Opnd) : SfuRes := { id := 7, slices := 0xF, dst := d, n := 1, lanes := 1, vals := [(0, 9)], flags := 0, traps := traps }
def sfuG : Group := { qG queues base with results := [sfu false (.v 2)] }
/-- A split that holds a special function until its result returns. -/
def holdsRes : Split := { traps with pc := 2, pend := some { pc := 0, opc := .rcp, op := div1, lanes := 1, budget := 0, shadow := 0, id := 7 } }
theorem witness_LongArithmetic : (∀ x ∈ [base, traps], x.owedAt x.pc = none ∧ (stOf (qG queues x)).iss? = some (iss (qG queues x) x) ∧ activeLanes (qG queues x) x div1 = [0] ∧
      queueGate (qG queues x) [0] div1 = .go ∧ x.rerun = none ∧ gatherBad ((qG queues x).lane 0) (opPops div1) = none) ∧
    Opc.idiv ∈ longAlu ∧ Opc.rcp ∈ longAlu ∧ div1.scalarD = false ∧ fmtTE traps.fmt ≠ 0 ∧ fmtTE base.fmt = 0 ∧
    (stOf sfuG).groups.get? 0 = some sfuG ∧ (sfuG.results.find? fun z => z.id == 7) = some (sfu false (.v 2)) ∧ (sfu false (.s 2)).traps = false ∧
    sfuG.retired = false ∧ (∀ y ∈ sfuG.splits, y.pend = none) ∧ (holdsRes.pend.map fun p => (p.id, holdsRes.owedAt p.pc)) = some (7, none) := by decide

theorem test_long_result : (laneOf (ran (.specialFunctionResult 0 7) (stOf sfuG)) 0).v.get 2 = 9 ∧
    (laneOf (ran (.idiv div1) (stOf (qG queues base))) 0).v.get 2 = 0 := by decide

def fullQ : Lane := { live1 with q1 := List.replicate 32 0, q2 := List.replicate 16 0 }
def waitQ : Lane := { live1 with q2 := [0, 0] }
def moving (k : MatKind) (g : Group) : Group := { g with mops := [{ id := 3, kind := k, acc := 0, slice := 0, slices := 0xF, fmt := 0, lanes := 1, idle := 0 }] }
def fullE : Group := { qG live1 base with q4 := List.replicate 16 ⟨0, 0, 0, 0⟩ }
theorem witness_QueueOperandsGate : (∀ g ∈ [qG live1 base, qG fullQ base, qG waitQ base, moving .mdrain (qG live1 base), moving .mfill (qG fullQ base), fullE],
      (stOf g).iss? = some (iss g base) ∧ activeLanes g base add0 = [0]) ∧
    0 ∈ opPops { add0 with a := .q 0 } ∧ ((qG live1 base).lane 0).q0.length < timesIn 0 (opPops { add0 with a := .q 0 }) ∧ (qG live1 base).moving .mdrain = false ∧
    3 ∈ opPops { add0 with a := .q 3 } ∧ ((qG live1 base).lane 0).q3.length < 1 ∧ ((qG live1 base).lane 0).q2.length + (qG live1 base).q2Due 0 < 2 ∧
    ¬((qG waitQ base).lane 0).q2.length + (qG waitQ base).q2Due 0 < 2 ∧
    32 ≤ ((qG fullQ base).lane 0).q1.length ∧ (qG fullQ base).moving .mfill = false ∧ (moving .mfill (qG fullQ base)).moving .mfill = true ∧
    (moving .mdrain (qG live1 base)).moving .mdrain = true ∧ 16 ≤ ((qG fullQ base).lane 0).q2.length ∧ 16 < fullE.q4.length + fullE.q4Due + [0].length := by decide

def divz : Op := { len := 1, ty := 0x05, d := .v 2, a := .v 0, b := .v 1 }
def infs : Lane := { live1 with v := [(0, 0x7F800000#32), (1, 0x7F800000#32)] }
theorem witness_FloatingPointTrap : (stOf (qG infs traps)).iss? = some (iss (qG infs traps) traps) ∧ Opc.fsub ∈ shortAlu ∧ divz.scalarD = false ∧ traps.pend = none ∧ traps.owedAt traps.pc = none ∧
    queueGate (qG infs traps) (activeLanes (qG infs traps) traps divz) divz = .go ∧ traps.rerun = none ∧ gatherBad infs (opPops divz) = none ∧
    aluRefuses .fsub 5 traps.fmt (laneIn .fsub divz traps infs (takeEvts (iss (qG infs traps) traps) divz [0]).1) = false ∧
    ((activeLanes (qG infs traps) traps divz).filter fun l => ((iss (qG infs traps) traps).out .fsub divz l).flags &&& fmtTE traps.fmt != 0) = [0] := by decide
def sInfs : Split := { traps with s := [(0, 0x7F800000#32), (1, 0x7F800000#32)] }
def divs : Op := { divz with d := .s 2, a := .s 0, b := .s 1 }
theorem witness_FloatingPointTrap_scalar : (stOf (grp [sInfs])).iss? = some (iss (grp [sInfs]) sInfs) ∧ divs.scalarD = true ∧ divs.d = .s 2 ∧ splitGuard (grp [sInfs]) sInfs divs = true ∧
    sInfs.pend = none ∧ sInfs.owedAt sInfs.pc = none ∧ aluRefuses .fsub 5 sInfs.fmt (laneIn .fsub divs sInfs ((grp [sInfs]).lane (lowLane (grp [sInfs]) sInfs)) []) = false ∧
    (evalScalar .fsub divs (iss (grp [sInfs]) sInfs)).flags &&& fmtTE sInfs.fmt ≠ 0 := by decide

/-! ## Floating point: the spec's examples -/

/-- Two stochastic roundings into bf16 (R142): 1 + 7 × 2^−10 goes up, 1 + 2^−9 goes down. -/
theorem test_stochastic : vseed 0 = 0x9E3779B9#32 ∧ (aluVal .fadd 5 0x07 0 0x9E3779B9#32 { a := 0x3F803F80, b := 0x3B003BE0 }).val = 0x3F803F81 ∧
    (aluVal .fadd 5 0x07 0 0x9E3779B9#32 { a := 0x3F803F80, b := 0x3B003BE0 }).lfsr = 0xE7BDDE6C#32 := by decide

/-- The block with scale byte 0x7E and extra byte 0x54 (R131), and 5.0 written into it (R138). -/
theorem test_e2m1_block : ((List.range 4).map fun k => (alu .unpack k 0x0A { a := 0x8F72, c := 0x547E }).val) = [0x3F000000, 0x40400000, 0xC0400000, 0x40C00000] ∧
    (alu .pack 0 0x0A { a := 0x40A00000, b := 0, c := 0x547E }).val % 16 = 8 ∧ (alu .pack 0 0x0A { a := 0x40A00000, b := 0, c := 0x547E }).flags = 0x10 := by decide +kernel


/-- Four values quantised into an E2M1 block: BSCALE and PACK (R168, R169). -/
theorem test_quantise : (alu .bscale 0 0x0A { a := 0x40A00000, b := 0x40A00000 }).val = 0x4A7F ∧
    (alu .pack 8 0x0A { a := 0xC0203F80, b := 0x3EC040A0, c := 0x4A7F }).val % 65536 = 0x18C2 ∧
    (alu .pack 8 0x0A { a := 0xC0203F80, b := 0x3EC040A0, c := 0x4A7F }).flags = 0x10 ∧
    (alu .fsign 2 0x07 { a := 0xC0203F80 }).val = 0x40203F80 ∧ (alu .fmax 1 0x07 { a := 0x40203F80, b := 0x3EC040A0 }).val = 0x402040A0 := by decide +kernel

def mag32 (w : Word) : Word := w &&& 0x7FFFFFFF#32
def nan32 (w : Word) : Bool := 0x7F800000#32 < mag32 w
def inf32 (w : Word) : Bool := mag32 w == 0x7F800000#32
def zero32 (w : Word) : Bool := mag32 w == 0
def normal32 (w : Word) : Bool := 0x00800000#32 ≤ mag32 w && mag32 w < 0x7F800000#32

/-- Values for each clause of FloatBitsAndSpecials: a quiet and a signalling NaN, both infinities, both zeros, the least and greatest normal. -/
theorem witness_FloatBitsAndSpecials : 5 < 6 ∧ (nan32 0x7F800001#32 ∧ nan32 0xFFFFFFFF#32) ∧ (inf32 0x7F800000#32 ∧ inf32 0xFF800000#32) ∧
    (zero32 0 ∧ zero32 0x80000000#32) ∧ (normal32 0x00800000#32 ∧ normal32 0x7F7FFFFF#32) ∧ (nan32 0x7F800000#32 = false ∧ inf32 0x7F7FFFFF#32 = false) ∧
    (0x7F800000#32 ≠ 0xFF800000#32) ∧ fnMode 0 4 = .rd := by decide

theorem witness_FloatExactIntegers : (4096 : Int).natAbs ≤ 2 ^ 24 ∧ (-4095 : Int).natAbs ≤ 2 ^ 24 ∧ (1 : Int).natAbs ≤ 2 ^ 24 ∧ (16777216 : Int).natAbs ≤ 2 ^ 24 ∧
    (4096 + -4095 : Int) ≠ 0 ∧ (4096 - -4095 : Int).natAbs ≤ 2 ^ 24 ∧ (4096 * -4095 + 1 : Int).natAbs ≤ 2 ^ 24 := by decide

theorem witness_FloatConversionsAndOrder : fmtFTZ 0 = false ∧ 0x7C00#16 < (0x7C01#16 &&& 0x7FFF#16) ∧ ¬ 0x7C00#16 < (0xFC00#16 &&& 0x7FFF#16) ∧
    0x7F80#16 < (0x7F81#16 &&& 0x7FFF#16) ∧ nan32 0x7F800001#32 ∧ nan32 0x80000000#32 = false ∧ (0x80000000#32).msb = true ∧ (0#32).msb = false := by decide

theorem test_floats : (alu .fadd 0 5 { a := 0x3F800000, b := 0x33800000 }).val = 0x3F800000 ∧ (alu .fadd 0 5 { a := 0x3F800001, b := 0x33800000 }).val = 0x3F800002 ∧
    (alu .fmul 0 5 { a := 0x40400000, b := 0x3F000000 }).val = 0x3FC00000 ∧ (alu .fcmp 2 5 { a := 0xBF800000, b := 0 }).pred = true ∧
    (alu .f2i 12 1 { a := 0xBFC00000 }).val = 0xFFFFFFFF ∧ (alu .cvt 2 5 { a := 0x3C00 }).val = 0x3F800000 := by decide

theorem witness_StochasticSteps : Opc.fadd ∈ [Opc.fadd, .fsub, .fmul, .ffma] ∧ 0x07 ∈ [0x05, 0x06, 0x07, 0x0F] ∧ Opc.iadd.family = .integer ∧ (0 : Word) < 1 := by decide

/-! ## System registers and traps -/

def sysOp (idx : BitVec 12) (ty : BitVec 6) (d : Opnd) : Op := { len := 2, ty := ty, d := d, ext := .sys idx 0 }
def high (s : Store 32) : Split := { base with priv := 2, s := s }
def timed (g : Group) : State := { stOf g with clock := 100 }
theorem witness_SystemRegisterReads : (stOf (grp [high []])).iss? = some (iss (grp [high []]) (high [])) ∧
    (∀ e ∈ [(0x000, (0x0D : BitVec 6), 0), (0x009, 0, 0), (0x010, 0, 0), (0x027, 0, 0), (0x030, 0, 0), (0x040, 0, 1), (0x101, 0, 2), (0x181, 0x0D, 0)],
      (sysOp (BitVec.ofNat 12 e.1) e.2.1 (.v 2)).ext = .sys (BitVec.ofNat 12 e.1) 0 ∧ e.2.2 ≤ (high []).priv.toNat ∧
      activeLanes (grp [high []]) (high []) (sysOp (BitVec.ofNat 12 e.1) e.2.1 (.v 2)) ≠ [] ∧ splitGuard (grp [high []]) (high []) (sysOp (BitVec.ofNat 12 e.1) e.2.1 (.s 2)) = true) ∧
    flagsPending (grp [high []]) (high []) = false ∧ (timed (grp [base])).iss? = some (iss (grp [base]) base) ∧ 4 ≤ (timed (grp [base])).clock.toNat ∧
    (timed (grp [base])).clock.toNat + 4 < 2 ^ 64 ∧ drainedFor (grp [base]) base = true ∧ ({ op1 with fn := 1, d := .s 2 } : Op).fn = 1 := by decide

theorem test_sysrd : (laneOf (ran (.sysrd (sysOp 0x040 0 (.v 2))) (stOf (grp [high []]))) 0).v.get 2 = 0x1002 ∧
    (splitOf (ran (.sysrd (sysOp 0x009 0 (.s 2))) (stOf (grp [high []])))).s.get 2 = 2 := by decide

/-- A in s0, B in s1. -/
def ab (a b : Word) : Split := high [(0, a), (1, b)]
def abOp (fn : BitVec 4) : Op := { len := 1, fn := fn, d := .s 2, a := .s 0, b := .s 1 }
def wr (idx : BitVec 12) (ty : BitVec 6) : Op := { len := 2, ty := ty, a := .s 0, ext := .sys idx 0 }
theorem witness_SystemRegisterWrites : (stOf (grp [ab 5 0x1C00])).iss? = some (iss (grp [ab 5 0x1C00]) (ab 5 0x1C00)) ∧ splitGuard (grp [ab 5 0x1C00]) (ab 5 0x1C00) (abOp 3) = true ∧
    fmtLegal 0x1000#32 = true ∧ fmtLegal 0x1C00#32 = false ∧ scalar32 (ab 5 7) (abOp 3).b < 8 ∧ 8 ≤ scalar32 (ab 5 8) (abOp 3).b ∧
    (2 : Nat) % 4 ≤ (ab 2 0).priv.toNat ∧ ((stOf placedGroup).core 0).lmin.toNat ≤ 8 % 16 ∧ 8 % 16 ≤ ((stOf placedGroup).core 0).lmax.toNat ∧
    (2 ≤ 0x1002 % 32 ∧ 0x1002 % 32 ≤ 0x1002 / 256 % 32 ∧ 0x1002 / 256 % 32 ≤ 16) ∧ (1 ≤ 0x82 % 16 ∧ 0x82 % 16 ≤ 0x82 / 16 % 16 ∧ 0x82 / 16 % 16 ≤ 8) ∧
    ((stOf placedGroup).core 0).carve.toNat < 2 ∧ ({ (stOf placedGroup).core 0 with carve := 8 } : Core).carve.toNat > 7 := by decide

theorem test_syswr : ((ran (.throttleWrite (wr 0x040 0)) (stOf (grp [ab 0x10804 0]))).core 0).m = [8, 8, 8, 8] ∧
    ((ran (.throttleWrite (wr 0x040 0)) (stOf (grp [ab 0x10804 0]))).core 0).fix = true ∧
    ((ran (.carvelimWrite (wr 0x100 0)) (stOf (grp [ab 0x43 0]))).core 0).carveReq = 3 ∧ (splitOf (ran (.fmtset (abOp 1)) (stOf (grp [ab 0 0x400])))).fmt = 0x400 ∧
    (splitOf (ran (.syswr (wr 0x010 0)) (stOf (grp [ab 0x15 0])))).flags = 0x15 ∧ ((ran (.carveWrite (wr 0x030 0)) (stOf (grp [ab 4 0]))).core 0).carveReq = 4 := by decide

theorem witness_SystemRegisterFaults : (wr 0x030 0).ext = .sys (BitVec.ofNat 12 0x030) 0 ∧ (sysOp 0x000 0 (.v 2)).scalarD = false ∧ (sysOp 0x000 0 (.s 2)).scalarD = true ∧
    activeLanes placedGroup base (sysOp 0x000 0 (.v 2)) ≠ [] ∧ splitGuard placedGroup base (wr 0x030 0) = true ∧
    ¬((sysOp 0x000 0 (.v 2)).ty = 0x0D ↔ true = true) ∧ ((sysOp 0x040 0 (.v 2)).ty = 0x0D ↔ false = true) ∧ base.priv.toNat < 1 ∧ 2 ≤ (high []).priv.toNat ∧
    (base.priv.toNat < 1 % 4 ∧ 0 % 16 < ((stOf placedGroup).core 0).lmin.toNat ∧ ((stOf placedGroup).core 0).lmax.toNat < 9 % 16) ∧
    (1 % 32 < 2 ∧ 16 < 0x1102 / 256 % 32 ∧ 0x205 / 256 % 32 < 0x205 % 32) ∧ (0x10 % 16 = 0 ∧ 8 < 0x91 / 16 % 16 ∧ 0x23 / 16 % 16 < 0x23 % 16) := by decide

/-- A data page: 64 KiB at virtual and physical 0x10000, read and write, Private to core 0. -/
def dataLeaf : DWord := 0x10000002F#64
/-- A machine whose core 0 translates the page of its program and that data page. -/
def mapped (g : Group) : State := { stOf g with cores := [(0, { one.core 0 with tlb := [⟨0, 0, 3, 0x53#64, 0⟩, ⟨0, 1, 3, dataLeaf, 0⟩] })] }
/-- Bytes at a virtual address of the data page. -/
def poke (s : State) (va : Nat) (bs : List Byte) : State := { s with mem := Store.setList s.mem (s.leafPlace dataLeaf 3 va) bs }
/-- The launch's parameters changed. -/
def withPar (s : State) (f : Params → Params) : State := { s with wgs := s.wgs.map fun e => (e.1, { e.2 with par := f e.2.par }) }
def withPart (s : State) (f : Partition → Partition) : State := { s with parts := s.parts.map fun e => (e.1, f e.2) }
/-- The handler table at 0x10100 with an entry for cause 1; the trap frames at 0x18000. -/
def handlers (g : Group) (entry : Nat) : State :=
  withPart (poke (withPar (mapped g) fun p => { p with traptab := 0x10100 }) 0x10108 (toBytes 8 entry)) fun q => { q with tfbase := 0x18000, svec := 0x100, hvec := 0x200 }
def whereTo (s : State) (g : Group) (x : Split) (cause : Nat) : Route := (s.route (iss g x) cause).2
def entryOf (s : State) (g : Group) (x : Split) : Option (Nat × Gran) := match (s.gx (iss g x) .read false 0x10108).2 with
  | .ok l => some (s.rd l.place 8, s.gran (l.place / 32))
  | .error _ => none

theorem witness_TrapRoute : ((stOf placedGroup).wgOf placedGroup).par.traptab = 0 ∧ ((handlers placedGroup 1).wgOf placedGroup).par.traptab ≠ 0 ∧
    (∀ e ∈ [0, 0x41, 2, 0x43, 2 ^ 52], entryOf (handlers placedGroup e) placedGroup base = some (e, .ok)) ∧
    entryOf { handlers placedGroup 1 with cores := [] } placedGroup base = none ∧
    (entryOf { handlers placedGroup 1 with poison := [((handlers placedGroup 1).leafPlace dataLeaf 3 0x10108 / 32, 1)] } placedGroup base).map (·.2) = some .poisoned := by decide +kernel

theorem test_route : whereTo (handlers placedGroup 0x41) placedGroup base 1 = .handler 0x10 0 ∧ whereTo (handlers placedGroup 2) placedGroup base 1 = .handler 0x40 1 ∧
    whereTo (withPart (handlers placedGroup 2) fun q => { q with svec := 0 }) placedGroup base 1 = .handler 0x80 2 ∧ whereTo (handlers placedGroup 0) placedGroup base 1 = .none none := by
  decide +kernel

def frameOk (s : State) (g : Group) (acc : Acc) : Bool := match s.gx (iss g base) acc false 0x18000 with
  | (s2, .ok l) => s2.gran (l.place / 32) == .ok
  | _ => false
theorem witness_TrapTaken : (handlers placedGroup 0x41).iss? = some (iss placedGroup base) ∧ placedGroup.trap.cause = 0 ∧ placedGroup.retired = false ∧
    ((handlers placedGroup 0x41).part 0).tfbase.toNat + 256 * (64 * (handlers placedGroup 0x41).coreIndex 0 0 + 0) = 0x18000 ∧
    whereTo (handlers placedGroup 0x41) placedGroup base 1 = .handler 0x10 0 ∧ frameOk (handlers placedGroup 0x41) placedGroup .write = true ∧
    Cause.illop.code ≠ 0x0D ∧ Cause.illop.code ≠ 0x20 ∧ base.pend = none ∧ splitGuard placedGroup base op1 = true ∧ Cause.illop ≠ .dataerr ∧ Cause.illop ≠ .bartimeout := by decide +kernel

/-- An illegal instruction goes to the handler of cause 1: where it goes, what the trap registers hold and where the frame is. -/
theorem test_trap : (splitOf (ran (.unassignedOpcode 0xFF) (handlers placedGroup 0x41))).pc = 0x10 ∧
    ((ran (.unassignedOpcode 0xFF) (handlers placedGroup 0x41)).groups.get? 0).map (fun g => (g.trap.cause, g.trap.aux, g.trap.lanes, g.towner)) = some (1, 1, 1, 0) ∧
    (splitOf (ran (.unassignedOpcode 0xFF) (handlers placedGroup 0x41))).s.get 62 = 0x18000 := by decide +kernel

def trapped (h : Option TrapRec) : Group := { placedGroup with
  trap := { cause := 1, pc := 8, lanes := 1, shadow := 2 }, tpriv := 1, splits := [low1, { slices := 0xE#16, pc := 4, held := h }] }
theorem witness_ReturnFromTrap : (handlers placedGroup 0x41).iss? = some (iss placedGroup base) ∧ splitGuard placedGroup base op1 = true ∧ placedGroup.trap.cause = 0 ∧
    (∀ h ∈ [none, some { cause := 9, lanes := 2 }], (handlers (trapped h) 0x41).iss? = some (iss (trapped h) low1) ∧ (trapped h).trap.cause ≠ 0 ∧
      0 = (trapped h).towner.toNat ∧ splitGuard (trapped h) low1 op1 = true ∧ frameOk (handlers (trapped h) 0x41) (trapped h) .read = true) ∧
    (∀ z ∈ (trapped none).splits, z.held = none) ∧ ({ trapped none with towner := 1 } : Group).towner.toNat ≠ 0 ∧
    (trapped none).aside = 0 ∧ ({ trapped none with aside := 1 } : Group).aside ≠ 0 := by decide +kernel

theorem test_rte : (splitOf (ran (.rte op1) (handlers (trapped none) 0x41))).pc = 8 ∧ (splitOf (ran (.rte op1) (handlers (trapped none) 0x41))).priv = 1 ∧
    (splitOf (ran (.rte op1) (handlers (trapped none) 0x41))).rerun = some (1, 2) := by decide +kernel

theorem witness_HeldAndDoubleTraps : (handlers (trapped none) 0x41).iss? = some (iss (trapped none) low1) ∧ (trapped none).retired = false ∧ (trapped none).trap.cause ≠ 0 ∧
    ({ trapped none with towner := 1 } : Group).towner.toNat ≠ 0 ∧ 0 = (trapped none).towner.toNat ∧ (trapped none).task = none ∧ placedGroup.task = none ∧
    ((1 : BitVec 8) ≠ 0x0D) ∧ whereTo (stOf placedGroup) placedGroup base 1 = .none none := by decide +kernel

/-- A table of permitted targets at 0x10200: two entries, to 0x40 and a bad one. -/
def targets (a : Word) : State :=
  poke (poke (withPar (mapped (grp [ab a 0])) fun p => { p with targets := 0x10200 }) 0x10200 (toBytes 4 2)) 0x10208 (toBytes 8 0x40 ++ toBytes 8 0x41)
def brx1 : Op := { len := 1, d := .s 2, a := .s 0 }
def readsAt (s : State) (i : Iss) (va n : Nat) : Option Nat := match s.gx i .read false va with
  | (s1, .ok l) => if (s1.badGran l.place n).isNone then some (s1.rd l.place n) else none
  | _ => none
theorem witness_IndirectBranches : (targets 0).iss? = some (iss (grp [ab 0 0]) (ab 0 0)) ∧ splitGuard (grp [ab 0 0]) (ab 0 0) brx1 = true ∧
    ((stOf placedGroup).wgOf placedGroup).par.targets = 0 ∧ (0x10204 : Nat) % 8 ≠ 0 ∧ ((targets 0).wgOf (grp [ab 0 0])).par.targets.toNat % 8 = 0 ∧
    readsAt (targets 0) (iss (grp [ab 0 0]) (ab 0 0)) 0x10200 4 = some 2 ∧ (min 2 65536 ≤ 2 ∧ 1 < min 2 65536) ∧
    readsAt (targets 0) (iss (grp [ab 0 0]) (ab 0 0)) 0x10208 8 = some 0x40 ∧ readsAt (targets 1) (iss (grp [ab 1 0]) (ab 1 0)) 0x10210 8 = some 0x41 ∧
    (0x41 % 4 ≠ 0 ∧ 0x40 % 4 = 0 ∧ 0x40 < 2 ^ 52) := by decide +kernel

theorem test_brx : (splitOf (ran (.brx brx1) (targets 0))).pc = 0x10 ∧ (splitOf (ran (.callx brx1) { targets 0 with mem := Store.setList (targets 0).mem 8 [1] })).s.get 2 = 8 := by decide +kernel

/-! ## Decoding and stepping -/

theorem witness_DecodeEncodeAgree : (Instr.iadd add1).wf cx0 = true ∧ (Instr.pair .ffma ffma1 .iadd yadd1).wf cx0 = true ∧
    (Instr.cpyb { len := 3, d := .bar 1, a := .s 0, b := .s 8, c := .s 6, ext := .copy ⟨0, 0, 2, 0, 0, 4, 8, 64⟩ }).wf cx0 = true := by decide

/-- The word of `fadd.f32 v2, v2, v2` where step fetches next. -/
def fetches (w : Nat) : State := State.reset.withFetchWord 64 w
def fetched : State := { fetches 0x1400000808080101 with agenda := [], cur := some ⟨0, 0⟩ }
def fadd2 : Instr := .fadd { len := 1, ty := 0x05, d := .v 2, a := .v 2, b := .v 2 }
/-- What the fetch gives and the premises that follow it. -/
def reads1 : Bool := match fetched.fetch (iss placedGroup base) 0 with
  | (s1, .ok us) => s1.again (iss placedGroup base) == iss placedGroup base && decodeBlock (s1.decCx placedGroup) false us 0 == .ok fadd2 2 &&
      !s1.served 0 && !lexLt (issueKey (iss placedGroup base) fadd2) s1.cyc.last && !lexLt [0, 0, schedOf 0] s1.cyc.last && s1.lets (iss placedGroup base) fadd2 && setAllows s1 (iss placedGroup base) fadd2
  | _ => false
theorem witness_StepRunsDecoded : (fetches 0x1400000808080101).agenda = [.issue 0 ⟨0, 0⟩] ∧ (fetches 0x1400000808080101).cyc.traps = [] ∧ (fetches 0x1400000808080101).cyc.closed = [] ∧
    base.pend = none ∧ (ran fadd2 fetched).heldUp ⟨0, 0⟩ = false ∧ (ran (.iadd { add0 with a := .q 0 }) (stOf (moving .mdrain (qG live1 base)))).heldUp ⟨0, 0⟩ = true ∧ fetched.iss? = some (iss placedGroup base) ∧
    fetched.splitReady placedGroup base = true ∧ fetched.fetchHeld (iss placedGroup base) = false ∧ base.skip = 0 ∧ (ran (.gather 0 0) fetched).taskNum = fetched.taskNum ∧ reads1 = true ∧ isEvent (.gather 0 0) = true :=
  ⟨by decide +kernel, by decide +kernel, by decide +kernel, by decide +kernel, by decide +kernel, by decide +kernel, by decide +kernel, by decide +kernel, by decide +kernel,
   by decide +kernel, by decide +kernel, by decide +kernel, by decide +kernel⟩

def pcAfter (o : Host.Outcome State Fault Refusal) : Option (BitVec 50) := match o with
  | .next t => some (splitOf t).pc
  | _ => none
/-- A split whose gathering the last other exit completed: its REFILL reaches the dispenser after the cycle's other instructions (R23). -/
def arrivedX : Split := { base with wait := .gather none }
def arrivedS : State := { fetched with groups := [(0, grp [arrivedX])] }
def reads2 : Bool := match arrivedS.fetch (iss (grp [arrivedX]) arrivedX) 0 with
  | (s1, .ok us) => s1.again (iss (grp [arrivedX]) arrivedX) == iss (grp [arrivedX]) arrivedX && decodeBlock (s1.decCx (grp [arrivedX])) false us 0 == .ok fadd2 2 &&
      !lexLt (gatherKey (iss (grp [arrivedX]) arrivedX)) s1.cyc.last && (ran fadd2 s1).groups != []
  | _ => false
theorem witness_StepRunsDecoded_late : base.arrived = false ∧ arrivedX.arrived = true ∧ arrivedS.iss? = some (iss (grp [arrivedX]) arrivedX) ∧ arrivedS.splitReady (grp [arrivedX]) arrivedX = true ∧
    arrivedS.fetchHeld (iss (grp [arrivedX]) arrivedX) = false ∧ reads2 = true ∧ lateStep (.taskSeed 0) = true ∧ lateStep (.gather 0 0) = false ∧ lexLt (eventKey (.taskSeed 0)) [3] = false ∧
    lexLt (eventKey (.tileClaim 0 0)) [5] = true ∧ isEvent (.taskSeed 0) = true := by decide +kernel

theorem test_step : pcAfter (step (fetches 0x1400000808080101)) = some 2 ∧ pcAfter (step (fetches 0)) = some 8 := by decide +kernel

theorem witness_StepKeepsCanon : State.reset.Canon ∧ (pcAfter (step (fetches 0x1400000808080101))).isSome = true := by
  exact ⟨⟨rfl, rfl, rfl, rfl, rfl, nofun, nofun⟩, by decide +kernel⟩

theorem witness_PadsAndUnassignedOpcodes : (0x0D ≤ 0x0F ∧ 0x0F ≤ 0x0F ∧ 0x0F < 256) ∧ 0x0F * 4 + 1 = 0x3D ∧
    ((0x3D#32).extractLsb' 2 8).toNat = 0x0F ∧ (0x3D#32).extractLsb' 0 2 ≠ 0 ∧ lenUnits 1 ≤ 0 + 2 ∧ (0x3C3#32).extractLsb' 0 10 = 0x3C3 ∧
    ((0x3C0000#32).extractLsb' 18 8).toNat = 0x0F := by decide

/-! ## Memory -/

def lane5 : Lane := { live1 with v := [(0, 0x10008), (1, 0), (2, 0x80000005#32), (3, 7), (4, 0x30)] }
def memG (p : Option Pend) : Group := qG lane5 { base with pend := p, s := [(0, 0x10000)] }
def memX (p : Option Pend) : Split := { base with pend := p, s := [(0, 0x10000)] }
def memOp (ty : BitVec 6) (a : Opnd) (ofs : BitVec 16) : Op := { len := 2, ty := ty, d := .v 6, a := a, c := .v 2, ext := .mem { mem0 with ofs := ofs } }
def ea0 : Opnd := .v 0
/-- A miss tracker of core 0 that holds entries of other accesses. -/
def tracker (n : Nat) : State := (mapped (memG none)).modCore 0 fun k => { k with misses := (List.range n).map fun q => { what := 5000 + q, slot := 9, split := 0 } }
theorem witness_MemoryIssues : (mapped (memG none)).iss? = some (iss (memG none) (memX none)) ∧ activeLanes (memG none) (memX none) (memOp 0 ea0 0) = [0] ∧
    activeLanes (memG none) (memX none) { memOp 0 ea0 0 with pg := 1 } = [] ∧
    (mapped (memG none)).sinkHolds (iss (memG none) (memX none)) false ((mapped (memG none)).sectorsOf (iss (memG none) (memX none)) .ld (memOp 0 ea0 0) [0]) = false ∧
    (mapped (memG none)).sinkHolds (iss (memG none) (memX none)) true ((mapped (memG none)).sectorsOf (iss (memG none) (memX none)) .atom (memOp 0 ea0 0) [0]) = false ∧
    splitGuard (memG none) (memX none) (memOp 0 (.s 0) 0) = true ∧
    (mapped (memG none)).sinkHolds (iss (memG none) (memX none)) false ((mapped (memG none)).sectorsOf (iss (memG none) (memX none)) .ldc (memOp 0 (.s 0) 0) [0]) = false ∧
    (∀ e ∈ [(Opc.ld, ea0), (.st, ea0), (.ldl, .v 4), (.ldp, .v 4), (.atom, ea0), (.ldc, .s 0)], (mapped (memG none)).missHolds (iss (memG none) (memX none)) e.1 (memOp 0 e.2 0) [0] = false) ∧
    (∀ o ∈ [Opc.ld, .atom], (tracker 1024).missHolds (iss (memG none) (memX none)) o (memOp 0 ea0 0) [0] = true) ∧ (tracker 1024).iss? = some (iss (memG none) (memX none)) := by decide +kernel

/-- An atomic of the group, in flight, holds the sector (R275, R276). -/
def sectorHeld : State := (mapped (memG none)).modCore 0 fun k => { k with sink := ((mapped (memG none)).sectorsOf (iss (memG none) (memX none)) .ld (memOp 0 ea0 0) [0]).map fun q => { sector := q.1, slot := 0, lane := 0, st := .inFlight } }
theorem witness_MemoryIssues_held : sectorHeld.iss? = some (iss (memG none) (memX none)) ∧
    sectorHeld.sinkHolds (iss (memG none) (memX none)) false (sectorHeld.sectorsOf (iss (memG none) (memX none)) .ld (memOp 0 ea0 0) [0]) = true := by decide +kernel

/-- Aligned and misaligned addresses; inside, at and past the end of the local store (64 KiB) and of the private words (64). -/
theorem witness_AddressChecks : (memOp 0 ea0 0).ext = .mem { mem0 with ofs := 0 } ∧ Opc.ld ∈ [Opc.ld, .st, .ldc, .atom, .atomnr, .cas, .fatom, .fatomnr] ∧ memBytes 0 = 4 ∧
    (0x10008 % 4 = 0 ∧ 0x1000A % 4 ≠ 0) ∧ ((0 : Int) ≤ 65532 ∧ (65532 : Int) + 4 ≤ 64 * 1024) ∧ ((64 * 1024 : Int) < 65536 + 4 ∧ (65536 : Int) % 4 = 0) ∧ ((-4 : Int) < 0 ∧ (-4 : Int) % 4 = 0) ∧
    ((252 : Int) + 4 ≤ 64 * 4 ∧ (64 * 4 : Int) < 256 + 4) ∧ (2 ^ 52 : Nat) ≤ 2 ^ 52 := by decide

/-- The fault of an access, or what it gives. -/
def bad? {α : Type} (e : Except Bad α) : Option Bad := match e with
  | .error b => some b
  | .ok _ => none

theorem test_addresses : (let f o x := (mapped (memG none)).accessOf (iss (memG none) (memX none)) o x 0; 
    bad? (f .ld (memOp 0 ea0 0xFFFE)) = some { cause := .align, aux := 1, addr := 0x10006 } ∧ (f .ld (memOp 0 ea0 0xFFF8)).toOption = some (0x10000, [(0x10000, 4)]) ∧
    bad? (f .ldl (memOp 0 (.v 4) 0xFFCC)) = some { cause := .prot, aux := 4, addr := 0xFFFFFFFFFFFFFFFC } ∧
    bad? (f .ldp (memOp 0 (.v 4) 0xD0)) = some { cause := .stacklim, aux := 1, addr := 0x100 }) := by decide +kernel

def pendOf (o : Opc) (x : Op) : Pend := { pc := 0, opc := o, op := x, lanes := 1, budget := 0, shadow := 0 }
def access (o : Opc) (x : Op) : State := poke (mapped (memG (some (pendOf o x)))) 0x10008 [0x80, 0, 0, 0, 1, 2, 3, 4]
def accIss (o : Opc) (x : Op) : Iss := iss (memG (some (pendOf o x))) (memX (some (pendOf o x)))
/-- The premises of the memory statements: what is pending, and a lane's access held and clean. -/
def pending (o : Opc) (x : Op) : Prop := (access o x).groups.get? 0 = some (memG (some (pendOf o x))) ∧
  (memG (some (pendOf o x))).split? 0 = some (memX (some (pendOf o x))) ∧ (memG (some (pendOf o x))).retired = false ∧ (pendOf o x).lanes.getLsbD 0 = true ∧ (access o x).mayPerform (accIss o x) (pendOf o x) = true
def heldClean (o : Opc) (x : Op) (loc : Bool) : Bool := match (access o x).heldTarget (accIss o x) o x 0 with
  | some t => t.pieces.all fun p => (access o x).partGran (accIss o x) loc p.place == .ok
  | none => false
/-- The lanes that the pending access is performed in; none is left to wait. -/
def freely (o : Opc) (x : Op) : Prop := (access o x).freeLanes (accIss o x) (pendOf o x) = [0] ∧ (access o x).waitLanes (accIss o x) (pendOf o x) = [] ∧ (pendOf o x).bad = [] ∧ (access o x).xmHeld = []
def atomOp (ty : BitVec 6) (aop : BitVec 4) (a : Opnd) : Op := { len := 2, ty := ty, d := .v 6, a := a, c := .v 2, ext := .mem { mem0 with aop := aop, scope := 3, ord := 1 } }

theorem witness_LoadsPerformed : (pending .ld (memOp 0x10 ea0 0) ∧ heldClean .ld (memOp 0x10 ea0 0) false = true) ∧
    (pending .ldl (memOp 0 (.v 4) 0) ∧ heldClean .ldl (memOp 0 (.v 4) 0) true = true) ∧ (pending .ldp (memOp 0 (.v 4) 0) ∧ (memOp 0 ea0 0).d = .v 6) ∧
    (pending .ldc { memOp 0 (.s 0) 0 with d := .s 6 } ∧ heldClean .ldc { memOp 0 (.s 0) 0 with d := .s 6 } false = true) := by unfold pending; decide +kernel

theorem witness_LoadsPerformed_lanes : freely .ld (memOp 0x10 ea0 0) ∧ freely .ldl (memOp 0 (.v 4) 0) ∧ freely .ldp (memOp 0 (.v 4) 0) ∧ freely .ldc { memOp 0 (.s 0) 0 with d := .s 6 } := by
  unfold freely; decide +kernel

theorem test_loads : (laneOf (ran (.memoryAccessCompletion 0 0) (access .ld (memOp 0x10 ea0 0))) 0).v.get 6 = 0xFFFFFF80#32 ∧
    (laneOf (ran (.memoryAccessCompletion 0 0) (access .ld (memOp 0 ea0 4))) 0).v.get 6 = 0x04030201 := by decide +kernel

theorem witness_StoresPerformed : (pending .st (memOp 0 ea0 0) ∧ heldClean .st (memOp 0 ea0 0) false = true) ∧ (pending .stl (memOp 0 (.v 4) 0) ∧ heldClean .stl (memOp 0 (.v 4) 0) true = true) ∧
    Opc.stp ∈ [Opc.st, .stl, .stp] ∧ (access .stl (memOp 0 (.v 4) 0)).wgs.get? (memG none).wg ≠ none := by unfold pending; decide +kernel

theorem witness_StoresPerformed_lanes : freely .st (memOp 0 ea0 0) ∧ freely .stl (memOp 0 (.v 4) 0) := by unfold freely; decide +kernel

theorem test_stores : (let t := ran (.memoryAccessCompletion 0 0) (access .st (memOp 0x12 ea0 2));
      Store.getList t.mem (t.leafPlace dataLeaf 3 0x10008) 8 = [0x80, 0, 5, 0, 1, 2, 3, 4]) ∧
    ((ran (.memoryAccessCompletion 0 0) (access .stl (memOp 0 (.v 4) 0))).wgs.get? 0).map (fun w => Store.getList w.ls 0x30 4) = some [5, 0, 0, 0x80] := by decide +kernel

theorem witness_AtomicsPerformed : (pending .atom (atomOp 0x02 0 ea0) ∧ ((access .atom (atomOp 0x02 0 ea0)).held (accIss .atom (atomOp 0x02 0 ea0)) .atomic true 0x10008).isSome = true ∧
      ((access .atom (atomOp 0x02 0 ea0)).accessOf (accIss .atom (atomOp 0x02 0 ea0)) .atom (atomOp 0x02 0 ea0) 0).toOption = some (0x10008, [(0x10008, 4)]) ∧ memBytes 0x02 = 4) ∧
    (pending .atoml (atomOp 0x02 0 (.v 4)) ∧ ((access .atoml (atomOp 0x02 0 (.v 4))).accessOf (accIss .atoml (atomOp 0x02 0 (.v 4))) .atoml (atomOp 0x02 0 (.v 4)) 0).toOption = some (0x30, [(0x30, 4)]) ∧
      (access .atoml (atomOp 0x02 0 (.v 4))).partGran (accIss .atoml (atomOp 0x02 0 (.v 4))) true 0x30 = .ok) ∧ 0 < (memG none).lanes.length := by unfold pending; decide +kernel

theorem witness_AtomicsPerformed_lanes : freely .atom (atomOp 0x02 0 ea0) ∧ freely .atoml (atomOp 0x02 0 (.v 4)) ∧
    (access .atom (atomOp 0x02 0 ea0)).sharedFault (accIss .atom (atomOp 0x02 0 ea0)) .atomic 0x10008 = none := by unfold freely; decide +kernel

theorem test_atomics : (let t := ran (.memoryAccessCompletion 0 0) (access .atom (atomOp 0x02 0 ea0));
      (laneOf t 0).v.get 6 = 0x80 ∧ Store.getList t.mem (t.leafPlace dataLeaf 3 0x10008) 4 = [0x85, 0, 0, 0x80]) ∧
    (let t := ran (.memoryAccessCompletion 0 0) (access .atomnr (atomOp 0x02 0 ea0));
      (laneOf t 0).v.get 6 = 0 ∧ Store.getList t.mem (t.leafPlace dataLeaf 3 0x10008) 4 = [0x85, 0, 0, 0x80]) := by decide +kernel

/-! ## Fences, queues, futures, copies and barriers -/

def mop (id : Nat) (k : MatKind) : MatOp := { id := id, kind := k, acc := 0, slice := 0, slices := 0xF, fmt := 0, lanes := 1, idle := 0 }
def fenceG : Group := { qG { live1 with q2 := [0, 0] } base with mops := [{ mop 4 .mdrain with ls := true }, mop 5 .mma] }
def copy3 (key : Nat) (batch : Option Word) : CopyOp :=
  { id := 3, key := key, wg := 0, core := 0, bar := 1, lane := 0, rot := 0, dst := 0, dest := 32, dp := 16, rowb := 16, rows := [(0x10000, 0), (0x10020, 0)],
    pages := [(1, 0x10000, 0)], batch := batch, lanes := 1 }
def fenceS : State := { stOf fenceG with copies := [copy3 0 none] }
def fence1 : Op := { len := 1, ty := 0x03, d := .h 2, a := .imm 0x3F, b := .imm 1 }
theorem witness_FencesAndRanges : fenceS.iss? = some (iss fenceG base) ∧ splitGuard fenceG base fence1 = true ∧ 0 ∈ lanesOf fenceG base ∧ (fenceG.lane 0).unread ≠ 0 ∧
    ((fenceBits fence1.a).getLsbD 0 = true ∧ (fenceBits fence1.a).getLsbD 2 = true ∧ (fenceBits fence1.a).getLsbD 5 = true ∧ (fenceBits fence1.a).getLsbD 4 = true) ∧
    (copy3 0 none) ∈ fenceS.copies ∧ (copy3 0 none).of 0 base = true ∧ fence1.ty ≠ 0 ∧ (∀ m ∈ [{ mop 4 .mdrain with ls := true }, mop 5 .mma], m ∈ fenceG.mops ∧ m.slices &&& base.slices ≠ 0) ∧
    ((fenceG.handle 2).st = 0 ∧ ({ fenceG with handles := [{}, {}, { st := 2 }] } : Group).handle 2 = { st := 2 }) ∧ (MatKind.mdrain ≠ .mma) := by decide

def fenced : Split := { base with fences := [{ q := 1, ids := [3], gathers := [(0, 1)] }] }
theorem witness_FencesAndRanges_held : fenced.fences = [{ q := 1, ids := [3], gathers := [(0, 1)] }] ∧ (Opc.ld, load1) ∈ Instr.ops (.ld load1) ∧ 0 ∈ accessKinds .ld load1 ∧
    (1 : BitVec 6).getLsbD 0 = true ∧ fenceS.underWay fenceG 3 = true ∧ ((0, 1) : Nat × Nat).2 ≠ 0 := by decide

def pubOp : Op := { len := 2, a := .s 0, b := .s 2, ext := .mem mem0 }
def pubX (p : Option Pend) : Split := { base with pend := p, s := [(0, 0x10000), (2, 64)] }
def pubG : Group := qG live1 (pubX (some (pendOf .publish pubOp)))
def pubS : State := { mapped pubG with staged := [((mapped pubG).leafPlace dataLeaf 3 0x10000 / 32, 1)] }
theorem witness_FencesAndRanges_publish : (pendOf .publish pubOp).bad = [] ∧ pubS.mayPerform (iss pubG (pubX (some (pendOf .publish pubOp)))) (pendOf .publish pubOp) = true ∧ pubS.groups.get? 0 = some pubG ∧ pubG.split? 0 = some (pubX (some (pendOf .publish pubOp))) ∧ pubG.retired = false ∧
    rangeOf pubOp (pubX none) = (0x10000, 64) ∧ (pubS.publishPages (iss pubG (pubX (some (pendOf .publish pubOp)))) 0x10000 (pagesOf 0x10000 64)).2.toOption = some [(1, dataLeaf, 3)] := by
  decide +kernel

theorem test_publish : (ran (.memoryAccessCompletion 0 0) pubS).staged = [] ∧ pubS.staged ≠ [] := by decide +kernel

def futG : Group := { qG queues base with handles := [{}, { st := 1, kind := 3, op := 9 }, { st := 2 }, { st := 1, kind := 1, op := 9 }] ++ List.replicate 12 {} }
def sibG (retired : Bool) (h : Handle) : Group := { placedGroup with gid := 1, handles := h :: List.replicate 15 {}, retired := retired }
def futS (retired : Bool) (h : Handle) : State := withPar { stOf futG with groups := [(0, futG), (1, sibG retired h)] } fun p => { p with groups := 3 }
def futOp (fn : BitVec 4) (a : Opnd) : Op := { len := 1, fn := fn, d := .s 8, a := a }
theorem witness_FuturesAndQueues : (futS false {}).iss? = some (iss futG base) ∧ splitGuard futG base (futOp 0 (.qn 0)) = true ∧ (futOp 0 (.qn 0)).a = .qn 0 ∧
    (∃ l ∈ liveLanes futG base, 1 = (futG.lane l).q0.length) ∧ (∀ l ∈ liveLanes futG base, 1 ≤ (futG.lane l).q0.length) ∧
    ((futG.handle 0).st = 0 ∧ (futG.handle 1).st = 1 ∧ (futG.handle 1).kind = 3 ∧ (futG.handle 2).st = 2 ∧ (futG.handle 3).kind ≠ 3 ∧ (futG.handle 3).st = 1) ∧
    ((futS false {}).wgOf futG).par.groups = 3 ∧ (3 ≤ 17 ∧ 17 % 16 = 1) ∧ (∀ n, base.wait ≠ .future n) ∧ ({ base with wait := .future 2 } : Split).wait = .future 2 ∧
    ((futS false {}).groupAt 0 2 = none ∧ (futS false {}).groupAt 0 1 = some 1 ∧ (futS false {}).groupAt 0 0 = some 0 ∧ 1 ≠ 0) ∧
    (sibG true {}).retired = true ∧ (sibG false {}).retired = false ∧ ((sibG false { st := 2 }).handle 0).st ≠ 0 ∧ ((sibG false {}).handle 0).st = 0 :=
  ⟨by decide, by decide, by decide, by decide, by decide, by decide, by decide, by decide, nofun, by decide, by decide, by decide, by decide, by decide, by decide⟩

def gatherS (a0 : Word) : State := poke (mapped (qG { live1 with q2 := [a0, 0, 1] } base)) 0x10008 [7, 0, 0, 0]
theorem witness_GatherReads : (gatherS 0x10008).groups.get? 0 = some (qG { live1 with q2 := [0x10008, 0, 1] } base) ∧ 0 < (qG live1 base).lanes.length ∧
    ({ live1 with q2 := [0x10008, 0, 1] } : Lane).nextGather = 0x10008 ∧ (0x10008#32).toNat % 4 = 0 ∧ (0x1000A#32).toNat % 4 ≠ 0 ∧
    ((gatherS 0x10008).held ⟨⟨0, 0⟩, qG { live1 with q2 := [0x10008, 0, 1] } base, { slices := 0, pc := 0 }⟩ .gather true 0x10008).map (fun t => (gatherS 0x10008).gran (t.place / 32)) = some .ok := by
  decide +kernel
theorem witness_GatherReads_may : (gatherS 0x10008).mayGather 0 (qG { live1 with q2 := [0x10008, 0, 1] } base) 0 = true ∧
    (gatherS 0x1000A).mayGather 0 (qG { live1 with q2 := [0x1000A, 0, 1] } base) 0 = true ∧
    (gatherS 0x10008).mayGather 0 (qG { live1 with q2 := [5, 0], gbuf := [{ val := 4 }] } base) 0 = false := by decide +kernel

/-- A full q3 holds a gather in q2 after it has been read. -/
theorem test_gather_full : (laneOf (ran (.gather 0 0) (poke (mapped (qG { live1 with q2 := [0x10008, 0], q3 := List.replicate 8 { val := 4 } } base)) 0x10008 [7, 0, 0, 0])) 0).gbuf.map GEntry.val = [7] ∧
    (laneOf (ran (.gather 0 0) (poke (mapped (qG { live1 with q2 := [0x10008, 0], q3 := List.replicate 8 { val := 4 } } base)) 0x10008 [7, 0, 0, 0])) 0).q2 = [0x10008, 0] := by decide +kernel

theorem test_gather : (laneOf (ran (.gather 0 0) (gatherS 0x10008)) 0).q3 = [{ val := 7, addr := 0x10008 }] ∧ (laneOf (ran (.gather 0 0) (gatherS 0x10008)) 0).q2 = [1] ∧
    (laneOf (ran (.gather 0 0) (gatherS 0x1000A)) 0).q3.map (fun e => e.fault.map Bad.cause) = [some .align] := by decide +kernel

/-- A producer group that may copy: producer 0, sources in the data page. -/
def prodS (g : Group) (prod : BitVec 8) : State := withPar (mapped g) fun p => { p with producer := prod }
def cpX (a b c : Word) : Split := { base with s := [(0, a), (2, b), (4, c)] }
def cpG (x : Split) : Group := qG { live1 with v := [(0, 0x10000)] } x
def desc1 (hv : BitVec 1) : CopyDesc := ⟨hv, 1, 0, 0, 0, 1, 2, 16⟩
def cpOp (hv : BitVec 1) : Op := { len := 3, d := .bar 1, a := .s 0, b := .s 2, c := .s 4, ext := .copy (desc1 hv) }
def blockOf1 (a c : Nat) : CopyShape := ⟨[(a, 0), (a + c, 0)], 16, 16, 0, some c⟩
theorem witness_CopiesIssue : (prodS (cpG (cpX 0x10000 0 32)) 0).iss? = some (iss (cpG (cpX 0x10000 0 32)) (cpX 0x10000 0 32)) ∧ (cpOp 0).ext = .copy (desc1 0) ∧ (cpOp 0).d = .bar 1 ∧
    splitGuard (cpG (cpX 0x10000 0 32)) (cpX 0x10000 0 32) (cpOp 0) = true ∧ activeLanes (cpG (cpX 0x10000 0 32)) (cpX 0x10000 0 32) (cpOp 0) ≠ [] ∧
    ((0xFF : BitVec 8) ≠ 0 ∧ (1 : BitVec 8) ≠ 0xFF) ∧ ((prodS (cpG base) 0).wgOf (cpG base)).par.producer = 0 ∧ (cpG base).gid.toNat = 0 ∧
    (desc1 1).hv = 1 ∧ ((cpG base).handle 1).st = 0 ∧ 0x10000 % 16 = 0 ∧ 0x10008 % 16 ≠ 0 ∧ 8 % 16 ≠ 0 ∧ (0 % 16 = 0 ∧ 32 % 16 = 0 ∧ 32 ≠ 0) ∧
    (64 * 1024 < 65520 + (2 - 1) * 16 + 16 ∧ 65504 + (2 - 1) * 16 + 16 ≤ 64 * 1024) ∧
    ((prodS (cpG (cpX 0x10000 0 32)) 0).sourceCheck (iss (cpG (cpX 0x10000 0 32)) (cpX 0x10000 0 32)) .cpyb (blockOf1 0x10000 32)).2.toOption = some [(1, 0x10000, 0)] ∧
    ((prodS (cpG (cpX 0x10000 0 32)) 0).copies.filter fun q => q.core == 0).length < 128 ∧ 128 ≤ 128 := by decide +kernel

/-- Every source byte is held; a misaligned pitch of two rows, and rows of a page that is not mapped; no active lane of CPYG. -/
theorem witness_CopiesIssue_source : (∀ r ∈ (blockOf1 0x10000 32).rows, ∀ k < 16, ((prodS (cpG (cpX 0x10000 0 32)) 0).held (iss (cpG (cpX 0x10000 0 32)) (cpX 0x10000 0 32)) .copy false (r.1 + k)).isSome = true) ∧
    ((∀ r ∈ (blockOf1 0x10000 8).rows.take 1, r.1 % 16 = 0) ∧ 8 % 16 ≠ 0) ∧
    (bad? ((prodS (cpG (cpX 0x50000 0 32)) 0).sourceCheck (iss (cpG (cpX 0x50000 0 32)) (cpX 0x50000 0 32)) .cpyb (blockOf1 0x50000 32)).2).isSome = true ∧
    (64 * 1024 ≤ 65536 ∧ 65520 + 1 * 16 ≤ 65536 ∧ 65536 < 65520 + 1 * 16 + 16) ∧ activeLanes (cpG (cpX 0x10000 0 32)) (cpX 0x10000 0 32) { cpOp 0 with pg := 1 } = [] := by decide +kernel

theorem test_cpyb : (ran (.cpyb (cpOp 0)) (prodS (cpG (cpX 0x10000 0 32)) 0)).copies =
    [{ id := 1, key := 0, wg := 0, core := 0, bar := 1, lane := 0, rot := 0, dst := 0, dest := 0, dp := 16, rowb := 16, rows := [(0x10000, 0), (0x10020, 0)],
       pages := [(1, 0x10000, 0)], lanes := 1 }] := by decide +kernel

def arrives : State := { poke (mapped (cpG base)) 0x10000 ((List.range 48).map fun k => BitVec.ofNat 8 (k + 1)) with copies := [copy3 0 none] }
theorem witness_CopyArrives : (arrives.copies.find? fun q => q.id == 3) = some (copy3 0 none) ∧ (arrives.wgs.get? 0).isSome = true ∧ arrives.mayArrive (copy3 0 none) = true ∧
    ({ arrives with coreFailed := 1 } : State).mayArrive (copy3 0 none) = false ∧ (copy3 0 none).epoch = (arrives.core 0).epoch ∧ (copy3 0 none).epoch ≠ 1 ∧
    (∀ va ∈ [0x10000, 0x10020], va < 2 ^ 52 ∧ arrives.gran (arrives.copyPlace (copy3 0 none) va / 32) = .ok ∧
      ∃ e ∈ (arrives.core 0).tlb, arrives.tlbHit (.core 0) (arrives.ctxOf 0) va = some e ∧ leafCheck .copy va e.leaf e.level = none ∧ claimActs 0 e.leaf = false) ∧
    (arrives.wgs.get? 0).map (fun w => (w.lsGran 1, w.bars.length)) = some (.ok, 16) ∧ ¬((BarReg.init 1).arrived + 1 = (BarReg.init 1).expected ∧ (32 : Word) = 0) := by decide +kernel

theorem test_copy_arrival : ((ran (.copyArrival 3) arrives).wgs.get? 0).map (fun w => (Store.getList w.ls 32 3, Store.getList w.ls 48 3)) = some ([1, 2, 3], [33, 34, 35]) ∧
    (ran (.copyArrival 3) arrives).copies = [] := by decide +kernel

def sealG : Group := { grp [ab 0 2] with sealSeq := 3 }
def sealS (b : Option Word) : State := { stOf sealG with copies := [copy3 0 b] }
theorem witness_SealedBatches : (sealS none).iss? = some (iss sealG (ab 0 2)) ∧ splitGuard sealG (ab 0 2) (abOp 0) = true ∧ (sealG.sealSeq - (2 : Word)).toNat < 2 ^ 31 ∧
    2 ^ 31 ≤ (sealG.sealSeq - (4 : Word)).toNat ∧ ((copy3 0 (some 2)).key = 0 ∧ (copy3 0 (some 2)).batch = some 2 ∧ ((2 : Word) - 2).toNat < 2 ^ 31) ∧
    ¬((2 : Word) - 3).toNat < 2 ^ 31 := by decide

theorem test_seal : (ran (.seal { op1 with d := .s 8 }) (sealS none)).copies.map CopyOp.batch = [some 4] ∧ (splitOf (ran (.seal { op1 with d := .s 8 }) (sealS none))).s.get 8 = 4 := by decide

/-- Two groups of a workgroup, whose barrier register 1 is given. -/
def barS (b : BarReg) (x : Split) (rest : List Split) : State := { stOf (grp (x :: rest)) with
  groups := [(0, grp (x :: rest)), (1, { placedGroup with gid := 1 })]
  wgs := [(0, { core := 0, part := 0, launch := 0, par := { placedParams with groups := 2 }, slots := [0, 1], bars := setAt (List.replicate 16 (BarReg.init 2)) 1 b })] }
def barOp (fn : BitVec 4) : Op := { len := 1, fn := fn, d := .bar 1, a := .s 0, b := .s 1 }
theorem witness_BarrierRegisters : (barS (BarReg.init 2) base []).barSettle 0 1 = barS (BarReg.init 2) base [] ∧ (barS (BarReg.init 2) base []).iss? = some (iss (grp [base]) base) ∧ splitGuard (grp [base]) base (barOp 0) = true ∧
    ((barS (BarReg.init 2) base []).wgs.get? 0).map (fun w => (w.bars.length, w.bar 1)) = some (16, BarReg.init 2) ∧ 1 < 16 ∧ base.rerun = none ∧ (barOp 0).d = .bar (BitVec.ofNat 8 1) ∧
    ((BarReg.init 2).arrived = 0 ∧ (BarReg.init 2).tb = 0 ∧ (barS (BarReg.init 2) base []).barBusy 0 1 = false ∧ ({ BarReg.init 2 with arrived := 1 } : BarReg).arrived ≠ 0) ∧
    ((BarReg.init 2).left.getLsbD 0 = false ∧ ({ BarReg.init 2 with left := 1 } : BarReg).left.getLsbD 0 = true) ∧ (base.mark.getLsbD 1 = false ∧ ({ base with mark := 2 } : Split).mark.getLsbD 1 = true) ∧
    (∀ y ∈ [base], y.id ≠ base.id → y.mark.getLsbD 1 = true) ∧ ¬(∀ y ∈ [low1, late1], y.id ≠ low1.id → y.mark.getLsbD 1 = true) ∧
    ¬((BarReg.init 2).arrived + 1 = (BarReg.init 2).expected) ∧ (255 < 2 + 254 ∧ 2 + 253 ≤ 255) ∧ (2 ^ 32 ≤ 1 + 0xFFFFFFFF ∧ 0 + 0xFFFFFFFF < 2 ^ 32) ∧
    (16 < 68 / 4 % 32 ∧ 128 ≤ 128 ∧ 67 / 4 % 32 ≤ 16) := ⟨rfl, by decide⟩

theorem test_barv : ((ran (.barv (barOp 0)) (barS (BarReg.init 2) base [])).wgs.get? 0).map (fun w => ((w.bar 1).arrived, (w.bar 1).who, (w.bar 1).phase)) = some (1, 1, 0) ∧
    (splitOf (ran (.bwait (barOp 0)) (barS (BarReg.init 2) base []))).wait = .barrier 1 0 0 ∧ (splitOf (ran (.bread { barOp 0 with d := .s 8, a := .bar 1 }) (barS (BarReg.init 2) base []))).s.get 8 = 2 := by decide

/-- Register 1 with a number of arrivals, changed in this cycle, and the groups that retire in it. -/
def barDue (n : BitVec 8) (drops : List (Nat × BitVec 4)) : State :=
  { barS { BarReg.init 2 with arrived := n } { base with wait := .barrier 1 0 0 } [] with cyc := { due := [(0, 1)], drops := drops } }
theorem witness_PhaseCompletes : (barS { BarReg.init 2 with arrived := 1 } base []).iss? = some (iss (grp [base]) base) ∧ ({ BarReg.init 2 with arrived := 1 } : BarReg).arrived + 1 = (BarReg.init 2).expected ∧
    (BarReg.init 2).tb = 0 ∧ (BarReg.init 2).left.getLsbD 0 = false ∧ base.mark.getLsbD 1 = false ∧ (∀ y ∈ [base], y.id ≠ base.id → y.mark.getLsbD 1 = true) ∧
    (∀ e ∈ [(barDue 2 [], none), (barDue 1 [(0, 1)], some 1)], (e.1.wgs.get? 0).map (fun w => w.bars.length) = some 16 ∧ e.1.barDrops 0 = (e.2 : Option (BitVec 4)).toList ∧ 1 ≠ 0 ∧ (0, 1) ∈ e.1.cyc.due) ∧
    ({ BarReg.init 2 with arrived := 2 } : BarReg).arrived = (BarReg.init 2).expected ∧ ({ BarReg.init 2 with arrived := 1 } : BarReg).arrived ≠ (BarReg.init 2).expected := by decide

theorem witness_PhaseCompletes_again : (0, 1) ∉ (barDue 2 []).cyc.closed ∧ (0, 1) ∈ ({ closed := [(0, 1)] } : Cycle).closed ∧ (BitVec.ofNat 8 (2 - popN 16 (0 % 2 ^ 2)) ≠ 0#8) ∧
    BitVec.ofNat 8 (2 - popN 16 (3 % 2 ^ 2)) = 0#8 := by decide

/-- The register and the waiting split when the cycle ends: two arrivals of two; one arrival, and the other group retires (R419). -/
def atEnd (s : State) : Option (BitVec 8 × BitVec 16 × BitVec 8) × BitVec 50 :=
  ((s.barCycleEnds.wgs.get? 0).map fun w => ((w.bar 1).arrived, (w.bar 1).phase, (w.bar 1).expected), (splitOf s.barCycleEnds).pc)
theorem test_phase : atEnd (barDue 2 []) = (some (0, 1, 2), 2) ∧ atEnd (barDue 1 [(0, 1)]) = (some (0, 1, 1), 2) ∧ atEnd (barDue 1 []) = (some (1, 0, 2), 0) := by decide

def cntS (sel : Word) (priv : BitVec 2) : State := { stOf (grp [{ ab 0 sel with priv := priv }]) with clock := 100, ulock := false }
theorem witness_EventCounters : (cntS 0 2).iss? = some (iss (grp [ab 0 0]) (ab 0 0)) ∧ splitGuard (grp [ab 0 0]) (ab 0 0) (abOp 0) = true ∧ (65536 ≤ 65536 ∧ 65535 < 65536) ∧
    (31 < 32 ∧ 29 % 8 < 6 ∧ 30 % 8 ≥ 6 ∧ 0x1D % 4096 = 29 ∧ 0x1D / 4096 = 0) ∧ (25 % 8 = 1 ∧ 28 % 8 = 4) ∧ (0x103F / 4096 = 1 ∧ 0x103F % 4096 = 63) ∧
    (0x2FFD / 4096 = 2 ∧ 0x2FFD % 8 = 5) ∧ (0x30FD / 4096 = 3 ∧ 0x30FD % 4096 < 256) ∧ (0xF000 / 4096 = 15 ∧ 0xEFFF / 4096 = 14) ∧ ((cntS 0 2).ulock = false ∧ (2 : BitVec 2) ≠ 0) := by decide

theorem test_cntrd : (splitOf (ran (.cntrd (abOp 0)) (cntS 1 2))).s.get 2 = 100 ∧ (splitOf (ran (.cntrd (abOp 0)) (cntS 4 2))).s.get 2 = 16 ∧
    (ran (.cntcfg (abOp 0)) (cntS 5 2)).freeze = true ∧ (ran (.cntcfg (abOp 0)) (cntS 5 2)).ulock = true := by decide

/-! ## Masks, cross-lane instructions, sink groups and the matrix engine -/

def tlbOp : Op := { len := 1, d := .s 2, a := .s 0, b := .s 2 }
def emptyCode : State := { mapped (grp [high [(0, 0x10000), (2, 0x10)]]) with copies := [] }
theorem witness_MasksAndTranslations : emptyCode.iss? = some (iss (grp [high [(0, 0x10000), (2, 0x10)]]) (high [(0, 0x10000), (2, 0x10)])) ∧
    splitGuard (grp [high [(0, 0x10000), (2, 0x10)]]) (high [(0, 0x10000), (2, 0x10)]) tlbOp = true ∧ tlbOp.d = .s 2 ∧
    scalar64 (high [(0, 0x10000)]) (.s 0) < 2 ^ 52 ∧ scalar64 (high [(1, 0x100000)]) (.s 0) = 2 ^ 52 ∧ 4095 < 4096 ∧ (base.priv = 0 ∧ base.priv.toNat < 2 ∧ 2 ≤ (high []).priv.toNat) ∧
    (∀ c ∈ emptyCode.copies, emptyCode.ctxOf (c : CopyOp).core ≠ 0) ∧ (∃ c ∈ fenceS.copies, fenceS.ctxOf (c : CopyOp).core = 0 ∧ (fenceS.ctxOf c.core).toNat % 4096 = 0) ∧
    (emptyCode.fetch (iss (grp [base]) base) 0).2.toOption.isSome = true ∧
    (bad? (({ emptyCode with cores := [] } : State).fetch (iss (grp [base]) base) 0).2).isSome = true := by decide +kernel

theorem test_tlbinv : ((ran (.tlbinvVa tlbOp) emptyCode).core 0).tlb = [⟨0, 0, 3, 0x53#64, 0⟩] ∧ ((ran (.tlbinvCtx tlbOp) emptyCode).core 0).tlb = [] ∧
    ((ran (.tlbinvRange tlbOp) { emptyCode with groups := [(0, grp [high [(0, 0xFFF8), (2, 0x10)]])] }).core 0).tlb = [] := by decide +kernel

def cx16 : DecCx := { vregs := 256, width := 16 }
def crossG : Group := lanesGrp [{ pOne with v := [(0, 5), (1, 1)] }, { live1 with v := [(0, 0xFFFFFFFE#32), (1, 1)] }, { pOne with v := [(0, 7), (1, 0)], age := 2, workid := 9 }] [{ base with s := [(0, 1)] }]
def crossX : Split := { base with s := [(0, 1)] }
def crossOp (fn : BitVec 4) (ty : BitVec 6) (d a b : Opnd) : Op := { len := 1, fn := fn, ty := ty, d := d, a := a, b := b }
theorem witness_CrossLaneResults : (stOf crossG).iss? = some (iss crossG crossX) ∧ 0 < crossG.width ∧ crossG.lanes.length = crossG.width ∧ crossG.width = 16 ∧
    activeLanes crossG crossX (crossOp 0 0 .none .none .none) = [0, 1, 2] ∧ activeLanes crossG crossX { crossOp 0 0 .none .none .none with pg := 7 } = [] ∧
    (stOf crossG).decCx crossG = cx16 ∧ fmtTE crossX.fmt = 0 ∧ crossFloat 1 = false ∧ crossFloat 5 = true ∧
    (∀ i ∈ [Instr.shfl (crossOp 0 0 (.v 2) (.v 0) (.v 1)), .shfl (crossOp 13 0 (.v 2) (.v 0) (.imm 1)), .shfl (crossOp 6 0 (.v 2) (.v 0) (.v 1)), .shfl (crossOp 15 0x0D (.v 2) (.v 0) (.v 3)),
        .bcast (crossOp 0 0 (.s 2) (.v 0) (.imm 0)), .bcast (crossOp 1 0 (.v 2) (.v 0) .none), .vote (crossOp 0 0 (.p 2) (.p 1) .none), .vote (crossOp 1 0 (.p 2) (.p 1) .none),
        .vote (crossOp 2 0 (.p 2) (.p 1) .none), .ballot (crossOp 0 0x0D (.s 2) (.p 1) .none), .compact (crossOp 0 0 (.v 2) (.v 0) (.p 1)), .reduce (crossOp 0 1 (.s 2) (.v 0) .none),
        .reduce (crossOp 5 0 (.v 2) (.v 0) .none), .scan (crossOp 0 1 (.v 2) (.v 0) .none), .scan (crossOp 8 1 (.v 2) (.v 0) .none), .scan (crossOp 0 5 (.v 2) (.v 0) .none),
        .reduce (crossOp 0 5 (.s 2) (.v 0) .none), .matchKeys (crossOp 0 1 (.v 2) (.v 0) .none), .matchKeys (crossOp 1 1 (.p 2) (.v 0) .none), .agemask (crossOp 0 0 (.p 2) .none (.s 0)),
        .agemask (crossOp 1 0 (.p 2) .none .none), .agemask (crossOp 2 0 (.p 2) .none (.imm 6)), .agemask (crossOp 2 0 (.p 2) .none (.imm 7))], i.wf cx16 = true) := by decide +kernel

theorem test_cross : ((List.range 3).map fun l => (laneOf (ran (.shfl (crossOp 1 0 (.v 2) (.v 0) (.imm 1))) (stOf crossG)) l).v.get 2) = [0xFFFFFFFE#32, 7, 7] ∧
    (splitOf (ran (.reduce (crossOp 1 1 (.s 2) (.v 0) .none)) (stOf crossG))).s.get 2 = 0xFFFFFFFE#32 ∧ (splitOf (ran (.reduce (crossOp 1 2 (.s 2) (.v 0) .none)) (stOf crossG))).s.get 2 = 5 ∧
    ((List.range 3).map fun l => (laneOf (ran (.scan (crossOp 8 1 (.v 2) (.v 0) .none)) (stOf crossG)) l).v.get 2) = [0, 5, 3] := by decide +kernel

theorem test_votes : (splitOf (ran (.ballot (crossOp 0 0x0D (.s 2) (.p 1) .none)) (stOf crossG))).s.get 2 = 5 ∧
    ((List.range 3).map fun l => (laneOf (ran (.compact (crossOp 0 0 (.v 2) (.v 0) (.p 1))) (stOf crossG)) l).v.get 2) = [5, 7, 0] ∧
    ((List.range 3).map fun l => ((laneOf (ran (.matchKeys (crossOp 1 0 (.p 2) (.v 1) .none)) (stOf crossG)) l).p.getLsbD 2)) = [true, false, true] := by decide +kernel

/-- The spec's example: lanes 0, 1, 4 and 5 hold 2^24, 1, 1 and −2^24; the sum by halves is 1 (R147) and the sum in lane order is +0 (R148). -/
def sumG : Group := lanesGrp [{ live1 with v := [(0, 0x4B800000#32)] }, { live1 with v := [(0, 0x3F800000#32)] }, {}, {}, { live1 with v := [(0, 0x3F800000#32)] },
  { live1 with v := [(0, 0xCB800000#32)] }] [base]
theorem test_float_reduce : (splitOf (ran (.reduce (crossOp 0 5 (.s 2) (.v 0) .none)) (stOf sumG))).s.get 2 = 0x3F800000#32 ∧
    (splitOf (ran (.reduce (crossOp 0 5 (.s 2) (.v 0) .none)) (stOf sumG))).flags = 0x10 ∧
    ([0, 1, 4, 5].map fun l => (laneOf (ran (.scan (crossOp 0 5 (.v 2) (.v 0) .none)) (stOf sumG)) l).v.get 2) = [0x4B800000#32, 0x4B800000#32, 0x4B800000#32, 0] := by decide +kernel

/-- Code in the program's page. -/
def code (s : State) (is : List Instr) : State := { s with mem := Store.setList s.mem (s.leafPlace 0x53#64 3 0) ((is.map encode).flatten.map wordBytes).flatten }
def sink2 : Op := { len := 1, a := .imm 2 }
def anchor : Op := { len := 1, d := .v 4, a := .v 0, ext := .mem mem0 }
def sret1 : Op := { len := 1, fn := 1, a := .v 4 }
def sinkG (p : Option Pend) : Group := qG lane5 { base with pend := p }
def sinkS (p : Option Pend) : State := poke (code (mapped (sinkG p)) [.sink sink2, .ld anchor, .sret sret1]) 0x10008 [9, 0, 0, 0]
def aim1 : Aim := { lane := 0, ea := 0x10008, place := (mapped placedGroup).leafPlace dataLeaf 3 0x10008, leaf := dataLeaf }
def sunk (st : SinkSt) : Pend := { pendOf .sink sink2 with body := [(.ld, anchor), (.sret, sret1)], sink := [(0, st)], aims := [aim1] }
def sinkIss (st : SinkSt) : Iss := iss (sinkG (some (sunk st))) { base with pend := some (sunk st) }
theorem witness_SinkGroups : (sinkS none).iss? = some (iss (sinkG none) base) ∧ activeLanes (sinkG none) base sink2 = [0] ∧ activeLanes (sinkG none) base { sink2 with pg := 1 } = [] ∧
    sink2.a = .imm 2 ∧ (2 ≤ 2 ∧ 8 ≤ 8 ∧ 1 < 2 ∧ 8 < 9) ∧ ((sinkS none).readBody (iss (sinkG none) base) 2 (8 * allBlocks) { pc := 2 }).2.toOption.map (fun b => (b.ops, bodyWaits (sinkG none) base b)) = some ([(.ld, anchor), (.sret, sret1)], false) ∧
    (sinkS none).sinkWaits (iss (sinkG none) base) sink2 anchor [0] = false ∧ sink2.ty.toNat < 32 ∧
    globAddr anchor base ((sinkG none).lane 0) = 0x10008 ∧ 0x10008 % memBytes anchor.ty.toNat = 0 ∧ ((sinkS none).held (iss (sinkG none) base) .read true 0x10008).isSome = true := by decide +kernel

theorem witness_SinkGroups_lanes : (∀ st ∈ [SinkSt.sent, .done 9 0 0 1 0], (sinkS (some (sunk st))).groups.get? 0 = some (sinkG (some (sunk st))) ∧
      (sinkG (some (sunk st))).split? 0 = some { base with pend := some (sunk st) } ∧ (sinkG (some (sunk st))).retired = false ∧ (sunk st).opc = .sink ∧ (sunk st).sinkAt 0 = some st ∧
      (st = .sent → sinkRequest (sinkIss st) (sunk st) 0 = [aim1] ∧ (sinkS (some (sunk st))).sinkBehind (sinkIss st) (sunk st) 0 = false ∧ (sinkS (some (sunk st))).gran (aim1.place / 32) = .ok) ∧
      ((sunk st).aims.map (·.lane)).Nodup ∧ (sinkS (some (sunk st))).inEpoch 0 (sunk st).epoch = true ∧ (sinkS (some (sunk st))).sinkBusyAt 0 (sinkG (some (sunk st))) .write 0x10000 = false ∧ 0 < (sinkG (some (sunk st))).lanes.length) ∧
    (sunk .sent).body = (.ld, anchor) :: [(.sret, sret1)] ∧ (∀ e ∈ [(Opc.sret, sret1)], e.1 ≠ .sld ∧ e.1 ≠ .sst) ∧
    ((sinkS (some (sunk .sent))).held (iss (sinkG (some (sunk .sent))) { base with pend := some (sunk .sent) }) .read true 0x10008).map (fun t => (sinkS none).gran (t.place / 32)) = some .ok ∧
    32 ≤ ({ sink2 with ty := 32, b := .s 0 } : Op).ty.toNat ∧ (0x10000 % 4 = 0) ∧ (∀ e ∈ (sunk (.done 9 0 0 1 0)).sink, ¬∃ b ∈ [illop9], e.2 = .failed b) := by decide +kernel

/-- TLBINV waits for a SINK that is pending on a core of the context (R401); a fetch that finds a fault while an access is pending (R54). -/
theorem witness_MasksAndTranslations_waits : emptyCode.sinksPending 0 = false ∧ (∀ e ∈ (sinkS (some (sunk .sent))).cores, e = (0, (sinkS (some (sunk .sent))).core 0)) ∧ (sinkS (some (sunk .sent))).sinksPending 0 = true ∧
    (bad? (({ sinkS (some (sunk .sent)) with cores := [] } : State).fetch (iss (sinkG none) { base with pend := some (sunk .sent) }) 0).2).isSome = true ∧
    fenceS.inEpoch (copy3 0 none).core (copy3 0 none).epoch = true := by decide +kernel

def sinkSt (s : State) : Option SinkSt := (splitOf s).pend.bind fun p => p.sinkAt 0
theorem test_sink : sinkSt (ran (.sink sink2) (sinkS none)) = some .sent ∧ (splitOf (ran (.sink sink2) (sinkS none))).pc = 6 ∧
    (sinkSt (ran (.sinkGroupExecution 0 0 0) (sinkS (some (sunk .sent))))).map (fun st => match st with | .done r0 _ _ l _ => (r0, l) | _ => (0, 0)) = some (9, 1) ∧
    (laneOf (ran (.sinkGroupReturn 0 0 0) (sinkS (some (sunk (.done 9 0 0 1 0))))) 0).v.get 4 = 9 ∧ (laneOf (ran (.sinkGroupReturn 0 0 0) (sinkS (some (sunk (.done 9 0 0 1 0))))) 0).rcpt = 1 := by
  decide +kernel

/-- A workgroup that has a set of operand buffers. -/
def matWg : Workgroup := { core := 0, part := 0, launch := 0, par := placedParams, slots := [0], bars := List.replicate 16 (BarReg.init 1), bufset := some 0 }
def matX (fmt : Word) (s : Store 32) : Split := { base with fmt := fmt, s := s, priv := 1 }
def matG (x : Split) : Group := qG { live1 with v := [(0, 0x3F803F80#32)] } x
def matS (g : Group) : State := { stOf g with wgs := [(0, matWg)] }
def mdesc (asrc hv : BitVec 2) : MatDesc := ⟨asrc, 0, 0, 0, 0, 0, 16, 2, 0, hv.setWidth 1, 1⟩
def mmaOp (asrc hv : BitVec 2) : Op := { len := 3, d := .acc 0, a := if asrc = 0 then .v 0 else .s 0, ext := .mat (mdesc asrc hv) }
def chunkAt (a l c : Nat) : Nat := a + l / 8 * 16 * 16 + l % 8 * 2 * 16 + 16 * ((2 * 0 + c) ^^^ (l % 8 % 2 ^ 0))
theorem witness_MatrixIssues : (matS (matG (matX 0x22 []))).iss? = some (iss (matG (matX 0x22 [])) (matX 0x22 [])) ∧ (matG base).octets.length = (matG base).width / 8 ∧ 0 < 4 ∧ 3 < 4 ∧
    activeLanes (matG base) base (mmaOp 0 0) = [0] ∧ activeLanes (matG base) base { mmaOp 0 0 with pg := 1 } = [] ∧ (mmaOp 0 0).ext = .mat (mdesc 0 0) ∧ (mmaOp 0 0).d = .acc (BitVec.ofNat 8 0) ∧
    (matWg.bufset ≠ none ∧ ((stOf placedGroup).wgOf placedGroup).bufset = none) ∧ ((mdesc 0 1).hv = 1 ∧ ((matG base).handle 1).st = 0) ∧
    ((0x22 % 256 = 0x22 ∧ 0x22 / 256 % 4 = 0) ∧ (0x100 % 256 = 0 ∧ 0x100 / 256 % 4 = 1) ∧ (0x23 % 256 ≠ 0x22 ∧ 0x122 / 256 % 4 ≠ 0)) ∧
    (((matG base).octet 0).tag.getLsbD 0 = decide (0 = 1) ∧ ((matG base).octet 0).tag.getLsbD 0 ≠ decide (1 = 1)) ∧ (0x66 % 16 = 6 ∧ 16384 < 511 * 32 + 128 ∧ ¬16384 < 508 * 32 + 128) ∧
    (8 % 16 ≠ 0 ∧ (mdesc 2 0).asrc ≠ 0 ∧ (mdesc 1 0).asrc = 1) ∧ (chunkAt 16384 0 0 = 16384 ∧ chunkAt 16352 0 1 + 16 ≤ 16384 ∧ chunkAt 65536 0 0 = 64 * 1024) := by decide

/-- Rows at a pitch of 128 bytes reach the end of the local store, or run past it; a matrix operation under way on the core, or none. -/
theorem witness_MatrixIssues_moves : splitGuard (matG base) base op1 = true ∧ base.pend = none ∧ ((1 : BitVec 6).getLsbD 0 = true ∧ (5 : BitVec 6).getLsbD 2 = true) ∧
    (∀ r < 16, ∀ j < 32, 63488 + r * 128 + j * 4 + 4 ≤ 64 * 1024) ∧ (∃ r < 16, ∃ j < 32, 63504 + r * 128 + j * 4 ≤ 65536 ∧ 65536 < 63504 + r * 128 + j * 4 + 4) ∧
    (63488 % 16 = 0 ∧ 128 % 16 = 0 ∧ 63496 % 16 ≠ 0) ∧ ((matG base).handle 1).st = 0 ∧ (matX 0 []).priv ≠ 0 ∧ base.priv = 0 ∧
    (∃ e ∈ (stOf fenceG).groups, e.1 / 64 = 0 ∧ e.2.mops ≠ []) ∧ (∀ e ∈ (matS (matG base)).groups, e.1 / 64 = 0 → e.2.mops = []) ∧
    ((8 ≤ 8 ∧ 7 < 8) ∧ ((matS (matG base)).core 0).mat.fenced.getLsbD 7 = false ∧ ({ fenced := 0x80 } : MatUnit).fenced.getLsbD 7 = true) ∧ ((matS (matG base)).core 0).mat.work.length = 8 := by decide +kernel

theorem witness_MatrixIssues_log : 8 ≤ (matS (matG (matX 0 []))).logRoom ∧ (0x7F : BitVec 8) ≠ 0xFF ∧ ((List.range 8).filter fun c => (0x7F : BitVec 8).getLsbD c && !(0x3F : BitVec 8).getLsbD c) = [6] := by decide

theorem test_mma_issue : ((ran (.mma (mmaOp 0 0)) (matS (matG (matX 0x22 [])))).groups.get? 0).map (fun g => g.mops.map fun m => (m.kind, m.acc, m.lanes)) = some [(.mma, 0, 1)] ∧
    ((ran (.mselfInj { op1 with fn := 2, a := .s 0 }) (matS (matG (matX 0 [(0, 3)])))).core 0).mat.inject = 8 ∧
    (splitOf (ran (.mselfStat { op1 with d := .s 8 }) (matS (matG (matX 0 []))))).s.get 8 = 0x80 := by decide +kernel

def mmaRun (k : MatKind) : MatOp := { id := 4, kind := k, acc := 0, slice := 0, slices := 0xF, fmt := 0x33, lanes := 1, idle := 0xFFFE, arows := [(0, 0x3F80)], desc := mdesc 0 0 }
def effG (m : MatOp) (x : Split) : Group := { qG { live1 with q1 := List.replicate 32 3 } x with mops := [m] }
def effS (m : MatOp) (x : Split) : State := { stOf (effG m x) with wgs := [(0, matWg)], cores := [(0, { one.core 0 with bufs := Store.setList [] 65536 [0x80, 0x3F] })] }
def drains : Split := { base with pend := some { pendOf .mdrain op1 with id := 4 } }
theorem witness_MatrixEffects : (∀ k ∈ [MatKind.mma, .mmaz, .mdrain, .mfill], (effS (mmaRun k) drains).groups.get? 0 = some (effG (mmaRun k) drains) ∧
      ((effG (mmaRun k) drains).mops.find? fun x => x.id == 4) = some (mmaRun k) ∧ (effG (mmaRun k) drains).firstOn (mmaRun k) = true ∧ (mmaRun k).acc < 4) ∧
    (effS (mmaRun .mma) base).wgs.get? 0 = some matWg ∧ matWg.core = 0 ∧ (effG (mmaRun .mma) base).lanes.length = 16 ∧ (effG (mmaRun .mma) base).octets.length = 16 / 8 ∧
    (effG (mmaRun .mma) base).retired = false ∧ ((effS (mmaRun .mma) base).core 0).mat.fenced.getLsbD 7 = false ∧ ((effS (mmaRun .mma) base).core 0).mat.work.getD 7 0 < 2 ^ 22 ∧
    ((effS (mmaRun .mma) base).core 0).mat.inject.getLsbD 7 = false ∧ ((effS (mmaRun .mma) base).core 0).mat.avoids (mmaRun .mma) 7 = false ∧ fmtRM (mmaRun .mma).fmt ≠ .rs ∧ (mmaRun .mma).lanes.toNat < 2 ^ 16 ∧
    (∀ e ∈ mmaGrans (mmaRun .mma) [0], (effS (mmaRun .mma) base).matGran matWg e.1 e.2.1 = .ok) := by decide +kernel

theorem witness_MatrixEffects_moves : (effG (mmaRun .mdrain) drains).drainSplit 4 = some (0, { pendOf .mdrain op1 with id := 4 }) ∧ (effG (mmaRun .mdrain) drains).split? 0 = some drains ∧
    (∀ q < 2, ((effG (mmaRun .mdrain) drains).octet q).poison.getLsbD 0 = false) ∧ (mmaRun .mdrain).ls = false ∧ (effG (mmaRun .mdrain) drains).firstMover (mmaRun .mdrain) = true ∧
    (mmaRun .mdrain).round = 0 ∧ (∀ l < 16, (mmaRun .mdrain).idle.getLsbD l = false → ((effG (mmaRun .mdrain) drains).lane l).q0.length + 32 ≤ 64) ∧
    (∀ l < 16, (mmaRun .mfill).idle.getLsbD l = false → 32 ≤ ((effG (mmaRun .mfill) base).lane l).q1.length) ∧ ((mmaRun .mfill).tags = 0 ∧ (256 : Nat) ≤ 256) ∧
    (∃ q < 2, (({ effG (mmaRun .mdrain) drains with octets := [{ poison := 1 }, {}] } : Group).octet q).poison.getLsbD 0 = true) ∧
    (∀ r < 16, ∀ j < 32, matWg.lsGran ((r * 256 + j * 4) / 32) = .ok) ∧ ((stOf placedGroup).core 0).mat.work.length = 8 := by decide +kernel

/-- One product of 1.0 and 1.0 into the element (0, 0) of accumulator 0; a drain and a fill of accumulator 0. -/
theorem test_matrix : ((ran (.matrixOperationCompletion 0 4 0 .ok) (effS (mmaRun .mma) base)).groups.get? 0).map (fun g => ((g.octet 0).elem 0 0 0, (g.octet 0).elem 0 0 1, g.mops)) =
      some (0x3F800000, 0, []) ∧ (laneOf (ran (.accumulatorTransferCompletion 0 4) (effS (mmaRun .mdrain) drains)) 0).q0 = List.replicate 32 0 ∧
    ((ran (.accumulatorTransferCompletion 0 4) (effS (mmaRun .mfill) base)).groups.get? 0).map (fun g => (g.octet 0).elem 0 0 0) = some 3 := by decide +kernel

/-! ## Device barriers, tasks and launches -/

/-- Bytes at a physical address under hash 0. -/
def pokePa (s : State) (pa : Nat) (bs : List Byte) : State := { s with mem := Store.setList s.mem (s.place pa 0) bs }
/-- A context table at 1 MiB whose context 0 maps the first 32 GiB onto themselves: one leaf, Shared, read and write. -/
def tabled (s : State) : State := pokePa (pokePa (withPart s fun q => { q with ctxtbase := 0x100000 }) 0x100000 (toBytes 8 0x200001)) 0x200000 (toBytes 8 0x4F)

/-- A device barrier at 0x10040: EXPECT, ARRIVED, PHASE 5, CTL and LAGTH. -/
def dbarX : Split := { base with s := [(0, 0x10040), (2, 5)] }
def dbarS (expect arrived ctl : Nat) : State := { poke (mapped (qG live1 dbarX)) 0x10040 (toBytes 4 expect ++ toBytes 4 arrived ++ toBytes 2 5 ++ toBytes 1 ctl ++ toBytes 1 2) with clock := 4096 }
def dbarOp : Op := { len := 1, d := .s 8, a := .s 0, b := .s 2 }
theorem witness_DeviceBarriersAndTimeouts : (dbarS 3 1 0).iss? = some (iss (qG live1 dbarX) dbarX) ∧ splitGuard (qG live1 dbarX) dbarX dbarOp = true ∧ scalar64 dbarX dbarOp.a = 0x10040 ∧
    (0x10040 % 64 = 0 ∧ 0x10048 % 64 ≠ 0) ∧ (∀ acc ∈ [Acc.read, .atomic], ((dbarS 3 1 0).held (iss (qG live1 dbarX) dbarX) acc true 0x10040).map (fun x =>
      ((dbarS 3 1 0).badGran x.place 64, (dbarS 3 1 0).dbarHeld (iss (qG live1 dbarX) dbarX) x, ofBytes (Store.getList (dbarS 3 1 0).mem x.place 4),
        ofBytes (Store.getList (dbarS 3 1 0).mem (x.place + 8) 2))) = some (none, false, 3, 5)) ∧
    ((3 : Nat) ≠ 0 ∧ 1 < 3 ∧ 2 + 1 = 3 ∧ ¬ 3 < 3) ∧ (iss (qG live1 dbarX) dbarX).core / 48 < 4 ∧ ((dbarS 3 2 1).wgs.get? 0).map Workgroup.launch = some 0 ∧ ((dbarS 3 2 1).launches.get? 0).isSome = true := by
  decide +kernel

/-- Register 1 is changed in this cycle: its completion releases the split that has waited too long. -/
def relS : State := { barDue 2 [] with clock := 2 ^ 20 }
def late (w : Wait) : Split := { base with wait := w }
def lateS (w : Wait) : State := { stOf (grp [late w]) with clock := 2 ^ 20 }
def gthS : State := { stOf (grp [{ low1 with wait := .gather (some 0) }, late1]) with clock := 2 ^ 20 }
theorem witness_DeviceBarriersAndTimeouts_waits : (∀ w ∈ [Wait.dbar 0x10040 5 0, .barrier 1 0 0], (lateS w).groups.get? 0 = some (grp [late w]) ∧ (grp [late w]).split? 0 = some (late w) ∧
      ((lateS w).wgs.get? 0).map (fun x => x.par.barto) = some 0) ∧ (2 ^ 20 ≤ ((lateS .ready).clock - 0).toNat ∧ ¬ 2 ^ 20 ≤ ((lateS .ready).clock - 1).toNat) ∧
    (gthS.groups.get? 0 = some (grp [{ low1 with wait := .gather (some 0) }, late1]) ∧ late1 ∈ [{ low1 with wait := .gather (some 0) }, late1] ∧ late1.pc ≠ low1.pc ∧ low1.id < late1.id) ∧
    (match (gthS.reach (iss (grp [{ low1 with wait := .gather (some 0) }, late1]) { low1 with wait := .gather (some 0) })).2 with | .ok (.refill _) _ => true | _ => false) = false ∧ ((relS.barClose 0 1).issAt ⟨0, 0⟩).map (fun j => j.sp.wait) = some .ready := by decide +kernel
theorem witness_DeviceBarriersAndTimeouts_still : (lateS (.barrier 1 0 0)).barSettle 0 1 = lateS (.barrier 1 0 0) := rfl

/-- The spec's throttle example (R386): M 8 with score 45 goes to 7, 7 with 30 to 6, and 6 with 5 to 7. -/
def throttle (m : BitVec 5) (score : BitVec 8) : State := { stOf placedGroup with clock := 1024, cores := [(0, { one.core 0 with m := [m, 16, 16, 16], lls := [(0, score)] })] }
theorem test_throttle : ([(8, 45), (7, 30), (6, 5)].map fun (e : BitVec 5 × BitVec 8) => ((ran (.throttleEpoch 0 0) (throttle e.1 e.2)).core 0).m.getD 0 0) = [7, 6, 7] ∧
    ((ran (.throttleEpoch 0 0) (throttle 8 45)).core 0).lls.get 0 = 22 := by decide +kernel

theorem witness_DeviceBarriersAndTimeouts_epoch : 3 < 4 ∧ (((throttle 8 45).core 0).ev.get 5).toNat < (throttle 8 45).clock.toNat / 1024 % 2 ^ 48 ∧ ((throttle 8 45).core 0).m.length = 4 ∧
    ((throttle 8 45).core 0).mmin.toNat ≤ 16 ∧ ((throttle 8 45).core 0).fix = false ∧ (stOf placedGroup).clock.toNat / 1024 % 2 ^ 48 ≤ (((stOf placedGroup).core 0).ev.get 5).toNat := by decide +kernel

/-- DBWAIT runs first, or again after its time-out: then it goes on with the wait that timed out. -/
def again1 : Split := { dbarX with rerun := some (1, 0), timedOut := [(dbarX.pc, .dbar 0x10040 5 7)] }
def dbarAgain : State := { dbarS 3 1 0 with groups := [(0, qG live1 again1)] }
theorem witness_DeviceBarriersAndTimeouts_again : dbarX.rerun = none ∧ (0x10040#64).toNat = 0x10040 ∧ scalar32 dbarX dbarOp.b % 2 ^ 16 = 5 ∧ dbarAgain.iss? = some (iss (qG live1 again1) again1) ∧ splitGuard (qG live1 again1) again1 dbarOp = true ∧
    again1.rerun ≠ none ∧ (again1.timedOut.find? fun e => e.1 == again1.pc) = some (again1.pc, .dbar 0x10040 5 7) ∧ (0x10048#64).toNat % 64 ≠ 0 ∧
    (dbarAgain.held (iss (qG live1 again1) again1) .read true 0x10040).map (fun x => (dbarAgain.badGran x.place 64, dbarAgain.dbarHeld (iss (qG live1 again1) again1) x, ofBytes (Store.getList dbarAgain.mem (x.place + 8) 2))) = some (none, false, 5) := by
  decide +kernel

theorem test_dbarv : (splitOf (ran (.dbarv dbarOp) (dbarS 3 1 0))).s.get 8 = 5 ∧ ((dbarS 3 1 0).held (iss (qG live1 dbarX) dbarX) .read true 0x10040).map (fun x =>
      ofBytes (Store.getList (ran (.dbarv dbarOp) (dbarS 3 1 0)).mem (x.place + 4) 4)) = some 2 ∧ (splitOf (ran (.dbwait dbarOp) (dbarS 3 1 0))).wait = .dbar 0x10040 5 4096 := by decide +kernel

/-- An envelope at 0x10080: entry 0x400, JOIN and STATUS. -/
def envAt (s : State) (join status : Nat) : State := poke s 0x10080 (toBytes 8 0x400 ++ toBytes 8 0 ++ toBytes 8 7 ++ List.replicate 16 0 ++ toBytes 4 join ++ toBytes 4 0 ++ toBytes 4 status ++ toBytes 12 0)
def taskX : Split := { base with s := [(0, 0x10080)] }
def taskG (r : Option TaskRun) : Group := { qG live1 taskX with task := r }
def taskS (r : Option TaskRun) (join status : Nat) : State := envAt (mapped (taskG r)) join status
def envHeld (s : State) (r : Option TaskRun) : Option (Option (Nat × Nat) × Nat × Nat × Nat) := (s.held (iss (taskG r) taskX) .atomic false 0x10080).map fun x =>
  (s.badGran x.place 64, ofBytes (Store.getList s.mem (x.place + 0x28) 4), ofBytes (Store.getList s.mem (x.place + 0x30) 4), ofBytes (Store.getList s.mem (x.place + 0x18) 16))
def run1 : TaskRun := { env := 0x10080, budget := 0 }
theorem witness_TaskInstructions : (taskS none 1 0).iss? = some (iss (taskG none) taskX) ∧ splitGuard (taskG none) taskX op1 = true ∧ ((taskS none 1 0).wgs.get? 0).map Workgroup.launch = some 0 ∧
    ((taskS none 1 0).launches.get? 0).isSome = true ∧ (∀ e ∈ (taskS none 1 0).taskq, e.2.length < 65536) ∧ scalar64 taskX (.s 0) = 0x10080 ∧ (0x10080 % 64 = 0 ∧ 0x10084 % 64 ≠ 0) ∧
    (taskG none).task = none ∧ (taskG (some run1)).task = some run1 := by decide +kernel

theorem witness_TaskInstructions_envelope : envHeld (taskS none 1 0) none = some (none, 1, 0, 0) ∧ envHeld (taskS none 0 4) none = some (none, 0, 4, 0) ∧ envHeld (taskS none 1 9) none = some (none, 1, 9, 0) ∧
    ((9 % 8 = 1 ∧ 4 % 8 = 4 ∧ 3 % 8 ≠ 0 ∧ 3 % 8 ≠ 4) ∧ 1024 / 1024 ≠ 0 ∧ 8 / 8 % 32 ≠ 0) ∧
    (taskG (some run1)).undrained = false ∧ ({ taskG (some run1) with mops := [mop 5 .mma] } : Group).undrained = true ∧ ((taskS none 1 0).part 0).dies.length ≤ 1 ∧ ((taskS none 1 0).part 0).dies[0]? = some 0 := by
  decide +kernel

theorem test_tasks : (ran (.tspawn { op1 with a := .s 0 }) (taskS none 1 0)).taskq = [(0, [{ env := 0x10080, launch := 0, deadline := 7, num := 0 }])] ∧
    envHeld (ran (.tspawn { op1 with a := .s 0 }) (taskS none 1 0)) none = some (none, 1, 2, 0) ∧ envHeld (ran (.tdec { op1 with a := .s 0 }) (taskS none 1 9)) none = some (none, 0, 10, 0) ∧
    (ran (.tarm { op1 with a := .s 0 }) (taskS none 1 0)).taskq = [] ∧ envHeld (ran (.tdone op1) (taskS (some run1) 1 3)) (some run1) = some (none, 1, 4, 0) ∧
    ((ran (.tdone op1) (taskS (some run1) 1 3)).launches.get? 0).map (fun l => l.tasks) = some (-1) := by decide +kernel

/-- A launch record of one group: 32 lanes, 32 registers, widths 5, 0, …, 100 items, completion at 0x20000. -/
def record (seq : Nat) (kind prio : Nat) : List Byte :=
  let z (n : Nat) : List Byte := List.replicate n 0
  toBytes 2 0 ++ toBytes 1 kind ++ toBytes 1 prio ++ toBytes 1 1 ++ toBytes 1 32 ++ toBytes 2 0 ++ toBytes 8 0x400 ++ (toBytes 1 7 ++ z 5) ++ toBytes 1 1 ++ toBytes 1 1 ++ toBytes 8 100 ++
  (toBytes 1 1 ++ toBytes 1 0xFF ++ toBytes 2 1 ++ toBytes 4 0) ++ z 24 ++ z 32 ++ toBytes 8 0x20000 ++ z 24 ++ z 8 ++ z 112 ++ toBytes 7 seq ++ toBytes 1 ((seq % 256) ^^^ 0xA5)
/-- The device running, with partition 0 on core 0 of die 0, the launch window at 0x1000 of the host's memory and the record there. -/
def windowS (r : List Byte) : State :=
  let s : State := withPart { tabled one with groups := [], wgs := [], launches := [], cur := none, fwstat := 2, go := true } fun q => { q with lwbase := 0x1000 }
  { s with hostMem := Store.setList s.hostMem (0x1000 + 256) r }
theorem witness_LaunchLifecycle : (record 1 0 3).length = 256 ∧ (windowS (record 1 0 3)).powered = true ∧ (windowS (record 1 0 3)).fwstat = 2 ∧ (windowS (record 1 0 3)).go = true ∧ (windowS (record 1 0 3)).err = false ∧
    ((windowS (record 1 0 3)).part 0).pcores ≠ 0 ∧ Store.getList (windowS (record 1 0 3)).hostMem (0x1000 + 256) 256 = record 1 0 3 ∧
    (recF (record 1 0 3) 0xFF 1 = 1 ^^^ 0xA5 ∧ recF (record 1 0 3) 0xF8 7 = 1 ∧ recF (record 2 0 3) 0xF8 7 ≠ 1) ∧ (0 < 1024 ∧ (windowS (record 1 0 3)).launches.get? 0 = none) ∧
    ((windowS (record 1 0 3)).sysXlate 0 0x100000 .write 0x20000).2.toOption.isSome = true := by decide +kernel

/-- No check of R346 refuses that record; a PRIO of 8 is refused by check 3. -/
theorem witness_LaunchLifecycle_checks : (let r := record 1 0 3; recF r 0 2 = 0 ∧ recF r 2 1 = 0 ∧ recF r 3 1 ≤ 7 ∧ recF r 4 1 ≤ 2 ∧ recF r 5 1 = 32 ∧
      (∀ z ∈ [(0x70, 4), (0x88, 0x70), (0x7C, 4)], recF r z.1 z.2 = 0) ∧ (∀ n < 4, recF r (0x40 + 8 * n) 8 = 0) ∧ (recF r 0x10 1 = 7 ∧ recF r 0x18 8 ≤ 2 ^ 7 ∧ recF r 0x16 1 = 1 ∧ recF r 0x17 1 = 1 ∧ recF r 0x20 1 = 1) ∧
      (recF r 0x22 2 = 1 ∧ recF r 0x21 1 = 0xFF) ∧ (1 * 32 * 32 ≤ 262144 ∧ recF r 6 2 = 0 ∧ recF r 0x24 4 = 0) ∧ (recF r 8 8 % 4 = 0 ∧ recF r 0x28 8 % 64 = 0 ∧ recF r 0x60 8 = 0x20000 ∧ 0x20000 % 32 = 0) ∧
      fmtLegal (BitVec.ofNat 32 (recF r 0x78 4)) = true ∧ recF r 0x80 8 = 0) ∧ 7 < recF (record 1 0 8) 3 1 := by decide +kernel

theorem witness_LaunchLifecycle_here : (windowS (record 1 0 3)).hostFailed = false ∧ ((windowS (record 1 0 3)).part 0).stale.getLsbD 1 = false ∧
    ((ran (.agentFailure .host) (windowS (record 1 0 3))).part 0).stale.getLsbD 1 = true := by decide +kernel

theorem test_launch_accept : ((ran (.launchRecordAccept 0) (windowS (record 1 0 3))).part 0).accepted = 1 ∧
    ((ran (.launchRecordAccept 0) (windowS (record 1 0 3))).launches.get? 0).map (fun l => (l.seq, l.prio, l.par.width, l.par.items)) = some (1, 3, 32, 100) ∧
    (ran (.launchRecordAccept 0) (windowS (record 1 0 8))).launches = [] ∧
    (let t := ran (.launchRecordAccept 0) (windowS (record 1 0 8)); Store.getList t.mem (t.place 0x20000 0) 4) = [0, 0, 1, 3] := by decide +kernel

def childX : Split := { base with s := [(0, 0x10100)] }
def childG (h : Handle) : Group := { qG live1 childX with handles := [{}, h] ++ List.replicate 14 {} }
def childS (h : Handle) : State := poke (tabled (mapped (childG h))) 0x10100 (record 0 0 0)
def launch1 : Op := { len := 1, d := .h 1, a := .s 0 }
theorem witness_LaunchLifecycle_child : (childS {}).iss? = some (iss (childG {}) childX) ∧ splitGuard (childG {}) childX launch1 = true ∧ ((childS {}).wgs.get? 0).isSome = true ∧ launch1.d = .h 1 ∧
    (0x10100 % 256 = 0 ∧ 0x10140 % 256 ≠ 0) ∧ (((childS {}).held (iss (childG {}) childX) .read false 0x10100).map fun x => ((childS {}).badGran x.place 128,
      (childS {}).badGran ((childS {}).place ((childS {}).linePA (pteHash x.leaf) (x.place / 128) + 128) (pteHash x.leaf)) 128)) = some (none, none) ∧
    ((childG {}).handle 1).st = 0 ∧ ((childG { st := 1, kind := 1 }).handle 1).st ≠ 0 ∧ (1 < 1024 ∧ (childS {}).launches.get? 1 = none ∧ (childS {}).launches.get? 0 ≠ none) := by decide +kernel

def endS (given : Nat) : State := { tabled one with groups := [], wgs := [], launches := [(0, { part := 0, seq := 5, prio := 0, par := placedParams, dep := [0, 0, 0, 0], doneaddr := 0x20000, given := given, total := 1 })] }
theorem witness_LaunchLifecycle_end : ((endS 1).launches.get? 0).map (fun l => (l.par.kind, l.parent, l.forPeer, l.aborted)) = some (0, none, false, false) ∧
    ((endS 1).launches.get? 0).map (fun l => (l.dep, l.given, l.total, l.tasks, l.peers)) = some ([0, 0, 0, 0], 1, 1, 0, 0) ∧ ((endS 0).launches.get? 0).map (fun l => decide (l.given = l.total)) = some false ∧
    ((endS 1).wgs = [] ∧ (endS 1).images = [] ∧ (∀ e ∈ (endS 1).launches, e.2.parent ≠ some 0)) ∧
    (({ endS 1 with launches := [] } : State).sysXlate 0 0x100000 .write 0x20000).2.toOption.isSome = true := by decide +kernel

theorem test_launch_end : (ran (.launchCompletion 0) (endS 1)).launches = [] ∧ ((ran (.launchCompletion 0) (endS 1)).part 0).completed = 1 ∧ (ran (.launchCompletion 0) (endS 0)).launches ≠ [] := by decide +kernel

def seedS : State := { envAt (tabled one) 0 0 with
  groups := [], wgs := [], launches := [(0, { part := 0, seq := 5, prio := 0, par := { placedParams with kind := 1, args := 0x10080 }, dep := [], doneaddr := 0 })] }
theorem witness_LaunchLifecycle_seed : (seedS.launches.get? 0).map (fun l => (l.par.kind, l.seeded, l.aborted, seedS.runnable l)) = some (1, false, false, true) ∧ (seedS.part 0).pdies.getLsbD 0 = true ∧
    seedS.queueLen 0 < 65536 ∧ (∀ e < 4, (seedS.part 0).pdies.getLsbD e = true → seedS.queueLen 0 < seedS.queueLen e ∨ (seedS.queueLen 0 = seedS.queueLen e ∧ 0 ≤ e)) ∧
    ((seedS.sysXlate 0 0x100000 .atomic 0x10080).2.toOption.map fun x => (seedS.badGran x.place 64, ofBytes (Store.getList seedS.mem (x.place + 0x30) 4), ofBytes (Store.getList seedS.mem x.place 8))) = some (none, 0, 0x400) ∧
    ({ seedS with fwstat := 2, go := true } : State).attached = true ∧ (seedS.part 0).pcores ≠ 0 ∧ (1 : DWord).getLsbD seedS.devnum.toNat = true := by decide +kernel

/-! ## Admission, saving and loading -/

/-- A launch of 40 items in tiles of 16, whose die 0 has tiles 0 to 2. -/
def par16 : Params := { placedParams with vregs := 16, localkb := 0, privwords := 0, widths := [4, 0, 0, 0, 0, 0], items := 40 }
def tiles (sh : Share) (st : List Started) : Launch := { part := 0, seq := 5, prio := 2, par := par16, dep := [0, 0, 0, 0], doneaddr := 0x20000, total := 40, shares := [(0, sh)], started := st }
def admitS (l : Launch) : State := { tabled one with groups := [], wgs := [], launches := [(0, l)] }
def tile0 : Started := { tile := 0, die := 0, cursor := 0, stop := 16 }
theorem witness_Admission : (∀ x ∈ [{ tile0 with tile := 1 }, { tile0 with cursor := 16 }], x = { tile0 with tile := 1 } ∨ ¬ (x.die = 0 ∧ x.cursor < x.stop)) ∧
    (tile0.die = 0 ∧ tile0.cursor < tile0.stop) ∧ ((tiles ⟨0, 3, false, [2]⟩ []).share 0).claimed = [2] ∧ ((tiles ⟨0, 3, false, []⟩ []).share 0).claimed = [] ∧ ((2 : Nat) < 3 ∧ 3 ≤ 3) ∧
    (((admitS (tiles ⟨0, 3, false, []⟩ [])).part 0).pcores.getLsbD 0 = true ∧ ((stOf placedGroup).freeSlots 0).length = 63 ∧ ((admitS (tiles ⟨0, 3, false, []⟩ [])).freeSlots 0).length = 64) ∧
    (admitS (tiles ⟨0, 3, false, []⟩ [])).coreFor 0 0 par16 = some 0 ∧ (admitS (tiles ⟨0, 3, false, []⟩ [])).coreFor 0 1 par16 = none := by decide +kernel

theorem witness_Admission_workgroup : (let s := admitS (tiles ⟨0, 3, false, []⟩ []); (s.launches.get? 0).isSome = true ∧ s.effPrio 0 ≤ 7 ∧ ((tiles ⟨0, 3, false, []⟩ []).nextTile 0).map (·.2) = some tile0 ∧
      s.taskq.getD 0 [] = [] ∧ s.waitingAt 0 = [(s.orderKey 0 (tiles ⟨0, 3, false, []⟩ []) 0, Head.wg 0)]) ∧ 0 / 1024 = 0 ∧ 0 / 1024 ≠ 1 ∧
    (let n := min (1 * 16) (min (0 + 2 ^ 4) 16 - 0); (1 - 1) * 16 < n) := by decide +kernel

theorem witness_Admission_core : ((admitS (tiles ⟨0, 3, false, []⟩ [])).core 0).moving = none ∧ (admitS (tiles ⟨0, 3, false, []⟩ [])).coreFailed.getLsbD 0 = false := by decide

theorem test_admission : (let s := ran (.workgroupAdmission 0 0) (admitS (tiles ⟨0, 3, false, []⟩ []));
      (s.wgs.map fun e => (e.1, e.2.core, e.2.slots, e.2.next, e.2.stop)) = [(1, 0, [0], 16, 16)] ∧ (laneOf s 15).workid = 15 ∧ (laneOf s 15).idle = false ∧ (s.launches.get? 0).map (fun l => l.given) = some 16) := by
  decide +kernel

def queuedS (status : Nat) : State :=
  { envAt (admitS { tiles ⟨3, 3, false, []⟩ [] with par := { par16 with kind := 1, groups := 1 } }) 0 status with taskq := [(0, [{ env := 0x10080, launch := 0, deadline := 7, num := 0 }])] }
theorem witness_Admission_task : (∀ st ∈ [2, 0x302], (let s := queuedS st; s.taskq.getD 0 [] = [{ env := 0x10080, launch := 0, deadline := 7, num := 0 }] ∧ (s.launches.get? 0).map Launch.aborted = some false ∧
      s.waitingAt 0 = [] ∧ (s.sysXlate 0 0x100000 .atomic 0x10080).2.toOption.map (fun x => ofBytes (Store.getList s.mem (x.place + 0x30) 4)) = some st)) ∧
    ((2 : Nat).testBit 8 = false ∧ (0x302 : Nat).testBit 8 = true ∧ (0x302 : Nat).testBit 9 = true) ∧ (queuedS 2).coreFor 0 0 { par16 with kind := 1, widths := [6, 0, 0, 0, 0, 0], items := 0, entry := 0, args := 0 } = some 0 ∧
    (queuedS 2).coreFor 0 1 par16 = none := by decide +kernel

theorem test_dispatch : (let s := ran (.taskDispatch 0 0) (queuedS 2); (s.groups.get? 0).map (fun g => (g.splits.map Split.pc, g.lanes.map Lane.idle)) = some ([0x100], List.replicate 16 false) ∧ s.taskq = [(0, [])]) ∧
    ((ran (.taskDispatch 0 0) (queuedS 0x302)).launches.get? 0).map (fun l => l.faults) = some 1 := by decide +kernel

def freshG : Group := { placedGroup with started := false }
def startS (args : DWord) : State := poke (withPar (mapped freshG) fun p => { p with args := args }) 0x10040 [1, 2, 3, 4]
theorem witness_Admission_start : (startS 0x10040).groups.get? 0 = some freshG ∧ freshG.splits = base :: [] ∧ freshG.started = false ∧ freshG.retired = false ∧ freshG.task = none ∧
    ((startS 0x10040).held (iss freshG base) .read false 0x10040).map (fun x => (startS 0x10040).badGran x.place 64) = some none ∧
    (bad? ((startS 0x50040).gx (iss freshG base) .read false 0x50040).2).isSome = true ∧ ((startS 0x50040).launches.get? 0).isSome = true ∧ placedGroup.started = true := by decide +kernel

theorem test_start : (splitOf (ran (.startBlockRead 0) (startS 0x10040))).s.get 0 = 0x04030201 ∧ ((ran (.startBlockRead 0) (startS 0x50040)).groups.get? 0).map (fun g => g.retired) = some true := by decide +kernel

def doneG : Group := { placedGroup with retired := true, splits := [] }
def doneWg (next : Nat) : Workgroup := { core := 0, part := 0, launch := 0, par := par16, slots := [0], next := next, stop := 20, bars := List.replicate 16 (BarReg.init 1) }
def doneS (next : Nat) : State := { admitS (tiles ⟨3, 3, false, []⟩ [tile0]) with groups := [(0, doneG)], wgs := [(0, doneWg next)] }
theorem witness_Admission_end : (∀ e ∈ (doneS 20).groups, e.2.retired = true ∧ e.2.splits = [] ∧ e.2.mops = []) ∧ (doneS 20).copies = [] ∧ (doneS 20).tierOps = [] ∧
    ¬((doneWg 20).next < (doneWg 20).stop) ∧ (doneWg 19).next < (doneWg 19).stop ∧ (doneWg 19).task = false ∧ (doneWg 19).preempt = none ∧ (((doneS 19).barFlush 0).wgs.get? 0).isSome = true ∧ (doneWg 19).slots.Nodup ∧
    (doneWg 19).slots.length = par16.groups ∧ (par16.groups - 1) * par16.width < min (1 * 16) (20 - 19) ∧ ((doneS 19).launches.get? (doneWg 19).launch).isSome = true := by decide +kernel

theorem test_retire : (ran (.workgroupRetirement 0) (doneS 20)).wgs = [] ∧ (ran (.workgroupRetirement 0) (doneS 19)).wgs ≠ [] ∧
    (let s := ran (.workgroupRestart 0) (doneS 19); (s.wgs.map fun e => e.2.next) = [20] ∧ (laneOf s 0).workid = 19 ∧ (laneOf s 0).idle = false ∧ (laneOf s 1).idle = true) := by decide +kernel

def stealS (mine : Share) : State := { admitS { tiles ⟨0, 0, false, []⟩ [] with shares := [(0, mine), (1, ⟨0, 3, true, []⟩)] } with cores := [] }
/-- The launch runs on the fabric group of device 0. -/
def grouped (s : State) : State := { s with launches := s.launches.map fun e => (e.1, { e.2 with par := { e.2.par with devset := 1 } }) }
theorem witness_Admission_claim : (tiles ⟨0, 0, false, []⟩ []).par.devset = 0 ∧ ((grouped (stealS ⟨0, 0, false, []⟩)).launches.get? 0).map (fun l => l.par.devset) = some 1 ∧ (stealS ⟨0, 0, false, []⟩).peerClaim (tiles ⟨0, 0, false, []⟩ []) 0 = none ∧
     (let s := stealS ⟨0, 0, false, []⟩; (s.launches.get? 0).map (fun l => (l.par.kind, l.aborted, s.runnable l, l.shares.get? 1)) = some (0, false, true, some ⟨0, 3, true, []⟩) ∧ 0 < 3 ∧ 3 ≤ 2 ^ 64 ∧
      (s.part 0).pdies.getLsbD 0 = true ∧ s.coreFor 0 0 par16 ≠ none ∧ (∀ e ∈ [(0, (⟨0, 0, false, []⟩ : Share)), (1, ⟨0, 3, true, []⟩)], e.1 = 1 ∨ e.1 = 0)) ∧
    (stealS ⟨0, 0, false, [7]⟩).launches ≠ [] ∧ ({ stealS ⟨0, 0, false, []⟩ with powered := false } : State).coreFor 0 0 par16 = none := by decide +kernel

theorem test_claim : ((ran (.tileClaim 0 0) (stealS ⟨0, 0, false, []⟩)).launches.get? 0).map (fun l => l.shares) = some [(0, ⟨0, 0, false, [2]⟩), (1, ⟨0, 2, true, []⟩)] ∧
    ((ran (.tileClaim 0 4) (grouped (stealS ⟨0, 0, false, []⟩))).launches.get? 0).map (fun l => l.total) = some 32 ∧ ran (.tileClaim 0 4) (stealS ⟨0, 0, false, []⟩) = stealS ⟨0, 0, false, []⟩ := by decide +kernel

def budgetG (b : Word) : Group := { placedGroup with task := some { env := 0x10080, budget := b } }
theorem witness_Admission_budget : (timed (budgetG 100)).groups.get? 0 = some (budgetG 100) ∧ (budgetG 100).task = some { env := 0x10080, budget := 100 } ∧ (budgetG 100).splits = base :: [] ∧
    ((timed placedGroup).wgs.get? 0).map Workgroup.preempt = some none ∧ (100 ≤ ((timed placedGroup).clock - 0).toNat ∧ ¬101 ≤ ((timed placedGroup).clock - 0).toNat) ∧
    placedGroup.started = true ∧ placedGroup.retired = false ∧ base.pend = none ∧ base.held = none ∧ base.rerun = none ∧ base.skip = 0 ∧
    ({ base with wait := .barrier 1 0 0 } : Split).wait = .barrier 1 0 0 := by decide +kernel
theorem witness_Admission_budget_waits : (∀ b p c, base.wait ≠ .barrier b p c) ∧ (lateS (.barrier 1 0 0)).barSettle 0 1 = lateS (.barrier 1 0 0) := ⟨nofun, rfl⟩

/-- The same group waits for a device barrier. -/
theorem witness_Admission_budget_dbar : (∀ a p c, base.wait ≠ .dbar a p c) ∧ ({ base with wait := .dbar 0x10040 5 0 } : Split).wait = .dbar 0x10040 5 0 ∧
    (startS 0x10040).coreFailed.getLsbD 0 = false ∧ ({ startS 0x10040 with coreFailed := 1 } : State).coreFailed.getLsbD 0 = true :=
  ⟨nofun, rfl, by decide +kernel, by decide +kernel⟩

theorem test_budget : ((ran (.budget 0) (timed (budgetG 101))).groups.get? 0) = some (budgetG 101) ∧ ((ran (.budget 0) (timed (budgetG 100))).groups.get? 0) ≠ some (budgetG 100) := by decide +kernel

def saveX (a : Word) : Split := high [(0, a)]
def saveG (a : Word) (h : Handle) : Group := { grp [saveX a] with handles := [h] ++ List.replicate 15 {} }
/-- Level 2 asks for a save into, or a load from, 0x30000; the header there belongs to launch SEQ 5. -/
def saveS (a : Word) (seq : Nat) (flags : Nat) (h : Handle) : State :=
  let s := { admitS (tiles ⟨3, 3, false, []⟩ []) with groups := [(0, saveG a h)], wgs := [(0, doneWg 20)], cores := [(0, { one.core 0 with tlb := [⟨0, 0, 0, 0x4F#64, 0⟩] })] }
  pokePa s 0x30000 (toBytes 3 0 ++ toBytes 1 flags ++ toBytes 8 0 ++ toBytes 4 0 ++ toBytes 8 seq)
def hdr (s : State) (off n : Nat) : Nat := ofBytes (Store.getList s.mem (s.place 0x30000 0 + off) n)
def ctx1 : Op := { len := 1, d := .h 0, a := .s 0 }
theorem witness_SaveAndLoad : (saveS 0x30000 5 0 {}).iss? = some (iss (saveG 0x30000 {}) (saveX 0x30000)) ∧ splitGuard (saveG 0x30000 {}) (saveX 0x30000) ctx1 = true ∧ ((saveS 0x30000 5 0 {}).wgs.get? 0).isSome = true ∧
    ((saveX 0).priv ≠ 0 ∧ base.priv = 0) ∧ (0x30000 % 65536 = 0 ∧ 0x38000 % 65536 ≠ 0) ∧ (bad? (({ saveS 0x30000 5 0 {} with cores := [], parts := [] } : State).gx (iss (saveG 0x30000 {}) (saveX 0x30000)) .write false 0x30000).2).isSome = true ∧
    ((saveS 0x30000 5 0 {}).held (iss (saveG 0x30000 {}) (saveX 0x30000)) .write false 0x30000).isSome = true ∧ (par16.areaSize + 65535) / 65536 = 1 ∧
    ((saveS 0x30000 5 0 {}).held (iss (saveG 0x30000 {}) (saveX 0x30000)) .read false 0x30000).map (fun x => ((saveS 0x30000 5 0 {}).badGran x.place 64, x.place)) = some (none, (saveS 0x30000 5 0 {}).place 0x30000 0) := by
  decide +kernel

theorem witness_SaveAndLoad_load : ((saveS 0x30000 5 0 {}).imageLaunch 0 0 0x30000 5 0 0).map (·.1) = some 0 ∧ (saveS 0x30000 6 0 {}).imageLaunch 0 0 0x30000 6 0 0 = none ∧
    hdr (saveS 0x30000 5 0 {}) 0x18 8 = 0 ∧ hdr (saveS 0x30000 5 0 {}) 0x0B 1 = 0 ∧ hdr (saveS 0x30000 5 0 {}) 0x10 8 = 5 ∧
    (hdr (saveS 0x30000 5 0 {}) 0 2 = (saveS 0x30000 5 0 {}).versel.toNat / 2 ^ 32 ∧ hdr (saveS 0x30000 5 0 {}) 0xC 2 = ((saveS 0x30000 5 0 {}).ctxOf 0).toNat) ∧
    ((hdr (saveS 0x30000 5 0 {}) 3 1).testBit 0 = false ∧ (hdr (saveS 0x30000 5 1 {}) 3 1).testBit 0 = true) ∧ (((saveG 0 {}).handle 0).st = 0 ∧ ((saveG 0 { st := 2 }).handle 0).st ≠ 0) ∧
    (saveS 0x30000 5 0 {}).imageAt 0 0x30000 = none ∧
    (∀ e ∈ [((0x400 : Nat), true), (0x1400, false)], (let s := pokePa (saveS 0x30000 5 0 {}) (0x30000 + par16.areaGroup 0 + 0x200) (List.replicate 20 1 ++ toBytes 4 e.1); s.areaFmts ((s.areaPages 0 0x100000 .read 0x30000 par16.areaSize).getD []) par16) = e.2) := by decide +kernel

theorem test_ctxload : ((ran (.ctxload ctx1) (saveS 0x30000 5 0 {})).images.map fun e => (e.2.area, e.2.launch, e.2.queued)) = [(0x30000, 0, true)] ∧ hdr (ran (.ctxload ctx1) (saveS 0x30000 5 0 {})) 3 1 = 1 ∧
    ((ran (.ctxsave ctx1) (saveS 0x30000 5 0 {})).wgs.get? 0).map (fun w => w.preempt.map fun r => (r.area, r.reason)) = some (some (0x30000, 0)) := by decide +kernel

def leaving : Workgroup := { doneWg 19 with preempt := some { area := 0x30000, reason := 0x3F } }
def leaveS : State := { admitS (tiles ⟨3, 3, false, []⟩ []) with wgs := [(0, leaving)] }
def areaP : List (Nat × Nat) := [(0x30000, 0)]
theorem witness_SaveAndLoad_area : leaveS.wgs.get? 0 = some leaving ∧ leaving.preempt = some { area := 0x30000, reason := 0x3F } ∧ leaveS.groups = [] ∧ leaveS.copies = [] ∧ (leaving.task = false ∧ leaving.next < leaving.stop) ∧
    leaving.par.width ∈ [16, 32, 64] ∧ leaving.bars.length = 16 ∧ (∀ b ∈ leaving.bars, b.post.length = 68) ∧ leaving.slots.length = leaving.par.groups ∧
    leaveS.areaPages (leaveS.ctxOf 0) 0x100000 .write 0x30000 par16.areaSize = some areaP ∧ (par16.areaSize = 40960 ∧ par16.localkb = 0) := by decide +kernel
theorem witness_SaveAndLoad_places : (∀ j ∈ [0, 1], ∀ k < 1280, j ≠ k → leaveS.areaPlace areaP (32 * j) / 32 ≠ leaveS.areaPlace areaP (32 * k) / 32) ∧
    (∀ k < 1280, leaveS.areaPlace areaP (32 * k) % 32 = 0) := by decide +kernel

def image1 : Image := { area := 0x30000, ctx := 0, part := 0, launch := 0, die := 0, queued := true, handle := 8, ops := [{ id := 9, gid := 0, handle := some 1, bar := none }] }
def imageS : State := { leaveS with wgs := [], images := [(3, image1)], launches := [(0, { tiles ⟨3, 3, false, []⟩ [] with par := par16 })] }
theorem witness_SaveAndLoad_image : imageS.images.get? 3 = some image1 ∧ imageS.imagePages image1 .write = some areaP ∧ imageS.imagePages image1 .read = some areaP ∧ ({ imageS with mem := [] } : State).imagePages image1 .write = none ∧
    imageS.tierOps = [] ∧ (∀ e ∈ imageS.launches, e.2.parent = none) ∧ (∀ e ∈ imageS.images, e.2.queued = true → e.2.handle ≠ 9) ∧
    (let p1 := imageS.areaPlace areaP (par16.areaGroup 0 + 0x100 + 16); let p2 := imageS.areaPlace areaP 0xE; (p1 < p2 ∨ p2 + 2 ≤ p1) ∧ imageS.areaPlace areaP 0xF = p2 + 1) ∧
    (imageS.headAt 0).map (·.2) = some (Head.image 3) ∧ imageS.taskFirst 0 = none ∧ imageS.imageParams image1 = par16 ∧ imageS.coreFor 0 0 par16 = some 0 ∧
    ({ imageS with powered := false } : State).coreFor 0 0 par16 = none := by decide +kernel

def tier1 (bar : Option (BitVec 4)) : TierOp := { id := 5, core := 0, wg := 0, lines := [], bar := bar }
def tierS (bar : Option (BitVec 4)) : State := { stOf placedGroup with tierOps := [tier1 bar] }
theorem witness_SaveAndLoad_end : (∀ b ∈ [none, some 1], (tierS b).tierOps = [tier1 b] ∧ (tier1 b).cancelled = false ∧ (tierS b).images = []) ∧
    ((tierS (some 1)).wgs.get? 0).map (fun w => (w.bars.length, decide ((w.bar 1).arrived + 1 = (w.bar 1).expected))) = some (16, true) ∧
    ((barS (BarReg.init 2) base []).wgs.get? 0).map (fun w => decide ((w.bar 1).arrived + 1 = (w.bar 1).expected)) = some false ∧
    (∀ e ∈ (doneS 19).launches, e.2.part = 0 ∧ e.2.parent = none ∧ e.2.forPeer = false ∧ e.2.seq = 5 ∧ e.2.aborted = false) := by decide +kernel

/-- Groups of a launch that is aborted: at a boundary, and with an access under way. -/
theorem witness_SaveAndLoad_abort : (∀ p ∈ [none, some (pendOf .ld (memOp 0 ea0 0))], (∀ e ∈ ({ doneS 19 with groups := [(0, memG p)] } : State).launches, e.2.aborted = false ∧ e.2.parent = none) ∧
      ({ doneS 19 with groups := [(0, memG p)] } : State).groups.get? 0 = some (memG p) ∧ (memG p).retired = false ∧ (doneWg 19).launch = 0) ∧
    (∀ x ∈ (memG none).splits, x.pend = none) ∧ ¬(∀ x ∈ (memG (some (pendOf .ld (memOp 0 ea0 0)))).splits, x.pend = none) ∧ leaveS.budgetFirst placedGroup = false := by
  decide +kernel

theorem test_abort : ((ran (.abort 0 5) { doneS 19 with groups := [(0, placedGroup)] }).launches.get? 0).map (fun l => l.aborted) = some true ∧
    ((ran (.abort 0 5) { doneS 19 with groups := [(0, placedGroup)] }).groups.get? 0).map (fun g => g.retired) = some true ∧
    (let t := ran (.savedCompletion 9) imageS; Store.getList t.mem (imageS.areaPlace areaP (par16.areaGroup 0 + 0x110)) 1) = [2] := by decide +kernel

/-! ## The device -/

/-- The home of one address under two hashes (R206). -/
theorem test_home : 0x12345680 / 128 = 0x2468AD ∧ (homeOf (State.reset.xm) false 0 0x2468AD).1 = 0x090 ∧ (homeOf (State.reset.xm) false 2 0x2468AD).1 = 0x06C := by decide +kernel

/-- The tables with the leaf of another class and owner. -/
def classS (cls owner : Nat) : State := pokePa (admitS (tiles ⟨0, 0, false, []⟩ [])) 0x200000 (toBytes 8 (0xF + 32 * cls + 128 * owner))
def walked (s : State) (va : Nat) : Option Walked := (s.walk (some 0) (s.ctxOf 0) (s.coreCtxt 0) .read va).2.toOption
/-- A page private to core 0, of which a split has an access under way, or none. -/
def busy0 : Option Pend := some (pendOf .ld (memOp 0 ea0 0))
def ownerS (p : Option Pend) : State := { classS 1 0 with groups := [(0, memG p)], wgs := one.wgs }
theorem witness_MemoryMaintenance : (∀ e ∈ [(0, 0), (1, 0), (1, 3), (2, 0)], walked (classS e.1 e.2) 0x10080 = some { leaf := BitVec.ofNat 64 (0xF + 32 * e.1 + 128 * e.2), level := 0, entryAt := (classS 0 0).place 0x200000 0 }) ∧
    0x10080 < 2 ^ 52 ∧ (pteW 0x2F#64 && pteX 0x2F#64) = false ∧ tierOf (pteAddr 0x2F#64 (pageBits 0)) = some (pteTier 0x2F#64) ∧ (pteClass 0x2F#64 = 1 ∧ pteOwner 0x1AF#64 = 3) ∧ walked State.reset 0x10080 = none ∧
    (walked (ownerS none) 0x10080).map ((ownerS none).claimWaits 1) = some false ∧ (walked (ownerS busy0) 0x10080).map ((ownerS busy0).claimWaits 1) = some true := by decide +kernel

def coreS (k : Core) : State := { State.reset with cores := [(0, k)] }
def line1 (c : LineCls) : L1Line := { line := 4, ctx := 0, cls := c, valid := 15, dirty := 1, slot := 0 }
theorem witness_MemoryMaintenance_lines : (∀ c ∈ [LineCls.owned, .priv], ((coreS { l1 := [line1 c] }).core 0).l1At 4 0 = some (line1 c) ∧ (coreS { l1 := [line1 c] }).cores.length = 1) ∧
    (({ carvePend := true, carveReq := 4 } : Core).carvePend = true ∧ (((coreS { carvePend := true, carveReq := 4 }).coreWgs 0).map fun w => w.par.localkb).sum ≤ 512 - 64 * 4) ∧
    ({} : Core).carvePend = false := by decide +kernel

def dramS (rs : List (Nat × Bool)) (g : RowGroup) (now : DWord) : State := { State.reset with dram := rs, rows := [((dramAt 1).group, g)], clock := now }
theorem witness_MemoryMaintenance_dram : (let rs := ((dramS [(4, true), (5, false)] {} 0).dram.filter fun q => (dramAt (q.1 / 4)).sameRow (dramAt 1)).take 4; rs.head? = some (4, true) ∧ rs.head? ≠ some (5, false)) ∧
    (dramS [] {} 0).selfRefresh.getLsbD (stackOf ((dramAt 1).lp, (dramAt 1).chan)) = false ∧ (({} : RowGroup).mask = 0 ∧ ({ mask := 0xFF, stale := false } : RowGroup).stale = false) ∧
    (128 < (93750 * 129 / 93750 + 2 ^ 16 - 0) % 2 ^ 16 ∧ ¬128 < (93750 * 128 / 93750 + 2 ^ 16 - 0) % 2 ^ 16 ∧ 128 * 93750 ≤ 128 * 93750) ∧
    ((dramS [] {} 0).freeze = false ∧ 39 < 40) ∧ (∃ q ∈ (dramS [(4, true)] {} 0).dram, stackOf ((dramAt (q.1 / 4)).lp, (dramAt (q.1 / 4)).chan) = 0) ∧
    ({ State.reset with selfRefresh := 1 } : State).selfRefresh.getLsbD 0 = true ∧ State.reset.powered = true ∧ State.reset.hostFailed = false ∧ ({ State.reset with hostFailed := true } : State).hostFailed = true ∧ State.reset.reachedBy .host (2 ^ 40) = true ∧
    State.reset.reachedBy .host 0x3001C = true ∧ ({ State.reset with hdm := [] } : State).reachedBy .host 0x3001C = false ∧ 0x3001C % 32 + 4 ≤ 32 ∧ ({ State.reset with powered := false } : State).powered = false := by decide +kernel

theorem test_dram : ((ran (.dramRequest 4 true false 3) (dramS [(4, true), (5, false)] {} 0)).chan.get (chanKey ((dramAt 1).lp, (dramAt 1).chan) 2)) = 3 ∧
    (ran (.dramRequest 4 true false 3) (dramS [(4, true), (5, false)] {} 0)).dram = [] ∧ ((ran (.dramRequest 4 true false 3) (dramS [(4, true)] {} 0)).rows.map fun e => e.2.mask) = [1#8 <<< ((dramAt 1).row % 8)] := by decide +kernel

theorem witness_MemoryMaintenance_agents : State.reset.coreFailed.getLsbD 0 = false ∧ ({ State.reset with coreFailed := 1 } : State).coreFailed.getLsbD 0 = true ∧ (classS 1 0).older.get? ((classS 1 0).place 0x200000 0 / 32) = none ∧
    (classS 1 0).xmHeld = [] ∧ State.reset.peerFailed.getLsbD 1 = false ∧ ({ State.reset with peerFailed := 2 } : State).peerFailed.getLsbD 1 = true ∧ ({ State.reset with hdm := [] } : State).reachedBy (.peer 1) 0x3001C = true ∧
    (Outside.peer 1 ≠ .own ∧ Outside.host ≠ .own) := by decide +kernel

theorem test_host : (let t := ran (.hostMemWrite .host 0x3001C [1, 2, 3, 4]) State.reset; Store.getList t.mem (t.place 0x3001C 0) 4) = [1, 2, 3, 4] ∧
    ((ran (.translationWalk 0 0x10080 true) (classS 0 0)).core 0).tlb.map (fun e => pteClass e.leaf) = [2, 1] ∧ ((ran (.carveApply 0) (coreS { carvePend := true, carveReq := 4 })).core 0).carve = 4 := by decide +kernel

def held1 : State := { coreS { l1 := [line1 .owned] } with fwstat := 1, fwImage := some ([1], [2], [3]) }
theorem witness_DeviceControls : (State.reset.powered = true ∧ State.reset.cachedLines = [] ∧ held1.cachedLines = [4]) ∧ (held1.fwstat = 1 ∧ held1.fwImage = some ([1], [2], [3])) ∧
    (∀ e ∈ State.reset.retire, e.2.toNat ≠ 5) ∧ State.reset.corePart 0 = none ∧ ((windowS []).corePart 0 = some 0 ∧ ((windowS []).part 0).pctx = 0) ∧
    ((windowS []).partSetting 0 0x050 1).isSome = true ∧ (3 < 16 ∧ State.reset.launches = [] ∧ State.reset.wgs = [] ∧ State.reset.images = [] ∧ State.reset.parts = []) ∧
    ((∀ n < 192, (1 : BitVec 192).getLsbD n = true → (1 : BitVec 4).getLsbD (n / 48) = true) ∧ ∃ n < 192, n / 48 = 0 ∧ (1 : BitVec 192).getLsbD n = true) ∧
    State.reset.gens.get 5 = (5 : BitVec 16).extractLsb' 12 4 ∧ (State.reset.errTail + 1 ≠ State.reset.errHead ∧ ({ State.reset with errHead := 1 } : State).errTail + 1 = 1) ∧
    ¬(0 ≤ 1 ∧ 1 ≤ 0) ∧ (0 ≤ State.reset.versel.toNat % 2 ^ 16 ∧ State.reset.versel.toNat % 2 ^ 16 ≤ 0) ∧ (8 < 9 ∧ 127 < 128 ∧ 15 < 16 ∧ 17 ≤ 17 ∧ 0x088 ∉ [0x010, 0x018, 0x100, 0x110]) := by decide +kernel

theorem witness_DeviceControls_core : (0x81 % 16 ≠ 0 ∧ 0x81 / 16 ≤ 8 ∧ 0x81 % 16 ≤ 0x81 / 16) ∧ (0x12 / 16 < 0x12 % 16) ∧ (2 ≤ 0x1002 % 32 ∧ 0x1002 / 256 % 32 ≤ 16) ∧ ¬ 2 ≤ 0x1001 % 32 ∧
    (∃ e ∈ (stOf placedGroup).groups, e.1 / 64 = 0) ∧ State.reset.groups = [] ∧ State.reset.coreWgs 0 = [] ∧ ({ State.reset with retire := [(0, 7)] } : State).retire = (0, 7) :: [] ∧
    (∃ e ∈ [(0, (7 : BitVec 12))], e.1 = 0) ∧ (∀ e ∈ [(0, (7 : BitVec 12))], e.1 ≠ 1) ∧ ({ State.reset with gens := [(7, 15)] } : State).gens.get 7 = 15 ∧
    (State.reset.powered = true ∧ State.reset.fwstat = 0 ∧ (windowS []).fwstat = 2 ∧ State.reset.fwHash = 0) := by decide +kernel

/-- A held core is marked, and the setting comes when its last workgroup is gone (R415). -/
theorem test_core_move : ((ran (.partitionCoreMove 0 0x43 5 0x10804) (stOf placedGroup)).core 0).moving = some (0x43, 5, 0x10804) ∧ ((ran (.partitionCoreMove 0 0x43 5 0x10804) (stOf placedGroup)).core 0).lmin = ((stOf placedGroup).core 0).lmin := by
  decide +kernel

theorem test_controls : ((ran (.partitionCoreMove 0 0x43 5 0x10804) State.reset).core 0).lmin = 3 ∧ ((ran (.partitionCoreMove 0 0x43 5 0x10804) State.reset).core 0).ctxid = 5 ∧
    ((ran (.partitionCoreMove 0 0x43 5 0x10804) State.reset).core 0).m = [8, 8, 8, 8] ∧ ((ran (.partitionSettingWrite 0 0x040 3) State.reset).part 0).pdies = 3 ∧
    ((ran .retireCommandCompletion { State.reset with retire := [(0, 7)] }).part 0).ctxret = 0x80001007 ∧ (ran (.managementWindowWrite 0 0x110 0x4000) State.reset).errBase = 0x4000 ∧
    (ran (.spdmRequest 1) State.reset).spdm = [(1, 0)] := by decide +kernel

theorem witness_Reliability : (State.reset.core 0).mat.fenced.getLsbD 3 = false ∧ ((0 : BitVec 8) ||| (1#8 <<< 3) ≠ 0xFF ∧ (0xF7 : BitVec 8) ||| (1#8 <<< 3) = 0xFF) ∧ 31 < 32 ∧ (State.reset.core 5).retired = false ∧
    ((stOf placedGroup).groups.get? (3 / 32) = some placedGroup ∧ 3 / 4 % 8 < placedGroup.octets.length) ∧
    ((doneS 19).wgs.get? 0).map (fun w => (w.core, w.preempt)) = some (0, none) ∧ leaving.preempt.isSome = true ∧ 191 < 192 ∧ State.reset.coreFailed.getLsbD 3 = false ∧
    ({ State.reset with coreFailed := 8 } : State).coreFailed.getLsbD 3 = true ∧ (∃ l ∈ ((coreS { l1 := [line1 .owned] }).core 0).l1, l.line = 16 / 4 ∧ l.dirty.getLsbD (16 % 4) = true) ∧
    (State.reset.powered = true ∧ ({ State.reset with powered := false } : State).powered = false) ∧ (∀ e ∈ State.reset.groups, e.1 / 64 ≠ 3) ∧ (∃ e ∈ (stOf placedGroup).groups, e.1 / 64 = 0) ∧ 255 < 256 := by decide +kernel

/-- Core 0 with one sub-array left. -/
def sevenFenced : State := (stOf placedGroup).modCore 0 fun k => { k with mat := { k.mat with fenced := 0x7F } }
theorem witness_Reliability_peer : State.reset.peerFailed.getLsbD 3 = false ∧ (ran (.agentFailure (.peer 3)) State.reset).peerFailed.getLsbD 3 = true := by decide +kernel

theorem test_failures : (ran (.unitFailure .granule 9 0x120 true) State.reset).poison = [(9, 1)] ∧ ((ran (.unitFailure .subarray 3 0 true) State.reset).core 0).mat.fenced = 8 ∧
    (ran (.agentFailure (.core 0)) (coreS { l1 := [line1 .owned] })).poison = [(16, 1)] ∧ (ran (.thermalThrottle true) State.reset).throttled = true ∧
    Store.getList (ran (.unitFailure .link 2 7 true) State.reset).hostMem 0 4 = [3, 2, 2, 0] ∧
    ((ran (.unitFailure .accumulator 3 0 true) (stOf placedGroup)).groups.get? 0).map (fun g => (g.octet 0).poison) = some 8 ∧
    ((ran (.unitFailure .subarray 7 0x40000 true) (sevenFenced)).wgs.get? 0).map (fun w => w.preempt.map fun r => (r.area, r.reason, r.reload)) = some (some (0x40000, 0x3F, true)) ∧ (ran .powerOff (stOf placedGroup)).groups = [] := by decide +kernel

end Sys2Proof.Tests
end

section
/-! SUPPORT. Choosing the least by a key, and what a table holds. -/
namespace Sys2Proof

@[simp] theorem lexLt_nil_right (p : List Nat) : lexLt p [] = false := by simp [lexLt]
@[simp] theorem lexLt_cons (a b : Nat) (p q : List Nat) : lexLt (a :: p) (b :: q) = (decide (a < b) || (a == b && lexLt p q)) := by simp [lexLt]

theorem lexLt_asymm : ∀ {p q : List Nat}, lexLt p q = true → lexLt q p = false
  | [], _, _ => lexLt_nil_right _
  | _ :: _, [], h => by simp at h
  | a :: p, b :: q, h => by
    simp only [lexLt_cons, Bool.or_eq_true, decide_eq_true_eq, Bool.and_eq_true, beq_iff_eq] at h
    rcases h with lt | ⟨rfl, lt⟩
    · simp [Nat.not_lt_of_lt lt, Nat.ne_of_gt lt]
    · simp [lexLt_asymm lt]

theorem leastBy_mem {α : Type} {key : α → List Nat} : ∀ {l : List α} {m : α}, leastBy key l = some m → m ∈ l
  | x :: xs, m, h => by
    unfold leastBy at h
    cases e : leastBy key xs with
    | none => simp_all
    | some y =>
      rw [e] at h
      dsimp only at h
      split at h <;> cases h
      · exact List.mem_cons_of_mem _ (leastBy_mem e)
      · exact List.mem_cons_self

/-- The one element whose key lies below every other's is chosen. -/
theorem leastBy_eq_some {α : Type} {key : α → List Nat} {m : α} : ∀ {l : List α}, m ∈ l → (∀ x ∈ l, x = m ∨ lexLt (key m) (key x) = true) →
    leastBy key l = some m
  | x :: xs, hm, h => by
    unfold leastBy
    by_cases hxs : m ∈ xs
    · rw [leastBy_eq_some hxs fun y hy => h y (List.mem_cons_of_mem _ hy)]
      rcases h x List.mem_cons_self with rfl | lt
      · simp
      · simp [lt]
    · obtain rfl : m = x := (List.mem_cons.mp hm).resolve_right hxs
      cases e : leastBy key xs with
      | none => rfl
      | some y =>
        have hy := leastBy_mem e
        rcases h y (List.mem_cons_of_mem _ hy) with rfl | lt
        · exact absurd hy hxs
        · simp [lexLt_asymm lt]

theorem Table.mem_of_get? {α : Type} {k : Nat} {x : α} : ∀ {t : Table α}, t.get? k = some x → (k, x) ∈ t
  | (a, y) :: r, h => by
    unfold Table.get? at h
    split at h
    · cases h; subst a; exact List.mem_cons_self
    · exact List.mem_cons_of_mem _ (Table.mem_of_get? h)

theorem Table.getD_of_get? {α : Type} {t : Table α} {k : Nat} {x : α} (d : α) (h : t.get? k = some x) : t.getD k d = x := by
  simp [Table.getD, h]

/-- Where keys are distinct, the entry of a key is the only one. -/
theorem Table.eq_of_mem_of_key {α : Type} {e f : Nat × α} (h : e.1 = f.1) : ∀ {t : Table α}, List.Pairwise (fun e f => e.1 ≠ f.1) t → e ∈ t →
    f ∈ t → e = f
  | a :: t, nd, he, hf => by
    obtain ⟨na, nd⟩ := List.pairwise_cons.mp nd
    rcases List.mem_cons.mp he with rfl | he' <;> rcases List.mem_cons.mp hf with rfl | hf'
    · rfl
    · exact absurd h (na f hf')
    · exact absurd h.symm (na e he')
    · exact Table.eq_of_mem_of_key h nd he' hf'

/-- Removing a key forgets what was put there. -/
@[simp] theorem Table.erase_put {α : Type} (k : Nat) (y : α) : ∀ t : Table α, (t.put k y).erase k = t.erase k
  | [] => by simp [Table.put, Table.erase]
  | (a, x) :: r => by
    have ih := Table.erase_put k y r
    unfold Table.erase at ih ⊢
    by_cases e : k = a
    · simp [Table.put, e]
    · simp [Table.put, e, Ne.symm e, ih]

theorem Table.get?_erase_other {α : Type} {k j : Nat} (ne : j ≠ k) : ∀ t : Table α, (t.erase k).get? j = t.get? j
  | [] => rfl
  | (a, x) :: r => by
    have ih := Table.get?_erase_other ne r
    unfold Table.erase at ih ⊢
    by_cases e : a = k
    · subst a; simp [Table.get?, ne, ih]
    · simp [Table.get?, e, ih]

/-- Putting several records leaves every other key alone. -/
theorem Table.get?_foldl_put_other {α : Type} {j : Nat} : ∀ (es : List (Nat × α)) (t : Table α), (∀ e ∈ es, j ≠ e.1) →
    Table.get? (es.foldl (fun t e => t.put e.1 e.2) t) j = t.get? j
  | [], _, _ => rfl
  | e :: es, t, h => by
    rw [List.foldl_cons, Table.get?_foldl_put_other es _ fun f hf => h f (List.mem_cons_of_mem _ hf),
      Table.get?_put_other _ (h e List.mem_cons_self)]

/-- Of several records put under distinct keys each can be read back. -/
theorem Table.get?_foldl_put_mem {α : Type} : ∀ {es : List (Nat × α)} {t : Table α} {e : Nat × α}, (es.map (·.1)).Nodup → e ∈ es →
    Table.get? (es.foldl (fun t e => t.put e.1 e.2) t) e.1 = some e.2
  | f :: es, t, e, nd, he => by
    rw [List.map_cons, List.nodup_cons] at nd
    rw [List.foldl_cons]
    rcases List.mem_cons.mp he with rfl | he
    · rw [Table.get?_foldl_put_other es _ fun g hg eq => nd.1 (List.mem_map.mpr ⟨g, hg, eq.symm⟩), Table.get?_put_same]
    · exact Table.get?_foldl_put_mem nd.2 he

end Sys2Proof
end

section
/-! SUPPORT. Which tile, core and head of the order a die takes (R13, R16, R350, R430). -/
namespace Sys2Proof.Machine

/-- A tile as it starts: its items from the first to the last that the launch has (R9, R16). -/
def startedTile (p : Params) (die k : Nat) : Started :=
  { tile := k, die := die, cursor := k * 2 ^ min 64 (p.widths.take p.tilelevel).sum,
    stop := min ((k + 1) * 2 ^ min 64 (p.widths.take p.tilelevel).sum) p.items.toNat }

theorem Launch.start_eq (l : Launch) (k die : Nat) : l.start k die = { l with started := l.started ++ [startedTile l.par die k] } := by
  simp [Launch.start, startedTile, runEnd, tileItems, levelSize, Nat.succ_mul]

/-- A tile that was not started is found as the one just started. -/
theorem Launch.startedAt_start {l : Launch} {k : Nat} (die : Nat) (new : ∀ x ∈ l.started, x.tile ≠ k) :
    (l.start k die).startedAt k = some (startedTile l.par die k) := by
  have none : l.started.find? (fun t => t.tile == k) = none := by simpa using new
  simp [Launch.start_eq, Launch.startedAt, none, startedTile]

/-- A tile has items to start a workgroup with. -/
def Started.Open (die : Nat) (x : Started) : Prop := x.die = die ∧ x.cursor < x.stop

theorem Launch.mem_openTiles {l : Launch} {die : Nat} {t : Started} :
    t ∈ l.started.filter (fun t => t.die == die && t.cursor < t.stop) ↔ t ∈ l.started ∧ t.Open die := by
  simp [Started.Open]

/-- The lowest started tile with items left is next. -/
theorem Launch.nextTile_open {l : Launch} {die : Nat} {t : Started} (ht : t ∈ l.started) (op : t.Open die)
    (least : ∀ x ∈ l.started, x.Open die → x = t ∨ t.tile < x.tile) : l.nextTile die = some (l, t) := by
  have first : leastBy (fun (t : Started) => [t.tile]) (l.started.filter fun t => t.die == die && t.cursor < t.stop) = some t :=
    leastBy_eq_some (Launch.mem_openTiles.mpr ⟨ht, op⟩) fun x hx => by
      obtain ⟨hx, ox⟩ := Launch.mem_openTiles.mp hx
      simpa using least x hx ox
  simp [Launch.nextTile, first]

/-- A launch with a tile of a die's share started, its share changed. -/
def Launch.openTile (l : Launch) (die k : Nat) (sh : Share) : Launch :=
  { l with shares := l.shares.put die sh, started := l.started ++ [startedTile l.par die k] }

section
variable {l : Launch} {die : Nat} (closed : ∀ x ∈ l.started, ¬ x.Open die)
include closed

theorem Launch.no_openTile : l.started.filter (fun t => t.die == die && t.cursor < t.stop) = [] :=
  List.eq_nil_iff_forall_not_mem.mpr fun x hx => closed x (Launch.mem_openTiles.mp hx).1 (Launch.mem_openTiles.mp hx).2

/-- Where no started tile has items left, the lowest claimed tile is next. -/
theorem Launch.nextTile_claimed {k : Nat} (hk : k ∈ (l.share die).claimed) (least : ∀ j ∈ (l.share die).claimed, k ≤ j)
    (new : ∀ x ∈ l.started, x.tile ≠ k) :
    l.nextTile die = some (l.openTile die k { l.share die with claimed := (l.share die).claimed.filter (· != k) }, startedTile l.par die k) := by
  have first : leastBy (fun (k : Nat) => [k]) (l.share die).claimed = some k := leastBy_eq_some hk fun j hj => by
    have := least j hj
    rcases Nat.eq_or_lt_of_le this with rfl | lt
    · exact .inl rfl
    · simp [lt]
  simp only [Launch.nextTile, Launch.no_openTile closed, first, leastBy]
  rw [Launch.startedAt_start die (by exact new)]
  simp [Launch.start_eq, Launch.openTile]

/-- With no claimed tile either, the next of the die's share. -/
theorem Launch.nextTile_share (unclaimed : (l.share die).claimed = []) (more : (l.share die).next < (l.share die).stop)
    (new : ∀ x ∈ l.started, x.tile ≠ (l.share die).next) :
    l.nextTile die = some (l.openTile die (l.share die).next { l.share die with next := (l.share die).next + 1 },
      startedTile l.par die (l.share die).next) := by
  simp only [Launch.nextTile, Launch.no_openTile closed, unclaimed, leastBy, if_pos more]
  rw [Launch.startedAt_start die (by exact new)]
  simp [Launch.start_eq, Launch.openTile]

/-- A share whose tiles have all been started gives none. -/
theorem Launch.nextTile_none (unclaimed : (l.share die).claimed = []) (spent : (l.share die).stop ≤ (l.share die).next) :
    l.nextTile die = none := by
  simp [Launch.nextTile, Launch.no_openTile closed, unclaimed, leastBy, Nat.not_lt_of_le spent]

end

/-- Starting a tile leaves the launch's parameters. -/
theorem Launch.nextTile_par {l l' : Launch} {die : Nat} {t : Started} (h : l.nextTile die = some (l', t)) : l'.par = l.par := by
  have go : ∀ (m : Launch) (k : Nat), (((m.start k die).startedAt k).map fun t => (m.start k die, t)) = some (l', t) → l'.par = m.par := by
    intro m k h
    obtain ⟨_, _, e⟩ := Option.map_eq_some_iff.mp h
    cases e; rfl
  unfold Launch.nextTile at h
  dsimp only at h
  split at h
  · cases h; rfl
  · split at h
    · have same := go _ _ h
      exact same
    · split at h
      · have same := go _ _ h
        exact same
      · cases h

/-- The conditions under which a core of a partition takes a workgroup of some parameters on a die (R13, R16, R77, R205, R415). -/
def State.CoreTakes (s : State) (p d : Nat) (q : Params) (c : Nat) : Prop :=
  c < 192 ∧ (s.part p).pcores.getLsbD c = true ∧ c / 48 = d ∧ s.powered = true ∧ (s.core c).retired = false ∧ (s.core c).stopped = false ∧
  (s.core c).carvePend = false ∧ (s.core c).moving = none ∧ s.coreFailed.getLsbD c = false ∧ (s.core c).ctxid = (s.part p).pctx ∧
  q.groups ≤ (s.freeSlots c).length ∧
  ((s.coreWgs c).map fun w => w.par.groups * w.par.width * w.par.vregs).sum + q.groups * q.width * q.vregs ≤ 262144 ∧
  ((s.coreWgs c).map fun w => w.par.localkb).sum + q.localkb ≤ 512 - 64 * (s.core c).carve.toNat ∧
  (q.producer ≠ 0xFF → ∃ b < 2, ∀ w ∈ s.coreWgs c, w.bufset ≠ some b)

/-- A core can give one of its two operand buffer sets where no workgroup on it holds that set (R205). -/
theorem State.freeBufset_isSome (s : State) (c : Nat) : (s.freeBufset c).isSome = true ↔ ∃ b < 2, ∀ w ∈ s.coreWgs c, w.bufset ≠ some b := by
  simp only [State.freeBufset, List.find?_isSome, List.all_eq_true, bne_iff_ne]
  constructor
  · rintro ⟨b, hb, h⟩
    exact ⟨b, by simp at hb; omega, h⟩
  · rintro ⟨b, hb, h⟩
    exact ⟨b, by simp; omega, h⟩

theorem State.mem_candidates {s : State} {p d : Nat} {q : Params} {c : Nat} :
    c ∈ (s.part p).cores.filter (fun c => dieOf c == d && s.canAdmit p q c) ↔ s.CoreTakes p d q c := by
  have buf : (!q.buffers || (s.freeBufset c).isSome) = true ↔ (q.producer ≠ 0xFF → ∃ b < 2, ∀ w ∈ s.coreWgs c, w.bufset ≠ some b) := by
    rw [← State.freeBufset_isSome, Bool.or_eq_true, Bool.not_eq_true', Params.buffers, bne_eq_false_iff_eq, Decidable.or_iff_not_imp_left]
    rfl
  simp only [Partition.cores, State.canAdmit, List.mem_filter, List.mem_range, Bool.and_eq_true, decide_eq_true_eq, buf, State.CoreTakes]
  simp [dieOf, Params.words, and_assoc]

theorem State.freeSlots_length_le (s : State) (c : Nat) : (s.freeSlots c).length ≤ 64 := by
  simpa [State.freeSlots] using List.length_filter_le _ (List.range 64)

theorem State.freeSlots_nodup (s : State) (c : Nat) : (s.freeSlots c).Nodup := List.nodup_range.filter _

/-- Of the cores that take a workgroup, the one with the most free slots does, and of those with as many the lowest. -/
theorem State.coreFor_eq_some {s : State} {p d : Nat} {q : Params} {c : Nat} (takes : s.CoreTakes p d q c)
    (most : ∀ e, s.CoreTakes p d q e → e = c ∨ (s.freeSlots e).length < (s.freeSlots c).length ∨
      ((s.freeSlots e).length = (s.freeSlots c).length ∧ c < e)) : s.coreFor p d q = some c := by
  refine leastBy_eq_some (State.mem_candidates.mpr takes) fun e he => ?_
  have hc := s.freeSlots_length_le c
  refine (most e (State.mem_candidates.mp he)).imp_right fun h => ?_
  simp only [lexLt_cons, Bool.or_eq_true, decide_eq_true_eq, Bool.and_eq_true, beq_iff_eq]
  omega

theorem State.coreFor_eq_none {s : State} {p d : Nat} {q : Params} (h : ∀ c, ¬ s.CoreTakes p d q c) : s.coreFor p d q = none := by
  have empty : (s.part p).cores.filter (fun c => dieOf c == d && s.canAdmit p q c) = [] :=
    List.eq_nil_iff_forall_not_mem.mpr fun c hc => h c (State.mem_candidates.mp hc)
  simp [State.coreFor, empty, leastBy]

theorem State.coreFor_takes {s : State} {p d : Nat} {q : Params} {c : Nat} (h : s.coreFor p d q = some c) : s.CoreTakes p d q c :=
  State.mem_candidates.mp (leastBy_mem h)

/-- The core that is chosen has a slot for every group. -/
theorem State.coreFor_slots {s : State} {p d : Nat} {q : Params} {c : Nat} (h : s.coreFor p d q = some c) :
    ((s.freeSlots c).take q.groups).length = q.groups := by
  obtain ⟨_, _, _, _, _, _, _, _, _, _, room, _⟩ := State.coreFor_takes h
  rw [List.length_take, Nat.min_eq_left room]

/-- The entry that lies before every other is the head of a die's order. -/
theorem State.headAt_eq_some {s : State} {die : Nat} {h : List Nat × Head} (mem : h ∈ s.waitingAt die)
    (least : ∀ e ∈ s.waitingAt die, e = h ∨ lexLt h.1 e.1 = true) : s.headAt die = some h := leastBy_eq_some mem least

/-- No task goes before the head of the order where every queued task's priority lies below it. -/
theorem State.taskFirst_eq_none {s : State} {die : Nat} {h : List Nat × Head} (head : s.headAt die = some h)
    (below : ∀ r ∈ s.taskq.getD die [], h.1.headD 0 < 7 - s.effPrio r.launch) : s.taskFirst die = none := by
  unfold State.taskFirst
  rw [head]
  cases first : s.taskHead die with
  | none => rfl
  | some r => exact if_neg (Nat.not_le_of_lt (below r (leastBy_mem first)))

/-- The queued task with the earliest deadline goes first where no entry of the order has a higher priority. -/
theorem State.taskFirst_eq_some {s : State} {die : Nat} {r : TaskRef} (hr : r ∈ s.taskq.getD die [])
    (earliest : ∀ e ∈ s.taskq.getD die [], e = r ∨ r.deadline.toNat < e.deadline.toNat ∨ (r.deadline = e.deadline ∧ r.num < e.num))
    (high : ∀ e ∈ s.waitingAt die, 7 - s.effPrio r.launch ≤ e.1.headD 0) : s.taskFirst die = some r := by
  have first : s.taskHead die = some r := leastBy_eq_some hr fun e he => by
    refine (earliest e he).imp_right fun h => ?_
    simp only [lexLt_cons, Bool.or_eq_true, decide_eq_true_eq, Bool.and_eq_true, beq_iff_eq]
    rcases h with lt | ⟨eq, lt⟩
    · exact .inl lt
    · exact .inr ⟨by rw [eq], .inl lt⟩
  unfold State.taskFirst
  rw [first]
  cases head : s.headAt die with
  | none => rfl
  | some h => exact if_pos (high h (leastBy_mem head))

end Sys2Proof.Machine
end

section
/-! SUPPORT. The groups of a workgroup as they start (R6, R17), and what the retirement of a group leaves alone (R27). -/
namespace Sys2Proof.Machine

@[simp] theorem State.retireGroup_wgs (s : State) (key : Nat) : (s.retireGroup key).wgs = s.wgs := by unfold State.retireGroup; split <;> rfl
@[simp] theorem State.retireGroup_launches (s : State) (key : Nat) : (s.retireGroup key).launches = s.launches := by
  unfold State.retireGroup; split <;> rfl
@[simp] theorem State.retireGroup_nextId (s : State) (key : Nat) : (s.retireGroup key).nextId = s.nextId := by
  unfold State.retireGroup; split <;> rfl

/-- The groups with which a workgroup starts on the items from `first` to `stop`, by their slots. -/
def Workgroup.startedGroups (w : Workgroup) (wg : Nat) (clock : DWord) (first stop : Nat) : Table Group :=
  (List.range w.par.groups).map fun g =>
    (64 * w.core + w.slots.getD g 0, startGroup wg g w.par clock (startLanes w.par first stop g))

/-- The items that a workgroup's groups take as they start. -/
def Params.taken (p : Params) (first stop : Nat) : Nat := min (p.groups * p.width) (stop - first)

/-- A workgroup with its groups in place, before those without an item retire. -/
def State.groupsPlaced (s : State) (wg : Nat) (w : Workgroup) (first stop : Nat) : State :=
  { s with
    launches := (s.modLaunch w.launch fun l => { l with given := l.given + w.par.taken first stop }).launches
    wgs := s.wgs.put wg { w with next := first + w.par.taken first stop, stop := stop }
    groups := (w.startedGroups wg s.clock first stop).foldl (fun t e => t.put e.1 e.2) s.groups }

theorem State.startGroups_eq (s : State) (wg : Nat) (w : Workgroup) (first stop : Nat) : s.startGroups wg w first stop =
    (w.startedGroups wg s.clock first stop).foldl (fun s e => if e.2.lanes.all (·.idle) then s.retireGroup e.1 else s)
      (s.groupsPlaced wg w first stop) := by
  cases h : s.launches.get? w.launch <;>
    simp only [State.startGroups, State.groupsPlaced, State.modLaunch, h] <;> rfl

theorem foldl_fixed_of_mem {α β : Type} {f : β → α → β} {s : β} : ∀ {l : List α}, (∀ e ∈ l, f s e = s) → l.foldl f s = s
  | [], _ => rfl
  | e :: l, h => by
    rw [List.foldl_cons, h e List.mem_cons_self]
    exact foldl_fixed_of_mem fun x hx => h x (List.mem_cons_of_mem _ hx)

/-- A group whose first item is before the end starts with a lane that holds it. -/
theorem startLanes_not_idle {p : Params} {first stop g : Nat} (wide : 0 < p.width) (item : first + g * p.width < stop) :
    (startLanes p first stop g).all (·.idle) = false := by
  rw [List.all_eq_false]
  refine ⟨_, List.mem_map_of_mem (List.mem_range.mpr wide), ?_⟩
  simp [item, Lane.refilled]

/-- Where the last group has an item, every group has. -/
theorem Params.items_of_taken {p : Params} {first stop g : Nat} (items : (p.groups - 1) * p.width < p.taken first stop) (hg : g < p.groups) :
    0 < p.width ∧ first + g * p.width < stop := by
  have le : g * p.width ≤ (p.groups - 1) * p.width := Nat.mul_le_mul_right _ (by omega)
  obtain ⟨lt, lt'⟩ := Nat.lt_min.mp items
  refine ⟨Nat.pos_of_ne_zero fun e => ?_, by omega⟩
  simp [e] at lt

/-- Where every group has an item, none retires. -/
theorem State.startGroups_eq_placed {s : State} {wg : Nat} {w : Workgroup} {first stop : Nat}
    (items : (w.par.groups - 1) * w.par.width < w.par.taken first stop) : s.startGroups wg w first stop = s.groupsPlaced wg w first stop := by
  rw [State.startGroups_eq]
  refine foldl_fixed_of_mem fun e he => ?_
  obtain ⟨g, hg, rfl⟩ := List.mem_map.mp he
  obtain ⟨wide, item⟩ := Params.items_of_taken items (List.mem_range.mp hg)
  exact if_neg (by simp [startGroup, startLanes_not_idle wide item])

/-- What a start of groups does beyond the groups themselves, whether or not some retire at once. -/
theorem State.startGroups_frame (s : State) (wg : Nat) (w : Workgroup) (first stop : Nat) :
    (s.startGroups wg w first stop).wgs = (s.groupsPlaced wg w first stop).wgs ∧
    (s.startGroups wg w first stop).launches = (s.groupsPlaced wg w first stop).launches ∧
    (s.startGroups wg w first stop).nextId = (s.groupsPlaced wg w first stop).nextId := by
  rw [State.startGroups_eq]
  generalize s.groupsPlaced wg w first stop = t
  induction w.startedGroups wg s.clock first stop generalizing t with
  | nil => exact ⟨rfl, rfl, rfl⟩
  | cons e es ih =>
    rw [List.foldl_cons]
    obtain ⟨h1, h2, h3⟩ := ih (if e.2.lanes.all (·.idle) then t.retireGroup e.1 else t)
    rw [h1, h2, h3]
    split <;> simp

/-- A group as it starts (R6), with its lanes as given. -/
def FreshGroup (p : Params) (wg gid : Nat) (lanes : List Lane) (g : Group) : Prop :=
  g.wg = wg ∧ g.gid = BitVec.ofNat 4 gid ∧ g.width = p.width ∧ g.lanes = lanes ∧
  g.handles = List.replicate 16 {} ∧ g.rstacks = List.replicate (p.width / 4) [] ∧ g.octets = List.replicate (p.width / 8) {} ∧ g.q4 = [] ∧
  g.trap = {} ∧ g.mops = [] ∧ g.results = [] ∧ g.sealSeq = 0 ∧ g.started = false ∧ g.retired = false ∧
  ∃ y, g.splits = [y] ∧ y.slices = BitVec.ofNat 16 (2 ^ (p.width / 4) - 1) ∧ y.pc = BitVec.ofNat 50 (p.entry.toNat / 4) ∧ y.s = [] ∧
    y.fmt = p.fmtinit ∧ y.flags = 0 ∧ y.priv = 0 ∧ y.mark = 0 ∧ y.wait = .ready

theorem startGroup_fresh (p : Params) (wg gid : Nat) (clock : DWord) (lanes : List Lane) (t : Option TaskRun) :
    FreshGroup p wg gid lanes { startGroup wg gid p clock lanes with task := t } :=
  ⟨rfl, rfl, rfl, rfl, rfl, rfl, rfl, rfl, rfl, rfl, rfl, rfl, rfl, rfl, _, rfl, rfl, rfl, rfl, rfl, rfl, rfl, rfl, rfl⟩

/-- Every group of a workgroup stands in its slot as it starts on the items from `first` to `stop`. -/
def State.Starts (t : State) (wg : Nat) (w : Workgroup) (first stop : Nat) : Prop := ∀ g < w.par.groups, ∃ x,
  t.groups.get? (64 * w.core + w.slots.getD g 0) = some x ∧ FreshGroup w.par wg g (startLanes w.par first stop g) x ∧ x.task = none

/-- Groups in distinct slots have distinct keys. -/
theorem Workgroup.startedGroups_keys {w : Workgroup} (nd : w.slots.Nodup) (len : w.slots.length = w.par.groups) (wg : Nat) (clock : DWord)
    (first stop : Nat) : ((w.startedGroups wg clock first stop).map (·.1)).Nodup := by
  have keys : (w.startedGroups wg clock first stop).map (·.1) = w.slots.map (64 * w.core + ·) := by
    refine List.ext_getElem (by simp [Workgroup.startedGroups, len]) fun i h1 h2 => ?_
    simp only [List.length_map] at h2
    simp [Workgroup.startedGroups, h2]
  rw [keys]
  exact List.pairwise_map.mpr (nd.imp fun ne e => ne (Nat.add_left_cancel e))

/-- Slots that are distinct, one for each group, hold the groups. -/
theorem State.groupsPlaced_starts {w : Workgroup} (nd : w.slots.Nodup) (len : w.slots.length = w.par.groups) (s : State) (wg first stop : Nat) :
    (s.groupsPlaced wg w first stop).Starts wg w first stop := fun g hg =>
  ⟨_, Table.get?_foldl_put_mem (Workgroup.startedGroups_keys nd len wg s.clock first stop) (List.mem_map_of_mem (List.mem_range.mpr hg)),
    startGroup_fresh w.par wg g s.clock _ none, rfl⟩

/-- A slot of no group of the workgroup is as before. -/
theorem State.groupsPlaced_groups_other {w : Workgroup} {key : Nat} (h : ∀ g < w.par.groups, key ≠ 64 * w.core + w.slots.getD g 0) (s : State)
    (wg first stop : Nat) : (s.groupsPlaced wg w first stop).groups.get? key = s.groups.get? key :=
  Table.get?_foldl_put_other _ _ fun e he => by
    obtain ⟨g, hg, rfl⟩ := List.mem_map.mp he
    exact h g (List.mem_range.mp hg)

/-- The launch counts the items that were given. -/
theorem State.groupsPlaced_launches {s : State} {w : Workgroup} {l : Launch} (h : s.launches.get? w.launch = some l) (wg first stop : Nat) :
    (s.groupsPlaced wg w first stop).launches = s.launches.put w.launch { l with given := l.given + w.par.taken first stop } := by
  simp [State.groupsPlaced, State.modLaunch, h]

end Sys2Proof.Machine
end

section
/-! SUPPORT. The admission of a workgroup (R13, R16, R25, R350). -/
namespace Sys2Proof.Machine

/-- Without a task to go first, both events of admission take the head of the order. -/
theorem exec_admits {s : State} {p d : Nat} (h : s.taskFirst d = none) : ∀ ins ∈ [Instr.workgroupAdmission p d, .taskDispatch p d],
    exec ins s = .next (s.admitHead p d) := by
  have h1 : exec (.workgroupAdmission p d) s = .next (s.admitHead p d) := by
    show execWorkgroupAdmission p d s = _
    simp [execWorkgroupAdmission, h]
  have h2 : exec (.taskDispatch p d) s = .next (s.admitHead p d) := by
    show execTaskDispatch p d s = _
    simp [execTaskDispatch, h]
  simp [h1, h2]

theorem State.admitHead_eq {s : State} {d k : Nat} {key : List Nat} (h : s.headAt d = some (key, .wg k)) (p : Nat) :
    s.admitHead p d = if k / 1024 = p then s.admitWg p d k else s := by simp [State.admitHead, h]

/-- The end of the workgroup that starts at a tile's cursor (R25). -/
def Started.wgEnd (t : Started) (p : Params) : Nat := min (t.cursor + wgItems p) t.stop

/-- The workgroup that a core takes of a launch, from a tile's cursor on. -/
def State.admittedWg (s : State) (p c k : Nat) (l : Launch) (t : Started) : Workgroup :=
  { s.reserve c p k l.par with wgid := wgidOf l.par (BitVec.ofNat 64 t.cursor), tile := t.tile, tiles := [t.tile] }

/-- The core prepared for that workgroup, and the tile's cursor moved past its items. -/
def State.admitting (s : State) (p c k : Nat) (l l' : Launch) (t : Started) : State :=
  { s.modCore c (·.prepare (s.admittedWg p c k l t).slots (s.admittedWg p c k l t).bufset) with
    launches := s.launches.put k (l'.setStarted { t with cursor := t.wgEnd l.par }), nextId := s.nextId + 1 }

section
variable {s : State} {p d k c : Nat} {l l' : Launch} {t : Started} (hl : s.launches.get? k = some l) (ht : l.nextTile d = some (l', t))
include hl ht

theorem State.admitWg_none (hc : s.coreFor p d l.par = none) : s.admitWg p d k = s := by simp [State.admitWg, hl, ht, hc]

theorem State.admitWg_eq (hc : s.coreFor p d l.par = some c) :
    s.admitWg p d k = (s.admitting p c k l l' t).startGroups s.nextId (s.admittedWg p c k l t) t.cursor (t.wgEnd l.par) := by
  simp only [State.admitWg, hl, ht, hc, Launch.take, Launch.nextTile_par ht]
  rfl

end

section
variable (s : State) (p c k : Nat) (l l' : Launch) (t : Started)

theorem State.admittedWg_launch : (s.admittedWg p c k l t).launch = k := rfl
theorem State.admittedWg_par : (s.admittedWg p c k l t).par = l.par := rfl

/-- What the admission does to the launch: the tile's cursor stands at the workgroup's end, and its items are counted. -/
theorem State.admitting_launches (wg : Nat) :
    ((s.admitting p c k l l' t).startGroups wg (s.admittedWg p c k l t) t.cursor (t.wgEnd l.par)).launches =
      s.launches.put k { l' with
        given := l'.given + l.par.taken t.cursor (t.wgEnd l.par)
        started := l'.started.map fun x => if x.tile = t.tile then { t with cursor := t.wgEnd l.par } else x } := by
  obtain ⟨_, launches, _⟩ := (s.admitting p c k l l' t).startGroups_frame wg (s.admittedWg p c k l t) t.cursor (t.wgEnd l.par)
  rw [launches, State.groupsPlaced_launches (Table.get?_put_same _ _ _)]
  simp only [State.admitting, State.admittedWg_launch, State.admittedWg_par, Table.put_put, Launch.setStarted, beq_iff_eq]

/-- Its workgroup is entered under the next number, and no other workgroup changes. -/
theorem State.admitting_wgs (wg m : Nat) :
    ((s.admitting p c k l l' t).startGroups wg (s.admittedWg p c k l t) t.cursor (t.wgEnd l.par)).wgs.get? m =
      if m = wg then some { s.admittedWg p c k l t with next := t.cursor + l.par.taken t.cursor (t.wgEnd l.par), stop := t.wgEnd l.par }
      else s.wgs.get? m := by
  obtain ⟨wgs, _, _⟩ := (s.admitting p c k l l' t).startGroups_frame wg (s.admittedWg p c k l t) t.cursor (t.wgEnd l.par)
  rw [wgs]
  split
  · subst m; exact Table.get?_put_same _ _ _
  · exact Table.get?_put_other _ ‹_› _

theorem State.admitting_nextId (wg : Nat) :
    ((s.admitting p c k l l' t).startGroups wg (s.admittedWg p c k l t) t.cursor (t.wgEnd l.par)).nextId = s.nextId + 1 := by
  obtain ⟨_, _, nextId⟩ := (s.admitting p c k l l' t).startGroups_frame wg (s.admittedWg p c k l t) t.cursor (t.wgEnd l.par)
  exact nextId

theorem State.admitting_core_other {e : Nat} (ne : e ≠ c) : (s.admitting p c k l l' t).core e = s.core e :=
  State.core_modCore_other s (·.prepare (s.admittedWg p c k l t).slots (s.admittedWg p c k l t).bufset) ne

end

end Sys2Proof.Machine
end

section
/-! SUPPORT. A write at the home of its line (R219): the bytes written, and what it leaves alone. -/
namespace Sys2Proof

@[simp] theorem toBytes_length : ∀ n x : Nat, (toBytes n x).length = n
  | 0, _ => rfl
  | n + 1, x => congrArg (· + 1) (toBytes_length n (x / 256))

end Sys2Proof

namespace Sys2Proof.Machine

/-- A state reached from another by no write of a byte. -/
theorem Stored.trans_unwritten {s t u : State} {p : Nat} {bs : List Byte} (h : Stored s t p []) (k : Stored t u p bs) : Stored s u p bs where
  rest := by
    have e := k.rest
    rw [h.rest] at e
    exact e
  core c := by
    have e := k.core c
    rw [h.core c] at e
    exact e
  inside := k.inside
  outside a ha := (k.outside a ha).trans (h.outside a (by simp; omega))

theorem Quiet.stored {s t : State} (h : Quiet s t) (p : Nat) : Stored s t p [] where
  rest := by rw [h.rest]
  core := h.core
  inside _ lt := absurd lt (Nat.not_lt_zero _)
  outside _ _ := by rw [h.mem]

theorem Stored.trans_quiet {s t u : State} {p : Nat} {bs : List Byte} (h : Stored s t p bs) (k : Quiet t u) : Stored s u p bs where
  rest := by
    have staged : u.staged = t.staged := by rw [k.rest]
    have e := k.rest
    rw [h.rest] at e
    rw [k.mem, staged]
    exact e
  core c := by
    have e := k.core c
    rw [h.core c] at e
    exact e
  inside n lt := by rw [k.mem]; exact h.inside n lt
  outside a ha := by rw [k.mem]; exact h.outside a ha

theorem State.setBytes_stored (s : State) (p : Nat) (bs : List Byte) : Stored s (s.setBytes p bs) p bs where
  rest := rfl
  core _ := rfl
  inside n lt := by
    rw [List.getD_eq_getElem?_getD, List.getElem?_eq_getElem lt]
    exact Store.get_setList_same bs lt
  outside _ ha := Store.get_setList_other bs ha

theorem dropBlock_quiet (s : State) (line sector : Nat) : Quiet s { s with cores := dropBlock line sector s.cores } where
  rest := rfl
  core c := by
    have h := dropBlock_core line sector c s.cores
    unfold State.core
    dsimp only
    rw [h]

/-- The metadata of a granule that is written. -/
theorem State.granWritten_stored (s : State) (gr : Nat) (full host : Bool) (p : Nat) : Stored s (s.granWritten gr full host) p [] := by
  unfold State.granWritten
  extract_lets s1 s2
  have staged : Stored s s1 p [] := ⟨rfl, fun _ => rfl, fun _ lt => absurd lt (Nat.not_lt_zero _), fun _ _ => rfl⟩
  have marks : Quiet s1 s2 := Quiet.ite ⟨rfl, fun _ => rfl⟩ (Quiet.ite (poisonGran_quiet _ _) (Quiet.refl _))
  exact staged.trans_quiet (marks.trans ((dropBlock_quiet _ _ _).trans (syncLine_quiet _ _)))

theorem State.wr_stored (s : State) (p : Nat) (bs : List Byte) (host : Bool) : Stored s (s.wr p bs host) p bs := by
  have marks : ∀ (l : List Nat) (s : State),
      Stored s (l.foldl (fun s g => s.granWritten g (p ≤ g * 32 && g * 32 + 32 ≤ p + bs.length) host) s) p [] := by
    intro l
    induction l with
    | nil => exact fun s => (Quiet.refl s).stored p
    | cons g l ih => exact fun s => (State.granWritten_stored s g _ host p).trans_unwritten (ih _)
  exact (marks _ s).trans_unwritten (State.setBytes_stored _ p bs)

/-- A write at a home leaves its bytes and nothing else of note. -/
theorem State.homeWr_stored (s : State) (ctx : BitVec 16) (p : Nat) (bs : List Byte) : Stored s (s.homeWr ctx p bs) p bs :=
  (State.wr_stored s p bs false).trans_quiet (storeLine_quiet ..)

theorem State.envSetState_stored (s : State) (e : Env) (v : Nat) : Stored s (s.envSetState e v) (e.place + 0x30) (toBytes 4 v) :=
  State.homeWr_stored s e.ctx _ _

section
variable {s t : State} {p : Nat} {bs : List Byte} (h : Stored s t p bs)
include h

theorem Stored.clock : t.clock = s.clock := by rw [h.rest]
theorem Stored.groups : t.groups = s.groups := by rw [h.rest]
theorem Stored.wgs : t.wgs = s.wgs := by rw [h.rest]
theorem Stored.launches : t.launches = s.launches := by rw [h.rest]
theorem Stored.taskq : t.taskq = s.taskq := by rw [h.rest]
theorem Stored.nextId : t.nextId = s.nextId := by rw [h.rest]

/-- The bytes written are read back. -/
theorem Stored.getList_same : Store.getList t.mem p bs.length = bs := by
  refine List.ext_getElem (by simp [Store.getList]) fun i h1 h2 => ?_
  have := h.inside i h2
  rw [List.getD_eq_getElem?_getD, List.getElem?_eq_getElem h2] at this
  simpa [Store.getList] using this

theorem Stored.getList_toBytes {n v : Nat} (e : bs = toBytes n v) : Store.getList t.mem p n = toBytes n v := by
  have same := h.getList_same
  rw [e, toBytes_length] at same
  exact same

/-- A value that lies apart from the bytes written is read as before. -/
theorem Stored.rd_other {q n : Nat} (apart : q + n ≤ p ∨ p + bs.length ≤ q) : t.rd q n = s.rd q n := by
  have bytes : t.bytes q n = s.bytes q n := List.map_congr_left fun i hi => h.outside _ (by
    have := List.mem_range.mp hi
    omega)
  rw [State.rd, bytes, State.rd]

end

theorem Quiet.clock {s t : State} (h : Quiet s t) : t.clock = s.clock := by rw [h.rest]
theorem Quiet.launches {s t : State} (h : Quiet s t) : t.launches = s.launches := by rw [h.rest]
theorem Quiet.taskq {s t : State} (h : Quiet s t) : t.taskq = s.taskq := by rw [h.rest]
theorem Quiet.nextId {s t : State} (h : Quiet s t) : t.nextId = s.nextId := by rw [h.rest]
theorem Quiet.rd {s t : State} (h : Quiet s t) (q n : Nat) : t.rd q n = s.rd q n := by rw [State.rd, State.bytes, h.mem]; rfl

/-- Translation for an agent without a core changes caches alone. -/
theorem sysXlate_quiet (s : State) (ctx : BitVec 16) (ctxt : Nat) (acc : Acc) (va : Nat) : Quiet s (s.sysXlate ctx ctxt acc va).1 := by
  have walk := walk_quiet s none ctx ctxt acc va
  unfold State.sysXlate
  split
  · exact Quiet.refl s
  · split
    · rename_i e; rw [e] at walk; exact walk
    · rename_i e
      rw [e] at walk
      split <;> exact walk

end Sys2Proof.Machine
end

section
/-! SUPPORT. The task at the head of a die's queue starts or is skipped (R355, R357). -/
namespace Sys2Proof.Machine

/-- The envelope that a task reference names, where it has been translated to a place. -/
def TaskRef.envAt (r : TaskRef) (s : State) (part place : Nat) : Env := { place := place, addr := r.env, ctx := (s.part part).pctx }

theorem exec_taskDispatch {s : State} {p d : Nat} {r : TaskRef} (h : s.taskFirst d = some r) :
    exec (.taskDispatch p d) s = .next (if r.launch / 1024 = p then s.runTask p d r else s) := by
  show execTaskDispatch p d s = _
  simp [execTaskDispatch, h]

/-- A STATE word that has FAILED set keeps its value when FAILED is set in it. -/
theorem withFailed_of_failed {v : Nat} (h : v.testBit 8 = true) : withFailed v = v := by
  refine Nat.eq_of_testBit_eq fun i => ?_
  rw [withFailed, Nat.testBit_or, show 256 = 2 ^ 8 from rfl, Nat.testBit_two_pow]
  by_cases e : 8 = i
  · subst e; simp [h]
  · simp [e]

/-- The completion of a task without successors: its envelope becomes DONE, and its launch's counts change. -/
theorem State.taskComplete_alone {s : State} {e : Env} (fail : Bool) (p d launch ctxt : Nat) (first : s.rd (e.place + 0x18) 8 = 0)
    (second : s.rd (e.place + 0x20) 8 = 0) :
    let v := if fail then withFailed (s.envState e) else s.envState e
    s.taskComplete e fail p d launch ctxt = (s.envSetState e (withSt v 4)).modLaunch launch fun l =>
      if tb v 8 then Launch.fault { l with tasks := l.tasks - 1 } else { l with tasks := l.tasks - 1 } := by
  intro v
  have kept (o : Nat) (ho : o + 8 ≤ 0x30) : (s.envSetState e (withSt v 4)).rd (e.place + o) 8 = s.rd (e.place + o) 8 :=
    (s.envSetState_stored e (withSt v 4)).rd_other (.inl (by omega))
  have h1 := kept 0x18 (by omega)
  have h2 := kept 0x20 (by omega)
  rw [first] at h1
  rw [second] at h2
  unfold State.taskComplete
  simp only [List.foldl_cons, List.foldl_nil]
  rw [h1]
  simp only [BitVec.ofNat_eq_ofNat, beq_self_eq_true, ↓reduceIte]
  rw [h2]
  rfl

/-- A failed task without successors counts against its launch. -/
theorem State.taskComplete_failed {s : State} {e : Env} {l : Launch} {launch : Nat} (hl : s.launches.get? launch = some l)
    (running : l.aborted = false) (failed : (s.envState e).testBit 8 = true) (first : s.rd (e.place + 0x18) 8 = 0)
    (second : s.rd (e.place + 0x20) 8 = 0) (p d ctxt : Nat) :
    s.taskComplete e true p d launch ctxt = { s.envSetState e (s.envState e / 8 * 8 + 4) with
      launches := s.launches.put launch { l with tasks := l.tasks - 1, faults := l.faults + 1 } } := by
  have st := (s.envSetState_stored e (s.envState e / 8 * 8 + 4)).launches
  rw [State.taskComplete_alone true p d launch ctxt first second]
  simp only [↓reduceIte, withFailed_of_failed failed, withSt, tb, failed, State.modLaunch, st, hl, Launch.fault, running, Bool.false_eq_true]

theorem taskBudget_eq (l : Launch) (env : DWord) (own : Nat) : taskBudget l env own =
    if l.par.kind = 1 ∧ l.par.budget ≠ 0 ∧ env = l.par.args then l.par.budget else BitVec.ofNat 32 own := by simp [taskBudget, and_assoc]

/-- The workgroup of one group that a task takes. -/
def State.taskWg (s : State) (p c : Nat) (r : TaskRef) (par : Params) : Workgroup := { s.reserve c p r.launch par with task := true }

/-- The parameters of the task of an envelope: its code and its frame (R352, R355). -/
def State.taskPar (s : State) (l : Launch) (e : Env) : Params := l.par.forTask (s.rd e.place 8) (s.rd (e.place + 8) 8)

/-- The group that runs it. -/
def State.taskGroup (s : State) (r : TaskRef) (l : Launch) (e : Env) : Group :=
  { startGroup s.nextId 0 (s.taskPar l e) s.clock (taskLanes (s.taskPar l e)) with
    task := some { env := r.env, budget := taskBudget l r.env (s.rd (e.place + 0x2C) 4), start := s.clock } }

/-- The state with the core prepared and the envelope RUNNING. -/
def State.taskRunning (s : State) (p c : Nat) (r : TaskRef) (l : Launch) (e : Env) : State :=
  (s.modCore c (·.prepare (s.taskWg p c r (s.taskPar l e)).slots (s.taskWg p c r (s.taskPar l e)).bufset)).envSetState e (s.envState e / 8 * 8 + 3)

theorem State.taskRunning_stored (s : State) (p c : Nat) (r : TaskRef) (l : Launch) (e : Env) :
    Stored (s.modCore c (·.prepare (s.taskWg p c r (s.taskPar l e)).slots (s.taskWg p c r (s.taskPar l e)).bufset)) (s.taskRunning p c r l e)
      (e.place + 0x30) (toBytes 4 (s.envState e / 8 * 8 + 3)) := State.envSetState_stored _ _ _

theorem State.startTask_eq {s : State} {c slot : Nat} (free : (s.freeSlots c).head? = some slot) (p : Nat) (r : TaskRef) (l : Launch) (e : Env) :
    s.startTask p c r l e = { s.taskRunning p c r l e with
      wgs := s.wgs.put s.nextId (s.taskWg p c r (s.taskPar l e)), groups := s.groups.put (64 * c + slot) (s.taskGroup r l e), nextId := s.nextId + 1 } := by
  have st := s.taskRunning_stored p c r l e
  have first : (s.taskWg p c r (s.taskPar l e)).slots.getD 0 0 = slot := by
    show ((s.freeSlots c).take 1).getD 0 0 = slot
    cases h : s.freeSlots c with
    | nil => simp [h] at free
    | cons a rest => simpa [h] using free
  have wgs : (s.taskRunning p c r l e).wgs = s.wgs := st.wgs
  have groups : (s.taskRunning p c r l e).groups = s.groups := st.groups
  have next : (s.taskRunning p c r l e).nextId = s.nextId := st.nextId
  calc s.startTask p c r l e = { s.taskRunning p c r l e with
        wgs := (s.taskRunning p c r l e).wgs.put (s.taskRunning p c r l e).nextId (s.taskWg p c r (s.taskPar l e))
        groups := (s.taskRunning p c r l e).groups.put (64 * c + (s.taskWg p c r (s.taskPar l e)).slots.getD 0 0) (s.taskGroup r l e)
        nextId := (s.taskRunning p c r l e).nextId + 1 } := rfl
    _ = _ := by rw [wgs, groups, next, first]

/-- A core that takes a task has a slot for it. -/
theorem State.coreFor_head {s : State} {p d c : Nat} {q : Params} (one : q.groups = 1) (h : s.coreFor p d q = some c) :
    ∃ slot, (s.freeSlots c).head? = some slot ∧ (s.freeSlots c).take 1 = [slot] := by
  have len := State.coreFor_slots h
  rw [one] at len
  cases e : s.freeSlots c with
  | nil => simp [e] at len
  | cons a rest => exact ⟨a, rfl, rfl⟩

section
variable {s u : State} {p d : Nat} {r : TaskRef} {l : Launch} {x : Xl} (hl : s.launches.get? r.launch = some l) (running : l.aborted = false)
  (xl : s.sysXlate (s.part p).pctx (s.part p).ctxtbase.toNat .atomic r.env.toNat = (u, .ok x))
include hl running xl

/-- An envelope with FAILED and POLICY set is completed as failed, without a run. -/
theorem State.runTask_skipped (failed : (u.envState (r.envAt s p x.place)).testBit 8 = true)
    (policy : (u.envState (r.envAt s p x.place)).testBit 9 = true) (first : u.rd (x.place + 0x18) 8 = 0) (second : u.rd (x.place + 0x20) 8 = 0) :
    s.runTask p d r = { (u.dequeue d r).envSetState (r.envAt s p x.place) (u.envState (r.envAt s p x.place) / 8 * 8 + 4) with
      launches := u.launches.put r.launch { l with tasks := l.tasks - 1, faults := l.faults + 1 } } := by
  have quiet := sysXlate_quiet s (s.part p).pctx (s.part p).ctxtbase.toNat .atomic r.env.toNat
  rw [xl] at quiet
  have hu : (u.dequeue d r).launches.get? r.launch = some l := by rw [← hl, ← quiet.launches]; rfl
  calc s.runTask p d r = (u.dequeue d r).taskComplete (r.envAt s p x.place) true p d r.launch (s.part p).ctxtbase.toNat := by
        unfold State.runTask
        simp only [hl, running, xl, Bool.false_eq_true, ↓reduceIte]
        exact if_pos (by simpa [tb] using ⟨failed, policy⟩)
    _ = _ := State.taskComplete_failed hu running failed first second _ _ _

/-- Any other starts where a core takes it. -/
theorem State.runTask_started (go : (u.envState (r.envAt s p x.place)).testBit 8 = false ∨ (u.envState (r.envAt s p x.place)).testBit 9 = false) :
    s.runTask p d r = match u.coreFor p d (l.par.forTask 0 0) with
      | none => u
      | some c => (u.dequeue d r).startTask p c r l (r.envAt s p x.place) := by
  unfold State.runTask
  simp only [hl, running, xl, Bool.false_eq_true, ↓reduceIte]
  refine (if_neg ?_).trans rfl
  rcases go with h | h <;> simp_all [tb, TaskRef.envAt]

end

end Sys2Proof.Machine
end

section
/-! SUPPORT. The start block of a group (R6, R475), and a group without a task that a trap ends (R360). -/
namespace Sys2Proof.Machine

/-- A fold whose steps change the host's memory and the log's tail alone changes nothing else. -/
theorem foldl_onlyLog {α : Type} {f : State → α → State} (hf : ∀ s a, ∃ host tail, f s a = { s with hostMem := host, errTail := tail }) :
    ∀ (l : List α) (s : State), ∃ host tail, l.foldl f s = { s with hostMem := host, errTail := tail }
  | [], s => ⟨s.hostMem, s.errTail, rfl⟩
  | a :: l, s => by
    obtain ⟨h, t, step⟩ := hf s a
    obtain ⟨host, tail, e⟩ := foldl_onlyLog hf l (f s a)
    rw [step] at e
    exact ⟨host, tail, by rw [List.foldl_cons, step, e]⟩

/-- Entering records writes the host's memory and moves the log's tail. -/
theorem State.logSet_rest (s : State) (rs : List ErrRec) : ∃ host tail, s.logSet rs = { s with hostMem := host, errTail := tail } := by
  have put : ∀ (s : State) (r : ErrRec), ∃ host tail, s.logPut r = { s with hostMem := host, errTail := tail } := by
    intro s r
    unfold State.logPut State.hostWr
    exact ⟨_, _, rfl⟩
  unfold State.logSet
  split
  · exact foldl_onlyLog put rs s
  · unfold State.logLost
    split
    · exact ⟨s.hostMem, s.errTail, rfl⟩
    · unfold State.hostWr
      exact ⟨_, s.errTail, rfl⟩

theorem State.modLaunch_launches_congr {s t : State} (h : s.launches = t.launches) (n : Nat) (f : Launch → Launch) :
    (s.modLaunch n f).launches = (t.modLaunch n f).launches := by
  unfold State.modLaunch
  rw [h]
  split
  · rfl
  · exact h

/-- A group as its retirement leaves it (R27). -/
def Group.asRetired (g : Group) : Group :=
  { g with lanes := g.lanes.map fun l => { l with idle := true, exm := false }, splits := g.splits.filter fun x => x.pend.isSome,
           handles := g.handles.map fun _ => {}, retired := true }

theorem State.retireGroup_get {s : State} {key : Nat} {g : Group} (hg : s.groups.get? key = some g) :
    (s.retireGroup key).groups.get? key = some g.asRetired := by
  unfold State.retireGroup
  rw [hg]
  exact Table.get?_put_same _ _ _

theorem Group.asRetired_lanes (g : Group) : ∀ ln ∈ g.asRetired.lanes, ln.idle = true ∧ ln.exm = false := by
  intro ln h
  obtain ⟨_, _, rfl⟩ := List.mem_map.mp h
  exact ⟨rfl, rfl⟩

/-- The drain of a group that runs no task completes none. -/
theorem State.drained_taskless {s : State} {key : Nat} {g : Group} (hg : s.groups.get? key = some g) (free : g.task = none) :
    s.drained key = s ∨ s.drained key = s.setGroup key { g with ending := false } := by
  unfold State.drained
  rw [hg]
  dsimp only
  split
  · exact .inr (by simp [State.groupTaskDone, free, State.modGroup, hg])
  · exact .inl rfl

/-- A trap without a handler ends a group that runs no task: it retires, and its launch counts the failure (R346, R360). -/
theorem State.endGroup_taskless {s : State} {key : Nat} {g : Group} (hg : s.groups.get? key = some g) (live : g.retired = false)
    (free : g.task = none) (rs : List ErrRec) : ∃ g', (s.endGroup key [rs]).groups.get? key = some g' ∧ g'.retired = true ∧
      (∀ ln ∈ g'.lanes, ln.idle = true ∧ ln.exm = false) ∧ (s.endGroup key [rs]).launches = (s.faulted (s.wgOf g).launch).launches := by
  obtain ⟨host, tail, log⟩ := s.logSet_rest rs
  let t := (s.logSet rs).faulted ((s.logSet rs).wgOf g).launch
  have ends : s.endGroup key [rs] = (t.retireGroup key).drained key := by simp [State.endGroup, hg, live, free, t]
  have ht : t.groups.get? key = some g := by
    simp only [t, State.faulted, State.modLaunch_groups]
    rw [log]; exact hg
  have launches : t.launches = (s.faulted (s.wgOf g).launch).launches := by
    have wg : (s.logSet rs).wgOf g = s.wgOf g := by rw [log]; rfl
    simp only [t, wg]
    exact State.modLaunch_launches_congr (by rw [log]) _ _
  have retired := State.retireGroup_get ht
  rw [ends]
  rcases State.drained_taskless retired free with e | e <;> rw [e]
  · exact ⟨_, retired, rfl, g.asRetired_lanes, (State.retireGroup_launches t key).trans launches⟩
  · exact ⟨_, State.setGroup_get _ _ _, rfl, g.asRetired_lanes, (State.retireGroup_launches t key).trans launches⟩

theorem State.faulted_launches {s : State} {n : Nat} {l : Launch} (h : s.launches.get? n = some l) :
    (s.faulted n).launches = s.launches.put n (if l.aborted then l else { l with faults := l.faults + 1 }) := by
  simp [State.faulted, State.modLaunch, h, Launch.fault]

theorem exec_startBlockRead (key : Nat) (s : State) : exec (.startBlockRead key) s = .next (s.startBlock key) := rfl

/-- A group whose split n has taken the words of the start block into its first scalar registers. -/
def Group.startedWith (g : Group) (n : Nat) (ws : List Word) : Group :=
  { g.modSplit n fun y => { y with s := y.s.setList 0 ws } with started := true }

theorem Group.startedWith_split? {g : Group} {n : Nat} {x : Split} (h : g.split? n = some x) (ws : List Word) :
    (g.startedWith n ws).split? n = some { x with s := x.s.setList 0 ws } :=
  Group.split?_modSplit_same (f := fun y => { y with s := y.s.setList 0 ws }) h fun _ => rfl

/-- The start block of a group that has started or retired, or whose core has failed, is not read. -/
theorem State.startBlock_idle {s : State} {key : Nat} {g : Group} (hg : s.groups.get? key = some g)
    (h : g.started = true ∨ g.retired = true ∨ s.coreFailed.getLsbD (key / 64) = true) : s.startBlock key = s := by
  unfold State.startBlock
  rw [hg]
  exact if_pos (by simpa [or_assoc] using h)

section
variable {s : State} {key : Nat} {g : Group} {sp : Split} {rest : List Split} (hg : s.groups.get? key = some g) (hsp : g.splits = sp :: rest)
  (fresh : g.started = false) (live : g.retired = false) (works : s.coreFailed.getLsbD (key / 64) = false)
include hg hsp fresh live works

/-- A start block that can be read is loaded into s0 to s15. -/
theorem State.startBlock_read {xl : Xl} (held : s.held ⟨⟨key, sp.id⟩, g, sp⟩ .read false (s.wgOf g).par.args.toNat = some xl)
    (good : s.badGran xl.place 64 = none) : ∃ u, Quiet s u ∧ s.startBlock key = { u with groups := s.groups.put key (g.startedWith sp.id
      ((List.range 16).map fun k => BitVec.ofNat 32 (s.rd (xl.place + 4 * k) 4))) } := by
  let read (t : State) (sector : Nat) : State := t.loadLine (key / 64) (BitVec.ofNat 6 key) (s.ctxOf (key / 64)) xl.path true sector
  have quiet : Quiet s (read (read s (xl.place / 32)) (xl.place / 32 + 1)) := (loadLine_quiet ..).trans (loadLine_quiet ..)
  refine ⟨_, quiet, ?_⟩
  rw [← quiet.groups]
  unfold State.startBlock
  rw [hg]
  simp only [fresh, live, works, Bool.or_self, Bool.false_eq_true, ↓reduceIte, hsp, gx_held held, good]
  rfl

/-- One that cannot be translated ends its group. -/
theorem State.startBlock_faults {u : State} {b : Bad} (fault : s.gx ⟨⟨key, sp.id⟩, g, sp⟩ .read false (s.wgOf g).par.args.toNat = (u, .error b)) :
    s.startBlock key =
      u.endGroup key [errSet (key / 64) key g (u.launchSeq (s.wgOf g).launch) (startFault g (s.wgOf g).par b) 0 0 false] := by
  unfold State.startBlock
  rw [hg]
  simp only [fresh, live, works, Bool.or_self, Bool.false_eq_true, ↓reduceIte, hsp, fault]

end

theorem State.wgOf_eq {s : State} {g : Group} {w : Workgroup} (h : s.wgs.get? g.wg = some w) : s.wgOf g = w := Table.getD_of_get? _ h

end Sys2Proof.Machine
end

section
/-! SUPPORT. The end of a workgroup and its restart (R31, R32), and what its barrier registers' settling leaves alone (R419). -/
namespace Sys2Proof.Machine

/-- A workgroup's barriers settle: its own record, the splits of its groups and the cycle's bookkeeping change, and nothing else does. -/
structure OnlyBarriers (s t : State) (wg : Nat) : Prop where
  rest : t = { s with wgs := t.wgs, groups := t.groups, cyc := t.cyc }
  others : ∀ k, k ≠ wg → t.wgs.get? k = s.wgs.get? k
  erased : t.wgs.erase wg = s.wgs.erase wg
  groups : t.groups.filter (fun e => e.2.wg != wg) = s.groups.filter fun e => e.2.wg != wg

theorem OnlyBarriers.refl (s : State) (wg : Nat) : OnlyBarriers s s wg := ⟨rfl, fun _ _ => rfl, rfl, rfl⟩

theorem OnlyBarriers.trans {s t u : State} {wg : Nat} (h : OnlyBarriers s t wg) (k : OnlyBarriers t u wg) : OnlyBarriers s u wg where
  rest := by
    have e := k.rest
    rw [h.rest] at e
    exact e
  others n ne := (k.others n ne).trans (h.others n ne)
  erased := k.erased.trans h.erased
  groups := k.groups.trans h.groups

theorem OnlyBarriers.launches {s t : State} {wg : Nat} (h : OnlyBarriers s t wg) : t.launches = s.launches := by rw [h.rest]

theorem OnlyBarriers.cyc (s : State) (wg : Nat) (c : Cycle) : OnlyBarriers s { s with cyc := c } wg := ⟨rfl, fun _ _ => rfl, rfl, rfl⟩

theorem OnlyBarriers.put (s : State) (wg : Nat) (w : Workgroup) : OnlyBarriers s { s with wgs := s.wgs.put wg w } wg :=
  ⟨rfl, fun _ ne => Table.get?_put_other _ ne _, Table.erase_put _ _ _, rfl⟩

theorem OnlyBarriers.barSet (s : State) (wg n : Nat) (f : BarReg → BarReg) : OnlyBarriers s (s.barSet wg n f) wg := by
  unfold State.barSet State.modWg
  split
  · exact OnlyBarriers.put s wg _
  · exact OnlyBarriers.refl s wg

/-- Changing the splits of a workgroup's groups leaves the groups of every other. -/
theorem OnlyBarriers.mapSplits (s : State) (wg : Nat) (f : Split → Split) : OnlyBarriers s { s with groups := s.groups.map fun e =>
    (e.1, if e.2.wg == wg then { e.2 with splits := e.2.splits.map f } else e.2) } wg := by
  refine ⟨rfl, fun _ _ => rfl, rfl, ?_⟩
  dsimp only
  induction s.groups with
  | nil => rfl
  | cons e r ih =>
    rw [List.map_cons]
    by_cases own : e.2.wg = wg
    · rw [List.filter_cons_of_neg (by simp [own]), List.filter_cons_of_neg (by simp [own]), ih]
    · have same : (e.1, if e.2.wg == wg then { e.2 with splits := e.2.splits.map f } else e.2) = e := by simp [own]
      rw [same, List.filter_cons_of_pos (by simpa using own), List.filter_cons_of_pos (by simpa using own), ih]

theorem OnlyBarriers.barTest (s : State) (wg n : Nat) : OnlyBarriers s (s.barTest wg n) wg := by
  unfold State.barTest
  split
  · exact OnlyBarriers.refl s wg
  · dsimp only
    split
    · exact OnlyBarriers.refl s wg
    · exact (OnlyBarriers.mapSplits s wg _).trans (OnlyBarriers.put _ wg _)

theorem OnlyBarriers.barSettle (s : State) (wg n : Nat) : OnlyBarriers s (s.barSettle wg n) wg := by
  unfold State.barSettle
  split
  · exact OnlyBarriers.refl s wg
  · dsimp only
    split
    · exact OnlyBarriers.refl s wg
    · exact ((OnlyBarriers.barSet s wg n _).trans (OnlyBarriers.barTest _ wg n)).trans (OnlyBarriers.cyc _ wg _)

theorem OnlyBarriers.barFlush (s : State) (wg : Nat) : OnlyBarriers s (s.barFlush wg) wg := by
  have settle : ∀ (l : List Nat) (s : State), OnlyBarriers s (l.foldl (fun s n => s.barSettle wg n) s) wg := by
    intro l
    induction l with
    | nil => exact fun s => OnlyBarriers.refl s wg
    | cons n l ih => exact fun s => (OnlyBarriers.barSettle s wg n).trans (ih _)
  exact (settle _ s).trans (OnlyBarriers.cyc _ wg _)

/-- All groups of a workgroup have retired and drained, and its copies and bound TIERPFs have arrived (R27, R29, R31). -/
def State.WgDone (s : State) (n : Nat) : Prop :=
  (∀ e ∈ s.groups, e.2.wg = n → e.2.retired = true ∧ e.2.splits = [] ∧ e.2.mops = []) ∧ (∀ c ∈ s.copies, c.wg ≠ n) ∧
  ∀ t ∈ s.tierOps, t.wg = n → t.bar = none

theorem State.wgDone_iff (s : State) (n : Nat) : (s.groupsDone n && s.arrivalsDone n) = true ↔ s.WgDone n := by
  simp [State.groupsDone, State.arrivalsDone, State.WgDone, and_assoc, Decidable.or_iff_not_imp_left]

theorem Workgroup.holds_iff (w : Workgroup) : w.holds = true ↔ w.task = false ∧ w.next < w.stop := by simp [Workgroup.holds]

theorem exec_workgroupRetirement (n : Nat) (s : State) : exec (.workgroupRetirement n) s = .next (s.retireWg n) := rfl
theorem exec_workgroupRestart (n : Nat) (s : State) : exec (.workgroupRestart n) s = .next (s.restartWg n) := rfl

/-- A tile that becomes Done changes in nothing else (R430). -/
theorem State.tilesDone_launches (s : State) (n k : Nat) {l : Launch} (h : s.launches.get? k = some l) : ∃ l',
    (s.tilesDone n).launches.get? k = some l' ∧ l' = { l with started := l'.started } ∧
    l'.started.map (fun x => { x with done := false }) = l.started.map fun x => { x with done := false } := by
  unfold State.tilesDone State.modLaunch
  by_cases e : k = n
  · subst e
    simp only [h]
    refine ⟨_, Table.get?_put_same _ _ _, rfl, ?_⟩
    rw [List.map_map]
    refine List.map_congr_left fun x _ => ?_
    dsimp only [Function.comp]
    split <;> rfl
  · refine ⟨l, ?_, rfl, rfl⟩
    split
    · exact (Table.get?_put_other _ e _).trans h
    · exact h

theorem State.tilesDone_rest (s : State) (n : Nat) : s.tilesDone n = { s with launches := (s.tilesDone n).launches } := by
  unfold State.tilesDone State.modLaunch
  dsimp only
  split <;> rfl

/-- A workgroup that retires once its barriers have settled leaves its core with its groups; tiles may become Done, and nothing else changes. -/
theorem OnlyBarriers.retired {s f : State} {n : Nat} (flush : OnlyBarriers s f n) (launch : Nat) : let t := (f.dropWg n).tilesDone launch
    t = { s with wgs := s.wgs.erase n, groups := t.groups, launches := t.launches, cyc := t.cyc } ∧ t.groups = s.groups.filter fun e => e.2.wg != n := by
  have tiles := (f.dropWg n).tilesDone_rest launch
  intro t
  have groups : t.groups = f.groups.filter fun e => e.2.wg != n := by simp only [t]; rw [tiles]; rfl
  have cyc : t.cyc = f.cyc := by simp only [t]; rw [tiles]; rfl
  refine ⟨?_, groups.trans flush.groups⟩
  calc t = { f with wgs := f.wgs.erase n, groups := t.groups, launches := t.launches } := by rw [groups]; exact tiles
    _ = { s with wgs := s.wgs.erase n, groups := t.groups, launches := t.launches, cyc := f.cyc } := by
      rw [flush.erased]
      exact congrArg (fun f : State => { f with wgs := s.wgs.erase n, groups := t.groups, launches := t.launches }) flush.rest
    _ = _ := by rw [cyc]

/-- A state without the groups of a workgroup. -/
def State.cleared (s : State) (n : Nat) : State := { s with groups := s.groups.filter fun e => e.2.wg != n }

/-- Groups put in place anew once the barriers have settled change workgroups, groups, launches and the cycle's bookkeeping alone. -/
theorem OnlyBarriers.restarted {s f : State} {n : Nat} (flush : OnlyBarriers s f n) (w : Workgroup) (first stop : Nat) :
    let t := (f.cleared n).groupsPlaced n w first stop
    t = { s with wgs := t.wgs, groups := t.groups, launches := t.launches, cyc := t.cyc } := by
  intro t
  exact congrArg (fun f : State => { f with wgs := t.wgs, groups := t.groups, launches := t.launches }) flush.rest

theorem OnlyBarriers.restarted_launches {s f : State} {n : Nat} (flush : OnlyBarriers s f n) {w : Workgroup} {l : Launch}
    (hl : s.launches.get? w.launch = some l) (first stop : Nat) : ((f.cleared n).groupsPlaced n w first stop).launches =
      s.launches.put w.launch { l with given := l.given + w.par.taken first stop } := by
  have cleared : (f.cleared n).launches = s.launches := flush.launches
  rw [State.groupsPlaced_launches (by rw [cleared]; exact hl), cleared]

section
variable {s : State} {n : Nat} {w : Workgroup} (hw : s.wgs.get? n = some w)
include hw

theorem State.retireWg_idle (h : ¬ (s.WgDone n ∧ ¬ w.holds = true)) : s.retireWg n = s := by
  unfold State.retireWg
  rw [hw]
  exact if_pos (by rw [← State.wgDone_iff] at h; revert h; cases s.groupsDone n <;> cases s.arrivalsDone n <;> simp)

theorem State.retireWg_done (h : s.WgDone n) (empty : ¬ w.holds = true) : s.retireWg n = ((s.barFlush n).dropWg n).tilesDone w.launch := by
  unfold State.retireWg
  rw [hw]
  exact if_neg (by rw [← State.wgDone_iff, Bool.and_eq_true] at h; simp [h, empty])

theorem State.restartWg_idle (h : ¬ (s.WgDone n ∧ w.holds = true) ∨ w.preempt ≠ none) : s.restartWg n = s := by
  unfold State.restartWg
  rw [hw]
  refine if_pos ?_
  rw [← State.wgDone_iff] at h
  rw [← Option.isSome_iff_ne_none] at h
  revert h
  cases s.groupsDone n <;> cases s.arrivalsDone n <;> simp

/-- The workgroup as its groups start again: its barriers as at admission, but for PHASE and the postmarks (R32). -/
def Workgroup.restarted (w v : Workgroup) : Workgroup := { w with bars := v.bars.map (·.restarted w.par.groups) }

theorem State.restartWg_done {v : Workgroup} (h : s.WgDone n) (more : w.holds = true) (stays : w.preempt = none)
    (hv : (s.barFlush n).wgs.get? n = some v) : s.restartWg n =
      ((s.barFlush n).cleared n).startGroups n (w.restarted v) w.next w.stop := by
  rw [← State.wgDone_iff, Bool.and_eq_true] at h
  unfold State.restartWg
  rw [hw]
  refine (if_neg (by simp [h, more, stays])).trans ?_
  dsimp only
  rw [Table.getD_of_get? _ hv]
  rfl

end

end Sys2Proof.Machine
end

section
/-! SUPPORT. The claim of a tile (R430, R453). -/
namespace Sys2Proof.Machine

theorem exec_tileClaim (key d : Nat) (s : State) : exec (.tileClaim key d) s = .next (s.tileClaim key d) := rfl

/-- The share that ends highest of those that other dies have made Stealable gives its last tile. -/
theorem Launch.stealable_eq_some {l : Launch} {d own : Nat} {sh : Share} (hs : l.shares.get? own = some sh) (other : own ≠ d)
    (steal : sh.steal = true) (more : sh.next < sh.stop) (bound : sh.stop ≤ 2 ^ 64) (keys : l.shares.Pairwise fun e f => e.1 ≠ f.1)
    (highest : ∀ e ∈ l.shares, e.1 = own ∨ e.1 = d ∨ e.2.steal = false ∨ e.2.stop ≤ e.2.next ∨ e.2.stop < sh.stop) :
    l.stealable d = some (own, sh) := by
  have mem := Table.mem_of_get? hs
  refine leastBy_eq_some (List.mem_filter.mpr ⟨mem, by simp [other, steal, more]⟩) fun e he => ?_
  obtain ⟨he, cond⟩ := List.mem_filter.mp he
  simp only [Bool.and_eq_true, bne_iff_ne, decide_eq_true_eq] at cond
  obtain ⟨⟨ne, offered⟩, left⟩ := cond
  rcases highest e he with h | h | h | h | h
  · exact .inl (Table.eq_of_mem_of_key h keys he mem)
  · exact absurd h ne
  · rw [h] at offered; cases offered
  · omega
  · right
    simp only [lexLt_cons, Bool.or_eq_true, decide_eq_true_eq]
    omega

section
variable {s : State} {key d : Nat} {l : Launch} (hl : s.launches.get? key = some l)
include hl

theorem State.tileClaim_idle (h : s.claimReady l d = false) : s.tileClaim key d = s := by simp [State.tileClaim, hl, h]

/-- A peer's tile above every Stealable one of this device is claimed before them. -/
theorem State.tileClaim_peer {k : Nat} (ready : s.claimReady l d = true) (near : d < 4) (offer : s.peerClaim l d = some k) :
    s.tileClaim key d = { s with freeCtr := s.freeCtr + 1, launches := s.launches.put key { l with
      shares := l.shares.put d { l.share d with claimed := (l.share d).claimed ++ [k] }, total := l.total + tileRangeItems l.par k (k + 1) } } := by
  simp [State.tileClaim, hl, ready, offer, Nat.not_le_of_lt near, Launch.claim]

section
variable {own : Nat} {sh : Share} (highest : l.stealable d = some (own, sh)) (ready : s.claimReady l d = true)
include highest ready

/-- A peer device's claim takes the tile and its items from this device. -/
theorem State.tileClaim_far (far : 4 ≤ d) : s.tileClaim key d = { s with launches := s.launches.put key { l with
    shares := l.shares.put own { sh with stop := sh.stop - 1 }, total := l.total - tileRangeItems l.par (sh.stop - 1) (sh.stop - 1 + 1) } } := by
  simp [State.tileClaim, hl, ready, highest, far]

/-- A die of this device moves the tile among its own. -/
theorem State.tileClaim_near (near : d < 4) (other : own ≠ d) (noOffer : s.peerClaim l d = none) :
    s.tileClaim key d = { s with launches := s.launches.put key { l with
      shares := (l.shares.put own { sh with stop := sh.stop - 1 }).put d { l.share d with claimed := (l.share d).claimed ++ [sh.stop - 1] } } } := by
  simp [State.tileClaim, hl, ready, highest, noOffer, Nat.not_le_of_lt near, Launch.claim, Launch.share, Table.getD,
    Table.get?_put_other _ other.symm]

end
end

section
variable {s : State} {d : Nat} {l : Launch} (tiled : l.par.kind = 0) (running : l.aborted = false) (ready : s.runnable l = true)
  (stealable : (l.stealable d).isSome = true)
include tiled running ready stealable

/-- A peer device may claim from a launch over several devices. -/
theorem State.claimReady_far (far : 4 ≤ d) : s.claimReady l d = true ↔ l.par.devset ≠ 0 := by
  simp [State.claimReady, tiled, running, ready, stealable, far]

/-- A die of the partition may claim once its own tiles have been started or given up, and a core can take their workgroups. -/
theorem State.claimReady_near (near : d < 4) : s.claimReady l d = true ↔ (s.part l.part).pdies.getLsbD d = true ∧ (l.share d).claimed = [] ∧
    ((l.share d).stop ≤ (l.share d).next ∨ (l.share d).steal = true) ∧ s.coreFor l.part d l.par ≠ none := by
  simp [State.claimReady, tiled, running, ready, stealable, Nat.not_le_of_lt near, Partition.dies, near, and_assoc, Option.isSome_iff_ne_none]

end

end Sys2Proof.Machine
end

section
/-! SUPPORT. Which instruction a program counter stands at does not depend on the state of any group (R41). -/
namespace Sys2Proof.Machine

/-- A state with other groups and another cycle's bookkeeping. -/
def State.withGroups (s : State) (gs : Table Group) (cy : Cycle) : State := { s with groups := gs, cyc := cy }

section
variable (gs : Table Group) (cy : Cycle)

theorem foldl_withGroups {α : Type} {f : State → α → State} (hf : ∀ s a, f (s.withGroups gs cy) a = (f s a).withGroups gs cy) :
    ∀ (l : List α) (s : State), l.foldl f (s.withGroups gs cy) = (l.foldl f s).withGroups gs cy
  | [], _ => rfl
  | a :: l, s => by rw [List.foldl_cons, hf, foldl_withGroups hf l, List.foldl_cons]

theorem State.modCore_withGroups (s : State) (c : Nat) (f : Core → Core) : (s.withGroups gs cy).modCore c f = (s.modCore c f).withGroups gs cy := rfl

theorem State.dramAsk_withGroups (s : State) (line : Nat) (mask : BitVec 4) (w : Bool) :
    (s.withGroups gs cy).dramAsk line mask w = (s.dramAsk line mask w).withGroups gs cy := rfl

theorem State.l2At_withGroups (s : State) (line : Nat) (ctx : BitVec 16) : (s.withGroups gs cy).l2At line ctx = s.l2At line ctx := rfl

theorem State.core_withGroups (s : State) (c : Nat) : (s.withGroups gs cy).core c = s.core c := rfl

theorem State.l2Put_withGroups (s : State) (x : L2Line) : (s.withGroups gs cy).l2Put x = (s.l2Put x).withGroups gs cy := by
  unfold State.l2Put
  rw [State.l2At_withGroups]
  split <;> rfl

theorem State.syncDir_withGroups (s : State) (line : Nat) (ctx : BitVec 16) :
    (s.withGroups gs cy).syncDir line ctx = (s.syncDir line ctx).withGroups gs cy := by
  unfold State.syncDir
  rw [State.l2At_withGroups]
  split
  · rfl
  · split
    · rfl
    · exact State.l2Put_withGroups gs cy s _

theorem State.syncLine_withGroups (s : State) (line : Nat) : (s.withGroups gs cy).syncLine line = (s.syncLine line).withGroups gs cy :=
  foldl_withGroups gs cy (fun s l => State.syncDir_withGroups gs cy s line l.ctx) _ s

theorem State.l2Dirty_withGroups (s : State) (line : Nat) (ctx : BitVec 16) (mask : BitVec 4) :
    (s.withGroups gs cy).l2Dirty line ctx mask = (s.l2Dirty line ctx mask).withGroups gs cy := by
  unfold State.l2Dirty
  rw [State.l2At_withGroups]
  split
  · exact State.l2Put_withGroups gs cy s _
  · rfl

theorem State.takeBack_withGroups (s : State) (line : Nat) (ctx : BitVec 16) (mask : BitVec 4) :
    (s.withGroups gs cy).takeBack line ctx mask = (s.takeBack line ctx mask).withGroups gs cy := by
  unfold State.takeBack
  split
  · rfl
  · rw [← State.syncLine_withGroups, ← State.l2Dirty_withGroups]; rfl

theorem State.dropL1_withGroups (s : State) (c line : Nat) (ctx : BitVec 16) :
    (s.withGroups gs cy).dropL1 c line ctx = (s.dropL1 c line ctx).withGroups gs cy := by
  unfold State.dropL1
  rw [State.core_withGroups]
  split
  · rfl
  · rw [← State.modCore_withGroups, ← State.takeBack_withGroups]

theorem State.dropSectors_withGroups (s : State) (c line : Nat) (ctx : BitVec 16) (mask : BitVec 4) :
    (s.withGroups gs cy).dropSectors c line ctx mask = (s.dropSectors c line ctx mask).withGroups gs cy := by
  unfold State.dropSectors
  rw [State.core_withGroups]
  split
  · rfl
  · split
    · exact State.dropL1_withGroups gs cy s c line ctx
    · rw [← State.modCore_withGroups, ← State.takeBack_withGroups]

theorem State.dropCopies_withGroups (s : State) (line : Nat) (ctx : BitVec 16) (mask : BitVec 4) (p : Nat → Bool) :
    (s.withGroups gs cy).dropCopies line ctx mask p = (s.dropCopies line ctx mask p).withGroups gs cy := by
  unfold State.dropCopies
  rw [← State.syncLine_withGroups, ← foldl_withGroups]
  · rfl
  · intro s e
    rw [← State.modCore_withGroups]
    dsimp only
    rw [State.core_withGroups]
    split
    · split
      · rw [State.dropSectors_withGroups]
      · rw [State.dropL1_withGroups]
    · rfl

theorem State.evictL2_withGroups (s : State) (x : L2Line) : (s.withGroups gs cy).evictL2 x = (s.evictL2 x).withGroups gs cy := by
  unfold State.evictL2
  rw [State.dropCopies_withGroups]
  dsimp only
  rw [State.l2At_withGroups]
  split <;> rfl

theorem State.l2_withGroups (s : State) : (s.withGroups gs cy).l2 = s.l2 := rfl
theorem State.freeCtr_withGroups (s : State) : (s.withGroups gs cy).freeCtr = s.freeCtr := rfl

theorem State.roomL2_withGroups (s : State) (line : Nat) : (s.withGroups gs cy).roomL2 line = (s.roomL2 line).withGroups gs cy := by
  unfold State.roomL2
  dsimp only
  rw [State.l2_withGroups, State.freeCtr_withGroups]
  split
  · rfl
  · split
    · rfl
    · split
      · rw [← State.evictL2_withGroups]; rfl
      · rfl

theorem State.l2Fill_withGroups (s : State) (line : Nat) (ctx : BitVec 16) (owner : Option Nat) (mask : BitVec 4) (fill : Bool) :
    (s.withGroups gs cy).l2Fill line ctx owner mask fill = (s.l2Fill line ctx owner mask fill).withGroups gs cy := by
  have room : (if ((s.withGroups gs cy).l2At line ctx).isSome then s.withGroups gs cy else (s.withGroups gs cy).roomL2 line) =
      (if (s.l2At line ctx).isSome then s else s.roomL2 line).withGroups gs cy := by
    rw [State.l2At_withGroups, State.roomL2_withGroups]
    split <;> rfl
  unfold State.l2Fill
  dsimp only
  rw [room]
  generalize (if (s.l2At line ctx).isSome then s else s.roomL2 line) = t
  rw [← State.l2Put_withGroups]
  cases fill <;> rfl

theorem State.markRead_withGroups (s : State) (p n : Nat) : (s.withGroups gs cy).markRead p n = (s.markRead p n).withGroups gs cy := by
  refine foldl_withGroups gs cy (fun s g => ?_) _ s
  show (if s.gran g == .uncorrectable then (s.withGroups gs cy).poisonGran g else s.withGroups gs cy) = _
  split <;> rfl

theorem State.readEntry_withGroups (s : State) (ctx : BitVec 16) (acc : Acc) (va pa : Nat) : (s.withGroups gs cy).readEntry ctx acc va pa =
    ((s.readEntry ctx acc va pa).1.withGroups gs cy, (s.readEntry ctx acc va pa).2) := by
  unfold State.readEntry
  dsimp only
  rw [State.l2Fill_withGroups]
  show (if s.codeAtHome (s.place pa 0 / 32) == 0 then _ else _) = _
  split
  · rfl
  · rw [State.markRead_withGroups]; rfl

theorem walkFrom_withGroups (ctx : BitVec 16) (acc : Acc) (va : Nat) : ∀ (levs : List Nat) (t : Nat) (s : State),
    (walkFrom ctx acc va levs t (s.withGroups gs cy)).2 = (walkFrom ctx acc va levs t s).2
  | [], _, _ => rfl
  | lev :: rest, t, s => by
    unfold walkFrom
    dsimp only
    rw [State.readEntry_withGroups]
    rcases s.readEntry ctx acc va (t + 8 * walkIndex va lev) with ⟨u, b | e⟩
    · rfl
    · dsimp only
      split
      · rfl
      · split
        · rfl
        · dsimp only
          rw [walkFrom_withGroups ctx acc va rest]

/-- A walk with the pointers that it reads, before the walk cache takes them or the fault is passed on (R388, R399). -/
def State.walkRead (s : State) (core : Option Nat) (ctx : BitVec 16) (ctxt : Nat) (acc : Acc) (va : Nat) :
    State × Except Bad Walked × List (Nat × Nat) :=
  match if s.liveCtx ctx then walkStart ((core.map s.core).getD {}) ctx va else none with
  | some (levs, t) => walkFrom ctx acc va levs t s
  | none => match s.readEntry ctx acc va (ctxt + 8 * (ctx.toNat % 4096)) with
    | (s, .error b) => (s, .error b, [])
    | (s, .ok e) =>
      if !pteV e then (s, .error (memBad .page 1 acc va), []) else walkFrom ctx acc va [0, 1, 2, 3] (e.toNat / 2 ^ 20 % 2 ^ 21 * 2 ^ 20) s

theorem State.walk_result (s : State) (core : Option Nat) (ctx : BitVec 16) (ctxt : Nat) (acc : Acc) (va : Nat) :
    (s.walk core ctx ctxt acc va).2 = (s.walkRead core ctx ctxt acc va).2.1 := by
  have all : ∀ r : State × Except Bad Walked × List (Nat × Nat), (match r.2.1, core with
      | .error b, some c => (r.1.walkFails c va b, .error b)
      | .ok w, some c => (r.2.2.foldl (fun (s : State) (p : Nat × Nat) => { s.modCore c fun k => { k with
          walk := putCache 256 (Config.victim s.freeCtr) k.walk ⟨ctx, va / 2 ^ pageBits p.1, p.1, p.2⟩ } with freeCtr := s.freeCtr + 1 }) r.1, .ok w)
      | x, _ => (r.1, x) : State × Except Bad Walked).2 = r.2.1 := by
    rintro ⟨u, b | w, ps⟩ <;> cases core <;> rfl
  cases core <;> exact all _

/-- What a walk finds does not depend on the groups. -/
theorem State.walk_withGroups (s : State) (core : Option Nat) (ctx : BitVec 16) (ctxt : Nat) (acc : Acc) (va : Nat) :
    ((s.withGroups gs cy).walk core ctx ctxt acc va).2 = (s.walk core ctx ctxt acc va).2 := by
  rw [State.walk_result, State.walk_result]
  refine congrArg Prod.fst ?_
  unfold State.walkRead
  rw [State.readEntry_withGroups]
  show (match if s.liveCtx ctx then walkStart ((core.map s.core).getD {}) ctx va else none with
    | some (levs, t) => walkFrom ctx acc va levs t (s.withGroups gs cy)
    | none => _).2 = _
  split
  · exact walkFrom_withGroups gs cy ctx acc va _ _ s
  · rcases s.readEntry ctx acc va (ctxt + 8 * (ctx.toNat % 4096)) with ⟨u, b | e⟩
    · rfl
    · dsimp only
      split
      · rfl
      · exact walkFrom_withGroups gs cy ctx acc va _ _ u

theorem State.peek_withGroups (s : State) (t : Tc) (ctx : BitVec 16) (ctxt : Nat) (acc : Acc) (va : Nat) :
    (s.withGroups gs cy).peek t ctx ctxt acc va = s.peek t ctx ctxt acc va := by
  unfold State.peek
  rw [State.walk_withGroups]
  rfl

theorem State.padAt_withGroups (s : State) (x : Iss) (pc : BitVec 50) : (s.withGroups gs cy).padAt x pc = s.padAt x pc := by
  unfold State.padAt
  rw [State.peek_withGroups]
  rfl

/-- The instruction after a run of pads is the same whatever the groups. -/
theorem State.pastPads_withGroups (s : State) (x : Iss) : ∀ (fuel : Nat) (pc : BitVec 50),
    (s.withGroups gs cy).pastPads x fuel pc = s.pastPads x fuel pc
  | 0, _ => rfl
  | fuel + 1, pc => by
    unfold State.pastPads
    rw [State.padAt_withGroups, State.pastPads_withGroups s x fuel]

end

end Sys2Proof.Machine
end

section
/-! SUPPORT. BUDGET goes once to the lowest split, where it stands (R356); a wait that it ends counts as timed out there. -/
namespace Sys2Proof.Machine

theorem exec_budget (key : Nat) (s : State) : exec (.budget key) s = .next (s.budget key) := rfl

theorem leastSplit_eq_some {l : List Split} {x : Split} (hx : x ∈ l) (least : ∀ y ∈ l, y = x ∨ x.id < y.id) :
    leastBy (fun y : Split => [y.id]) l = some x :=
  leastBy_eq_some hx fun y hy => (least y hy).imp_right fun lt => by simp [lexLt, lt]

/-- The split of the lowest number is the only one of its number. -/
theorem Split.eq_of_least {l : List Split} {x y : Split} (least : ∀ y ∈ l, y = x ∨ x.id < y.id) (hy : y ∈ l) (same : y.id = x.id) : y = x :=
  (least y hy).resolve_right fun lt => absurd same (by omega)

theorem Group.split?_of_least {g : Group} {x : Split} (hx : x ∈ g.splits) (least : ∀ y ∈ g.splits, y = x ∨ x.id < y.id) :
    g.split? x.id = some x := by
  cases h : g.split? x.id with
  | none => exact absurd (List.find?_eq_none.mp h x hx) (by simp)
  | some y => rw [Split.eq_of_least least (List.mem_of_find?_eq_some h) (by simpa using List.find?_some h)]

theorem Group.modSplit_congr {g : Group} {n : Nat} {f f' : Split → Split} (same : ∀ y ∈ g.splits, y.id = n → f y = f' y) :
    g.modSplit n f = g.modSplit n f' := by
  have each : ∀ y ∈ g.splits, (if y.id == n then f y else y) = if y.id == n then f' y else y := fun y hy => by
    by_cases e : y.id = n
    · simp only [e, beq_self_eq_true, ↓reduceIte, same y hy e]
    · simp [e]
  rw [Group.modSplit, Group.modSplit, List.map_congr_left each]

theorem State.issAt_eq {s : State} {w : Who} {g : Group} {x : Split} (hg : s.groups.get? w.key = some g) (hx : g.split? w.split = some x) :
    s.issAt w = some ⟨w, g, x⟩ := by
  simp [State.issAt, State.iss?, hg, hx]

section
variable {s : State} {w : Who} {g : Group} {x : Split} (hg : s.groups.get? w.key = some g) (hx : g.split? w.split = some x)
include hg hx

theorem State.waitSettled_barrier {b : BitVec 4} {p : BitVec 16} {c : DWord} (wait : x.wait = .barrier b p c) :
    s.waitSettled w = s.barClose g.wg b.toNat := by
  simp only [State.waitSettled, State.issAt_eq hg hx, wait]

theorem State.waitSettled_other (other : ∀ b p c, x.wait ≠ .barrier b p c) : s.waitSettled w = s := by
  rw [State.waitSettled, State.issAt_eq hg hx]
  dsimp only
  split
  · exact absurd ‹_› (other _ _ _)
  · rfl

end

/-- Where the lowest split stands at a boundary with no trap open before it, BUDGET is due once the run has lasted that long (R356). -/
theorem State.budgetDue_eq (s : State) {g : Group} {t : TaskRun} {x : Split} (ht : g.task = some t) (hx : x ∈ g.splits)
    (least : ∀ y ∈ g.splits, y = x ∨ x.id < y.id) (started : g.started = true) (live : g.retired = false)
    (pend : x.pend = none) (held : x.held = none) (rerun : x.rerun = none) (skip : x.skip = 0) :
    s.budgetDue g = if t.spent = false ∧ t.budget ≠ 0 ∧ t.budget.toNat ≤ (s.clock - t.start).toNat then some x else none := by
  rw [State.budgetDue, State.budgetOwed, ht, leastSplit_eq_some hx least]
  by_cases due : t.spent = false ∧ t.budget ≠ 0 ∧ t.budget.toNat ≤ (s.clock - t.start).toNat
  · simp only [started, live, held]
    rw [if_pos due, if_pos (by simpa [and_assoc] using due)]
    simp [pend, rerun, skip]
  · simp only [started, live, held]
    rw [if_neg due]
    rw [if_neg (by simpa [and_assoc] using due)]
    rfl

theorem State.budget_notDue {s : State} {key : Nat} {g : Group} (hg : s.groups.get? key = some g) (no : s.budgetDue g = none) :
    s.budget key = s := by
  simp only [State.budget, hg, Option.bind_some, no]

/-- A wait at a barrier or at an object that BUDGET ends is noted as timed out where the split stands (R356, R425). -/
def State.budgetWaits (s : State) (w : Who) (x : Split) : State :=
  match x.wait with
  | .barrier _ _ _ | .dbar _ _ _ => s.modSplit w fun y => { y with timedOut := (y.pc, y.wait) :: y.forget.timedOut }
  | _ => s

/-- The record of BUDGET (R356, R404): the split's own instruction, past pads, and its live lanes. -/
def State.budgetRec (s : State) (w : Who) (g : Group) (x : Split) : TrapRec :=
  { cause := Cause.budget.code, pc := (s.pastPads ⟨w, g, x⟩ allBlocks x.pc).setWidth 64, lanes := laneMask (liveLanes g x) }

theorem State.budgetRec_withGroups (s : State) (gs : Table Group) (cy : Cycle) (w : Who) (g : Group) (x : Split) :
    (s.withGroups gs cy).budgetRec w g x = s.budgetRec w g x := by
  rw [State.budgetRec, State.budgetRec, State.pastPads_withGroups]

/-- A group whose task has had its BUDGET. -/
def Group.spent (g : Group) : Group := { g with task := g.task.map fun t => { t with spent := true } }

theorem State.budgetWaits_other (s : State) (w : Who) {x : Split} (nb : ∀ b p c, x.wait ≠ .barrier b p c) (nd : ∀ a p c, x.wait ≠ .dbar a p c) :
    s.budgetWaits w x = s := by
  unfold State.budgetWaits
  split
  · exact absurd ‹_› (nb _ _ _)
  · exact absurd ‹_› (nd _ _ _)
  · rfl

/-- The wait that BUDGET ends is that of the one split of its number. -/
theorem State.budgetWaits_ends {s : State} {w : Who} {g : Group} {x : Split} (hg : s.groups.get? w.key = some g)
    (one : ∀ y ∈ g.splits, y.id = w.split → y = x) (wait : (∃ b p c, x.wait = .barrier b p c) ∨ ∃ a p c, x.wait = .dbar a p c) :
    s.budgetWaits w x = s.modSplit w fun y => { y with timedOut := (x.pc, x.wait) :: y.timedOut.filter fun e => e.1 != x.pc } := by
  have ends : s.budgetWaits w x = s.modSplit w fun y => { y with timedOut := (y.pc, y.wait) :: y.forget.timedOut } := by
    rcases wait with ⟨b, p, c, e⟩ | ⟨a, p, c, e⟩ <;> simp only [State.budgetWaits, e]
  rw [ends, State.modSplit_eq hg, State.modSplit_eq hg]
  refine congrArg (s.setGroup w.key) (Group.modSplit_congr fun y hy same => ?_)
  rw [one y hy same]
  rfl

theorem State.setGroup_withGroups (s : State) (gs : Table Group) (cy : Cycle) (key : Nat) (g : Group) :
    (s.withGroups gs cy).setGroup key g = s.withGroups (gs.put key g) cy := rfl

/-- A wait noted as timed out changes groups only. -/
theorem State.budgetWaits_withGroups (s : State) (w : Who) (x : Split) : ∃ gs, s.budgetWaits w x = s.withGroups gs s.cyc := by
  have same : ∃ gs, s = s.withGroups gs s.cyc := ⟨s.groups, rfl⟩
  have ends (f : Split → Split) : ∃ gs, s.modSplit w f = s.withGroups gs s.cyc := by
    unfold State.modSplit State.modGroup
    split
    · exact ⟨_, rfl⟩
    · exact same
  unfold State.budgetWaits
  split
  · exact ends _
  · exact ends _
  · exact same

/-- Delivery of a BUDGET that is due, before and after the barrier of the wait is brought up to date (R356). -/
theorem State.budget_due {s : State} {cy : Cycle} {key : Nat} {g : Group} {x : Split} (hg : s.groups.get? key = some g) (due : s.budgetDue g = some x)
    (settled : s.waitSettled ⟨key, x.id⟩ = s.withGroups s.groups cy) :
    s.budget key = (((s.withGroups s.groups cy).setGroup key g.spent).budgetWaits ⟨key, x.id⟩ x).deliver ⟨key, x.id⟩ (s.budgetRec ⟨key, x.id⟩ g x) := by
  have hu : (s.withGroups s.groups cy).groups.get? key = some g := hg
  have still : (s.withGroups s.groups cy).budgetDue g = some x := due
  obtain ⟨gs, e⟩ := ((s.withGroups s.groups cy).setGroup key g.spent).budgetWaits_withGroups ⟨key, x.id⟩ x
  have same : (((s.withGroups s.groups cy).setGroup key g.spent).budgetWaits ⟨key, x.id⟩ x).budgetRec ⟨key, x.id⟩ g x = s.budgetRec ⟨key, x.id⟩ g x := by
    rw [e]
    exact State.budgetRec_withGroups s gs _ _ g x
  rw [← same, State.budget]
  simp only [hg, Option.bind_some, due, settled, hu, still, State.modGroup_eq hu]
  rfl

end Sys2Proof.Machine
end

section
/-! The die's order and the events that fill and empty its slots (R6, R13, R16, R31, R32, R350, R355, R356, R430). -/
open Sys2Proof Sys2Proof.Machine

/-- Settles O55: it holds. The order's head is the least of its candidates (`leastBy_eq_some`), which settles the next tile, the core and what
goes first; each event is then one equation of the model (`admitWg_eq`, `startTask_eq`, `startBlock_read`, `retireWg_done`, `restartWg_done`,
`tileClaim_near`, `budget_due`), and a frame relation says what it leaves: `Quiet` and `Stored` for the tables in memory, `OnlyBarriers` for a
workgroup's pending drops. BUDGET's record is of the state before the delivery, for what a pad run is does not depend on the groups
(`pastPads_withGroups`). -/
theorem admission : Obligations.Admission := by
  unfold Obligations.Admission
  intro lanesAt fresh starts tile
  refine ⟨?_, ?_, ?_, ?_, ?_, ?_, ?_, ?_⟩
  -- The next tile of a die.
  · exact fun l d => ⟨fun t ht => Launch.nextTile_open ht, fun closed => ⟨fun k hk => Launch.nextTile_claimed closed hk, fun unclaimed =>
      ⟨Launch.nextTile_none closed unclaimed, Launch.nextTile_share closed unclaimed⟩⟩⟩
  -- The core that takes a workgroup.
  · exact fun s p d q => ⟨State.coreFor_eq_none, fun c => State.coreFor_eq_some⟩
  -- The head workgroup is admitted, or nothing is.
  · intro s p d k l l' t hl prio ht below head least stop n ins hins
    have first : s.taskFirst d = none := State.taskFirst_eq_none (State.headAt_eq_some head least) fun r hr => by
      have := below r hr
      show 7 - s.effPrio k < _
      omega
    have run := exec_admits first ins hins
    rw [State.admitHead_eq (State.headAt_eq_some head least)] at run
    refine ⟨fun ne => by rw [run, if_neg ne], fun eq hc => by rw [run, if_pos eq, State.admitWg_none hl ht hc], fun c eq hc => ?_⟩
    rw [if_pos eq, State.admitWg_eq hl ht hc] at run
    refine ⟨_, _, run, (State.admitting_wgs ..).trans (if_pos rfl), State.admitting_nextId .., rfl, rfl, rfl, rfl, rfl, rfl, rfl, rfl, rfl, rfl,
      State.admitting_launches .., fun items => ?_⟩
    rw [State.startGroups_eq_placed (by exact items)]
    refine ⟨State.groupsPlaced_starts ((s.freeSlots_nodup c).sublist (List.take_sublist ..)) (State.coreFor_slots hc) _ _ _ _, rfl, rfl,
      fun m ne => Table.get?_put_other _ ne _,
      fun e => State.admitting_core_other s p c k l l' t, fun key other => State.groupsPlaced_groups_other (by exact other) _ _ _ _⟩
  -- A task starts, is skipped, or stays.
  · intro s u p d r l x hr hl running earliest high
    have run := exec_taskDispatch (p := p) (State.taskFirst_eq_some hr earliest high)
    refine ⟨fun ne => by rw [run, if_neg ne], ?_⟩
    intro eq xl f st par left kept
    have quiet : Quiet s u := by
      have := sysXlate_quiet s (s.part p).pctx (s.part p).ctxtbase.toNat .atomic r.env.toNat
      rwa [xl] at this
    have state : u.envState (r.envAt s p x.place) = st := quiet.rd _ _
    rw [if_pos eq] at run
    constructor
    · intro failed policy first second
      rw [← state] at failed policy
      rw [State.runTask_skipped hl running xl failed policy ((quiet.rd _ _).trans first) ((quiet.rd _ _).trans second)] at run
      have done := (u.dequeue d r).envSetState_stored (r.envAt s p x.place) (u.envState (r.envAt s p x.place) / 8 * 8 + 4)
      refine ⟨_, run, ?_, ⟨?_, fun a ha => ?_⟩, ?_, ?_⟩
      · exact done.taskq.trans (by rw [State.dequeue, quiet.taskq])
      · rw [← state]; exact done.getList_toBytes rfl
      · exact (done.outside a ha).trans (by rw [← quiet.mem]; rfl)
      · exact done.groups.trans quiet.groups
      · rw [← quiet.launches]
    · intro go
      rw [← state] at go
      let v := u.dequeue d r
      let e := r.envAt s p x.place
      have fits : l.par.forTask 0 0 = { par with entry := 0, args := 0 } := rfl
      rw [State.runTask_started hl running xl go, fits] at run
      refine ⟨fun none => by rw [run, none], fun c hc => ?_⟩
      obtain ⟨slot, free, one⟩ := State.coreFor_head rfl hc
      simp only [hc] at run
      rw [State.startTask_eq (s := u.dequeue d r) free] at run
      have begun := (u.dequeue d r).taskRunning_stored p c r l (r.envAt s p x.place)
      have param : (u.dequeue d r).taskPar l (r.envAt s p x.place) = par := by
        have code := quiet.rd x.place 8
        have frame := quiet.rd (x.place + 8) 8
        show l.par.forTask (u.rd x.place 8) (u.rd (x.place + 8) 8) = par
        rw [code, frame]; rfl
      have next : (u.dequeue d r).nextId = s.nextId := quiet.nextId
      have clock : (u.dequeue d r).clock = s.clock := quiet.clock
      refine ⟨_, v.taskWg p c r (v.taskPar l e), v.taskGroup r l e, slot, run, ?_, ⟨?_, fun a ha => ?_⟩, free, ?_, ?_, ?_, ?_,
        rfl, rfl, rfl, param, one, rfl, ?_, ?_⟩
      · refine begun.taskq.trans ?_
        show u.taskq.put d ((u.taskq.getD d []).filter fun x => x.num != r.num) = left
        rw [quiet.taskq]
      · rw [← state]; exact begun.getList_toBytes rfl
      · exact (begun.outside a ha).trans (by rw [← quiet.mem]; rfl)
      · rw [← quiet.wgs, ← next]; rfl
      · rw [← quiet.groups]; rfl
      · exact begun.launches.trans quiet.launches
      · exact congrArg (· + 1) next
      · have own : v.rd (x.place + 0x2C) 4 = f 0x2C 4 := quiet.rd _ _
        show some (⟨r.env, taskBudget l r.env (v.rd (x.place + 0x2C) 4), v.clock, false⟩ : TaskRun) = _
        rw [taskBudget_eq, own, clock]
      · show FreshGroup par s.nextId 0 (taskLanes par) (v.taskGroup r l e)
        rw [State.taskGroup, param, next]
        exact startGroup_fresh par s.nextId 0 _ _ _
  -- START_BLOCK_READ.
  · intro s key g sp rest w hg hsp hw x a
    have wg : s.wgOf g = w := State.wgOf_eq hw
    refine ⟨fun h => by rw [exec_startBlockRead, State.startBlock_idle hg h], fun fresh live works =>
      ⟨fun xl held good => ?_, fun l u b free hl fault => ?_⟩⟩
    · obtain ⟨u, quiet, e⟩ := State.startBlock_read hg hsp fresh live works (by rw [wg]; exact held) good
      have first : g.split? sp.id = some sp := by simp [Group.split?, hsp]
      generalize words : ((List.range 16).map fun k => BitVec.ofNat 32 (s.rd (xl.place + 4 * k) 4)) = ws at e
      have len : ws.length = 16 := by simp [← words]
      refine ⟨u, _, g.startedWith sp.id ws, { sp with s := sp.s.setList 0 ws }, by rw [exec_startBlockRead, e], quiet, rfl, rfl,
        Group.startedWith_split? first ws, rfl, fun k hk => ?_, fun k hk => Store.get_setList_other ws (.inr (by omega))⟩
      have same := Store.get_setList_same ws (m := sp.s) (k := 0) (i := k) (by omega)
      simp only [Nat.zero_add, ← words, List.getElem_map, List.getElem_range] at same
      rw [← words]
      exact same
    · have e := State.startBlock_faults hg hsp fresh live works (by rw [wg]; exact fault)
      have quiet : Quiet s u := by
        have := gx_quiet s x .read a
        rwa [fault] at this
      obtain ⟨g', hg', retired, idle, launches⟩ := State.endGroup_taskless (s := u) (by rw [quiet.groups]; exact hg) live free _
      refine ⟨_, g', by rw [exec_startBlockRead, e], hg', retired, idle, launches.trans ?_⟩
      have wgu : u.wgOf g = w := State.wgOf_eq (by rw [quiet.wgs]; exact hw)
      rw [wgu, State.faulted_launches (by rw [quiet.launches]; exact hl), quiet.launches]
  -- A workgroup retires or restarts.
  · intro s n w hw done holds
    have holding : w.holds = true ↔ holds := w.holds_iff
    have flush := OnlyBarriers.barFlush s n
    refine ⟨fun h => ?_, fun d empty => ?_, fun h => ?_, ?_⟩
    · rw [exec_workgroupRetirement, State.retireWg_idle hw (by rwa [holding])]
    · have retire := State.retireWg_done hw d (by rwa [holding])
      replace retire := (exec_workgroupRetirement n s).trans (congrArg Host.Outcome.next retire)
      generalize s.barFlush n = f at flush retire
      obtain ⟨rest, groups⟩ := flush.retired w.launch
      exact ⟨_, retire, rest, groups, fun k l hl => State.tilesDone_launches _ _ _ ((congrArg (Table.get? · k) flush.launches).trans hl)⟩
    · rw [exec_workgroupRestart, State.restartWg_idle hw (by rwa [holding])]
    · intro v d more stays hv nd len k items
      have restart := State.restartWg_done hw d (holding.mpr more) stays hv
      rw [State.startGroups_eq_placed (by exact items)] at restart
      replace restart := (exec_workgroupRestart n s).trans (congrArg Host.Outcome.next restart)
      generalize s.barFlush n = f at flush restart
      refine ⟨_, { w.restarted v with next := w.next + k }, restart, ⟨Table.get?_put_same _ _ _, fun m ne => ?_⟩, rfl,
        State.groupsPlaced_starts (w := w.restarted v) nd len _ _ _ _, fun l hl => flush.restarted_launches (w := w.restarted v) hl _ _,
        flush.restarted _ _ _⟩
      exact (Table.get?_put_other _ ne _).trans (flush.others m ne)
  -- TILE_CLAIM.
  · intro s key d own l sh hl hs other steal more bound keys highest tiled running ready mine size moved
    have top := Launch.stealable_eq_some hs other steal more bound keys highest
    have stealable : (l.stealable d).isSome = true := by rw [top]; rfl
    have whole : sh.stop - 1 + 1 = sh.stop := by omega
    have far (hd : 4 ≤ d) := State.claimReady_far tiled running ready stealable hd
    have near (hd : d < 4) := State.claimReady_near tiled running ready stealable hd
    refine ⟨fun hd alone => ?_, fun hd group => ?_, fun hd die unclaimed given core => ⟨fun k offer => ?_, fun noOffer => ?_⟩, fun hd no => ?_⟩
    · rw [exec_tileClaim, State.tileClaim_idle hl (by rw [← Bool.not_eq_true, far hd]; exact not_not_intro alone)]
    · refine ⟨_, by rw [exec_tileClaim, State.tileClaim_far hl top ((far hd).mpr group) hd], rfl, ?_⟩
      rw [whole]; rfl
    · rw [exec_tileClaim, State.tileClaim_peer hl ((near hd).mpr ⟨die, unclaimed, given, core⟩) hd offer, show (l.share d).claimed = [] from unclaimed]
      rfl
    · refine ⟨_, by rw [exec_tileClaim, State.tileClaim_near hl top ((near hd).mpr ⟨die, unclaimed, given, core⟩) hd other noOffer], rfl, ?_⟩
      rw [show (l.share d).claimed = [] from unclaimed]; rfl
    · rw [exec_tileClaim, State.tileClaim_idle hl]
      rw [← Bool.not_eq_true, near hd]
      rintro ⟨_, unclaimed, _, core⟩
      exact no.elim (· unclaimed) core
  -- BUDGET.
  · intro s key g t x hg ht hx least started live pend held rerun skip due
    have first := Group.split?_of_least hx least
    have owed := s.budgetDue_eq ht hx least started live pend held rerun skip
    have gone : g.spent = { g with task := some { t with spent := true } } := by rw [Group.spent, ht]; rfl
    have one : ∀ y ∈ g.splits, y.id = x.id → y = x := fun y hy => Split.eq_of_least least hy
    have ended (u : State) (hu : u.groups.get? key = some g.spent) := State.budgetWaits_ends (s := u) (w := ⟨key, x.id⟩) hu one
    refine ⟨fun no => by rw [exec_budget, State.budget_notDue hg (owed.trans (if_neg no))], fun reached nb nd => ?_, fun b p c reached wait idle => ?_,
      fun a p c reached wait => ?_⟩
    · have run := State.budget_due (cy := s.cyc) hg (owed.trans (if_pos reached)) (State.waitSettled_other hg first nb)
      rw [State.budgetWaits_other _ _ nb nd, gone] at run
      exact (exec_budget key s).trans (congrArg Host.Outcome.next run)
    · have settled := State.waitSettled_barrier (w := ⟨key, x.id⟩) hg first wait
      rw [State.barClose, idle] at settled
      have run := State.budget_due hg (owed.trans (if_pos reached)) settled
      rw [ended _ (State.setGroup_get ..) (.inl ⟨b, p, c, wait⟩), gone] at run
      exact (exec_budget key s).trans (congrArg Host.Outcome.next run)
    · have run := State.budget_due (cy := s.cyc) hg (owed.trans (if_pos reached)) (State.waitSettled_other hg first fun b p c => by simp [wait])
      rw [ended _ (State.setGroup_get ..) (.inr ⟨a, p, c, wait⟩), gone] at run
      exact (exec_budget key s).trans (congrArg Host.Outcome.next run)
end

section
/-! SUPPORT. What one turn of the machine gives: an issue by what its fetch decodes to, a machine step by its place in the cycle. -/
namespace Sys2Proof.Machine

@[simp] theorem State.tick_zero (s : State) : s.tick 0 = s := rfl

/-- In a cycle in which no trap was delivered none can be crossed (R405). -/
theorem uncrossed_of_no_traps {s : State} (noTraps : s.cyc.traps = []) (o : Out) : uncrossed s o = o := by
  cases o <;> simp [uncrossed, State.trapsCross, noTraps]

/-- The agenda's first turn is the one taken. -/
theorem step_of_agenda {s : State} {t : Turn} {rest : List Turn} (first : s.agenda = t :: rest) :
    step s = runTurn { s with agenda := rest } t := by
  simp [step, State.turn, first]

theorem step_issue {s : State} {w : Who} {rest : List Turn} (first : s.agenda = .issue 0 w :: rest) (noTraps : s.cyc.traps = []) :
    step s = issueTurn { s with agenda := rest } w := by
  rw [step_of_agenda first, runTurn, State.tick_zero, uncrossed_of_no_traps (by exact noTraps)]

theorem step_event {s : State} {i : Instr} {rest : List Turn} (first : s.agenda = .event 0 i :: rest) (event : isEvent i = true)
    (noTraps : s.cyc.traps = []) : step s = eventTurn { s with agenda := rest } i := by
  rw [step_of_agenda first, runTurn, if_pos event, State.tick_zero, uncrossed_of_no_traps (by exact noTraps)]

/-! What a fetched block decodes to at the program counter (R42, R65). -/
section
variable {s t : State} {i : Iss} {us : List Word} (fetched : s.fetch i (blockOf i.sp.pc) = (t, .ok us))
include fetched

theorem State.reach_ok {ins : Instr} {n : Nat} (h : decodeBlock (t.decCx i.g) i.sp.jumped us (i.sp.pc.toNat % 8) = .ok ins n) :
    s.reach i = (t, .ok ins n) := by simp [State.reach, fetched, h]

theorem State.reach_pad (h : decodeBlock (t.decCx i.g) i.sp.jumped us (i.sp.pc.toNat % 8) = .pad) : s.reach i = (t, .pad) := by
  simp [State.reach, fetched, h]

theorem State.reach_bad {b : Bad} (h : decodeBlock (t.decCx i.g) i.sp.jumped us (i.sp.pc.toNat % 8) = .bad b) :
    s.reach i = (t, .bad (decodeAddr i.sp.pc b)) := by simp [State.reach, fetched, h]

end

/-- A split passes over nothing while it executes an instruction again, or once the shadow's are behind it (R89). -/
theorem Split.passes_eq_false {x : Split} : x.passes = false ↔ x.rerun ≠ none ∨ x.skip = 0 := by
  simp only [Split.passes, Bool.and_eq_false_iff, bne_eq_false_iff_eq]
  cases x.rerun <;> simp

/-- An instruction that nothing holds up has issued: it is counted, and its place is noted (R436, R472). -/
theorem issuedAs_issued {t : State} {w : Who} (h : t.heldUp w = false) (s : State) (key : List Nat) (forced : Bool) :
    issuedAs s w key forced (.next t) =
      .next { t.countIssue w.key forced with cyc := { (t.countIssue w.key forced).cyc with last := key } } := by simp [issuedAs, h]

/-- Of one that is held up nothing happens (R35). -/
theorem issuedAs_heldUp {t : State} {w : Who} (h : t.heldUp w = true) (s : State) (key : List Nat) (forced : Bool) :
    issuedAs s w key forced (.next t) = .next s := by simp [issuedAs, h]

/-! A ready split's turn, by what it reaches. -/
section
variable {s t : State} {w : Who} {i : Iss} (stands : ({ s with cur := some w } : State).iss? = some i)
  (ready : ({ s with cur := some w } : State).splitReady i.g i.sp = true) (free : ({ s with cur := some w } : State).fetchHeld i = false)
include stands ready free

/-- A pad run takes no issue cycle (R41). -/
theorem issueTurn_pad (reached : ({ s with cur := some w } : State).reach i = (t, .pad)) : issueTurn s w = exec .pad t := by
  simp [issueTurn, stands, ready, free, reached]

/-- A decode or fetch fault is raised in an issue cycle of the scheduler, behind whatever is pending (R65). -/
theorem issueTurn_bad {b : Bad} (reached : ({ s with cur := some w } : State).reach i = (t, .bad b)) (idle : t.served w.key = false)
    (inPlace : lexLt [0, i.core, schedOf w.key] t.cyc.last = false) (nonePending : i.sp.pend = none) :
    issueTurn s w = .next (({ t with issued := t.issued ++ [(w, [false])], cyc := { t.cyc with last := [0, i.core, schedOf w.key] } } : State).raiseAll
      (t.again i) b) := by
  simp [issueTurn, stands, ready, free, reached, idle, inPlace, nonePending]

section
variable {ins : Instr} {n : Nat} (reached : ({ s with cur := some w } : State).reach i = (t, .ok ins n)) (same : t.again i = i)
  (stays : i.sp.passes = false)
include reached same stays

/-- REGANG and REFILL that have arrived go on at the place of their group, without a second issue (R23, R376). -/
theorem issueTurn_arrived (arrived : i.sp.arrived = true) (inPlace : lexLt (gatherKey i) t.cyc.last = false) :
    issueTurn s w = atPlace (gatherKey i) (exec ins t) := by
  simp [issueTurn, stands, ready, free, reached, same, stays, arrived, inPlace]

/-- An instruction that may issue runs, its scheduler held for its issue cycles and STARVE back at 0 (R11, R383, R384). -/
theorem issueTurn_issues (leaving : i.sp.arrived = false) (idle : t.served w.key = false) (inPlace : lexLt (issueKey i ins) t.cyc.last = false)
    (may : t.lets i ins = true) (allowed : setAllows t i ins = true ∨ 512 ≤ i.sp.starve.toNat) :
    issueTurn s w = issuedAs t w (issueKey i ins) (512 ≤ i.sp.starve.toNat)
      (exec ins (({ t with issued := t.issued ++ [(w, issueCycles i.sp ins)] } : State).modSplit w fun x => { x with starve := 0 })) := by
  have heldBySet : (!setAllows t i ins && decide (i.sp.starve.toNat < 512)) = false := by
    rcases allowed with set | starved
    · simp [set]
    · simp [Nat.not_lt.mpr starved]
  simp [issueTurn, stands, ready, free, reached, same, stays, leaving, idle, inPlace, may, heldBySet]

end
end

/-- A machine step has a place in its cycle where it comes late or enqueues a task (R25, R353, R430). -/
theorem State.placed_iff {s : State} {i : Instr} {o : Out} :
    s.placed i o = true ↔ lateStep i = true ∨ ∃ t, o = .next t ∧ t.taskNum ≠ s.taskNum := by
  cases o <;> simp [State.placed]

/-- A machine step without a place is its meaning. -/
theorem eventTurn_unplaced {s : State} {i : Instr} (noneClosed : s.cyc.closed = []) (unplaced : s.placed i (exec i s) = false) :
    eventTurn s i = exec i s := by
  simp [eventTurn, noneClosed, unplaced]

/-- One with a place notes it, and waits for the next cycle where that place is past (R472). -/
theorem eventTurn_placed {s : State} {i : Instr} (noneClosed : s.cyc.closed = []) (placed : s.placed i (exec i s) = true) :
    eventTurn s i = atPlace (eventKey i) (if lexLt (eventKey i) s.cyc.last = true then exec i (s.tick 1) else exec i s) := by
  simp [eventTurn, noneClosed, placed]

end Sys2Proof.Machine
end

section
/-! A step runs what it decodes, or the machine step of the agenda (R41, R42, R63, R64, R472). -/
open Sys2Proof Sys2Proof.Machine

/-- Settles O29: it holds. The agenda's first turn is the one taken (`step_issue`, `step_event`), and with no trap delivered in the cycle nothing
is put off. A ready split's turn goes by what its fetched block decodes to (`State.reach_ok`, `issueTurn_issues`, `issueTurn_arrived`,
`issueTurn_pad`, `issueTurn_bad`), a machine step's by whether it has a place in the cycle (`eventTurn_unplaced`, `eventTurn_placed`). -/
theorem stepRunsDecoded : Obligations.StepRunsDecoded := by
  unfold Obligations.StepRunsDecoded
  refine ⟨?_, ?_⟩
  -- A split's turn.
  · intro s s1 rest w i us first noTraps s0 stands ready free fetched
    rw [step_issue first noTraps]
    refine ⟨?_, ?_, ?_, ?_⟩
    · intro ins n decoded stays same leaving idle inPlace may allowed t run
      have turn := issueTurn_issues (s := { s with agenda := rest }) stands ready free (State.reach_ok fetched decoded) same
        (Split.passes_eq_false.mpr stays) leaving idle inPlace may allowed
      rw [run] at turn
      exact ⟨fun issued => turn.trans (issuedAs_issued issued _ _ _), fun held => turn.trans (issuedAs_heldUp held _ _ _)⟩
    · intro ins n t decoded stays same arrived inPlace run
      have turn := issueTurn_arrived (s := { s with agenda := rest }) stands ready free (State.reach_ok fetched decoded) same
        (Split.passes_eq_false.mpr stays) arrived inPlace
      rwa [run] at turn
    · exact fun decoded => issueTurn_pad stands ready free (State.reach_pad fetched decoded)
    · exact fun b decoded => issueTurn_bad (s := { s with agenda := rest }) stands ready free (State.reach_bad fetched decoded)
  -- A machine step.
  · intro s rest ins first event noTraps noneClosed s0
    rw [step_event first event noTraps]
    refine ⟨fun early noTask => eventTurn_unplaced noneClosed ?_, fun t run place => ?_⟩
    · rw [← Bool.not_eq_true, State.placed_iff, early]
      rintro (late | ⟨t, run, task⟩)
      · cases late
      · exact task (noTask t run)
    have placed := State.placed_iff.mpr (place.imp_right fun task => ⟨t, run, task⟩)
    have turn := eventTurn_placed (s := { s with agenda := rest }) noneClosed placed
    refine ⟨fun inPlace => ?_, fun past u next => ?_⟩
    · rwa [if_neg (by simpa using inPlace), run] at turn
    · rwa [if_pos past, next] at turn
end
